-- ==== Sys2Proof/Word.lean ====
section
/-! DEFINITION. The word types of the VDN-612: the byte of a serial line, the two-byte field of a record and the 32-bit Timebase count. -/

namespace Sys2Proof

/-- One byte of a serial line or one byte field of a record. -/
abbrev Byte := BitVec 8

/-- A two-byte field of a record, little-endian on the line (R197). -/
abbrev Half := BitVec 16

/-- A Timebase count: milliseconds since start-up, modulo 2^32 (00_scope.md, "Counts of time"). -/
abbrev Count := BitVec 32

end Sys2Proof
end

