-- ==== Sys2Proof/Syntax.lean ====
section
/-! DEFINITION. The commands of the VDN-612, one constructor per row of spec/opcode_table.json (log 1).

A request row carries the port it comes from, its tag and its fields as they stand in the payload (Record Formats); a list field is a list of bytes.
An event row carries what it happens to (a port, a position, an antenna) and the value that comes from outside, if there is one. -/

namespace Sys2Proof

/-- An operating position. P1 is 0, P6 is 5. -/
abbrev Pos := Fin 6

/-- An antenna and its port. A1 is 0, A12 is 11. -/
abbrev Ant := Fin 12

/-- A serial message port: 0 is the supervisor port S, n is the console port Cn (R174). -/
abbrev Port := Fin 7

/-- The commands: 23 requests and 22 events. -/
inductive Instr where
  -- requests
  | ping (port : Port) (tag : Byte)
  | query (port : Port) (tag subject index peakReset : Byte)
  | claim (port : Port) (tag position antenna nowait : Byte)
  | release (port : Port) (tag position what : Byte)
  | force (port : Port) (tag antenna position : Byte)
  | setClaims (port : Port) (tag : Byte) (lifetime : Half)
  | follow (port : Port) (tag position action : Byte)
  | setPref (port : Port) (tag position band count : Byte) (entries : List Byte)
  | listen (port : Port) (tag position antenna : Byte)
  | setBand (port : Port) (tag position band : Byte)
  | setBanding (port : Port) (tag position source lineMask guardMask : Byte)
  | setBandmap (port : Port) (tag : Byte) (bands : List Byte) (debounce : Byte)
  | setAntenna (port : Port) (tag antenna bandMask : Byte) (maxPower : Half) (swrLimit : Byte) (kf : Half) (c zf zr settle service : Byte)
  | clear (port : Port) (tag antenna : Byte)
  | setSensing (port : Port) (tag threshold : Byte) (floor : Half) (tail : Byte)
  | setSequencing (port : Port) (tag : Byte) (drainLimit : Half) (filterSettle : Byte)
  | hold (port : Port) (tag value : Byte)
  | setKeying (port : Port) (tag position precedence : Byte) (hang maxKey : Half)
  | setRules (port : Port) (tag : Byte) (limits : List Byte) (total order preempt tapGuard : Byte)
  | setExclusion (port : Port) (tag operation first second : Byte)
  | setAux (port : Port) (tag line kind index signal invert flash : Byte)
  | save (port : Port) (tag : Byte)
  | restart (port : Port) (tag : Byte)
  -- events of the links
  | byteReceived (port : Port) (byte : Byte)
  | framingError (port : Port)
  | byteGapExpiry (port : Port)
  | transmitComplete (port : Port)
  -- events of the positions and of the antenna ports
  | bandLinesChange (p : Pos) (lines : BitVec 4)
  | settle (p : Pos)
  | pttEdge (p : Pos)
  | couplerSample (a : Ant) (vf vr : Nat)
  | breakEnd (p : Pos)
  | makeEnd (p : Pos)
  | rfHot (p : Pos)
  | tapGuardExpiry (p : Pos)
  | hangExpiry (p : Pos)
  | maxKeyExpiry (p : Pos)
  | claimExpired (p : Pos)
  | flashEdge
  -- events of the store, the supply and the RESET line
  | saveWriteEnd (verified : Bool)
  | powerOn
  | resetLow
  | resetRelease
  | pttInputChange (p : Pos) (asserted : Bool)
  | powerLost
  deriving DecidableEq, Repr

end Sys2Proof
end

