-- ==== Sys2Proof/Decode.lean ====
section
/-! DEFINITION. The host's reading of a word as a command.
No row of spec/opcode_table.json gives bits (its "fields" are empty and no row has "fixed"), so no word spells a command (log 5).
The frames of the serial ports are not words of the table: they are read byte by byte by BYTE_RECEIVED (Machine/Frames.lean). -/

namespace Sys2Proof

/-- The command that a word of `nbits` bits spells by the table's bits: none, since the table gives no row any bits. -/
def decodeTableWord (_nbits _w : Nat) : Option Instr := none

end Sys2Proof
end

