-- ==== Sys2Proof/Config.lean ====
section
/-! DEFINITION. What is fixed in the part: its identity, the sizes of its queues and the times no request sets. The spec leaves no value of this machine free, so there is no uninterpreted constant here. -/

namespace Sys2Proof.Config

/-- The part code that PING and START carry (R182, R195). -/
def partCode : Nat := 612

/-- The revision of the parts the manual describes (R182). -/
def revision : Nat := 1

/-- The records an outgoing queue holds (R185). -/
def queuePlaces : Nat := 16

/-- The byte-gap time, in ms (R177). -/
def byteGap : Nat := 10

/-- The PTT filter time, in ms (R122). -/
def pttFilter : Nat := 2

/-- The greatest conversion of a coupler input (R34). -/
def fullScale : Nat := 1023

/-- The first byte of every frame (Message Links, "Receiving a frame"). -/
def startByte : Byte := 0xD2#8

/-- The most pairs the exclusion set holds (R148). -/
def exclusionPlaces : Nat := 16

/-- A span of the Timebase that counts as "at or after": half of the 32-bit range. -/
def halfRange : Nat := 2147483648

end Sys2Proof.Config
end

