-- ==== Sys2Proof/Machine/State.lean ====
section
/-! DEFINITION. The state of the VDN-612 as plain data, block by block, and the state right after a start-up.
Every enumeration stands with the names of the manual; the codes of Record Formats are in Machine/Records.lean. -/

namespace Sys2Proof.Machine

/-! ### Names -/

/-- The six bands (00_scope.md, "Bands"). NONE is the absence of a band: `Option Band`. -/
inductive Band where
  | b160 | b80 | b40 | b20 | b15 | b10
  deriving DecidableEq, Repr

/-- Where a position takes its band from (R7). -/
inductive Source where
  | lines | message
  deriving DecidableEq, Repr

/-- The service state of an antenna (R18). -/
inductive Service where
  | inService | tripped | outOfService
  deriving DecidableEq, Repr

/-- The configured service of an antenna (R17). -/
inductive Configured where
  | inService | outOfService
  deriving DecidableEq, Repr

/-- The cause of a trip (R23). -/
inductive TripCause where
  | swr | overpower | hotSwitch
  deriving DecidableEq, Repr

/-- The origin of a claim (R57). -/
inductive Origin where
  | console | supervisor | follow
  deriving DecidableEq, Repr

/-- The key states of a position (R121). -/
inductive KeyState where
  | off | pending | queued | opening | on | hang | blocked
  deriving DecidableEq, Repr

/-- The reasons of KEY DENIED and KEY CUT (R123, R138, Record Formats). -/
inductive KeyReason where
  | tripped | bandMismatch | parked | bandClosed | noBand | noRoute
  | routeChange | bandMoved | stuck | hold | preempted
  deriving DecidableEq, Repr

/-- The order setting of the walk (R129). -/
inductive GrantOrder where
  | arrival | rotate
  deriving DecidableEq, Repr

/-- The route status of a position (R100). -/
inductive RouteStatus where
  | none | active | changing
  deriving DecidableEq, Repr

/-- The sequencer state as it is shown: the phase without what the phase holds (R100, Record Formats). -/
inductive Phase where
  | idle | drain | brk | holdoff | make
  deriving DecidableEq, Repr

/-- The results of an answer (00_scope.md, "Result codes"). -/
inductive Result where
  | done | already | waiting | clamped
  | notPermitted | badValue | badFormat | unknown | outOfService | tripped | bandMismatch | busy | parked
  | tapsFull | ownAntenna | wrongSource | rfPresent | storeBusy | exclusionsFull | storeFault
  deriving DecidableEq, Repr

/-- The requests, by their record types (Record Formats, "Type codes"). -/
inductive Request where
  | ping | query | claim | release | force | setClaims | follow | setPref | listen | setBand | setBanding | setBandmap
  | setAntenna | clear | setSensing | setSequencing | hold | setKeying | setRules | setExclusion | setAux | save | restart
  deriving DecidableEq, Repr

/-- The cause of a start-up (R193). -/
inductive StartCause where
  | power | line | request
  deriving DecidableEq, Repr

/-- The store status of a start-up (R195). -/
inductive StoreStatus where
  | loaded | defaults
  deriving DecidableEq, Repr

/-! ### Settings (R190) -/

/-- The nine configuration fields of an antenna (R17). Bit n of the band mask is band n, 1 to 6 (R197). -/
structure AntennaConfig where
  bandMask : BitVec 8
  maxPower : Nat
  swrLimit : Nat
  kf : Nat
  c : Nat
  zf : Nat
  zr : Nat
  settle : Nat
  configured : Configured
  deriving DecidableEq, Repr

/-- The settings of one position: Band Decoder, Follow Selector and Transmit Arbiter (R190). Bit 0 of a line mask is line A. -/
structure PositionConfig where
  source : Source
  lineMask : BitVec 4
  guardMask : BitVec 4
  follow : Bool
  prefs : Vector (List Ant) 6
  precedence : Fin 4
  hang : Nat
  maxKey : Nat
  deriving DecidableEq, Repr

/-- The POSITION signals of an aux line (R167). -/
inductive PositionSignal where
  | txen | waiting | routeActive | blocked | followOn
  deriving DecidableEq, Repr

/-- The ANTENNA signals of an aux line (R168). -/
inductive AntennaSignal where
  | owned | tripped | rfPresent | claimed | listened
  deriving DecidableEq, Repr

/-- The STATION signals of an aux line (R169). -/
inductive StationSignal where
  | anyTx | noneGranted | anyTripped | hold | anyWaiting | anyChanging
  deriving DecidableEq, Repr

/-- Source kind, index and signal of an aux line, together (R166). -/
inductive AuxSource where
  | fixed (value : Bool)
  | position (p : Pos) (signal : PositionSignal)
  | antenna (a : Ant) (signal : AntennaSignal)
  | station (signal : StationSignal)
  deriving DecidableEq, Repr

/-- The configuration of one aux line (R165). -/
structure AuxConfig where
  source : AuxSource
  invert : Bool
  flash : Bool
  deriving DecidableEq, Repr

/-- Every setting of R190: the live values, the snapshot of a SAVE and the content of the image. -/
structure Settings where
  bandMap : Vector (Option Band) 16
  debounce : Nat
  antennas : Vector AntennaConfig 12
  presenceThreshold : Nat
  swrFloor : Nat
  unkeyedTail : Nat
  claimLifetime : Nat
  positions : Vector PositionConfig 6
  drainLimit : Nat
  filterSettle : Nat
  bandLimits : Vector Nat 6
  stationTotal : Nat
  order : GrantOrder
  preempt : Bool
  tapGuard : Nat
  exclusions : List (Ant × Ant)
  aux : Vector AuxConfig 8
  deriving DecidableEq, Repr

/-! ### Records of the blocks -/

/-- A timer: stopped, or running to an expiry count (00_scope.md, "Counts of time"). -/
abbrev Timer := Option Count

/-- What one Band Decoder keeps (R1, R12, R15). -/
structure Decoder where
  band : Option Band
  raw : Option (BitVec 4)
  stable : Option (BitVec 4)
  debounce : Timer
  reference : Option (BitVec 4)
  deriving DecidableEq, Repr

/-- The trip record (R23). -/
structure TripRecord where
  cause : TripCause
  pf : Nat
  swr : Nat
  owner : Option Pos
  time : Count
  deriving DecidableEq, Repr

/-- The runtime part of an antenna record (R18 to R23). -/
structure AntennaRecord where
  service : Service
  owner : Option Pos
  connected : Option Pos
  pf : Nat
  pr : Nat
  swr : Nat
  peak : Nat
  presence : Bool
  trip : Option TripRecord
  deriving DecidableEq, Repr

/-- What the RF Sensor keeps for a port beside the readings (R34, R40, R42, R43, R49, R50). `sampled` is the model's own mark (log 9). -/
structure SensorRecord where
  vfRaw : Nat
  vrRaw : Nat
  below : Nat
  swrCount : Nat
  powerCount : Nat
  unkeyed : Bool
  stray : Bool
  sampled : Bool
  deriving DecidableEq, Repr

/-- A claim (R57). -/
structure Claim where
  position : Pos
  origin : Origin
  expiry : Option Count
  deriving DecidableEq, Repr

/-- A path: a filter (`none` is THRU) and an antenna or none (R100). -/
structure RfPath where
  filter : Option Band
  antenna : Option Ant
  deriving DecidableEq, Repr

/-- The sequencer state with what the state alone holds: BREAK its broken antenna (R105), MAKE the next path (R113). -/
inductive SeqState where
  | idle
  | drain
  | brk (broken : Option Ant)
  | holdoff
  | make (next : Option RfPath)
  deriving DecidableEq, Repr

/-- What one Path Sequencer keeps. -/
structure Sequencer where
  current : RfPath
  target : RfPath
  state : SeqState
  phase : Timer
  setFilter : Option Band
  deriving DecidableEq, Repr

/-- What the arbiter records at a grant (R127). -/
structure Grant where
  band : Band
  antenna : Ant
  sequence : Count
  deriving DecidableEq, Repr

/-- What the Transmit Arbiter keeps for a position (R121, R122, R127, R133, R135, R136). -/
structure KeyRecord where
  state : KeyState
  level : Bool
  filter : Timer
  grant : Option Grant
  reported : Bool
  tapGuard : Timer
  hang : Timer
  maxKey : Timer
  deriving DecidableEq, Repr

/-- What the Tap Controller keeps for an antenna (R153, R154). -/
structure TapRecord where
  slot1 : Option Pos
  slot2 : Option Pos
  closed1 : Bool
  closed2 : Bool
  keyed : Bool
  deriving DecidableEq, Repr

/-! ### Records of the links -/

/-- The cause of a BAND report (R6). -/
inductive BandCause where
  | lines | message | map
  deriving DecidableEq, Repr

/-- The reason of a ROUTE report (R97, R117). -/
inductive RouteReason where
  | settled | noAntenna
  deriving DecidableEq, Repr

/-- The manner of a CLAIM GRANTED report (R60, R63, R70). -/
inductive Manner where
  | immediate | queue | force
  deriving DecidableEq, Repr

/-- The cause of a CLAIM WITHDRAWN report (R80). -/
inductive WithdrawCause where
  | release | followOff
  deriving DecidableEq, Repr

/-- The reason of a CLAIM DROPPED or CLAIM REMOVED report (R75, R70, R78). -/
inductive ClaimReason where
  | band | tripped | outOfService | parked | forced
  deriving DecidableEq, Repr

/-- The sub-kind of a CLAIM report with the fields of that sub-kind (R80). -/
inductive ClaimEvent where
  | queued (owner : Option Pos) (place : Nat)
  | granted (manner : Manner) (previous : Option Ant)
  | superseded (by_ : Ant)
  | withdrawn (cause : WithdrawCause)
  | expired
  | dropped (reason : ClaimReason)
  | released
  | removed (reason : ClaimReason)
  deriving DecidableEq, Repr

/-- The action of a TAP report (R163). -/
inductive TapAction where
  | taken | freed
  deriving DecidableEq, Repr

/-- The cause of a TAP report (R163). -/
inductive TapCause where
  | listen | owner | outOfService
  deriving DecidableEq, Repr

/-- The cause of an ANTENNA SERVICE report (R31). -/
inductive ServiceCause where
  | set | clear
  deriving DecidableEq, Repr

/-- What an RF HOT report says the sequencer waits on (R114). -/
inductive WaitingOn where
  | rf | connected | both
  deriving DecidableEq, Repr

/-- The reports, by kind and sub-kind, with their fields but for the time. A tap slot is `false` for slot 1, `true` for slot 2. -/
inductive ReportBody where
  | band (p : Pos) (previous new : Option Band) (code : Option (BitVec 4)) (cause : BandCause)
  | route (p : Pos) (band filter : Option Band) (antenna : Option Ant) (status : RouteStatus) (reason : RouteReason)
  | keyQueued (p : Pos) (band : Option Band) (antenna : Option Ant) (place : Nat)
  | keyGranted (p : Pos) (band : Band) (antenna : Ant) (entered : KeyState)
  | keyDenied (p : Pos) (reason : KeyReason) (band : Option Band) (antenna : Option Ant)
  | keyCut (p : Pos) (reason : KeyReason) (grant : Option Grant) (preempting : Option Pos)
  | claim (event : ClaimEvent) (a : Ant) (p : Pos) (origin : Option Origin)
  | tap (a : Ant) (second : Bool) (p : Pos) (action : TapAction) (cause : TapCause)
  | trip (a : Ant) (record : TripRecord)
  | service (a : Ant) (previous new : Service) (cause : ServiceCause)
  | rfUnkeyed (a : Ant) (p : Pos) (pf pr quiet : Nat)
  | rfStray (a : Ant) (owner : Option Pos) (pf pr : Nat)
  | rfHot (a : Option Ant) (p : Pos) (phase : Phase) (on : WaitingOn) (connected : Option Pos) (pf pr : Nat)
  | start (cause : StartCause) (status : StoreStatus)
  deriving DecidableEq, Repr

/-- A report: its body and the Timebase count of the event that produced it. -/
structure Report where
  body : ReportBody
  time : Count
  deriving DecidableEq, Repr

/-- The data of QUERY POSITION (R183). -/
structure PositionView where
  code : Option (BitVec 4)
  band : Option Band
  source : Source
  routeAntenna : Option Ant
  routeStatus : RouteStatus
  phase : Phase
  key : KeyState
  follow : Bool
  waitingClaim : Option Ant
  listen : Option Ant
  precedence : Fin 4
  deriving DecidableEq, Repr

/-- The data of QUERY ANTENNA (R32). -/
structure AntennaView where
  config : AntennaConfig
  record : AntennaRecord
  queue : List (Pos × Origin)
  listeners : List Pos
  deriving DecidableEq, Repr

/-- The data of QUERY STATION (R152). -/
structure StationView where
  hold : Bool
  limits : List Nat
  total : Nat
  order : GrantOrder
  preempt : Bool
  granted : List Nat
  waiting : List Pos
  pointer : Pos
  time : Count
  deriving DecidableEq, Repr

/-- The data an answer carries after its result (R181). -/
inductive AnswerData where
  | nothing
  | ping (time : Count)
  | position (view : PositionView)
  | antenna (view : AntennaView)
  | station (view : StationView)
  deriving DecidableEq, Repr

/-- An answer: the TYPE byte it carries (high bit set, R198), the request's tag, the result and the data. -/
structure Answer where
  type : Byte
  tag : Byte
  result : Result
  data : AnswerData
  deriving DecidableEq, Repr

/-- A record of an outgoing queue (R185). -/
inductive Record where
  | answer (a : Answer)
  | report (r : Report)
  deriving DecidableEq, Repr

/-- What a transmitter is sending: the record, and for a report the LOST indication it was begun with (R187). -/
structure Transmission where
  record : Record
  lost : Bool
  deriving DecidableEq, Repr

/-- The framer states (R175). -/
inductive Framer where
  | hunt | length | body
  deriving DecidableEq, Repr

/-- What one Link Controller keeps (Message Links). -/
structure Link where
  framer : Framer
  partialFrame : List Byte
  gap : Timer
  queue : List Record
  transmitter : Option Transmission
  reserved : Bool
  lost : Bool
  deriving DecidableEq, Repr

/-! ### The store -/

/-- A SAVE in progress: the port and the tag of its answer, and the snapshot being written (R191). -/
structure SaveJob where
  port : Port
  tag : Byte
  snapshot : Settings
  deriving DecidableEq, Repr

/-- The Settings Store: the image (`none` while its check value does not agree, R190, log 7), the save in progress and a pending RESTART. -/
structure Store where
  image : Option Settings
  saving : Option SaveJob
  restartPending : Bool
  deriving DecidableEq, Repr

/-! ### The whole -/

/-- The state of the part, its pins and the queue of waiting commands. -/
structure State where
  -- supply, RESET and Timebase
  powered : Bool
  resetIsLow : Bool
  timebase : Count
  -- settings
  settings : Settings
  -- Band Decoders
  decoders : Vector Decoder 6
  -- Antenna Table
  antennas : Vector AntennaRecord 12
  -- RF Sensor
  sensors : Vector SensorRecord 12
  quietSince : Vector (Option Count) 6
  -- Route Controller
  claimQueues : Vector (List Claim) 12
  claimPointers : Vector (Option Ant) 6
  -- Path Sequencers
  sequencers : Vector Sequencer 6
  -- Transmit Arbiter
  keys : Vector KeyRecord 6
  waiting : List Pos
  pointer : Pos
  holdOn : Bool
  grantCount : Count
  -- Tap Controller
  taps : Vector TapRecord 12
  listens : Vector (Option Ant) 6
  -- Aux Output Unit
  auxLines : Vector Bool 8
  -- Link Controllers
  links : Vector Link 7
  -- Settings Store
  store : Store
  -- pins: band lines, PTT inputs, coupler inputs, TXEN outputs
  lineInputs : Vector (BitVec 4) 6
  pttInputs : Vector Bool 6
  couplers : Vector (Nat × Nat) 12
  txenOutputs : Vector Bool 6
  -- the commands that wait, first in, first out
  pending : List Instr
  deriving DecidableEq, Repr

/-- The ways the part stops with a fault: none. "The part keeps running through every fault it knows of" (00_scope.md). -/
inductive Fault where
  deriving DecidableEq, Repr

/-- The ways a command has no meaning. -/
inductive Refusal where
  /-- Raised by `exec` for a command that has no meaning yet: by no arm now. Safe: the model stops where the part goes on. -/
  | notModelled (mnemonic : String)
  deriving DecidableEq, Repr

/-! ### Defaults and start values -/

/-- The default configuration of an antenna (R17). -/
def AntennaConfig.default : AntennaConfig :=
  { bandMask := 0x7E#8, maxPower := 1500, swrLimit := 30, kf := 12000, c := 128, zf := 0, zr := 0, settle := 20,
    configured := .inService }

/-- The default settings of a position (R15, R84, R85, and the settings table of Transmit Arbitration). -/
def PositionConfig.default : PositionConfig :=
  { source := .lines, lineMask := 0xF#4, guardMask := 0xF#4, follow := false, prefs := Vector.replicate 6 [],
    precedence := 2, hang := 100, maxKey := 180 }

/-- The default configuration of an aux line (R173). -/
def AuxConfig.default : AuxConfig := { source := .fixed false, invert := false, flash := false }

/-- The default Band Map (R4). -/
def defaultBandMap : Vector (Option Band) 16 :=
  #v[none, some .b160, some .b80, some .b40, none, some .b20, none, some .b15,
     none, some .b10, none, none, none, none, none, none]

/-- Every setting at its default (R195 step 2). -/
def Settings.default : Settings :=
  { bandMap := defaultBandMap, debounce := 30, antennas := Vector.replicate 12 .default,
    presenceThreshold := 2, swrFloor := 20, unkeyedTail := 40, claimLifetime := 300,
    positions := Vector.replicate 6 .default, drainLimit := 400, filterSettle := 15,
    bandLimits := Vector.replicate 6 1, stationTotal := 6, order := .arrival, preempt := false, tapGuard := 5,
    exclusions := [], aux := Vector.replicate 8 .default }

/-- A Band Decoder after start-up (R15). -/
def Decoder.start : Decoder := { band := none, raw := none, stable := none, debounce := none, reference := none }

/-- The service state that a configured service gives (R18). -/
def Configured.service : Configured → Service
  | .inService => .inService
  | .outOfService => .outOfService

/-- An antenna record after start-up: its service is the configured one (R33). -/
def AntennaRecord.start (configured : Configured) : AntennaRecord :=
  { service := configured.service, owner := none, connected := none, pf := 0, pr := 0, swr := 0, peak := 0,
    presence := false, trip := none }

/-- The sensor's own state of a port after start-up (R53). The raw pair and the sampled mark are the model's (log 8, log 9). -/
def SensorRecord.start : SensorRecord :=
  { vfRaw := 0, vrRaw := 0, below := 0, swrCount := 0, powerCount := 0, unkeyed := false, stray := false, sampled := true }

/-- The path (THRU, none) (R119). -/
def RfPath.start : RfPath := { filter := none, antenna := none }

/-- A Path Sequencer after start-up (R119). -/
def Sequencer.start : Sequencer :=
  { current := .start, target := .start, state := .idle, phase := none, setFilter := none }

/-- The arbiter's record of a position after start-up: BLOCKED where PTT reads asserted, OFF otherwise (R151). -/
def KeyRecord.start (ptt : Bool) : KeyRecord :=
  { state := if ptt then .blocked else .off, level := ptt, filter := none, grant := none, reported := false,
    tapGuard := none, hang := none, maxKey := none }

/-- The taps of an antenna after start-up (R164). -/
def TapRecord.start : TapRecord := { slot1 := none, slot2 := none, closed1 := false, closed2 := false, keyed := false }

/-- A link after start-up: the START report is the first record queued, and the idle transmitter has begun it (R189, R195, R185, log 12). -/
def Link.start (cause : StartCause) (status : StoreStatus) : Link :=
  { framer := .hunt, partialFrame := [], gap := none, queue := [],
    transmitter := some { record := .report { body := .start cause status, time := 0#32 }, lost := false },
    reserved := false, lost := false }

/-- The part right after a start-up with cause POWER, never saved, with quiet input pins (log 5, log 6, log 8). -/
def State.reset : State :=
  { powered := true, resetIsLow := false, timebase := 0#32,
    settings := .default,
    decoders := Vector.replicate 6 .start,
    antennas := Vector.replicate 12 (.start .inService),
    sensors := Vector.replicate 12 .start,
    quietSince := Vector.replicate 6 none,
    claimQueues := Vector.replicate 12 [],
    claimPointers := Vector.replicate 6 none,
    sequencers := Vector.replicate 6 .start,
    keys := Vector.replicate 6 (.start false),
    waiting := [], pointer := 5, holdOn := false, grantCount := 0#32,
    taps := Vector.replicate 12 .start,
    listens := Vector.replicate 6 none,
    auxLines := Vector.replicate 8 false,
    links := Vector.replicate 7 (.start .power .defaults),
    store := { image := none, saving := none, restartPending := false },
    lineInputs := Vector.replicate 6 0#4,
    pttInputs := Vector.replicate 6 false,
    couplers := Vector.replicate 12 (0, 0),
    txenOutputs := Vector.replicate 6 false,
    pending := [] }

end Sys2Proof.Machine
end

