-- ==== Sys2Proof/Machine/Ops.lean ====
section
/-! DEFINITION. Named operations over the state: reading and updating one position's, antenna's or port's part, and the timers.
Every other file of the machine reads and writes the state through these names. -/

namespace Sys2Proof.Machine

/-! ### Vectors -/

/-- Updates one place of a vector by a function. -/
def upd {α : Type} {n : Nat} (v : Vector α n) (i : Fin n) (f : α → α) : Vector α n := v.set i.val (f v[i.val]) i.isLt

/-- The six positions in number order. -/
def allPos : List Pos := [0, 1, 2, 3, 4, 5]

/-- The twelve antennas in number order. -/
def allAnts : List Ant := [0, 1, 2, 3, 4, 5, 6, 7, 8, 9, 10, 11]

/-- The seven ports, S first. -/
def allPorts : List Port := [0, 1, 2, 3, 4, 5, 6]

/-- The eight aux lines. -/
def allLines : List (Fin 8) := [0, 1, 2, 3, 4, 5, 6, 7]

/-- The supervisor port. -/
def supervisorPort : Port := 0

/-- The console port bound to a position (R174). -/
def consolePort (p : Pos) : Port := p.succ

/-! ### Bands and masks -/

/-- The band index less one, for tables of the six bands. -/
def Band.slot : Band → Fin 6
  | .b160 => 0 | .b80 => 1 | .b40 => 2 | .b20 => 3 | .b15 => 4 | .b10 => 5

/-- The band index 1 to 6 (00_scope.md, "Bands"). -/
def Band.index (b : Band) : Nat := b.slot.val + 1

/-- The six bands in index order. -/
def allBands : List Band := [.b160, .b80, .b40, .b20, .b15, .b10]

/-- An antenna serves a band when its mask contains it (R17): bit n for band n (R197). -/
def AntennaConfig.serves (c : AntennaConfig) (b : Band) : Bool := c.bandMask.getLsbD b.index

/-- A claim or an owner fits an antenna: band NONE fits any antenna (R17, R62). -/
def AntennaConfig.fits (c : AntennaConfig) (b : Option Band) : Bool :=
  match b with
  | none => true
  | some b => c.serves b

/-! ### Reading the state -/

/-- The configuration of an antenna. -/
def State.config (s : State) (a : Ant) : AntennaConfig := s.settings.antennas[a.val]
/-- The settings of a position. -/
def State.place (s : State) (p : Pos) : PositionConfig := s.settings.positions[p.val]
/-- The Band Decoder of a position. -/
def State.dec (s : State) (p : Pos) : Decoder := s.decoders[p.val]
/-- The record of an antenna. -/
def State.ant (s : State) (a : Ant) : AntennaRecord := s.antennas[a.val]
/-- The sensor's own state of a port. -/
def State.sensor (s : State) (a : Ant) : SensorRecord := s.sensors[a.val]
/-- The quiet-since stamp of a position (R48). -/
def State.quiet (s : State) (p : Pos) : Option Count := s.quietSince[p.val]
/-- The claim queue of an antenna (R58). -/
def State.claims (s : State) (a : Ant) : List Claim := s.claimQueues[a.val]
/-- The waiting-claim pointer of a position (R56). -/
def State.waitsOn (s : State) (p : Pos) : Option Ant := s.claimPointers[p.val]
/-- The Path Sequencer of a position. -/
def State.seq (s : State) (p : Pos) : Sequencer := s.sequencers[p.val]
/-- The arbiter's record of a position. -/
def State.key (s : State) (p : Pos) : KeyRecord := s.keys[p.val]
/-- The taps of an antenna. -/
def State.tap (s : State) (a : Ant) : TapRecord := s.taps[a.val]
/-- The listen antenna of a position (R153). -/
def State.listen (s : State) (p : Pos) : Option Ant := s.listens[p.val]
/-- The value of an aux line (R165). -/
def State.auxLine (s : State) (i : Fin 8) : Bool := s.auxLines[i.val]
/-- The link of a port. -/
def State.link (s : State) (port : Port) : Link := s.links[port.val]
/-- The band lines of a position as they stand at the pins. -/
def State.lines (s : State) (p : Pos) : BitVec 4 := s.lineInputs[p.val]
/-- The PTT input of a position as it stands at the pin. -/
def State.ptt (s : State) (p : Pos) : Bool := s.pttInputs[p.val]
/-- The coupler inputs of a port as they stand, as conversions before the ceiling of R34. -/
def State.coupler (s : State) (a : Ant) : Nat × Nat := s.couplers[a.val]
/-- The TXEN output of a position (R121). -/
def State.txen (s : State) (p : Pos) : Bool := s.txenOutputs[p.val]

/-- The part runs: it has its supply and RESET is not low (R193). -/
def State.running (s : State) : Bool := s.powered && !s.resetIsLow

/-- The band a position holds. -/
def State.band (s : State) (p : Pos) : Option Band := (s.dec p).band

/-- The entry of the Band Map for a code (R4). -/
def State.mapBand (s : State) (code : BitVec 4) : Option Band := s.settings.bandMap[code.toNat]'(code.isLt)

/-- The band limit of a band (R128). -/
def State.limit (s : State) (b : Band) : Nat := s.settings.bandLimits[b.slot.val]

/-- The preference list of a position for a band (R85). -/
def State.prefs (s : State) (p : Pos) (b : Band) : List Ant := (s.place p).prefs[b.slot.val]

/-! ### Updating the state -/

/-- Updates the settings. -/
def State.onSettings (s : State) (f : Settings → Settings) : State := { s with settings := f s.settings }
/-- Updates the Band Decoder of a position. -/
def State.onDec (s : State) (p : Pos) (f : Decoder → Decoder) : State := { s with decoders := upd s.decoders p f }
/-- Updates the record of an antenna. -/
def State.onAnt (s : State) (a : Ant) (f : AntennaRecord → AntennaRecord) : State := { s with antennas := upd s.antennas a f }
/-- Updates the sensor's own state of a port. -/
def State.onSensor (s : State) (a : Ant) (f : SensorRecord → SensorRecord) : State := { s with sensors := upd s.sensors a f }
/-- Sets the quiet-since stamp of a position. -/
def State.setQuiet (s : State) (p : Pos) (v : Option Count) : State := { s with quietSince := upd s.quietSince p fun _ => v }
/-- Updates the claim queue of an antenna. -/
def State.onClaims (s : State) (a : Ant) (f : List Claim → List Claim) : State := { s with claimQueues := upd s.claimQueues a f }
/-- Sets the waiting-claim pointer of a position. -/
def State.setWaitsOn (s : State) (p : Pos) (v : Option Ant) : State := { s with claimPointers := upd s.claimPointers p fun _ => v }
/-- Updates the Path Sequencer of a position. -/
def State.onSeq (s : State) (p : Pos) (f : Sequencer → Sequencer) : State := { s with sequencers := upd s.sequencers p f }
/-- Updates the arbiter's record of a position. -/
def State.onKey (s : State) (p : Pos) (f : KeyRecord → KeyRecord) : State := { s with keys := upd s.keys p f }
/-- Sets the waiting list. -/
def State.setWaiting (s : State) (l : List Pos) : State := { s with waiting := l }
/-- Sets the rotation pointer. -/
def State.setPointer (s : State) (p : Pos) : State := { s with pointer := p }
/-- Sets HOLD. -/
def State.setHold (s : State) (b : Bool) : State := { s with holdOn := b }
/-- Sets the station's count of grants. -/
def State.setGrantCount (s : State) (c : Count) : State := { s with grantCount := c }
/-- Updates the taps of an antenna. -/
def State.onTap (s : State) (a : Ant) (f : TapRecord → TapRecord) : State := { s with taps := upd s.taps a f }
/-- Sets the listen antenna of a position. -/
def State.setListen (s : State) (p : Pos) (v : Option Ant) : State := { s with listens := upd s.listens p fun _ => v }
/-- Sets the value of an aux line. -/
def State.setAuxLine (s : State) (i : Fin 8) (b : Bool) : State := { s with auxLines := upd s.auxLines i fun _ => b }
/-- Updates the link of a port. -/
def State.onLink (s : State) (port : Port) (f : Link → Link) : State := { s with links := upd s.links port f }
/-- Updates the Settings Store. -/
def State.onStore (s : State) (f : Store → Store) : State := { s with store := f s.store }
/-- Sets the band lines at the pins of a position. -/
def State.setLines (s : State) (p : Pos) (v : BitVec 4) : State := { s with lineInputs := upd s.lineInputs p fun _ => v }
/-- Sets the PTT pin of a position. -/
def State.setPtt (s : State) (p : Pos) (b : Bool) : State := { s with pttInputs := upd s.pttInputs p fun _ => b }
/-- Sets the coupler inputs of a port. -/
def State.setCoupler (s : State) (a : Ant) (v : Nat × Nat) : State := { s with couplers := upd s.couplers a fun _ => v }
/-- Sets the TXEN output of a position. -/
def State.setTxen (s : State) (p : Pos) (b : Bool) : State := { s with txenOutputs := upd s.txenOutputs p fun _ => b }
/-- Sets the Timebase count. -/
def State.setTimebase (s : State) (c : Count) : State := { s with timebase := c }
/-- Sets the supply. -/
def State.setPowered (s : State) (b : Bool) : State := { s with powered := b }
/-- Sets the RESET line. -/
def State.setReset (s : State) (low : Bool) : State := { s with resetIsLow := low }
/-- Updates the settings of a position. -/
def State.onPlace (s : State) (p : Pos) (f : PositionConfig → PositionConfig) : State :=
  s.onSettings fun c => { c with positions := upd c.positions p f }
/-- Updates the configuration of an antenna. -/
def State.onConfig (s : State) (a : Ant) (f : AntennaConfig → AntennaConfig) : State :=
  s.onSettings fun c => { c with antennas := upd c.antennas a f }

/-! ### Timers and spans (00_scope.md, "Counts of time") -/

/-- The expiry of a timer loaded now with a time in ms: the count plus the time, modulo 2^32. -/
def State.load (s : State) (ms : Nat) : Timer := some (s.timebase + BitVec.ofNat 32 ms)

/-- The count has reached an expiry: it lies less than half the range after it, modulo 2^32 (log 4). -/
def reached (now expiry : Count) : Bool := decide ((now - expiry).toNat < Config.halfRange)

/-- A timer is running and has run out. -/
def State.due (s : State) (t : Timer) : Bool :=
  match t with
  | none => false
  | some e => reached s.timebase e

/-- The time a timer has left, in ms: 0 when it is stopped or has run out. -/
def State.timeLeft (s : State) (t : Timer) : Nat :=
  match t with
  | none => 0
  | some e => if reached s.timebase e then 0 else (e - s.timebase).toNat

/-- The span from a stamp to now, modulo 2^32. -/
def State.span (s : State) (stamp : Count) : Nat := (s.timebase - stamp).toNat

/-- Runs an operation for each entry of a list, in order. -/
def forEach {α : Type} (l : List α) (f : α → State → State) (s : State) : State := l.foldl (fun s x => f x s) s

end Sys2Proof.Machine
end

