-- ==== Sys2Proof/Machine/Flags.lean ====
section
/-! DEFINITION. What is read off the state: route status, granted positions, ownership, the relay outputs and the quiet time. -/

namespace Sys2Proof.Machine

/-- The sequencer state without what it holds. -/
def SeqState.shown : SeqState → Phase
  | .idle => .idle | .drain => .drain | .brk _ => .brk | .holdoff => .holdoff | .make _ => .make

/-- The route status (R100). -/
def State.routeStatus (s : State) (p : Pos) : RouteStatus :=
  match (s.seq p).state, (s.seq p).current.antenna with
  | .idle, some _ => .active
  | .idle, none => .none
  | _, _ => .changing

/-- The route antenna (R100): the current antenna in IDLE, the target antenna in a change. -/
def State.routeAntenna (s : State) (p : Pos) : Option Ant :=
  match (s.seq p).state with
  | .idle => (s.seq p).current.antenna
  | _ => (s.seq p).target.antenna

/-- Granted: OPENING, ON or HANG (R121). -/
def KeyState.granted : KeyState → Bool
  | .opening | .on | .hang => true
  | .off | .pending | .queued | .blocked => false

/-- A key state in which TXEN is asserted (R121). -/
def KeyState.transmits : KeyState → Bool
  | .on | .hang => true
  | .off | .pending | .queued | .opening | .blocked => false

/-- A key state that waits: PENDING or QUEUED (R167). -/
def KeyState.waits : KeyState → Bool
  | .pending | .queued => true
  | .off | .opening | .on | .hang | .blocked => false

/-- The position is granted. -/
def State.granted (s : State) (p : Pos) : Bool := (s.key p).state.granted

/-- The granted positions, in position order. -/
def State.grantedSet (s : State) : List Pos := allPos.filter s.granted

/-- The grant band of a position (R127). -/
def State.grantBand (s : State) (p : Pos) : Option Band := (s.key p).grant.map Grant.band

/-- The grant antenna of a position (R127). -/
def State.grantAntenna (s : State) (p : Pos) : Option Ant := (s.key p).grant.map Grant.antenna

/-- The antenna a position owns: the one whose owner field names it (R56). -/
def State.owned (s : State) (p : Pos) : Option Ant := allAnts.find? fun a => (s.ant a).owner == some p

/-- The waiting claim of a position: the claim of that position in the queue its pointer names (R56). -/
def State.waitingClaim (s : State) (p : Pos) : Option (Ant × Claim) :=
  match s.waitsOn p with
  | none => none
  | some a => ((s.claims a).find? fun c => c.position == p).map fun c => (a, c)

/-- The antenna is IN_SERVICE and serves a band: the test of selection (R90 to R93). -/
def State.serviceable (s : State) (a : Ant) (b : Band) : Bool := (s.ant a).service == .inService && (s.config a).serves b

/-- The listeners of an antenna in slot order (R32). -/
def State.listeners (s : State) (a : Ant) : List Pos := (s.tap a).slot1.toList ++ (s.tap a).slot2.toList

/-- A matrix relay is closed (R101): the antenna's connected position is this one, and the drive chain is not held open (R193, log 22). -/
def State.matrixRelayClosed (s : State) (p : Pos) (a : Ant) : Bool := s.running && (s.ant a).connected == some p

/-- The filter the filter relays stand at (R101): THRU while the drive chain is held open (R119, R193, log 22). -/
def State.filterRelay (s : State) (p : Pos) : Option Band := if s.running then (s.seq p).setFilter else none

/-- A tap relay is closed (R154), the drive chain not being held open (log 22). -/
def State.tapRelayClosed (s : State) (a : Ant) (second : Bool) : Bool :=
  s.running && (if second then (s.tap a).closed2 else (s.tap a).closed1)

/-- The quiet time of a position (R48): none while it transmits, while its sequencer is in MAKE, or without a stamp. -/
def State.quietTime (s : State) (p : Pos) : Option Nat :=
  if s.txen p || (s.seq p).state.shown == .make then none else (s.quiet p).map s.span

end Sys2Proof.Machine
end

