-- ==== Sys2Proof/Machine/LinkOps.lean ====
section
/-! DEFINITION. The outgoing queues of the ports: queueing reports and answers, the transmitter's start, and the taking of a request (Message Links). -/

namespace Sys2Proof.Machine

/-- The record is a report. -/
def Record.isReport : Record → Bool
  | .answer _ => false
  | .report _ => true

/-- The places a queue uses: its records and a reserved place (R186). -/
def Link.used (l : Link) : Nat := l.queue.length + (if l.reserved then 1 else 0)

/-- The queue is full (R186). -/
def Link.full (l : Link) : Bool := decide (Config.queuePlaces ≤ l.used)

/-- The queue is full and holds answers only (R178 step 0). -/
def Link.fullOfAnswers (l : Link) : Bool := l.full && !(l.queue.any Record.isReport)

/-- The queue without its most recently queued report, or `none` if it holds no report (R186). -/
def dropLastReport : List Record → Option (List Record)
  | [] => none
  | r :: rest =>
    match dropLastReport rest with
    | some rest' => some (r :: rest')
    | none => if r.isReport then some rest else none

/-- An idle transmitter takes the oldest record and begins to send it (R185). A report begun while LOST is set carries the indication, and the flag is cleared (R187). -/
def Link.startSending (l : Link) : Link :=
  match l.transmitter, l.queue with
  | none, r :: rest =>
    { l with queue := rest, transmitter := some { record := r, lost := r.isReport && l.lost }, lost := l.lost && !r.isReport }
  | _, _ => l

/-- Appends a record and lets an idle transmitter take it. -/
def Link.append (l : Link) (r : Record) : Link := ({ l with queue := l.queue ++ [r] }).startSending

/-- Frees a place in a full queue by removing the most recently queued report, with LOST set (R186). `none` if there is no report to remove. -/
def Link.makeRoom (l : Link) : Option Link :=
  if l.full then (dropLastReport l.queue).map fun q => { l with queue := q, lost := true } else some l

/-- A report arrives at a queue: dropped with LOST set when it is full (R186). -/
def Link.pushReport (l : Link) (r : Report) : Link := if l.full then { l with lost := true } else l.append (.report r)

/-- An answer arrives at a queue: it displaces the most recently queued report of a full one (R186). A full queue of answers only never meets an answer (log 23). -/
def Link.pushAnswer (l : Link) (a : Answer) : Link :=
  match l.makeRoom with
  | some l' => l'.append (.answer a)
  | none => l

/-- The ports a report goes to: S, and the console of each position named, once (R184). -/
def reportPorts (consoles : List Pos) : List Port :=
  supervisorPort :: (allPos.filter fun p => consoles.contains p).map consolePort

/-- Queues a report at its destinations, stamped with the Timebase count (R184). -/
def State.report (s : State) (consoles : List Pos) (body : ReportBody) : State :=
  forEach (reportPorts consoles) (fun port s => s.onLink port fun l => l.pushReport { body := body, time := s.timebase }) s

/-- The TYPE code of a request (Record Formats, "Type codes"). -/
def Request.code : Request → Byte
  | .ping => 0x01#8 | .query => 0x02#8 | .claim => 0x03#8 | .release => 0x04#8 | .force => 0x05#8 | .setClaims => 0x06#8
  | .follow => 0x07#8 | .setPref => 0x08#8 | .listen => 0x09#8 | .setBand => 0x0A#8 | .setBanding => 0x0B#8
  | .setBandmap => 0x0C#8 | .setAntenna => 0x0D#8 | .clear => 0x0E#8 | .setSensing => 0x0F#8 | .setSequencing => 0x10#8
  | .hold => 0x11#8 | .setKeying => 0x12#8 | .setRules => 0x13#8 | .setExclusion => 0x14#8 | .setAux => 0x15#8
  | .save => 0x16#8 | .restart => 0x17#8

/-- The TYPE of an answer: the received TYPE with its high bit set (R198). -/
def answerType (type : Byte) : Byte := type ||| 0x80#8

/-- Queues an answer with a TYPE, a tag, a result and data on a port (R181). -/
def State.answerRaw (s : State) (port : Port) (type tag : Byte) (result : Result) (data : AnswerData) : State :=
  s.onLink port fun l => l.pushAnswer { type := answerType type, tag := tag, result := result, data := data }

/-- Queues the answer to a request that carries its result alone (R181). -/
def State.answer (s : State) (port : Port) (request : Request) (tag : Byte) (result : Result) : State :=
  s.answerRaw port request.code tag result .nothing

/-- Sets the LOST flag of a port. -/
def State.setLost (s : State) (port : Port) : State := s.onLink port fun l => { l with lost := true }

/-- A console may make the request only if the position field is its own position; the supervisor may make it for any (R179). -/
def mayFor (port : Port) (position : Byte) : Bool := port == supervisorPort || position.toNat == port.val

/-- The request is the supervisor's alone (R179). -/
def supervisorOnly (port : Port) : Bool := port == supervisorPort

/-- The checks of R178 before a request reaches its block: step 0, a queue full of answers; step 2, the payload length; step 3, the permission. -/
def takeRequest (port : Port) (request : Request) (tag : Byte) (lengthOk permitted : Bool) (serve : State → State) (s : State) : State :=
  if (s.link port).fullOfAnswers then s.setLost port
  else if !lengthOk then s.answer port request tag .badFormat
  else if !permitted then s.answer port request tag .notPermitted
  else serve s

end Sys2Proof.Machine
end

