-- ==== Sys2Proof/Machine/TapOps.lean ====
section
/-! DEFINITION. The Tap Controller's operations: the tap relay commands, the keyed indication, and slots taken and freed (Receive Taps). -/

namespace Sys2Proof.Machine

/-- The command of one tap relay (R154): closed while the slot has a listener, the keyed indication is clear and presence is false. -/
def tapCommand (slot : Option Pos) (keyed presence : Bool) : Bool := slot.isSome && !keyed && !presence

/-- Works out the commands of both slots of an antenna again (R154). -/
def State.commandTaps (s : State) (a : Ant) : State :=
  s.onTap a fun t =>
    { t with closed1 := tapCommand t.slot1 t.keyed (s.ant a).presence, closed2 := tapCommand t.slot2 t.keyed (s.ant a).presence }

/-- A tap of the antenna is commanded closed: the answer given to a grant (R159). -/
def State.anyTapClosed (s : State) (a : Ant) : Bool := (s.tap a).closed1 || (s.tap a).closed2

/-- Sets or clears the keyed indication of an antenna and commands its taps (R154, R159). -/
def State.setKeyed (s : State) (a : Ant) (keyed : Bool) : State := (s.onTap a fun t => { t with keyed := keyed }).commandTaps a

/-- The listener in a slot: `false` is slot 1, `true` is slot 2. -/
def TapRecord.slot (t : TapRecord) (second : Bool) : Option Pos := if second then t.slot2 else t.slot1

/-- Writes a slot. -/
def TapRecord.setSlot (t : TapRecord) (second : Bool) (v : Option Pos) : TapRecord :=
  if second then { t with slot2 := v } else { t with slot1 := v }

/-- Frees a slot if it holds a listener: the relay opens, the listen antenna becomes none, and a TAP report FREED is sent (R157, R160, R161, R163). -/
def State.freeSlot (s : State) (a : Ant) (second : Bool) (cause : TapCause) : State :=
  match (s.tap a).slot second with
  | none => s
  | some p =>
    (((s.onTap a fun t => t.setSlot second none).commandTaps a).setListen p none).report [p] (.tap a second p .freed cause)

/-- Frees the slot that a position holds on an antenna, if it holds one. -/
def State.freeTapOf (s : State) (p : Pos) (a : Ant) (cause : TapCause) : State :=
  if (s.tap a).slot1 == some p then s.freeSlot a false cause
  else if (s.tap a).slot2 == some p then s.freeSlot a true cause
  else s

/-- Frees both slots of an antenna, slot 1 first (R161). -/
def State.freeBothSlots (s : State) (a : Ant) (cause : TapCause) : State := (s.freeSlot a false cause).freeSlot a true cause

/-- A position takes the lower-numbered empty slot of an antenna (R153, R156 step 3). -/
def State.takeSlot (s : State) (p : Pos) (a : Ant) : State :=
  let second := (s.tap a).slot1.isSome
  (((s.onTap a fun t => t.setSlot second (some p)).commandTaps a).setListen p (some a)).report [p] (.tap a second p .taken .listen)

end Sys2Proof.Machine
end

