-- ==== Sys2Proof/Machine/ArbiterOps.lean ====
section
/-! DEFINITION. The Transmit Arbiter's shared operations: the fit test, the walk, grants and their ends, cuts, denials, joins and preemption (Transmit Arbitration). -/

namespace Sys2Proof.Machine

/-! ### The fit test (R128) -/

/-- An exclusion pair in its one form: the lower antenna first (R148). -/
def exclusionPair (a b : Ant) : Ant × Ant := if a ≤ b then (a, b) else (b, a)

/-- Two antennas form an exclusion pair (R148). -/
def State.excluded (s : State) (a b : Ant) : Bool := s.settings.exclusions.contains (exclusionPair a b)

/-- How many of a set of granted positions hold a band as grant band (R127). -/
def State.countOnBand (s : State) (g : List Pos) (b : Band) : Nat := (g.filter fun p => s.grantBand p == some b).length

/-- The grant antenna of a position forms an exclusion pair with an antenna. -/
def State.clashes (s : State) (p : Pos) (a : Ant) : Bool :=
  match s.grantAntenna p with
  | some x => s.excluded x a
  | none => false

/-- The outcomes of the fit test as the walk tells them apart (R130). -/
inductive Fit where
  /-- All four conditions hold. -/
  | fits
  /-- Condition 1, 2 or 4 fails: the walk goes on. -/
  | skipped
  /-- Only condition 3 fails: the walk stops. -/
  | stationFull
  deriving DecidableEq, Repr

/-- The fit test of R128 for a band and a route antenna against a set of granted positions. -/
def State.fitAmong (s : State) (g : List Pos) (b : Band) (a : Ant) : Fit :=
  if s.holdOn || decide (s.limit b ≤ s.countOnBand g b) || g.any (fun q => s.clashes q a) then .skipped
  else if s.settings.stationTotal ≤ g.length then .stationFull
  else .fits

/-- The fit test of a waiting position, on its band and its route antenna. A position without one of them does not fit (log 26). -/
def State.fit (s : State) (p : Pos) : Fit :=
  match s.band p, s.routeAntenna p with
  | some b, some a => s.fitAmong s.grantedSet b a
  | _, _ => .skipped

/-! ### Grants -/

/-- The max-key timer at an entry to ON (R136): not loaded when the max key time is 0. -/
def State.maxKeyTimer (s : State) (p : Pos) : Timer :=
  if (s.place p).maxKey = 0 then none else s.load ((s.place p).maxKey * 1000)

/-- Enters ON: TXEN is asserted and the max-key timer loaded (R121, R136). -/
def State.enterOn (s : State) (p : Pos) : State :=
  (s.onKey p fun k => { k with state := .on, tapGuard := none, hang := none, maxKey := s.maxKeyTimer p }).setTxen p true

/-- The keyed reference captured at a grant (R12). -/
def State.captureReference (s : State) (p : Pos) : State :=
  s.onDec p fun d => { d with reference := match (s.place p).source with | .lines => d.stable | .message => none }

/-- Step 1 of a grant (R132): off the list, the three things recorded, the pointer moved. -/
def State.recordGrant (s : State) (p : Pos) (b : Band) (a : Ant) : State :=
  (((s.setWaiting (s.waiting.filter fun q => q != p)).setGrantCount (s.grantCount + 1)).setPointer p).onKey p
    fun k => { k with grant := some { band := b, antenna := a, sequence := s.grantCount + 1 } }

/-- Step 3 of a grant (R132, R159): OPENING with the tap guard if a tap was closed, ON at once if none was. -/
def State.openTaps (s : State) (p : Pos) (a : Ant) : State :=
  if s.anyTapClosed a then
    (s.setKeyed a true).onKey p fun k => { k with state := .opening, tapGuard := s.load s.settings.tapGuard }
  else (s.setKeyed a true).enterOn p

/-- Step 4 of a grant (R132): KEY GRANTED if the position had been reported QUEUED; the flag is cleared (R126). -/
def State.reportGrant (s : State) (p : Pos) (b : Band) (a : Ant) : State :=
  let s' := s.onKey p fun k => { k with reported := false }
  if (s.key p).reported then s'.report [p] (.keyGranted p b a (s.key p).state) else s'

/-- Granting a position (R132). -/
def State.grant (s : State) (p : Pos) : State :=
  match s.band p, s.routeAntenna p with
  | some b, some a => ((((s.recordGrant p b a).captureReference p).openTaps p a).reportGrant p b a)
  | _, _ => s

/-! ### The walk (R129, R130) -/

/-- Cyclic position order from the position after the pointer (R129). -/
def rotation (pointer : Pos) : List Pos := [pointer + 1, pointer + 2, pointer + 3, pointer + 4, pointer + 5, pointer]

/-- The waiting list before precedence is looked at (R129). -/
def State.baseOrder (s : State) : List Pos :=
  match s.settings.order with
  | .arrival => s.waiting
  | .rotate => (rotation s.pointer).filter fun p => s.waiting.contains p

/-- The arbitration order: precedence 3 first, each level in the base order (R129). -/
def State.arbitrationOrder (s : State) : List Pos :=
  [3, 2, 1, 0].flatMap fun (k : Fin 4) => s.baseOrder.filter fun p => (s.place p).precedence == k

/-- The fit test of a position of the walk; one that is no longer QUEUED is passed over (R130). -/
def State.walkFit (s : State) (p : Pos) : Fit := if (s.key p).state == .queued then s.fit p else .skipped

/-- Takes positions one at a time: one that fits is granted, a full station stops the walk, the others are skipped (R130). -/
def walkList : List Pos → State → State
  | [], s => s
  | p :: rest, s =>
    match s.walkFit p with
    | .fits => walkList rest (s.grant p)
    | .skipped => walkList rest s
    | .stationFull => s

/-- The walk (R130): its order is fixed when it begins. -/
def State.walk (s : State) : State := walkList s.arbitrationOrder s

/-! ### Ends and cuts (R137, R138) -/

/-- Step 2 of the end of a grant: TXEN goes off if it was asserted, and the quiet-since stamp is set (R137, R48). -/
def State.dropTxen (s : State) (p : Pos) : State := if s.txen p then (s.setTxen p false).setQuiet p (some s.timebase) else s

/-- Step 4 of the end of a grant: the keyed indication of the grant antenna is cleared (R137, R159). -/
def State.releaseTaps (s : State) (a : Option Ant) : State :=
  match a with
  | some a => s.setKeyed a false
  | none => s

/-- Ends a grant into OFF or BLOCKED, steps 1 to 4 of R137. The timers stopped are the three of the key (log 14). -/
def State.endGrant (s : State) (p : Pos) (into : KeyState) : State :=
  ((((s.onKey p fun k => { k with state := into, grant := none, tapGuard := none, hang := none, maxKey := none }).dropTxen p).onDec p
    fun d => { d with reference := none }).releaseTaps (s.grantAntenna p))

/-- BLOCKED if PTT is held, OFF if it is not (R138). -/
def State.afterCut (s : State) (p : Pos) : KeyState := if (s.key p).level then .blocked else .off

/-- A cut without the walk: the end of the grant and its KEY CUT report, in HOLD and in a preemption (R138, R141, R142). -/
def State.cutQuietly (s : State) (p : Pos) (reason : KeyReason) (preempting : Option Pos) : State :=
  if s.granted p then (s.endGrant p (s.afterCut p)).report [p] (.keyCut p reason (s.key p).grant preempting) else s

/-- A cut (R138): the grant ends under R137 with its walk, and a KEY CUT report is sent (log 13). No effect on a position not granted. -/
def State.cut (s : State) (p : Pos) (reason : KeyReason) : State :=
  if s.granted p then ((s.endGrant p (s.afterCut p)).walk).report [p] (.keyCut p reason (s.key p).grant none) else s

/-! ### Denials and the waiting list -/

/-- Takes a position off the waiting list into a key state; its queued-report flag is cleared (R126). -/
def State.leaveList (s : State) (p : Pos) (into : KeyState) : State :=
  (s.setWaiting (s.waiting.filter fun q => q != p)).onKey p fun k => { k with state := into, reported := false }

/-- A denial: BLOCKED with a KEY DENIED report (R123, R126). -/
def State.deny (s : State) (p : Pos) (reason : KeyReason) : State :=
  (s.leaveList p .blocked).report [p] (.keyDenied p reason (s.band p) (s.routeAntenna p))

/-- What an event from another block does to the owner of an antenna (R22, R28, R145): a grant is cut, a QUEUED position is denied. -/
def State.cutOrDeny (s : State) (p : Pos) (reason : KeyReason) : State :=
  if s.granted p then s.cut p reason
  else if (s.key p).state == .queued then s.deny p reason
  else s

/-- The start of a path change, as the arbiter acts on it (R103). -/
def State.routeChanging (s : State) (p : Pos) : State :=
  if s.granted p then s.cut p .routeChange
  else if (s.key p).state == .queued then s.leaveList p .pending
  else s

/-! ### Preemption (R139 to R141) -/

/-- Of two grant sequences, the first is the more recent (R127). -/
def moreRecent (x y : Count) : Bool := x != y && reached x y

/-- The grant sequence of a position, 0 when it is not granted. -/
def State.grantSequence (s : State) (p : Pos) : Count :=
  match (s.key p).grant with
  | some g => g.sequence
  | none => 0#32

/-- The first position is the better victim: lower precedence, or at equal precedence the more recent grant (R140). -/
def State.betterVictim (s : State) (p q : Pos) : Bool :=
  decide ((s.place p).precedence < (s.place q).precedence)
    || ((s.place p).precedence == (s.place q).precedence && moreRecent (s.grantSequence p) (s.grantSequence q))

/-- The best victim of a list. -/
def State.bestVictim (s : State) : List Pos → Option Pos
  | [] => none
  | p :: rest =>
    match s.bestVictim rest with
    | none => some p
    | some q => if s.betterVictim q p then some q else some p

/-- A number of victims from a list, best first (R140). -/
def State.takeVictims (s : State) : Nat → List Pos → List Pos
  | 0, _ => []
  | n + 1, l =>
    match s.bestVictim l with
    | none => []
    | some p => p :: s.takeVictims n (l.filter fun q => q != p)

/-- The positions of a list that are not in another. -/
def without (l gone : List Pos) : List Pos := l.filter fun p => !gone.contains p

/-- Step 1 of the victims: positions whose grant antenna is excluded with the joiner's (R140), in position order (log 15). -/
def State.victims1 (s : State) (a : Ant) : List Pos := s.grantedSet.filter fun p => s.clashes p a

/-- Step 2 of the victims: as many on the band as bring its count below its limit (R140). -/
def State.victims2 (s : State) (b : Band) (left : List Pos) : List Pos :=
  s.takeVictims (s.countOnBand left b + 1 - s.limit b) (left.filter fun p => s.grantBand p == some b)

/-- Step 3 of the victims: one more if the total is still at or above the station total (R140). -/
def State.victims3 (s : State) (left : List Pos) : List Pos :=
  if s.settings.stationTotal ≤ left.length then s.takeVictims 1 left else []

/-- The victims of a joiner on a band with a route antenna, in the order the steps choose them (R140). -/
def State.victims (s : State) (b : Band) (a : Ant) : List Pos :=
  let v1 := s.victims1 a
  let v2 := s.victims2 b (without s.grantedSet v1)
  let v3 := s.victims3 (without (without s.grantedSet v1) v2)
  v1 ++ v2 ++ v3

/-- The preemption for a joiner (R141): made if every victim's precedence is strictly lower and the joiner fits with them gone. -/
def State.preempt (s : State) (j : Pos) : State :=
  match s.band j, s.routeAntenna j with
  | some b, some a =>
    let v := s.victims b a
    if v.all (fun p => decide ((s.place p).precedence < (s.place j).precedence))
        && s.fitAmong (without s.grantedSet v) b a == .fits then
      ((forEach v (fun p s => s.cutQuietly p .preempted (some j)) s).grant j).walk
    else s
  | _, _ => s

/-! ### Joining (R126, R131) -/

/-- The place of a position on the waiting list, from 1 (R131). -/
def State.listPlace (s : State) (p : Pos) : Nat := s.waiting.idxOf p + 1

/-- Appends a position to the waiting list (R126). -/
def State.enlist (s : State) (p : Pos) : State :=
  (s.setWaiting (s.waiting ++ [p])).onKey p fun k => { k with state := .queued, reported := false }

/-- Preemption is considered for a joiner that its walk left waiting (R139). -/
def State.considerPreemption (s : State) (p : Pos) : State :=
  if (s.key p).state == .queued && s.settings.preempt && !s.holdOn then s.preempt p else s

/-- KEY QUEUED for a joiner still waiting; its queued-report flag is set (R131). -/
def State.reportQueued (s : State) (p : Pos) : State :=
  if (s.key p).state == .queued then
    (s.onKey p fun k => { k with reported := true }).report [p] (.keyQueued p (s.band p) (s.routeAntenna p) (s.listPlace p))
  else s

/-- A position joins: the list, the walk, preemption, the report (R126, R131). -/
def State.join (s : State) (p : Pos) : State := (((s.enlist p).walk).considerPreemption p).reportQueued p

/-! ### Static eligibility (R123, R124) -/

/-- What static eligibility decides. -/
inductive Eligibility where
  | denied (reason : KeyReason)
  | pending
  | joins
  deriving DecidableEq, Repr

/-- Steps 4 to 8 of R123: the route, its antenna, and the band's limit. -/
def State.routeEligibility (s : State) (p : Pos) (b : Band) : Eligibility :=
  match (s.seq p).current.antenna with
  | none => .denied .noRoute
  | some a =>
    if (s.ant a).service == .tripped then .denied .tripped
    else if !(s.config a).serves b then .denied .bandMismatch
    else if s.limit b = 0 then .denied .bandClosed
    else .joins

/-- Static eligibility (R123): the first check that applies decides. -/
def State.eligibility (s : State) (p : Pos) : Eligibility :=
  if (s.place p).precedence = 0 then .denied .parked
  else match s.band p with
    | none => .denied .noBand
    | some b => if s.routeStatus p == .changing then .pending else s.routeEligibility p b

/-- Acts on static eligibility: BLOCKED with a report, PENDING, or a join (R123). -/
def State.checkKey (s : State) (p : Pos) : State :=
  match s.eligibility p with
  | .denied reason => s.deny p reason
  | .pending => s.onKey p fun k => { k with state := .pending }
  | .joins => s.join p

/-- A settled route handed over (R109, R124): a PENDING position is checked against it; the others are left as they are. -/
def State.routeSettled (s : State) (p : Pos) : State := if (s.key p).state == .pending then s.checkKey p else s

end Sys2Proof.Machine
end

