-- ==== Sys2Proof/Machine/SequencerOps.lean ====
section
/-! DEFINITION. The Path Sequencer's shared operations: the phases of a path change and the giving of a path (The Path Sequencer).
BREAK and MAKE of one position can end a wait of another in HOLDOFF, within the same event. -/

namespace Sys2Proof.Machine

/-! ### The end of a change -/

/-- Steps 1 and 2 of a completion (R108): the target becomes the current path, IDLE, and the quiet-since stamp is set. -/
def State.settlePath (s : State) (p : Pos) : State :=
  (s.onSeq p fun q => { q with current := q.target, state := .idle, phase := none }).setQuiet p (some s.timebase)

/-- The ROUTE report of a change that has settled (R117), with a status. -/
def State.reportRoute (s : State) (p : Pos) (status : RouteStatus) : State :=
  s.report [p] (.route p (s.band p) (s.seq p).current.filter (s.seq p).current.antenna status .settled)

/-- The ROUTE report of a sequencer in IDLE, and the hand-over of its settled route (R108 step 3, R109, R117). -/
def State.handOverRoute (s : State) (p : Pos) : State := (s.reportRoute p (s.routeStatus p)).routeSettled p

/-- A change is completed with no next path (R108 steps 1, 2, 3 and 5). -/
def State.completeChange (s : State) (p : Pos) : State := (s.settlePath p).handOverRoute p

/-! ### MAKE and HOLDOFF -/

/-- The start of MAKE on an antenna (R108): relay closed, connected position written, settle time loaded. -/
def State.beginMake (s : State) (p : Pos) (a : Ant) : State :=
  (s.onAnt a fun r => { r with connected := some p }).onSeq p
    fun q => { q with state := .make none, phase := s.load (s.config a).settle }

/-- The condition HOLDOFF waits for (R107): no connected position and no presence. -/
def State.antennaFree (s : State) (a : Ant) : Bool := (s.ant a).connected.isNone && !(s.ant a).presence

/-- A wait in HOLDOFF begins, with the drain limit in the phase timer (R107). -/
def State.waitInHoldoff (s : State) (p : Pos) : State := s.onSeq p fun q => { q with state := .holdoff, phase := s.load s.settings.drainLimit }

/-- Entry to HOLDOFF (R107): MAKE at once where the target has no antenna or the antenna is free, else a wait with the drain limit. -/
def State.enterHoldoff (s : State) (p : Pos) : State :=
  match (s.seq p).target.antenna with
  | none => s.completeChange p
  | some a => if s.antennaFree a then s.beginMake p a else s.waitInHoldoff p

/-- A sequencer waiting in HOLDOFF tests its target antenna again (R107). -/
def State.retestHoldoff (s : State) (p : Pos) : State :=
  match (s.seq p).state, (s.seq p).target.antenna with
  | .holdoff, some a => if s.antennaFree a then s.beginMake p a else s
  | _, _ => s

/-- Hands an antenna to every sequencer that waits for it in HOLDOFF, in position order (R107, R108, log 15): when it is opened, and at a sample of it (log 30). -/
def State.antennaCleared (s : State) (a : Ant) : State :=
  forEach allPos (fun q s => if (s.seq q).target.antenna == some a then s.retestHoldoff q else s) s

/-! ### BREAK and DRAIN -/

/-- Opens the matrix relay to an antenna: its connected position becomes none (R105 step 1, R20). -/
def State.openRelay (s : State) (a : Option Ant) : State :=
  match a with
  | some a => s.onAnt a fun r => { r with connected := none }
  | none => s

/-- The time BREAK loads (R105 step 3): the larger of the opened antenna's settle time and the filter settle if the filter switches. -/
def State.breakTime (s : State) (p : Pos) : Nat :=
  max (match (s.seq p).current.antenna with | some a => (s.config a).settle | none => 0)
    (if (s.seq p).target.filter = (s.seq p).setFilter then 0 else s.settings.filterSettle)

/-- Hands the clear of an opened antenna to the sequencers that wait for it. -/
def State.relayOpened (s : State) (a : Option Ant) : State :=
  match a with
  | some a => s.antennaCleared a
  | none => s

/-- The start of BREAK from DRAIN (R105): relay opened, filter switched, timer loaded; at once into HOLDOFF if the load is 0. -/
def State.enterBreak (s : State) (p : Pos) : State :=
  let broken := (s.seq p).current.antenna
  let opened := (s.openRelay broken).onSeq p
    fun q => { q with state := .brk broken, setFilter := q.target.filter, phase := s.load (s.breakTime p) }
  (if s.breakTime p = 0 then opened.enterHoldoff p else opened).relayOpened broken

/-- Entry to DRAIN (R104): BREAK at once where there is no current antenna or no presence on it, else a wait with the drain limit. -/
def State.enterDrain (s : State) (p : Pos) : State :=
  match (s.seq p).current.antenna with
  | none => s.enterBreak p
  | some a =>
    if (s.ant a).presence then s.onSeq p fun q => { q with phase := s.load s.settings.drainLimit } else s.enterBreak p

/-- A path change starts (R103): CHANGING, handed to the arbiter, then DRAIN. -/
def State.startChange (s : State) (p : Pos) : State := ((s.onSeq p fun q => { q with state := .drain }).routeChanging p).enterDrain p

/-! ### Giving a path (R102) -/

/-- The requested path: the next path when one is recorded, the target otherwise (R102). -/
def Sequencer.requested (q : Sequencer) : RfPath :=
  match q.state with
  | .make (some n) => n
  | _ => q.target

/-- A pair that arrives in IDLE (R102, R103). -/
def State.pathInIdle (s : State) (p : Pos) (n : RfPath) : State :=
  let s' := s.onSeq p fun q => { q with target := n }
  if n = (s.seq p).current then s' else s'.startChange p

/-- A pair that arrives in DRAIN (R110): the change ends in IDLE if the pair is the current path. -/
def State.pathInDrain (s : State) (p : Pos) (n : RfPath) : State :=
  if n = (s.seq p).current then
    (s.onSeq p fun q => { q with target := n, state := .idle, phase := none }).handOverRoute p
  else s.onSeq p fun q => { q with target := n }

/-- A pair that arrives in BREAK (R111): another filter is switched at once and the timer may be lengthened. -/
def State.pathInBreak (s : State) (p : Pos) (n : RfPath) : State :=
  if n.filter = (s.seq p).setFilter then s.onSeq p fun q => { q with target := n }
  else s.onSeq p fun q =>
    { q with target := n, setFilter := n.filter, phase := s.load (max (s.timeLeft q.phase) s.settings.filterSettle) }

/-- A pair that arrives in HOLDOFF (R112): the entry conditions are tested again, or another filter takes the sequencer back to BREAK. -/
def State.pathInHoldoff (s : State) (p : Pos) (n : RfPath) : State :=
  let s' := s.onSeq p fun q => { q with target := n }
  if n.filter = (s.seq p).setFilter then
    match n.antenna with
    | none => s'.completeChange p
    | some _ => s'.retestHoldoff p
  else s'.onSeq p fun q => { q with state := .brk none, setFilter := n.filter, phase := s.load s.settings.filterSettle }

/-- A pair that arrives in MAKE (R113): it is recorded as the next path, or clears it. -/
def State.pathInMake (s : State) (p : Pos) (n : RfPath) : State :=
  s.onSeq p fun q => { q with state := .make (if n = q.target then none else some n) }

/-- Gives a sequencer a pair; a pair equal to the requested path starts nothing (R102). -/
def State.givePath (s : State) (p : Pos) (n : RfPath) : State :=
  if n = (s.seq p).requested then s
  else match (s.seq p).state with
    | .idle => s.pathInIdle p n
    | .drain => s.pathInDrain p n
    | .brk _ => s.pathInBreak p n
    | .holdoff => s.pathInHoldoff p n
    | .make _ => s.pathInMake p n

/-- The Band Decoder gives the filter part (R102). -/
def State.giveFilter (s : State) (p : Pos) (filter : Option Band) : State :=
  s.givePath p { (s.seq p).requested with filter := filter }

/-- The Route Controller gives the antenna part (R102). -/
def State.giveAntenna (s : State) (p : Pos) (a : Option Ant) : State := s.givePath p { (s.seq p).requested with antenna := a }

/-! ### The end of MAKE (R108) -/

/-- MAKE ends at its timer: completed, then a next path that differs starts a new change at once (R108). -/
def State.finishMake (s : State) (p : Pos) (next : Option RfPath) : State :=
  match next with
  | none => s.completeChange p
  | some n =>
    if n = (s.seq p).target then s.completeChange p
    else (((s.settlePath p).reportRoute p .changing).onSeq p fun q => { q with target := n }).startChange p

end Sys2Proof.Machine
end

