-- ==== Sys2Proof/Machine/RouteOps.lean ====
section
/-! DEFINITION. The Route Controller's shared operations: claims placed, granted, superseded, withdrawn and dropped, and queues served (Claims and Ownership). -/

namespace Sys2Proof.Machine

/-! ### Reports and removals -/

/-- A CLAIM report (R80): to S, the position concerned and the antenna's owner as it stands (R81). -/
def State.claimReport (s : State) (a : Ant) (p : Pos) (origin : Option Origin) (event : ClaimEvent) : State :=
  s.report (p :: (s.ant a).owner.toList) (.claim event a p origin)

/-- Removes the claim of a position from an antenna's queue and clears its pointer; the gap closes (R58). -/
def State.removeClaim (s : State) (p : Pos) (a : Ant) : State :=
  (s.onClaims a fun l => l.filter fun c => c.position != p).setWaitsOn p none

/-- Removes the waiting claim of a position with a report, if it has one. -/
def State.removeWaiting (s : State) (p : Pos) (event : ClaimEvent) : State :=
  match s.waitingClaim p with
  | some (a, c) => (s.removeClaim p a).claimReport a p (some c.origin) event
  | none => s

/-- The waiting claim of a position has origin FOLLOW. -/
def State.waitsUnderFollow (s : State) (p : Pos) : Bool :=
  match s.waitingClaim p with
  | some (_, c) => c.origin == .follow
  | none => false

/-- Withdraws a waiting claim of origin FOLLOW, cause FOLLOW_OFF (R65, R67, R88, R90). -/
def State.withdrawFollow (s : State) (p : Pos) : State :=
  if s.waitsUnderFollow p then s.removeWaiting p (.withdrawn .followOff) else s

/-- Follow goes off, with the FOLLOW claim withdrawn (R65, R67, R88). -/
def State.followOff (s : State) (p : Pos) : State := (s.onPlace p fun c => { c with follow := false }).withdrawFollow p

/-- Supersedes a position's waiting claim by a new claim on another antenna (R66). -/
def State.supersede (s : State) (p : Pos) (new : Ant) : State := s.removeWaiting p (.superseded new)

/-- Drops the claim of a position with a reason (R75). -/
def State.dropClaim (s : State) (p : Pos) (reason : ClaimReason) : State := s.removeWaiting p (.dropped reason)

/-! ### Granting and serving (R59 to R61) -/

/-- Writes the owner field of an antenna (R19). -/
def State.setOwner (s : State) (a : Ant) (o : Option Pos) : State := s.onAnt a fun r => { r with owner := o }

/-- Clears the owner field of an antenna that a position owned before a grant (R60 step 5, R70 step 5). -/
def State.clearPrevious (s : State) (previous : Option Ant) : State :=
  match previous with
  | some b => s.setOwner b none
  | none => s

/-- Makes a position the owner of an antenna: owner field, target, tap slot and CLAIM GRANTED (R60 steps 2 to 4, R70 step 4), and the owner field of its previous antenna cleared (step 5, before the serving). -/
def State.makeOwner (s : State) (p : Pos) (a : Ant) (origin : Origin) (manner : Manner) (previous : Option Ant) : State :=
  (((((s.setOwner a (some p)).giveAntenna p (some a)).freeTapOf p a .owner).claimReport a p (some origin) (.granted manner previous))).clearPrevious previous

/-- The antenna a position owns, if it is another than the one given. -/
def State.ownedOther (s : State) (p : Pos) (a : Ant) : Option Ant := (s.owned p).filter fun b => b != a

/-- Grants a claim (R60 steps 1 to 5, up to the serving of the previous antenna). -/
def State.grantClaim (s : State) (p : Pos) (a : Ant) (origin : Origin) (manner : Manner) : State :=
  (s.removeClaim p a).makeOwner p a origin manner (s.ownedOther p a)

/-- The claim a serving chooses: the highest precedence, and among equals the one placed first (R59). -/
def State.chooseClaim (s : State) : List Claim → Option Claim
  | [] => none
  | c :: rest =>
    match s.chooseClaim rest with
    | none => some c
    | some d => if (s.place c.position).precedence < (s.place d.position).precedence then some d else some c

/-- Serves an antenna that has lost its owner, and the previous antenna of each grantee in turn: a chain of grants (R59, R61).
The number bounds the grants of the chain. Only an IN_SERVICE antenna is served with claims in it (R59, log 16). -/
def serveChain : Nat → Ant → State → State
  | 0, _, s => s
  | n + 1, a, s =>
    if (s.ant a).service == .inService then
      match s.chooseClaim (s.claims a) with
      | none => s
      | some c =>
        match s.ownedOther c.position a with
        | none => s.grantClaim c.position a c.origin .queue
        | some b => serveChain n b (s.grantClaim c.position a c.origin .queue)
    else s

/-- The claims that wait in all queues: each grant of a chain consumes one, so no chain is longer (R61, log 27). -/
def State.claimTotal (s : State) : Nat := (allAnts.map fun a => (s.claims a).length).sum

/-- Serves an antenna (R59). -/
def State.serve (s : State) (a : Ant) : State := serveChain s.claimTotal a s

/-- Serves the previous antenna of a grantee, if there is one. -/
def State.servePrevious (s : State) (previous : Option Ant) : State :=
  match previous with
  | some b => s.serve b
  | none => s

/-- Removes the owner of an antenna: the owner field becomes none and the position is given the antenna part none (R67 step 3, R70 step 3, R71, R78). -/
def State.removeOwner (s : State) (p : Pos) (a : Ant) : State := (s.setOwner a none).giveAntenna p none

/-- Releases an owned antenna and serves it (R67 step 3, R93 action 1). -/
def State.releaseRoute (s : State) (p : Pos) (a : Ant) : State := (((s.removeOwner p a).claimReport a p none .released)).serve a

/-! ### CLAIM (R62 to R66) -/

/-- The checks of a CLAIM, steps 1 to 6 of R62. -/
def State.claimCheck (s : State) (p : Pos) (a : Ant) (nowait : Bool) : Result :=
  if (s.place p).precedence = 0 then .parked
  else match (s.ant a).service with
    | .outOfService => .outOfService
    | .tripped => .tripped
    | .inService =>
      if !(s.config a).fits (s.band p) then .bandMismatch
      else if (s.ant a).owner == some p || s.waitsOn p == some a then .already
      else if (s.ant a).owner.isNone then .done
      else if nowait then .busy
      else .waiting

/-- The expiry of a claim placed now (R57, R72). -/
def State.claimExpiry (s : State) (origin : Origin) : Option Count :=
  if origin = .follow ∨ s.settings.claimLifetime = 0 then none else s.load (s.settings.claimLifetime * 1000)

/-- Appends a claim to a held antenna's queue with a CLAIM QUEUED report (R63). -/
def State.queueClaim (s : State) (p : Pos) (a : Ant) (origin : Origin) : State :=
  (((s.onClaims a fun l => l ++ [{ position := p, origin := origin, expiry := s.claimExpiry origin }]).setWaitsOn p (some a))).claimReport a p (some origin)
    (.queued (s.ant a).owner ((s.claims a).length + 1))

/-- Grants a claim on a free antenna at once, and serves the grantee's previous antenna (R63, R60). -/
def State.grantAtOnce (s : State) (p : Pos) (a : Ant) (origin : Origin) : State :=
  (s.grantClaim p a origin .immediate).servePrevious (s.ownedOther p a)

/-- A repeated CLAIM of a console or the supervisor takes over a waiting FOLLOW claim in its place (R64). -/
def State.takeOverClaim (s : State) (p : Pos) (a : Ant) (origin : Origin) : State :=
  if origin = .follow then s
  else s.onClaims a fun l => l.map fun c =>
    if c.position = p ∧ c.origin = .follow then { c with origin := origin, expiry := s.claimExpiry origin } else c

/-- The effects of a CLAIM by the result of its checks (R63, R64). A refusal changes nothing. -/
def State.placeClaim (s : State) (p : Pos) (a : Ant) (origin : Origin) (result : Result) : State :=
  match result with
  | .done => (s.supersede p a).grantAtOnce p a origin
  | .waiting => (s.supersede p a).queueClaim p a origin
  | .already => if s.waitsOn p == some a then s.takeOverClaim p a origin else s
  | _ => s

/-- The result of a CLAIM sets follow OFF (R65). -/
def Result.accepted : Result → Bool
  | .done | .already | .waiting | .clamped => true
  | _ => false

/-- The drop of a waiting claim that a band change makes unfit (R76). -/
def State.dropForBand (s : State) (p : Pos) (b : Option Band) : State :=
  match s.waitsOn p with
  | some a => if (s.config a).fits b then s else s.dropClaim p .band
  | none => s

end Sys2Proof.Machine
end

