-- ==== Sys2Proof/Machine/FollowOps.lean ====
section
/-! DEFINITION. The Follow Selector's selection (R89 to R93). -/

namespace Sys2Proof.Machine

/-- The two modes of a selection. -/
inductive SelectMode where
  | start | resume
  deriving DecidableEq, Repr

/-- The antenna a selection may keep: owned, IN_SERVICE and serving the band (R90, R92). -/
def State.keepable (s : State) (p : Pos) (b : Band) : Bool :=
  match s.owned p with
  | some c => s.serviceable c b
  | none => false

/-- The first antenna of the list that is serviceable and free or owned by the position (R91). -/
def State.firstFree (s : State) (p : Pos) (b : Band) : Option Ant :=
  (s.prefs p b).find? fun e => s.serviceable e b && ((s.ant e).owner.isNone || (s.ant e).owner == some p)

/-- The first serviceable antenna of the list (R93 action 2). -/
def State.firstServiceable (s : State) (p : Pos) (b : Band) : Option Ant := (s.prefs p b).find? fun f => s.serviceable f b

/-- The selector places a claim through the CLAIM checks, with origin FOLLOW and without NOWAIT (R62, R91, R93). -/
def State.followClaim (s : State) (p : Pos) (a : Ant) : State := s.placeClaim p a .follow (s.claimCheck p a false)

/-- The ROUTE report with reason NO_ANTENNA (R93 action 3, R97, R117). -/
def State.reportNoAntenna (s : State) (p : Pos) (b : Band) : State :=
  s.report [p] (.route p (some b) (s.seq p).current.filter none (s.routeStatus p) .noAntenna)

/-- Action 1 of step 4: releases an owned antenna (R93). -/
def State.releaseOwned (s : State) (p : Pos) : State :=
  match s.owned p with
  | some c => s.releaseRoute p c
  | none => s

/-- Actions 2 and 3 of step 4: the fallback claim, or NO_ANTENNA (R93). -/
def State.fallback (s : State) (p : Pos) (b : Band) : State :=
  match s.firstServiceable p b with
  | some f => s.followClaim p f
  | none => s.reportNoAntenna p b

/-- Steps 2 to 4 of a selection (R91 to R93). -/
def State.selectFromList (s : State) (p : Pos) (b : Band) : State :=
  match s.firstFree p b with
  | some e => if (s.ant e).owner == some p then s.withdrawFollow p else s.followClaim p e
  | none => if s.keepable p b then s.withdrawFollow p else (s.releaseOwned p).fallback p b

/-- A selection for a position (R89 to R93): not run on band NONE, at precedence 0 or with follow OFF. RESUME first tries to keep the antenna owned (R90). -/
def State.select (s : State) (p : Pos) (mode : SelectMode) : State :=
  match s.band p with
  | none => s
  | some b =>
    if (s.place p).precedence = 0 ∨ (s.place p).follow = false then s
    else if mode = .resume ∧ s.keepable p b = true then s.withdrawFollow p
    else s.selectFromList p b

/-- A RESUME selection for each position of a list, in order (R95). -/
def State.resumeEach (s : State) (l : List Pos) : State := forEach l (fun p s => s.select p .resume) s

end Sys2Proof.Machine
end

