-- ==== Sys2Proof/Machine/AntennaOps.lean ====
section
/-! DEFINITION. The Antenna Table's shared operations: trips, the emptying of an antenna, and the effects of a changed mask or service (R22 to R31). -/

namespace Sys2Proof.Machine

/-! ### Claims of an antenna dropped together (R75) -/

/-- The positions of a queue whose claims have origin FOLLOW, in queue order. -/
def followClaimants (l : List Claim) : List Pos := (l.filter fun c => c.origin == .follow).map Claim.position

/-- Drops the claims of a list, oldest first, with one report each (R75). -/
def State.dropEach (s : State) (l : List Claim) (reason : ClaimReason) : State :=
  forEach l (fun c s => s.dropClaim c.position reason) s

/-- Drops the claims of a tripped antenna, oldest first; each dropped FOLLOW claim re-selects at once (R77).
A claim that an earlier re-selection has removed is passed over. -/
def State.dropTripped (s : State) (a : Ant) (l : List Claim) : State :=
  forEach l (fun c s =>
    if s.waitsOn c.position == some a then
      let s' := s.dropClaim c.position .tripped
      if c.origin = .follow then s'.select c.position .resume else s'
    else s) s

/-! ### Trips (R22, R23) -/

/-- Steps 1 and 4 of a trip, and the like of a mask change, act on the owner, if there is one. -/
def State.onOwner (s : State) (a : Ant) (f : Pos → State → State) : State :=
  match (s.ant a).owner with
  | some o => f o s
  | none => s

/-- The trip record taken from the readings of the record, the owner and the count (R23). -/
def State.tripRecord (s : State) (a : Ant) (cause : TripCause) : TripRecord :=
  { cause := cause, pf := (s.ant a).pf, swr := (s.ant a).swr, owner := (s.ant a).owner, time := s.timebase }

/-- A trip is raised on an antenna (R22): nothing on a TRIPPED one; else TRIPPED with its record, then the arbiter, the queue, the report and the owner's re-selection. -/
def State.trip (s : State) (a : Ant) (cause : TripCause) : State :=
  if (s.ant a).service == .tripped then s
  else
    let record := s.tripRecord a cause
    let s1 := s.onAnt a fun r => { r with service := .tripped, trip := some record }
    let s2 := s1.onOwner a fun o s => s.cutOrDeny o .tripped
    let s3 := s2.dropTripped a (s2.claims a)
    let s4 := s3.report record.owner.toList (.trip a record)
    s4.onOwner a fun o s => s.select o .resume

/-! ### Service (R25 to R27, R31) -/

/-- The ANTENNA SERVICE report: to S and the owner's console after the change (R31). -/
def State.serviceReport (s : State) (a : Ant) (previous : Service) (cause : ServiceCause) : State :=
  s.report (s.ant a).owner.toList (.service a previous (s.ant a).service cause)

/-- Removes the owner of an antenna taken out of service, with CLAIM REMOVED (R25 step 2, R78). -/
def State.evictOwner (s : State) (a : Ant) : State :=
  s.onOwner a fun o s => (s.removeOwner o a).claimReport a o none (.removed .outOfService)

/-- An IN_SERVICE antenna is set OUT_OF_SERVICE and emptied (R25). -/
def State.takeOutOfService (s : State) (a : Ant) : State :=
  let queue := s.claims a
  let former := (s.ant a).owner
  let s1 := s.onAnt a fun r => { r with service := .outOfService }
  let s2 := ((s1.dropEach queue .outOfService).evictOwner a).freeBothSlots a .outOfService
  (s2.serviceReport a .inService .set).resumeEach (former.toList ++ followClaimants queue)

/-- A TRIPPED antenna configured OUT_OF_SERVICE loses its owner and listeners, and stays TRIPPED (R27). -/
def State.emptyTripped (s : State) (a : Ant) : State :=
  let former := (s.ant a).owner
  ((s.evictOwner a).freeBothSlots a .outOfService).resumeEach former.toList

/-- An OUT_OF_SERVICE antenna is set IN_SERVICE (R26). -/
def State.returnToService (s : State) (a : Ant) : State :=
  (s.onAnt a fun r => { r with service := .inService }).serviceReport a .outOfService .set

/-- The effect of a changed configured service, by the service state (R25, R26, R27). -/
def State.serviceChanged (s : State) (a : Ant) : State :=
  match (s.ant a).service, (s.config a).configured with
  | .inService, .outOfService => s.takeOutOfService a
  | .tripped, .outOfService => s.emptyTripped a
  | .outOfService, .inService => s.returnToService a
  | _, _ => s

/-! ### The band mask (R28, R79) -/

/-- A position's band was in the old mask and is not in the new one (R28, log 18). -/
def lostBand (old new : AntennaConfig) (b : Option Band) : Bool :=
  match b with
  | none => false
  | some b => old.serves b && !new.serves b

/-- The effect of a changed band mask (R28): claimants dropped, then the owner cut or denied and re-selected, then the dropped FOLLOW claimants. -/
def State.maskChanged (s : State) (a : Ant) (old : AntennaConfig) : State :=
  let lost := fun p => lostBand old (s.config a) (s.band p)
  let dropped := (s.claims a).filter fun c => lost c.position
  let s1 := s.dropEach dropped .band
  let s2 := s1.onOwner a fun o s => if lost o then (s.cutOrDeny o .bandMismatch).select o .resume else s
  s2.resumeEach (followClaimants dropped)

end Sys2Proof.Machine
end

