-- ==== Sys2Proof/Machine/AuxOps.lean ====
section
/-! DEFINITION. The Aux Output Unit's shared operations: the condition of a line, its value, and the following of the source at the end of an event (Auxiliary Outputs). -/

namespace Sys2Proof.Machine

/-- The POSITION signals (R167). -/
def State.positionSignal (s : State) (p : Pos) : PositionSignal → Bool
  | .txen => s.txen p
  | .waiting => (s.key p).state.waits
  | .routeActive => s.routeStatus p == .active
  | .blocked => (s.key p).state == .blocked
  | .followOn => (s.place p).follow

/-- The ANTENNA signals (R168). -/
def State.antennaSignal (s : State) (a : Ant) : AntennaSignal → Bool
  | .owned => (s.ant a).owner.isSome
  | .tripped => (s.ant a).service == .tripped
  | .rfPresent => (s.ant a).presence
  | .claimed => !(s.claims a).isEmpty
  | .listened => (s.tap a).slot1.isSome || (s.tap a).slot2.isSome

/-- The STATION signals (R169). -/
def State.stationSignal (s : State) : StationSignal → Bool
  | .anyTx => allPos.any s.txen
  | .noneGranted => !allPos.any s.granted
  | .anyTripped => allAnts.any fun a => (s.ant a).service == .tripped
  | .hold => s.holdOn
  | .anyWaiting => allPos.any fun p => (s.key p).state.waits
  | .anyChanging => allPos.any fun p => (s.seq p).state.shown != .idle

/-- The condition of a source (R166). -/
def State.condition (s : State) : AuxSource → Bool
  | .fixed v => v
  | .position p g => s.positionSignal p g
  | .antenna a g => s.antennaSignal a g
  | .station g => s.stationSignal g

/-- The flash phase of a count (R171). -/
def flashPhase (t : Count) : Bool := decide (t.toNat % 500 < 250)

/-- A count is a flash edge (R171). -/
def flashEdgeAt (t : Count) : Bool := t.toNat % 250 == 0

/-- The line value from its configuration, its condition and the flash phase, by the three stages of R165. -/
def AuxConfig.value (c : AuxConfig) (condition phase : Bool) : Bool :=
  (if c.flash then condition && phase else condition) != c.invert

/-- The configuration of a line. -/
def State.auxConfig (s : State) (l : Fin 8) : AuxConfig := s.settings.aux[l.val]

/-- The value R165 gives a line from the state as it stands. -/
def State.lineValue (s : State) (l : Fin 8) : Bool :=
  (s.auxConfig l).value (s.condition (s.auxConfig l).source) (flashPhase s.timebase)

/-- Works a line out again. -/
def State.driveLine (s : State) (l : Fin 8) : State := s.setAuxLine l (s.lineValue l)

/-- The condition of a line differs between two states, under the configuration of the second (R170). -/
def conditionMoved (before after : State) (l : Fin 8) : Bool :=
  before.condition (after.auxConfig l).source != after.condition (after.auxConfig l).source

/-- At the end of an event, every line whose condition the event has changed is worked out again (R170, log 24). -/
def followAux (before after : State) : State :=
  forEach allLines (fun l s => if conditionMoved before after l then s.driveLine l else s) after

/-- A flash edge: every line with flash on and a true condition takes the value of the phase that begins, and no other line changes (R171). -/
def State.flashLines (s : State) : State :=
  forEach allLines (fun l s => if (s.auxConfig l).flash && s.condition (s.auxConfig l).source then s.driveLine l else s) s

/-- One command of a running part: its effect, then the aux lines (R170). A part that does not run takes none (R193). -/
def event (effect : State → State) (s : State) : Host.Outcome State Fault Refusal :=
  .next (if s.running then followAux s (effect s) else s)

/-- An effect that happens only where its event is due or enabled (log 3). -/
def onlyIf (enabled : State → Bool) (effect : State → State) (s : State) : State := if enabled s then effect s else s

end Sys2Proof.Machine
end

