-- ==== Sys2Proof/Machine/Operands.lean ====
section
/-! DEFINITION. How a request's payload fields are read (R197) and judged (R180): structural fields into names, numeric fields clamped, lists read by their counts. -/

namespace Sys2Proof.Machine

/-! ### Structural fields: `none` where the byte is out of range -/

/-- A position field, 1 to 6. -/
def posOf (b : Byte) : Option Pos := if h : 1 ≤ b.toNat ∧ b.toNat ≤ 6 then some ⟨b.toNat - 1, by omega⟩ else none

/-- An antenna field, 1 to 12. -/
def antOf (b : Byte) : Option Ant := if h : 1 ≤ b.toNat ∧ b.toNat ≤ 12 then some ⟨b.toNat - 1, by omega⟩ else none

/-- A position field in which 0 means none. -/
def posOrNoneOf (b : Byte) : Option (Option Pos) := if b.toNat = 0 then some none else (posOf b).map some

/-- An antenna field in which 0 means none. -/
def antOrNoneOf (b : Byte) : Option (Option Ant) := if b.toNat = 0 then some none else (antOf b).map some

/-- A band field of a band 1 to 6. -/
def bandOf (b : Byte) : Option Band := allBands.find? fun x => x.index == b.toNat

/-- A band field 0 to 6, in which 0 is NONE. -/
def bandOrNoneOf (b : Byte) : Option (Option Band) := if b.toNat = 0 then some none else (bandOf b).map some

/-- A yes-or-no field: 0 or 1 (R197). -/
def yesNoOf (b : Byte) : Option Bool := if b.toNat = 0 then some false else if b.toNat = 1 then some true else none

/-- A band mask field: bits 0 and 7 must be clear (R197). -/
def bandMaskOf (b : Byte) : Option (BitVec 8) := if b.getLsbD 0 || b.getLsbD 7 then none else some b

/-- A line mask field: bits 4 to 7 must be clear (R197). -/
def lineMaskOf (b : Byte) : Option (BitVec 4) := if b.toNat < 16 then some (BitVec.ofNat 4 b.toNat) else none

/-- A band source field. -/
def sourceOf (b : Byte) : Option Source := if b.toNat = 0 then some .lines else if b.toNat = 1 then some .message else none

/-- A configured service field: the code of TRIPPED is out of range there (Record Formats). -/
def configuredOf (b : Byte) : Option Configured :=
  if b.toNat = 0 then some .inService else if b.toNat = 2 then some .outOfService else none

/-- An order field. -/
def orderOf (b : Byte) : Option GrantOrder := if b.toNat = 0 then some .arrival else if b.toNat = 1 then some .rotate else none

/-- A precedence field, 0 to 3: a greater one is refused (R144). -/
def precedenceOf (b : Byte) : Option (Fin 4) := if h : b.toNat < 4 then some ⟨b.toNat, h⟩ else none

/-- An aux line field, 1 to 8. -/
def lineOf (b : Byte) : Option (Fin 8) := if h : 1 ≤ b.toNat ∧ b.toNat ≤ 8 then some ⟨b.toNat - 1, by omega⟩ else none

/-- The choices of RELEASE (Record Formats). -/
inductive ReleaseWhat where
  | route | claim | all
  deriving DecidableEq, Repr

/-- A RELEASE choice field. -/
def whatOf (b : Byte) : Option ReleaseWhat :=
  if b.toNat = 1 then some .route else if b.toNat = 2 then some .claim else if b.toNat = 3 then some .all else none

/-- The actions of FOLLOW. -/
inductive FollowAction where
  | start | resume | stop
  deriving DecidableEq, Repr

/-- A FOLLOW action field. -/
def actionOf (b : Byte) : Option FollowAction :=
  if b.toNat = 1 then some .start else if b.toNat = 2 then some .resume else if b.toNat = 3 then some .stop else none

/-- The operations of SET-EXCLUSION. -/
inductive ExclusionOp where
  | add | remove | clearAll
  deriving DecidableEq, Repr

/-- A SET-EXCLUSION operation field. -/
def exclusionOpOf (b : Byte) : Option ExclusionOp :=
  if b.toNat = 1 then some .add else if b.toNat = 2 then some .remove else if b.toNat = 3 then some .clearAll else none

/-- The subjects of QUERY. -/
inductive QuerySubject where
  | position | antenna | station
  deriving DecidableEq, Repr

/-- A QUERY subject field. -/
def subjectOf (b : Byte) : Option QuerySubject :=
  if b.toNat = 1 then some .position else if b.toNat = 2 then some .antenna else if b.toNat = 3 then some .station else none

/-- A POSITION signal field (Record Formats). -/
def positionSignalOf (b : Byte) : Option PositionSignal :=
  match b.toNat with
  | 1 => some .txen | 2 => some .waiting | 3 => some .routeActive | 4 => some .blocked | 5 => some .followOn | _ => none

/-- An ANTENNA signal field (Record Formats). -/
def antennaSignalOf (b : Byte) : Option AntennaSignal :=
  match b.toNat with
  | 1 => some .owned | 2 => some .tripped | 3 => some .rfPresent | 4 => some .claimed | 5 => some .listened | _ => none

/-- A STATION signal field (Record Formats). -/
def stationSignalOf (b : Byte) : Option StationSignal :=
  match b.toNat with
  | 1 => some .anyTx | 2 => some .noneGranted | 3 => some .anyTripped | 4 => some .hold | 5 => some .anyWaiting
  | 6 => some .anyChanging | _ => none

/-- The source kind, index and signal fields of SET-AUX together (R172 checks 1 to 3). -/
def auxSourceOf (kind index signal : Byte) : Option AuxSource :=
  match kind.toNat with
  | 0 => if signal.toNat = 0 then (yesNoOf index).map .fixed else none
  | 1 => match posOf index, positionSignalOf signal with
    | some p, some g => some (.position p g)
    | _, _ => none
  | 2 => match antOf index, antennaSignalOf signal with
    | some a, some g => some (.antenna a g)
    | _, _ => none
  | 3 => if index.toNat = 0 then (stationSignalOf signal).map .station else none
  | _ => none

/-! ### Lists -/

/-- Every entry of a list read by one reader, or `none` if any entry is out of range. -/
def readAll {α : Type} (f : Byte → Option α) : List Byte → Option (List α)
  | [] => some []
  | b :: rest =>
    match f b, readAll f rest with
    | some x, some xs => some (x :: xs)
    | _, _ => none

/-- A list names an antenna twice (R86). -/
def hasDuplicate : List Ant → Bool
  | [] => false
  | a :: rest => rest.contains a || hasDuplicate rest

/-! ### Numeric fields (R180) -/

/-- A numeric field clamped to the nearer end of its range. -/
def clamp (lo hi n : Nat) : Nat := max lo (min hi n)

/-- The answer to a setting request: ALREADY, else CLAMPED, else DONE (R180). -/
def settingResult (same clamped : Bool) : Result := if same then .already else if clamped then .clamped else .done

/-- A two-byte field from its bytes, low byte first (R197). -/
def halfOf (lo hi : Byte) : Half := hi ++ lo

end Sys2Proof.Machine
end

