-- ==== Sys2Proof/Machine/Antenna.lean ====
section
/-! DEFINITION. The Antenna Table's commands: SET-ANTENNA and CLEAR (The Antenna Table). -/

namespace Sys2Proof.Machine

/-! ### SET-ANTENNA (R24 to R29) -/

/-- The configuration a SET-ANTENNA gives, its numeric fields clamped (R24 step 2). -/
def clampedConfig (mask : BitVec 8) (maxPower : Half) (swrLimit : Byte) (kf : Half) (c zf zr settle : Byte) (configured : Configured) : AntennaConfig :=
  { bandMask := mask, maxPower := clamp 1 4095 maxPower.toNat, swrLimit := clamp 15 99 swrLimit.toNat, kf := kf.toNat,
    c := clamp 64 192 c.toNat, zf := zf.toNat, zr := zr.toNat, settle := clamp 5 200 settle.toNat, configured := configured }

/-- A numeric field of the request lies outside its range (R24 step 2). -/
def configClamped (new : AntennaConfig) (maxPower : Half) (swrLimit c settle : Byte) : Bool :=
  new.maxPower != maxPower.toNat || new.swrLimit != swrLimit.toNat || new.c != c.toNat || new.settle != settle.toNat

/-- The write of a SET-ANTENNA and the effects of the fields that changed: the service first, then the mask (R24, R25 to R28, log 17).
Limits, calibration and settle time act when they are next read (R29). -/
def State.writeAntenna (s : State) (a : Ant) (new : AntennaConfig) : State :=
  let old := s.config a
  let s1 := s.onConfig a fun _ => new
  let s2 := if old.configured = new.configured then s1 else s1.serviceChanged a
  if old.bandMask = new.bandMask then s2 else s2.maskChanged a old

/-- Serves SET-ANTENNA (R24). -/
def serveSetAntenna (port : Port) (tag antenna bandMask : Byte) (maxPower : Half) (swrLimit : Byte) (kf : Half) (c zf zr settle service : Byte) :
    State → State :=
  takeRequest port .setAntenna tag true (supervisorOnly port) fun s =>
    match antOf antenna, bandMaskOf bandMask, configuredOf service with
    | some a, some mask, some configured =>
      let new := clampedConfig mask maxPower swrLimit kf c zf zr settle configured
      let same := new = s.config a
      let s' := s.answer port .setAntenna tag (settingResult same (configClamped new maxPower swrLimit c settle))
      if same then s' else s'.writeAntenna a new
    | _, _, _ => s.answer port .setAntenna tag .badValue

/-- SET_ANTENNA. -/
def execSetAntenna (port : Port) (tag antenna bandMask : Byte) (maxPower : Half) (swrLimit : Byte) (kf : Half) (c zf zr settle service : Byte)
    (s : State) : Host.Outcome State Fault Refusal :=
  event (serveSetAntenna port tag antenna bandMask maxPower swrLimit kf c zf zr settle service) s

/-! ### CLEAR (R30) -/

/-- The checks of CLEAR, steps 2 to 5 (R30). -/
def State.clearResult (s : State) (a : Ant) : Result :=
  match (s.ant a).service with
  | .outOfService => .outOfService
  | .inService => .already
  | .tripped => if (s.ant a).presence then .rfPresent else .done

/-- A trip cleared: the record removed, the configured service taken, the listeners freed if that is OUT_OF_SERVICE, then the report (R30, R31, R161, log 20). -/
def State.clearTrip (s : State) (a : Ant) : State :=
  let s1 := s.onAnt a fun r => { r with service := (s.config a).configured.service, trip := none }
  let s2 := if (s.config a).configured = .outOfService then s1.freeBothSlots a .outOfService else s1
  s2.serviceReport a .tripped .clear

/-- Serves CLEAR (R30). -/
def serveClear (port : Port) (tag antenna : Byte) : State → State :=
  takeRequest port .clear tag true (supervisorOnly port) fun s =>
    match antOf antenna with
    | some a =>
      let s' := s.answer port .clear tag (s.clearResult a)
      if s.clearResult a = .done then s'.clearTrip a else s'
    | none => s.answer port .clear tag .badValue

/-- CLEAR. -/
def execClear (port : Port) (tag antenna : Byte) (s : State) : Host.Outcome State Fault Refusal :=
  event (serveClear port tag antenna) s

end Sys2Proof.Machine
end

