-- ==== Sys2Proof/Machine/AuxOut.lean ====
section
/-! DEFINITION. The Aux Output Unit's commands: SET-AUX and the flash edge (Auxiliary Outputs). -/

namespace Sys2Proof.Machine

/-- Writes the configuration of a line and works the line out again (R172). -/
def State.writeAux (s : State) (l : Fin 8) (new : AuxConfig) : State :=
  (s.onSettings fun c => { c with aux := upd c.aux l fun _ => new }).driveLine l

/-- Serves SET-AUX (R172). -/
def serveSetAux (port : Port) (tag line kind index signal invert flash : Byte) : State → State :=
  takeRequest port .setAux tag true (supervisorOnly port) fun s =>
    match lineOf line, auxSourceOf kind index signal, yesNoOf invert, yesNoOf flash with
    | some l, some source, some inv, some fl =>
      let new : AuxConfig := { source := source, invert := inv, flash := fl }
      if new = s.auxConfig l then s.answer port .setAux tag .already
      else (s.answer port .setAux tag .done).writeAux l new
    | _, _, _, _ => s.answer port .setAux tag .badValue

/-- SET_AUX. -/
def execSetAux (port : Port) (tag line kind index signal invert flash : Byte) (s : State) : Host.Outcome State Fault Refusal :=
  event (serveSetAux port tag line kind index signal invert flash) s

/-- FLASH_EDGE: the count is a multiple of 250 (R171). -/
def execFlashEdge (s : State) : Host.Outcome State Fault Refusal :=
  event (onlyIf (fun s => flashEdgeAt s.timebase) fun s => s.flashLines) s

end Sys2Proof.Machine
end

