-- ==== Sys2Proof/Machine/BandOps.lean ====
section
/-! DEFINITION. The Band Decoder's shared operations: sampling, settling, the band-moved check and the band change (R1 to R15). -/

namespace Sys2Proof.Machine

/-- A band change (R5): stored, then handed to the sequencer, the Route Controller, the Follow Selector and the Link Controller, in this order, so that the BAND report comes last (log 28). -/
def State.changeBand (s : State) (p : Pos) (b : Option Band) (cause : BandCause) : State :=
  let s1 := ((s.onDec p fun d => { d with band := b }).giveFilter p b).dropForBand p b
  (s1.select p .start).report [p] (.band p (s.band p) b (s1.dec p).stable cause)

/-- A band change if the band differs from the one held (R3, R5). -/
def State.applyBand (s : State) (p : Pos) (b : Option Band) (cause : BandCause) : State :=
  if b = s.band p then s else s.changeBand p b cause

/-- A stable pattern departs from the keyed reference on a guard line; from an absent reference it departs on every guard line (R13).
An empty guard mask compares no line, so with it no settle departs, the reference present or absent (R14, log 19). -/
def departs (pattern : BitVec 4) (reference : Option (BitVec 4)) (guard : BitVec 4) : Bool :=
  match reference with
  | none => guard != 0#4
  | some r => (pattern ^^^ r) &&& guard != 0#4

/-- The band-moved check of a settle: only a granted position in LINES source is tested (R3, R13). -/
def State.checkReference (s : State) (p : Pos) (pattern : BitVec 4) : State :=
  if s.granted p && departs pattern (s.dec p).reference (s.place p).guardMask then s.cut p .bandMoved else s

/-- A settle (R2, R3): the raw pattern becomes the stable pattern, the timer stops; in LINES source the reference is checked and then the band looked up. -/
def State.settleBand (s : State) (p : Pos) : State :=
  match (s.dec p).raw with
  | none => s.onDec p fun d => { d with debounce := none }
  | some pattern =>
    let s1 := s.onDec p fun d => { d with stable := some pattern, debounce := none }
    match (s.place p).source with
    | .message => s1
    | .lines => (s1.checkReference p pattern).applyBand p (s.mapBand pattern) .lines

/-- The sampled pattern: the lines at the pins, those outside the line mask read as 0 (R1). -/
def State.sampledPattern (s : State) (p : Pos) : BitVec 4 := s.lines p &&& (s.place p).lineMask

/-- Takes a pattern as the raw pattern and loads the debounce timer, or settles at once with debounce 0 (R1, R10, R15). -/
def State.takePattern (s : State) (p : Pos) (pattern : BitVec 4) : State :=
  if s.settings.debounce = 0 then (s.onDec p fun d => { d with raw := some pattern }).settleBand p
  else s.onDec p fun d => { d with raw := some pattern, debounce := s.load s.settings.debounce }

/-- A sample of the band lines (R1): equal to the raw pattern it changes nothing; the first one after start-up has nothing to be compared with (R15). -/
def State.sampleLines (s : State) (p : Pos) : State :=
  if (s.dec p).raw = some (s.sampledPattern p) then s else s.takePattern p (s.sampledPattern p)

end Sys2Proof.Machine
end

