-- ==== Sys2Proof/Machine/Timing.lean ====
section
/-! DEFINITION. When a timed event is due: its timer has run out, and the part is in the state in which the timer counts.
The events' meanings act only where these hold (log 3), and a part left to itself takes the first event for which one holds (log 2). -/

namespace Sys2Proof.Machine

/-- A settle is due (R2). -/
def State.settleDue (s : State) (p : Pos) : Bool := s.due (s.dec p).debounce

/-- A PTT edge is due (R122). -/
def State.edgeDue (s : State) (p : Pos) : Bool := s.due (s.key p).filter

/-- The phase timer of a sequencer in one phase has run out. -/
def State.phaseDue (s : State) (p : Pos) (phase : Phase) : Bool := (s.seq p).state.shown == phase && s.due (s.seq p).phase

/-- An RF HOT report is due: the drain limit has passed in DRAIN or in HOLDOFF (R114). -/
def State.hotDue (s : State) (p : Pos) : Bool := s.phaseDue p .drain || s.phaseDue p .holdoff

/-- The tap guard has run out in OPENING (R133). -/
def State.tapGuardDue (s : State) (p : Pos) : Bool := (s.key p).state == .opening && s.due (s.key p).tapGuard

/-- The hang has run out in HANG (R135). -/
def State.hangDue (s : State) (p : Pos) : Bool := (s.key p).state == .hang && s.due (s.key p).hang

/-- The max-key timer has run out in ON (R136). -/
def State.maxKeyDue (s : State) (p : Pos) : Bool := (s.key p).state == .on && s.due (s.key p).maxKey

/-- The waiting claim of a position has reached its expiry (R74). -/
def State.claimDue (s : State) (p : Pos) : Bool :=
  match s.waitingClaim p with
  | some (_, c) => s.due c.expiry
  | none => false

/-- The byte-gap timer of a port has run out (R177). -/
def State.gapDue (s : State) (port : Port) : Bool := s.due (s.link port).gap

end Sys2Proof.Machine
end

