-- ==== Sys2Proof/WellFormed.lean ====
section
/-! DEFINITION. Which commands are well formed: a request's list field has the length its payload gives it (Record Formats, "Request payloads"), and a coupler reading lies in the converter's range (R34).
Every other operand's type admits nothing else.
An ill-formed command still has its meaning: a payload of a wrong length is answered BAD_FORMAT (R178), and a reading above full scale converts to full scale (R34). -/

namespace Sys2Proof

/-- The entry bytes of SET-PREF's payload. -/
def prefEntries : Nat := 4

/-- The band bytes of SET-BANDMAP's payload. -/
def bandmapEntries : Nat := 16

/-- The band limit bytes of SET-RULES' payload. -/
def limitEntries : Nat := 6

/-- The command has the form the record formats and the converters give it. -/
def Instr.wellFormed : Instr → Bool
  | .setPref _ _ _ _ _ entries => entries.length == prefEntries
  | .setBandmap _ _ bands _ => bands.length == bandmapEntries
  | .setRules _ _ limits _ _ _ _ => limits.length == limitEntries
  | .couplerSample _ vf vr => decide (vf ≤ Config.fullScale) && decide (vr ≤ Config.fullScale)
  | .ping .. | .query .. | .claim .. | .release .. | .force .. | .setClaims .. | .follow .. | .listen .. => true
  | .setBand .. | .setBanding .. | .setAntenna .. | .clear .. | .setSensing .. | .setSequencing .. | .hold .. => true
  | .setKeying .. | .setExclusion .. | .setAux .. | .save .. | .restart .. => true
  | .byteReceived .. | .framingError .. | .byteGapExpiry .. | .transmitComplete .. => true
  | .bandLinesChange .. | .settle .. | .pttEdge .. | .breakEnd .. | .makeEnd .. | .rfHot .. => true
  | .tapGuardExpiry .. | .hangExpiry .. | .maxKeyExpiry .. | .claimExpired .. | .flashEdge => true
  | .saveWriteEnd .. | .powerOn | .resetLow | .resetRelease | .pttInputChange .. | .powerLost => true

end Sys2Proof
end

