-- ==== Sys2Proof/Machine/Band.lean ====
section
/-! DEFINITION. The Band Decoder's commands: SET-BAND, SET-BANDING, SET-BANDMAP, a change of the band lines, and a settle (Band Data and Band Decoding). -/

namespace Sys2Proof.Machine

/-! ### SET-BAND (R8) -/

/-- The checks of SET-BAND on a position and a band, steps 3 to 5 (R8). -/
def State.bandResult (s : State) (p : Pos) (b : Option Band) : Result :=
  if (s.place p).source = .lines then .wrongSource else if b = s.band p then .already else .done

/-- A SET-BAND answered DONE: a grant is cut BAND_MOVED, then the band changes (R8). -/
def State.moveBand (s : State) (p : Pos) (b : Option Band) : State := (s.cut p .bandMoved).changeBand p b .message

/-- Serves SET-BAND (R8). -/
def serveSetBand (port : Port) (tag position band : Byte) : State → State :=
  takeRequest port .setBand tag true (mayFor port position) fun s =>
    match posOf position, bandOrNoneOf band with
    | some p, some b =>
      let r := s.bandResult p b
      let s' := s.answer port .setBand tag r
      if r = .done then s'.moveBand p b else s'
    | _, _ => s.answer port .setBand tag .badValue

/-- SET_BAND. -/
def execSetBand (port : Port) (tag position band : Byte) (s : State) : Host.Outcome State Fault Refusal :=
  event (serveSetBand port tag position band) s

/-! ### SET-BANDING (R9, R10, R14) -/

/-- The position's three banding values after a SET-BANDING. -/
def PositionConfig.withBanding (c : PositionConfig) (source : Source) (line guard_ : BitVec 4) : PositionConfig :=
  { c with source := source, lineMask := line, guardMask := guard_ }

/-- The effects of a changed source or line mask: the cut, then debounce restarts from the current lines (R10). -/
def State.restartDebounce (s : State) (p : Pos) : State :=
  let s' := s.cut p .bandMoved
  s'.takePattern p (s'.sampledPattern p)

/-- The write of SET-BANDING and what follows from it (R9, R10). -/
def State.writeBanding (s : State) (p : Pos) (new : PositionConfig) : State :=
  let s' := s.onPlace p fun _ => new
  if (s.place p).source = new.source ∧ (s.place p).lineMask = new.lineMask then s' else s'.restartDebounce p

/-- Serves SET-BANDING (R9). -/
def serveSetBanding (port : Port) (tag position source lineMask guardMask : Byte) : State → State :=
  takeRequest port .setBanding tag true (supervisorOnly port) fun s =>
    match posOf position, sourceOf source, lineMaskOf lineMask, lineMaskOf guardMask with
    | some p, some src, some line, some guard_ =>
      let new := (s.place p).withBanding src line guard_
      if new = s.place p then s.answer port .setBanding tag .already
      else (s.answer port .setBanding tag .done).writeBanding p new
    | _, _, _, _ => s.answer port .setBanding tag .badValue

/-- SET_BANDING. -/
def execSetBanding (port : Port) (tag position source lineMask guardMask : Byte) (s : State) : Host.Outcome State Fault Refusal :=
  event (serveSetBanding port tag position source lineMask guardMask) s

/-! ### SET-BANDMAP (R11) -/

/-- The Band Map that sixteen entries give. -/
def mapOf (l : List (Option Band)) : Vector (Option Band) 16 := Vector.ofFn fun i => l.getD i.val none

/-- A new map applied to one position: only in LINES source, and only to a stable pattern that is present (R11).
A position whose restarted debounce still runs after a switch to LINES is among them: R11's "every position" is followed where R7 and R10 step 3 hold the band until the settle,
also when the request changes the debounce time alone (log 29). -/
def State.remap (s : State) (p : Pos) : State :=
  match (s.place p).source, (s.dec p).stable with
  | .lines, some pattern => s.applyBand p (s.mapBand pattern) .map
  | _, _ => s

/-- The write of SET-BANDMAP, and the new map applied at once, in position order (R11, log 15, log 29). -/
def State.writeBandMap (s : State) (map : Vector (Option Band) 16) (debounce : Nat) : State :=
  forEach allPos (fun p s => s.remap p) (s.onSettings fun c => { c with bandMap := map, debounce := debounce })

/-- Serves SET-BANDMAP (R11). -/
def serveSetBandmap (port : Port) (tag : Byte) (bands : List Byte) (debounce : Byte) : State → State :=
  takeRequest port .setBandmap tag (bands.length == bandmapEntries) (supervisorOnly port) fun s =>
    match readAll bandOrNoneOf bands with
    | none => s.answer port .setBandmap tag .badValue
    | some l =>
      let time := clamp 0 250 debounce.toNat
      let same := mapOf l = s.settings.bandMap ∧ time = s.settings.debounce
      let s' := s.answer port .setBandmap tag (settingResult same (time != debounce.toNat))
      if same then s' else s'.writeBandMap (mapOf l) time

/-- SET_BANDMAP. -/
def execSetBandmap (port : Port) (tag : Byte) (bands : List Byte) (debounce : Byte) (s : State) : Host.Outcome State Fault Refusal :=
  event (serveSetBandmap port tag bands debounce) s

/-! ### Events -/

/-- BAND_LINES_CHANGE: the lines move at the pins, and the decoder samples them (R1, log 10). -/
def execBandLinesChange (p : Pos) (lines : BitVec 4) (s : State) : Host.Outcome State Fault Refusal :=
  event (fun s => s.sampleLines p) (s.setLines p lines)

/-- SETTLE: the debounce timer has run out (R2). -/
def execSettle (p : Pos) (s : State) : Host.Outcome State Fault Refusal :=
  event (onlyIf (fun s => s.settleDue p) fun s => s.settleBand p) s

end Sys2Proof.Machine
end

