-- ==== Sys2Proof/Machine/Follow.lean ====
section
/-! DEFINITION. The Follow Selector's commands: FOLLOW and SET-PREF (Follow Lists and Automatic Selection). -/

namespace Sys2Proof.Machine

/-! ### FOLLOW (R87, R88) -/

/-- The answer to FOLLOW: ALREADY only for STOP of a position that does not follow (R87, R88). -/
def State.followResult (s : State) (p : Pos) (action : FollowAction) : Result :=
  if action = .stop ∧ (s.place p).follow = false then .already else .done

/-- Follow goes on (R87). -/
def State.followOn (s : State) (p : Pos) : State := s.onPlace p fun c => { c with follow := true }

/-- The effects of FOLLOW (R87, R88). -/
def State.followAction (s : State) (p : Pos) (action : FollowAction) : State :=
  match action with
  | .start => (s.followOn p).select p .start
  | .resume => (s.followOn p).select p .resume
  | .stop => s.followOff p

/-- Serves FOLLOW (R87). -/
def serveFollow (port : Port) (tag position action : Byte) : State → State :=
  takeRequest port .follow tag true (mayFor port position) fun s =>
    match posOf position, actionOf action with
    | some p, some act => (s.answer port .follow tag (s.followResult p act)).followAction p act
    | _, _ => s.answer port .follow tag .badValue

/-- FOLLOW. -/
def execFollow (port : Port) (tag position action : Byte) (s : State) : Host.Outcome State Fault Refusal :=
  event (serveFollow port tag position action) s

/-! ### SET-PREF (R85, R86) -/

/-- The entries of a SET-PREF list: those its count covers, each an antenna (R86 step 1, R197). -/
def prefList (count : Byte) (entries : List Byte) : Option (List Ant) :=
  if prefEntries < count.toNat then none else readAll antOf (entries.take count.toNat)

/-- The checks of SET-PREF on its list, steps 2 to 5 (R86). -/
def State.prefResult (s : State) (p : Pos) (b : Band) (l : List Ant) : Result :=
  if hasDuplicate l then .badValue
  else if l.any (fun a => !(s.config a).serves b) then .bandMismatch
  else if l = s.prefs p b then .already
  else .done

/-- Writes a preference list (R86). -/
def State.writePrefs (s : State) (p : Pos) (b : Band) (l : List Ant) : State :=
  s.onPlace p fun c => { c with prefs := upd c.prefs b.slot fun _ => l }

/-- Serves SET-PREF (R86). -/
def serveSetPref (port : Port) (tag position band count : Byte) (entries : List Byte) : State → State :=
  takeRequest port .setPref tag (entries.length == prefEntries) (mayFor port position) fun s =>
    match posOf position, bandOf band, prefList count entries with
    | some p, some b, some l =>
      let s' := s.answer port .setPref tag (s.prefResult p b l)
      if s.prefResult p b l = .done then s'.writePrefs p b l else s'
    | _, _, _ => s.answer port .setPref tag .badValue

/-- SET_PREF. -/
def execSetPref (port : Port) (tag position band count : Byte) (entries : List Byte) (s : State) : Host.Outcome State Fault Refusal :=
  event (serveSetPref port tag position band count entries) s

end Sys2Proof.Machine
end

