-- ==== Sys2Proof/Machine/Keying.lean ====
section
/-! DEFINITION. The Transmit Arbiter's commands: HOLD, SET-KEYING, SET-RULES, SET-EXCLUSION, the PTT input and the key timers (Transmit Arbitration). -/

namespace Sys2Proof.Machine

/-! ### HOLD (R142, R143) -/

/-- HOLD goes on: every granted position is cut, in position order, with no walk (R142). HOLD goes off: the list is walked (R143). -/
def State.changeHold (s : State) (on : Bool) : State :=
  if on then forEach allPos (fun p s => s.cutQuietly p .hold none) (s.setHold true) else (s.setHold false).walk

/-- Serves HOLD (R142). -/
def serveHold (port : Port) (tag value : Byte) : State → State :=
  takeRequest port .hold tag true (supervisorOnly port) fun s =>
    match yesNoOf value with
    | some on => if on = s.holdOn then s.answer port .hold tag .already else (s.answer port .hold tag .done).changeHold on
    | none => s.answer port .hold tag .badValue

/-- HOLD. -/
def execHold (port : Port) (tag value : Byte) (s : State) : Host.Outcome State Fault Refusal :=
  event (serveHold port tag value) s

/-! ### SET-KEYING (R144, R145) -/

/-- What follows from a precedence set to 0: the key is cut or denied, and the waiting claim dropped (R145, R79). -/
def State.park (s : State) (p : Pos) : State := (s.cutOrDeny p .parked).dropClaim p .parked

/-- The write of SET-KEYING (R144, R145). -/
def State.writeKeying (s : State) (p : Pos) (new : PositionConfig) : State :=
  let s' := s.onPlace p fun _ => new
  if (s.place p).precedence ≠ 0 ∧ new.precedence = 0 then s'.park p else s'

/-- Serves SET-KEYING (R144). -/
def serveSetKeying (port : Port) (tag position precedence : Byte) (hang maxKey : Half) : State → State :=
  takeRequest port .setKeying tag true (supervisorOnly port) fun s =>
    match posOf position, precedenceOf precedence with
    | some p, some level =>
      let h := clamp 0 2000 hang.toNat
      let m := clamp 0 600 maxKey.toNat
      let new := { s.place p with precedence := level, hang := h, maxKey := m }
      let r := settingResult (new = s.place p) (h != hang.toNat || m != maxKey.toNat)
      (s.answer port .setKeying tag r).writeKeying p new
    | _, _ => s.answer port .setKeying tag .badValue

/-- SET_KEYING. -/
def execSetKeying (port : Port) (tag position precedence : Byte) (hang maxKey : Half) (s : State) : Host.Outcome State Fault Refusal :=
  event (serveSetKeying port tag position precedence hang maxKey) s

/-! ### SET-RULES (R146, R147) -/

/-- The ten values of SET-RULES written into the settings. -/
def Settings.withRules (c : Settings) (limits : Vector Nat 6) (total : Nat) (order : GrantOrder) (preempt : Bool) (tapGuard : Nat) : Settings :=
  { c with bandLimits := limits, stationTotal := total, order := order, preempt := preempt, tapGuard := tapGuard }

/-- A position is QUEUED on a band that the rules close. -/
def State.onClosedBand (s : State) (p : Pos) : Bool :=
  match s.band p with
  | some b => (s.key p).state == .queued && s.limit b == 0
  | none => false

/-- The QUEUED positions whose band now has limit 0 are denied, in list order (R147 step 2). -/
def State.denyClosed (s : State) : State :=
  forEach (s.waiting.filter s.onClosedBand) (fun p s => s.deny p .bandClosed) s

/-- The write of SET-RULES and what follows it (R147). -/
def State.writeRules (s : State) (new : Settings) : State :=
  let s1 := s.onSettings fun _ => new
  let s2 := if s.settings.order = new.order then s1 else s1.setPointer 5
  s2.denyClosed.walk

/-- The six limits of a SET-RULES, clamped (R146). -/
def limitsOf (limits : List Byte) : Vector Nat 6 := Vector.ofFn fun i => clamp 0 2 (limits.getD i.val 0#8).toNat

/-- A band limit of a SET-RULES lies above its range (R146). -/
def limitsClamped (limits : List Byte) : Bool := limits.any fun b => decide (2 < b.toNat)

/-- Serves SET-RULES (R146). -/
def serveSetRules (port : Port) (tag : Byte) (limits : List Byte) (total order preempt tapGuard : Byte) : State → State :=
  takeRequest port .setRules tag (limits.length == limitEntries) (supervisorOnly port) fun s =>
    match orderOf order, yesNoOf preempt with
    | some o, some pre =>
      let t := clamp 1 6 total.toNat
      let g := clamp 2 20 tapGuard.toNat
      let new := s.settings.withRules (limitsOf limits) t o pre g
      let s' := s.answer port .setRules tag
        (settingResult (new = s.settings) (limitsClamped limits || t != total.toNat || g != tapGuard.toNat))
      if new = s.settings then s' else s'.writeRules new
    | _, _ => s.answer port .setRules tag .badValue

/-- SET_RULES. -/
def execSetRules (port : Port) (tag : Byte) (limits : List Byte) (total order preempt tapGuard : Byte) (s : State) :
    Host.Outcome State Fault Refusal :=
  event (serveSetRules port tag limits total order preempt tapGuard) s

/-! ### SET-EXCLUSION (R148) -/

/-- The checks of SET-EXCLUSION on a pair, steps 4 to 7, with the set the request leaves (R148). -/
def addPair (set : List (Ant × Ant)) (pair : Ant × Ant) : Result × List (Ant × Ant) :=
  if set.contains pair then (.already, set)
  else if Config.exclusionPlaces ≤ set.length then (.exclusionsFull, set)
  else (.done, set ++ [pair])

/-- REMOVE of a pair (R148). -/
def removePair (set : List (Ant × Ant)) (pair : Ant × Ant) : Result × List (Ant × Ant) :=
  if set.contains pair then (.done, set.filter fun x => x != pair) else (.already, set)

/-- The result of a SET-EXCLUSION, and the set it leaves (R148). The antennas of CLEAR_ALL are not read. -/
def exclusionResult (set : List (Ant × Ant)) (operation first second : Byte) : Result × List (Ant × Ant) :=
  match exclusionOpOf operation with
  | none => (.badValue, set)
  | some .clearAll => if set.isEmpty then (.already, set) else (.done, [])
  | some op =>
    match antOf first, antOf second with
    | some a, some b =>
      if a = b then (.badValue, set)
      else if op = .add then addPair set (exclusionPair a b)
      else removePair set (exclusionPair a b)
    | _, _ => (.badValue, set)

/-- Serves SET-EXCLUSION (R148). -/
def serveSetExclusion (port : Port) (tag operation first second : Byte) : State → State :=
  takeRequest port .setExclusion tag true (supervisorOnly port) fun s =>
    let r := exclusionResult s.settings.exclusions operation first second
    let s' := s.answer port .setExclusion tag r.1
    if r.1 = .done then (s'.onSettings fun c => { c with exclusions := r.2 }).walk else s'

/-- SET_EXCLUSION. -/
def execSetExclusion (port : Port) (tag operation first second : Byte) (s : State) : Host.Outcome State Fault Refusal :=
  event (serveSetExclusion port tag operation first second) s

/-! ### The PTT input (R122) -/

/-- A sample of the PTT input (R122): a differing one starts the filter timer if it is stopped, an equal one stops it. -/
def State.samplePtt (s : State) (p : Pos) : State :=
  if s.ptt p = (s.key p).level then s.onKey p fun k => { k with filter := none }
  else if (s.key p).filter.isSome then s
  else s.onKey p fun k => { k with filter := s.load Config.pttFilter }

/-- PTT_INPUT_CHANGE: the input moves at the pin, and the filter samples it (R122, log 10). -/
def execPttInputChange (p : Pos) (asserted : Bool) (s : State) : Host.Outcome State Fault Refusal :=
  event (fun s => s.samplePtt p) (s.setPtt p asserted)

/-- A grant ends by release or by the hang, into OFF, and the list is walked (R133 to R135, R137). -/
def State.releaseGrant (s : State) (p : Pos) : State := (s.endGrant p .off).walk

/-- A PTT release in ON: HANG with its timer, or the end of the grant where the hang is 0 (R134). -/
def State.releaseOn (s : State) (p : Pos) : State :=
  if (s.place p).hang = 0 then s.releaseGrant p
  else s.onKey p fun k => { k with state := .hang, maxKey := none, hang := s.load (s.place p).hang }

/-- What an assertion does in each key state (R123, R135). -/
def State.assertKey (s : State) (p : Pos) : State :=
  match (s.key p).state with
  | .off => s.checkKey p
  | .hang => s.enterOn p
  | .pending | .queued | .opening | .on | .blocked => s

/-- What a release does in each key state (R124 to R126, R133, R134). -/
def State.releaseKey (s : State) (p : Pos) : State :=
  match (s.key p).state with
  | .pending | .blocked => s.onKey p fun k => { k with state := .off }
  | .queued => s.leaveList p .off
  | .opening => s.releaseGrant p
  | .on => s.releaseOn p
  | .off | .hang => s

/-- A PTT edge: the level takes the new value, and the key state takes the edge (R122). -/
def State.pttEdge (s : State) (p : Pos) : State :=
  let s' := s.onKey p fun k => { k with level := !k.level, filter := none }
  if (s.key p).level then s'.releaseKey p else s'.assertKey p

/-- PTT_EDGE: the filter timer has run out (R122). -/
def execPttEdge (p : Pos) (s : State) : Host.Outcome State Fault Refusal :=
  event (onlyIf (fun s => s.edgeDue p) fun s => s.pttEdge p) s

/-! ### The key timers (R133, R135, R136) -/

/-- TAP_GUARD_EXPIRY: OPENING ends in ON (R133). -/
def execTapGuardExpiry (p : Pos) (s : State) : Host.Outcome State Fault Refusal :=
  event (onlyIf (fun s => s.tapGuardDue p) fun s => s.enterOn p) s

/-- HANG_EXPIRY: the grant ends into OFF (R135). -/
def execHangExpiry (p : Pos) (s : State) : Host.Outcome State Fault Refusal :=
  event (onlyIf (fun s => s.hangDue p) fun s => s.releaseGrant p) s

/-- MAX_KEY_EXPIRY: the grant is cut STUCK (R136). -/
def execMaxKeyExpiry (p : Pos) (s : State) : Host.Outcome State Fault Refusal :=
  event (onlyIf (fun s => s.maxKeyDue p) fun s => s.cut p .stuck) s

end Sys2Proof.Machine
end

