-- ==== Sys2Proof/Machine/Query.lean ====
section
/-! DEFINITION. PING and QUERY (Message Links, "Answers"; R32, R47, R152). -/

namespace Sys2Proof.Machine

/-- Serves PING (R182). -/
def servePing (port : Port) (tag : Byte) : State → State :=
  takeRequest port .ping tag true true fun s => s.answerRaw port Request.ping.code tag .done (.ping s.timebase)

/-- PING. -/
def execPing (port : Port) (tag : Byte) (s : State) : Host.Outcome State Fault Refusal :=
  event (servePing port tag) s

/-- The data of a position (R183). -/
def State.positionView (s : State) (p : Pos) : PositionView :=
  { code := (s.dec p).stable, band := s.band p, source := (s.place p).source, routeAntenna := s.routeAntenna p,
    routeStatus := s.routeStatus p, phase := (s.seq p).state.shown, key := (s.key p).state, follow := (s.place p).follow,
    waitingClaim := s.waitsOn p, listen := s.listen p, precedence := (s.place p).precedence }

/-- The data of an antenna (R32). -/
def State.antennaView (s : State) (a : Ant) : AntennaView :=
  { config := s.config a, record := s.ant a, queue := (s.claims a).map fun c => (c.position, c.origin), listeners := s.listeners a }

/-- The data of the station (R152). -/
def State.stationView (s : State) : StationView :=
  { hold := s.holdOn, limits := s.settings.bandLimits.toList, total := s.settings.stationTotal, order := s.settings.order,
    preempt := s.settings.preempt, granted := allBands.map fun b => s.countOnBand s.grantedSet b, waiting := s.waiting,
    pointer := s.pointer, time := s.timebase }

/-- The data of a QUERY whose fields pass its checks, and the antenna whose peak it resets, or `none` for BAD_VALUE (R183 steps 1 to 4). -/
def State.queryData (s : State) (subject index peakReset : Byte) : Option (AnswerData × Option Ant) :=
  match subjectOf subject, yesNoOf peakReset with
  | some .position, some false => (posOf index).map fun p => (.position (s.positionView p), none)
  | some .antenna, some reset => (antOf index).map fun a => (.antenna (s.antennaView a), if reset then some a else none)
  | some .station, some false => if index.toNat = 0 then some (.station s.stationView, none) else none
  | _, _ => none

/-- Sets the peak of an antenna to 0 (R47). -/
def State.resetPeak (s : State) (a : Option Ant) : State :=
  match a with
  | some a => s.onAnt a fun r => { r with peak := 0 }
  | none => s

/-- A console may not ask for a peak reset, whatever the subject (R179). -/
def mayQuery (port : Port) (peakReset : Byte) : Bool := port == supervisorPort || peakReset.toNat != 1

/-- Serves QUERY (R183): the answer carries the data as they stand, then the peak is reset if asked (R47). -/
def serveQuery (port : Port) (tag subject index peakReset : Byte) : State → State :=
  takeRequest port .query tag true (mayQuery port peakReset) fun s =>
    match s.queryData subject index peakReset with
    | some (data, reset) => (s.answerRaw port Request.query.code tag .done data).resetPeak reset
    | none => s.answer port .query tag .badValue

/-- QUERY. -/
def execQuery (port : Port) (tag subject index peakReset : Byte) (s : State) : Host.Outcome State Fault Refusal :=
  event (serveQuery port tag subject index peakReset) s

end Sys2Proof.Machine
end

