-- ==== Sys2Proof/Machine/Records.lean ====
section
/-! DEFINITION. The byte layouts of Record Formats: the code of every enumerated value, the payload of every answer and report, and the frame each record is sent as (R198). -/

namespace Sys2Proof.Machine

/-! ### Numbers and names as bytes -/

/-- A one-byte field. -/
def byteOf (n : Nat) : Byte := BitVec.ofNat 8 n

/-- A two-byte field, low byte first (R197). -/
def twoBytes (n : Nat) : List Byte := [byteOf n, byteOf (n / 256)]

/-- A four-byte field, low byte first (R197). -/
def fourBytes (c : Count) : List Byte := [c.extractLsb' 0 8, c.extractLsb' 8 8, c.extractLsb' 16 8, c.extractLsb' 24 8]

/-- A yes-or-no field (R197). -/
def flagByte (b : Bool) : Byte := if b then 1#8 else 0#8

/-- A position field: 1 to 6. -/
def posByte (p : Pos) : Byte := byteOf (p.val + 1)

/-- An antenna field: 1 to 12. -/
def antByte (a : Ant) : Byte := byteOf (a.val + 1)

/-- A position field in which 0 means none. -/
def posOrZero (p : Option Pos) : Byte := match p with | some p => posByte p | none => 0#8

/-- An antenna field in which 0 means none. -/
def antOrZero (a : Option Ant) : Byte := match a with | some a => antByte a | none => 0#8

/-- A band field, and a filter field: 0 is NONE, and THRU. -/
def bandByte (b : Option Band) : Byte := match b with | some b => byteOf b.index | none => 0#8

/-- A band code field: 255 while no pattern has settled (R198). -/
def codeByte (c : Option (BitVec 4)) : Byte := match c with | some c => byteOf c.toNat | none => 0xFF#8

/-- A list in a field of fixed size: its entries, then zeros (R198). -/
def padded (n : Nat) (l : List Byte) : List Byte := l ++ List.replicate (n - l.length) 0#8

/-! ### Enumerations -/

/-- Band source codes. -/
def Source.code : Source → Byte | .lines => 0#8 | .message => 1#8
/-- BAND cause codes. -/
def BandCause.code : BandCause → Byte | .lines => 1#8 | .message => 2#8 | .map => 3#8
/-- Service state codes. -/
def Service.code : Service → Byte | .inService => 0#8 | .tripped => 1#8 | .outOfService => 2#8
/-- Configured service codes. -/
def Configured.code (c : Configured) : Byte := c.service.code
/-- ANTENNA SERVICE cause codes. -/
def ServiceCause.code : ServiceCause → Byte | .set => 1#8 | .clear => 2#8
/-- Trip cause codes. -/
def TripCause.code : TripCause → Byte | .swr => 1#8 | .overpower => 2#8 | .hotSwitch => 3#8
/-- Route status codes. -/
def RouteStatus.code : RouteStatus → Byte | .none => 0#8 | .active => 1#8 | .changing => 2#8
/-- ROUTE reason codes. -/
def RouteReason.code : RouteReason → Byte | .settled => 1#8 | .noAntenna => 2#8
/-- Sequencer state codes, and RF phase codes. -/
def Phase.code : Phase → Byte | .idle => 0#8 | .drain => 1#8 | .brk => 2#8 | .holdoff => 3#8 | .make => 4#8
/-- Codes of what an RF HOT report waits on. -/
def WaitingOn.code : WaitingOn → Byte | .rf => 1#8 | .connected => 2#8 | .both => 3#8
/-- Key state codes. -/
def KeyState.code : KeyState → Byte
  | .off => 0#8 | .pending => 1#8 | .queued => 2#8 | .opening => 3#8 | .on => 4#8 | .hang => 5#8 | .blocked => 6#8
/-- Key reason codes. -/
def KeyReason.code : KeyReason → Byte
  | .tripped => 21#8 | .bandMismatch => 22#8 | .parked => 25#8 | .bandClosed => 33#8 | .noBand => 40#8 | .noRoute => 41#8
  | .routeChange => 48#8 | .bandMoved => 49#8 | .stuck => 50#8 | .hold => 51#8 | .preempted => 52#8
/-- Origin codes. -/
def Origin.code : Origin → Byte | .console => 1#8 | .supervisor => 2#8 | .follow => 3#8
/-- An origin field in which 0 means none. -/
def originByte (o : Option Origin) : Byte := match o with | some o => o.code | none => 0#8
/-- Manner codes. -/
def Manner.code : Manner → Byte | .immediate => 1#8 | .queue => 2#8 | .force => 3#8
/-- Withdrawal cause codes. -/
def WithdrawCause.code : WithdrawCause → Byte | .release => 1#8 | .followOff => 2#8
/-- Claim reason codes. -/
def ClaimReason.code : ClaimReason → Byte
  | .band => 1#8 | .tripped => 2#8 | .outOfService => 3#8 | .parked => 4#8 | .forced => 5#8
/-- Order codes. -/
def GrantOrder.code : GrantOrder → Byte | .arrival => 0#8 | .rotate => 1#8
/-- TAP action codes. -/
def TapAction.code : TapAction → Byte | .taken => 1#8 | .freed => 2#8
/-- TAP cause codes. -/
def TapCause.code : TapCause → Byte | .listen => 1#8 | .owner => 2#8 | .outOfService => 3#8
/-- START cause codes. -/
def StartCause.code : StartCause → Byte | .power => 1#8 | .line => 2#8 | .request => 3#8
/-- Store status codes. -/
def StoreStatus.code : StoreStatus → Byte | .loaded => 1#8 | .defaults => 2#8
/-- Result codes (00_scope.md, "Result codes"). -/
def Result.code : Result → Byte
  | .done => 0#8 | .already => 1#8 | .waiting => 2#8 | .clamped => 3#8 | .notPermitted => 16#8 | .badValue => 17#8
  | .badFormat => 18#8 | .unknown => 19#8 | .outOfService => 20#8 | .tripped => 21#8 | .bandMismatch => 22#8 | .busy => 24#8
  | .parked => 25#8 | .tapsFull => 26#8 | .ownAntenna => 27#8 | .wrongSource => 28#8 | .rfPresent => 29#8
  | .storeBusy => 30#8 | .exclusionsFull => 31#8 | .storeFault => 32#8

/-! ### Answer payloads -/

/-- The identity fields of PING and START: part code and revision (R182, R195). -/
def identity : List Byte := twoBytes Config.partCode ++ [byteOf Config.revision]

/-- The data of QUERY POSITION (Record Formats). -/
def PositionView.bytes (v : PositionView) : List Byte :=
  [codeByte v.code, bandByte v.band, v.source.code, antOrZero v.routeAntenna, v.routeStatus.code, v.phase.code, v.key.code,
   flagByte v.follow, antOrZero v.waitingClaim, antOrZero v.listen, byteOf v.precedence.val]

/-- The nine configuration fields of an antenna (Record Formats, offsets 1 to 11). -/
def AntennaConfig.bytes (c : AntennaConfig) : List Byte :=
  [c.bandMask] ++ twoBytes c.maxPower ++ [byteOf c.swrLimit] ++ twoBytes c.kf
    ++ [byteOf c.c, byteOf c.zf, byteOf c.zr, byteOf c.settle, c.configured.code]

/-- The trip record, all zero when absent (R198). -/
def tripBytes (t : Option TripRecord) : List Byte :=
  match t with
  | some t => [t.cause.code] ++ twoBytes t.pf ++ twoBytes t.swr ++ [posOrZero t.owner] ++ fourBytes t.time
  | none => List.replicate 10 0#8

/-- The claim queue with its count: five positions, then their five origins (Record Formats, offsets 15 to 25). -/
def queueBytes (queue : List (Pos × Origin)) : List Byte :=
  [byteOf queue.length] ++ padded 5 (queue.map fun c => posByte c.1) ++ padded 5 (queue.map fun c => c.2.code)

/-- The readings (Record Formats, offsets 28 to 36). -/
def AntennaRecord.readingBytes (r : AntennaRecord) : List Byte :=
  twoBytes r.pf ++ twoBytes r.pr ++ twoBytes r.swr ++ twoBytes r.peak ++ [flagByte r.presence]

/-- The data of QUERY ANTENNA (Record Formats). -/
def AntennaView.bytes (v : AntennaView) : List Byte :=
  v.config.bytes ++ [v.record.service.code, posOrZero v.record.owner, posOrZero v.record.connected] ++ queueBytes v.queue
    ++ padded 2 (v.listeners.map posByte) ++ v.record.readingBytes ++ tripBytes v.record.trip

/-- The data of QUERY STATION (Record Formats). -/
def StationView.bytes (v : StationView) : List Byte :=
  [flagByte v.hold] ++ v.limits.map byteOf ++ [byteOf v.total, v.order.code, flagByte v.preempt] ++ v.granted.map byteOf
    ++ [byteOf v.waiting.length] ++ padded 6 (v.waiting.map posByte) ++ [posByte v.pointer] ++ fourBytes v.time

/-- The data after the result. -/
def AnswerData.bytes : AnswerData → List Byte
  | .nothing => []
  | .ping t => identity ++ fourBytes t
  | .position v => v.bytes
  | .antenna v => v.bytes
  | .station v => v.bytes

/-- The payload of an answer: the result code, then the data (R198). -/
def Answer.payload (a : Answer) : List Byte := a.result.code :: a.data.bytes

/-! ### Report payloads -/

/-- The TYPE code of a report (Record Formats, "Type codes"). -/
def ReportBody.type : ReportBody → Byte
  | .band .. => 0x40#8 | .route .. => 0x41#8
  | .keyQueued .. | .keyGranted .. | .keyDenied .. | .keyCut .. => 0x42#8
  | .claim .. => 0x43#8 | .tap .. => 0x44#8 | .trip .. => 0x45#8 | .service .. => 0x46#8
  | .rfUnkeyed .. | .rfStray .. | .rfHot .. => 0x47#8
  | .start .. => 0x48#8

/-- CLAIM sub-kind codes. -/
def ClaimEvent.code : ClaimEvent → Byte
  | .queued .. => 1#8 | .granted .. => 2#8 | .superseded .. => 3#8 | .withdrawn .. => 4#8 | .expired => 5#8
  | .dropped .. => 6#8 | .released => 7#8 | .removed .. => 8#8

/-- The two detail fields of a CLAIM report (Record Formats). -/
def ClaimEvent.details : ClaimEvent → List Byte
  | .queued owner place => [posOrZero owner, byteOf place]
  | .granted manner previous => [manner.code, antOrZero previous]
  | .superseded by_ => [antByte by_, 0#8]
  | .withdrawn cause => [cause.code, 0#8]
  | .expired | .released => [0#8, 0#8]
  | .dropped reason | .removed reason => [reason.code, 0#8]

/-- The band and the antenna of a grant, none where there is no grant. -/
def grantBytes (g : Option Grant) : List Byte := [bandByte (g.map Grant.band), antOrZero (g.map Grant.antenna)]

/-- A quiet time field: 65535 if greater (R49, R198). -/
def quietBytes (quiet : Nat) : List Byte := twoBytes (min 65535 quiet)

/-- The fields of a report between its flags byte and its time (Record Formats, "Report payloads"). A tap slot is written 1 or 2. -/
def ReportBody.fields : ReportBody → List Byte
  | .band p previous next code cause => [posByte p, bandByte previous, bandByte next, codeByte code, cause.code]
  | .route p b filter antenna status reason =>
    [posByte p, bandByte b, bandByte filter, antOrZero antenna, status.code, reason.code]
  | .keyQueued p b antenna place => [1#8, posByte p, bandByte b, antOrZero antenna, byteOf place, 0#8]
  | .keyGranted p b antenna entered => [2#8, posByte p, bandByte (some b), antByte antenna, entered.code, 0#8]
  | .keyDenied p reason b antenna => [3#8, posByte p, bandByte b, antOrZero antenna, reason.code, 0#8]
  | .keyCut p reason grant preempting => [4#8, posByte p] ++ grantBytes grant ++ [reason.code, posOrZero preempting]
  | .claim event a p origin => [event.code, antByte a, posByte p, originByte origin] ++ event.details
  | .tap a second p action cause => [antByte a, if second then 2#8 else 1#8, posByte p, action.code, cause.code]
  | .trip a record => [antByte a, record.cause.code] ++ twoBytes record.pf ++ twoBytes record.swr ++ [posOrZero record.owner]
  | .service a previous next cause => [antByte a, previous.code, next.code, cause.code]
  | .rfUnkeyed a p pf pr quiet =>
    [1#8, antByte a, posByte p, 0#8, 0#8, 0#8] ++ twoBytes pf ++ twoBytes pr ++ quietBytes quiet
  | .rfStray a owner pf pr => [2#8, antByte a, posOrZero owner, 0#8, 0#8, 0#8] ++ twoBytes pf ++ twoBytes pr ++ twoBytes 0
  | .rfHot a p phase on connected pf pr =>
    [3#8, antOrZero a, posByte p, phase.code, on.code, posOrZero connected] ++ twoBytes pf ++ twoBytes pr ++ twoBytes 0
  | .start cause status => [cause.code, status.code] ++ identity

/-- The payload of a report sent with a LOST indication: the flags byte, the fields, the time (R198). -/
def Report.payload (r : Report) (lost : Bool) : List Byte := flagByte lost :: (r.body.fields ++ fourBytes r.time)

/-! ### Frames -/

/-- The sum of bytes, modulo 256. -/
def byteSum (l : List Byte) : Byte := l.foldr (fun b acc => b + acc) 0#8

/-- LEN, TYPE, TAG and the payload of a frame, which CHECK closes. -/
def frameBody (type tag : Byte) (payload : List Byte) : List Byte := byteOf (payload.length + 2) :: type :: tag :: payload

/-- A whole frame: the start byte, the body, and the CHECK that makes the body and itself sum to 0 (R198). -/
def frameOf (type tag : Byte) (payload : List Byte) : List Byte :=
  Config.startByte :: (frameBody type tag payload ++ [0#8 - byteSum (frameBody type tag payload)])

/-- The frame a transmission sends (R185, R187, R198). A report carries TAG 0. -/
def Transmission.frame (t : Transmission) : List Byte :=
  match t.record with
  | .answer a => frameOf a.type a.tag a.payload
  | .report r => frameOf r.body.type 0#8 (r.payload t.lost)

/-- What a port's transmit line carries: the frame being sent, nothing while the transmitter is idle or the part does not run. -/
def State.wire (s : State) (port : Port) : List Byte :=
  if s.running then
    match (s.link port).transmitter with
    | some t => t.frame
    | none => []
  else []

end Sys2Proof.Machine
end

