-- ==== Sys2Proof/Machine/Route.lean ====
section
/-! DEFINITION. The Route Controller's commands: CLAIM, RELEASE, FORCE, SET-CLAIMS, and the lapse of a claim (Claims and Ownership). -/

namespace Sys2Proof.Machine

/-! ### CLAIM (R62 to R66) -/

/-- The origin of a claim that a request places (R57). -/
def requestOrigin (port : Port) : Origin := if port = supervisorPort then .supervisor else .console

/-- Serves CLAIM (R62): the answer, the effects of R63 and R64, then follow off (R65). -/
def serveClaim (port : Port) (tag position antenna nowait : Byte) : State → State :=
  takeRequest port .claim tag true (mayFor port position) fun s =>
    match posOf position, antOf antenna, yesNoOf nowait with
    | some p, some a, some now_ =>
      let r := s.claimCheck p a now_
      let s' := (s.answer port .claim tag r).placeClaim p a (requestOrigin port) r
      if r.accepted then s'.followOff p else s'
    | _, _, _ => s.answer port .claim tag .badValue

/-- CLAIM. -/
def execClaim (port : Port) (tag position antenna nowait : Byte) (s : State) : Host.Outcome State Fault Refusal :=
  event (serveClaim port tag position antenna nowait) s

/-! ### RELEASE (R67, R68) -/

/-- The choice includes the waiting claim. -/
def ReleaseWhat.claims : ReleaseWhat → Bool
  | .route => false
  | .claim | .all => true

/-- The choice includes the route. -/
def ReleaseWhat.routes : ReleaseWhat → Bool
  | .claim => false
  | .route | .all => true

/-- The answer to RELEASE: DONE if a claim is removed or an antenna released (R67). -/
def State.releaseResult (s : State) (p : Pos) (what : ReleaseWhat) : Result :=
  if (what.claims && (s.waitingClaim p).isSome) || (what.routes && (s.owned p).isSome) then .done else .already

/-- The three steps of RELEASE (R67). -/
def State.release (s : State) (p : Pos) (what : ReleaseWhat) : State :=
  let s1 := if what.claims then s.removeWaiting p (.withdrawn .release) else s
  let s2 := s1.followOff p
  if what.routes then s2.releaseOwned p else s2

/-- Serves RELEASE (R67). -/
def serveRelease (port : Port) (tag position what : Byte) : State → State :=
  takeRequest port .release tag true (mayFor port position) fun s =>
    match posOf position, whatOf what with
    | some p, some w => (s.answer port .release tag (s.releaseResult p w)).release p w
    | _, _ => s.answer port .release tag .badValue

/-- RELEASE. -/
def execRelease (port : Port) (tag position what : Byte) (s : State) : Host.Outcome State Fault Refusal :=
  event (serveRelease port tag position what) s

/-! ### FORCE (R69 to R71) -/

/-- The checks of FORCE, steps 2 to 7 (R69). -/
def State.forceResult (s : State) (a : Ant) (target : Option Pos) : Result :=
  match (s.ant a).service, target with
  | .outOfService, _ => .outOfService
  | _, none => if (s.ant a).owner.isNone then .already else .done
  | .tripped, some _ => .tripped
  | .inService, some q =>
    if (s.place q).precedence = 0 then .parked
    else if !(s.config a).fits (s.band q) then .bandMismatch
    else if (s.ant a).owner == some q then .already
    else .done

/-- The claim of the new owner on the forced antenna is removed as being granted, and one elsewhere is superseded (R70 step 1). -/
def State.forceClaims (s : State) (q : Pos) (a : Ant) : State :=
  if s.waitsOn q == some a then s.removeClaim q a else s.supersede q a

/-- The owner of a forced antenna is removed, with CLAIM REMOVED (R70 step 3, R71). -/
def State.forceOut (s : State) (a : Ant) (owner : Option Pos) : State :=
  match owner with
  | some o => (s.removeOwner o a).claimReport a o (some .supervisor) (.removed .forced)
  | none => s

/-- A position that has lost its antenna to a FORCE re-selects (R70 step 6, R71). -/
def State.reselect (s : State) (owner : Option Pos) : State :=
  match owner with
  | some o => s.select o .resume
  | none => s

/-- FORCE to a position, steps 1 to 6 (R70). -/
def State.forceTo (s : State) (a : Ant) (q : Pos) : State :=
  let owner := (s.ant a).owner
  let previous := s.ownedOther q a
  let s1 := (s.forceClaims q a).onPlace q fun c => { c with follow := false }
  let s2 := (s1.forceOut a owner).makeOwner q a .supervisor .force previous
  (s2.servePrevious previous).reselect owner

/-- FORCE to none (R71). -/
def State.forceNone (s : State) (a : Ant) : State :=
  let owner := (s.ant a).owner
  ((s.forceOut a owner).serve a).reselect owner

/-- The effects of FORCE (R70, R71). -/
def State.force (s : State) (a : Ant) (target : Option Pos) : State :=
  match target with
  | some q => s.forceTo a q
  | none => s.forceNone a

/-- Serves FORCE (R69). -/
def serveForce (port : Port) (tag antenna position : Byte) : State → State :=
  takeRequest port .force tag true (supervisorOnly port) fun s =>
    match antOf antenna, posOrNoneOf position with
    | some a, some target =>
      let s' := s.answer port .force tag (s.forceResult a target)
      if s.forceResult a target = .done then s'.force a target else s'
    | _, _ => s.answer port .force tag .badValue

/-- FORCE. -/
def execForce (port : Port) (tag antenna position : Byte) (s : State) : Host.Outcome State Fault Refusal :=
  event (serveForce port tag antenna position) s

/-! ### SET-CLAIMS (R72, R73) -/

/-- Serves SET-CLAIMS (R73). -/
def serveSetClaims (port : Port) (tag : Byte) (lifetime : Half) : State → State :=
  takeRequest port .setClaims tag true (supervisorOnly port) fun s =>
    let l := clamp 0 3600 lifetime.toNat
    let r := settingResult (l = s.settings.claimLifetime) (l != lifetime.toNat)
    (s.onSettings fun c => { c with claimLifetime := l }).answer port .setClaims tag r

/-- SET_CLAIMS. -/
def execSetClaims (port : Port) (tag : Byte) (lifetime : Half) (s : State) : Host.Outcome State Fault Refusal :=
  event (serveSetClaims port tag lifetime) s

/-! ### The lapse of a claim (R74) -/

/-- CLAIM_EXPIRED: the waiting claim of a position has reached its expiry (R74). -/
def execClaimExpired (p : Pos) (s : State) : Host.Outcome State Fault Refusal :=
  event (onlyIf (fun s => s.claimDue p) fun s => s.removeWaiting p .expired) s

end Sys2Proof.Machine
end

