-- ==== Sys2Proof/Machine/Saving.lean ====
section
/-! DEFINITION. The Settings Store's commands: SAVE, the end of its write, and RESTART (Stored Settings and Start-Up). -/

namespace Sys2Proof.Machine

/-- The place a SAVE holds in a queue; at a full queue it is taken as an answer's would be (R181). -/
def Link.reserve (l : Link) : Link := { l.makeRoom.getD l with reserved := true }

/-- A SAVE accepted: the flag with the snapshot, and the reserved place (R191). -/
def State.acceptSave (s : State) (port : Port) (tag : Byte) : State :=
  (s.onLink port Link.reserve).onStore fun st => { st with saving := some { port := port, tag := tag, snapshot := s.settings } }

/-- Serves SAVE (R191). -/
def serveSave (port : Port) (tag : Byte) : State → State :=
  takeRequest port .save tag true (supervisorOnly port) fun s =>
    if s.store.saving.isSome || s.store.restartPending then s.answer port .save tag .storeBusy else s.acceptSave port tag

/-- SAVE. -/
def execSave (port : Port) (tag : Byte) (s : State) : Host.Outcome State Fault Refusal :=
  event (serveSave port tag) s

/-- Releases the reserved place of a port (R181). -/
def State.releasePlace (s : State) (port : Port) : State := s.onLink port fun l => { l with reserved := false }

/-- The end of a write: the image, the flag, and the answer in its reserved place (R192). -/
def State.endWrite (s : State) (job : SaveJob) (verified : Bool) : State :=
  ((s.onStore fun st => { st with image := if verified then some job.snapshot else none, saving := none }).releasePlace job.port).answer
    job.port .save job.tag (if verified then .done else .storeFault)

/-- The end of the write that runs, if one does. -/
def State.finishWrite (s : State) (verified : Bool) : State :=
  match s.store.saving with
  | some job => s.endWrite job verified
  | none => s

/-- SAVE_WRITE_END: the write ends at a time the store chooses, verified or not (R192, log 11). -/
def execSaveWriteEnd (verified : Bool) (s : State) : Host.Outcome State Fault Refusal :=
  event (fun s => s.finishWrite verified) s

/-- The answer to RESTART (R194). -/
def Store.restartResult (st : Store) : Result :=
  if st.saving.isSome then .storeBusy else if st.restartPending then .already else .done

/-- Serves RESTART (R194). The start-up comes when the answer has been sent (TRANSMIT_COMPLETE). -/
def serveRestart (port : Port) (tag : Byte) : State → State :=
  takeRequest port .restart tag true (supervisorOnly port) fun s =>
    let s' := s.answer port .restart tag s.store.restartResult
    if s.store.restartResult = .done then s'.onStore fun st => { st with restartPending := true } else s'

/-- RESTART. -/
def execRestart (port : Port) (tag : Byte) (s : State) : Host.Outcome State Fault Refusal :=
  event (serveRestart port tag) s

end Sys2Proof.Machine
end

