-- ==== Sys2Proof/Machine/Sensor.lean ====
section
/-! DEFINITION. The RF Sensor: the arithmetic of a sample, presence, trips, peak and episodes, and SET-SENSING (RF Sensing and Protection). -/

namespace Sys2Proof.Machine

/-! ### The arithmetic (R34, R36 to R38) -/

/-- A coupler input converts to at most full scale (R34). -/
def converted (n : Nat) : Nat := min Config.fullScale n

/-- The forward reading less its zero offset, at least 0 (R36). -/
def AntennaConfig.vf (c : AntennaConfig) (raw : Nat) : Nat := raw - c.zf

/-- The reflected reading less its zero offset, at least 0, then corrected (R36). -/
def AntennaConfig.vr (c : AntennaConfig) (raw : Nat) : Nat := (raw - c.zr) * c.c / 128

/-- A power: the square of a reading times Kf over 2^24, rounded down (R37). -/
def AntennaConfig.power (c : AntennaConfig) (v : Nat) : Nat := v * v * c.kf / 16777216

/-- The reflected power, at most 4095 (R37). -/
def AntennaConfig.reflectedPower (c : AntennaConfig) (v : Nat) : Nat := min 4095 (c.power v)

/-- An evaluated SWR in tenths, halves rounded up, at most 999 (R38). -/
def swrOf (vf vr : Nat) : Nat := if vf ≤ vr then 999 else min 999 ((20 * (vf + vr) + (vf - vr)) / (2 * (vf - vr)))

/-- SWR is evaluated at a sample with a forward power (R38). -/
def State.swrEvaluated (s : State) (pf : Nat) : Bool := decide (s.settings.swrFloor ≤ pf)

/-- Stages 1 to 3: the readings of a sample written into the record (R35). -/
def State.writeReadings (s : State) (a : Ant) (vfRaw vrRaw : Nat) : State :=
  let c := s.config a
  let vf := c.vf vfRaw
  let vr := c.vr vrRaw
  let pf := c.power vf
  (s.onSensor a fun n => { n with vfRaw := vfRaw, vrRaw := vrRaw, sampled := true }).onAnt a
    fun r => { r with pf := pf, pr := c.reflectedPower vr, swr := if s.swrEvaluated pf then swrOf vf vr else 0 }

/-! ### Presence (R39 to R41) -/

/-- A sequencer is handed a change of presence on an antenna (R41, R104, R106, R107, R109): presence that turns true in HOLDOFF alters nothing, so the wait goes on (R107, R116). -/
def State.presenceToSequencer (s : State) (p : Pos) (a : Ant) : State :=
  match (s.seq p).state with
  | .idle => s
  | .drain => if (s.seq p).current.antenna == some a && !(s.ant a).presence then s.enterBreak p else s
  | .brk broken => if broken == some a && (s.ant a).presence then s.trip a .hotSwitch else s
  | .holdoff => if (s.seq p).target.antenna == some a && !(s.ant a).presence then s.retestHoldoff p else s
  | .make _ => if (s.seq p).target.antenna == some a && (s.ant a).presence then s.trip a .hotSwitch else s

/-- A change of presence is handed to the Tap Controller and to the sequencers, these in position order (R41, R158, log 15, log 25). -/
def State.handPresence (s : State) (a : Ant) : State := forEach allPos (fun p s => s.presenceToSequencer p a) (s.commandTaps a)

/-- Presence changes: the flag is written, the below count is 0, the episode's flags are clear, and the change is handed on (R39, R40). -/
def State.setPresence (s : State) (a : Ant) (b : Bool) : State :=
  ((s.onAnt a fun r => { r with presence := b }).onSensor a fun n => { n with below := 0, unkeyed := false, stray := false }).handPresence a

/-- The readings of the record reach the presence threshold (R39). -/
def State.rfAtThreshold (s : State) (a : Ant) : Bool := decide (s.settings.presenceThreshold ≤ max (s.ant a).pf (s.ant a).pr)

/-- Stage 4: the presence judgement (R39, R40). -/
def State.judgePresence (s : State) (a : Ant) : State :=
  if (s.ant a).presence then
    if s.rfAtThreshold a then s.onSensor a fun n => { n with below := 0 }
    else if 2 ≤ (s.sensor a).below then s.setPresence a false
    else s.onSensor a fun n => { n with below := n.below + 1 }
  else if s.rfAtThreshold a then s.setPresence a true
  else s

/-! ### Trips (R42 to R44) -/

/-- A count that confirms at its second consecutive sample: its new value, and whether it confirms. -/
def confirm (exceeds : Bool) (count : Nat) : Nat × Bool := if !exceeds then (0, false) else if 1 ≤ count then (0, true) else (count + 1, false)

/-- The SWR of a sample lies over the limit: evaluated and greater (R42). -/
def State.swrOver (s : State) (a : Ant) : Bool := s.swrEvaluated (s.ant a).pf && decide ((s.config a).swrLimit < (s.ant a).swr)

/-- The forward power of a sample lies over max power (R43). -/
def State.powerOver (s : State) (a : Ant) : Bool := decide ((s.config a).maxPower < (s.ant a).pf)

/-- Stage 5: the trip counts, and the trip: OVERPOWER where both are confirmed (R42 to R44). -/
def State.judgeTrips (s : State) (a : Ant) : State :=
  let swr := confirm (s.swrOver a) (s.sensor a).swrCount
  let power := confirm (s.powerOver a) (s.sensor a).powerCount
  let s' := s.onSensor a fun n => { n with swrCount := swr.1, powerCount := power.1 }
  if power.2 then s'.trip a .overpower else if swr.2 then s'.trip a .swr else s'

/-! ### Peak and episodes (R46, R49, R50) -/

/-- Stage 6: the peak (R46). -/
def State.updatePeak (s : State) (a : Ant) : State := s.onAnt a fun r => { r with peak := max r.peak r.pf }

/-- The position's quiet time is greater than the unkeyed tail (R49). -/
def State.quietTooLong (s : State) (p : Pos) : Bool :=
  match s.quietTime p with
  | some q => decide (s.settings.unkeyedTail < q)
  | none => false

/-- The unkeyed judgement on a port connected to a position (R49). -/
def State.judgeUnkeyed (s : State) (a : Ant) (p : Pos) : State :=
  if !(s.sensor a).unkeyed && s.quietTooLong p then
    (s.onSensor a fun n => { n with unkeyed := true }).report [p]
      (.rfUnkeyed a p (s.ant a).pf (s.ant a).pr ((s.quietTime p).getD 0))
  else s

/-- The stray judgement on a port with no connected position (R50). -/
def State.judgeStray (s : State) (a : Ant) : State :=
  if (s.sensor a).stray then s
  else (s.onSensor a fun n => { n with stray := true }).report (s.ant a).owner.toList
    (.rfStray a (s.ant a).owner (s.ant a).pf (s.ant a).pr)

/-- Stage 7: the episode judgements, on a port whose presence is true (R49, R50). -/
def State.judgeEpisode (s : State) (a : Ant) : State :=
  if (s.ant a).presence then
    match (s.ant a).connected with
    | some p => s.judgeUnkeyed a p
    | none => s.judgeStray a
  else s

/-- A sample of one port, through its stages in order (R35). With presence judged, a sequencer that waits in HOLDOFF for this sample looks at the antenna (log 30). -/
def State.samplePort (s : State) (a : Ant) : State :=
  ((((((s.writeReadings a (converted (s.coupler a).1) (converted (s.coupler a).2)).judgePresence a).antennaCleared a).judgeTrips a).updatePeak a).judgeEpisode a)

/-- COUPLER_SAMPLE: the coupler inputs of a port stand at a pair of conversions, and the port is sampled (R34, R35, log 9). -/
def execCouplerSample (a : Ant) (vf vr : Nat) (s : State) : Host.Outcome State Fault Refusal :=
  event (fun s => s.samplePort a) (s.setCoupler a (vf, vr))

/-! ### SET-SENSING (R51, R52) -/

/-- Serves SET-SENSING (R51). The new values act from the next sample (R52). -/
def serveSetSensing (port : Port) (tag threshold : Byte) (floor : Half) (tail : Byte) : State → State :=
  takeRequest port .setSensing tag true (supervisorOnly port) fun s =>
    let t := clamp 1 100 threshold.toNat
    let f := clamp 5 500 floor.toNat
    let u := clamp 10 200 tail.toNat
    let same := t = s.settings.presenceThreshold ∧ f = s.settings.swrFloor ∧ u = s.settings.unkeyedTail
    let r := settingResult same (t != threshold.toNat || f != floor.toNat || u != tail.toNat)
    (s.onSettings fun c => { c with presenceThreshold := t, swrFloor := f, unkeyedTail := u }).answer port .setSensing tag r

/-- SET_SENSING. -/
def execSetSensing (port : Port) (tag threshold : Byte) (floor : Half) (tail : Byte) (s : State) : Host.Outcome State Fault Refusal :=
  event (serveSetSensing port tag threshold floor tail) s

end Sys2Proof.Machine
end

