-- ==== Sys2Proof/Machine/Sequencing.lean ====
section
/-! DEFINITION. The Path Sequencer's commands: SET-SEQUENCING and the expiries of the phase timer (The Path Sequencer). -/

namespace Sys2Proof.Machine

/-- Serves SET-SEQUENCING (R118). -/
def serveSetSequencing (port : Port) (tag : Byte) (drainLimit : Half) (filterSettle : Byte) : State → State :=
  takeRequest port .setSequencing tag true (supervisorOnly port) fun s =>
    let d := clamp 50 2000 drainLimit.toNat
    let f := clamp 5 50 filterSettle.toNat
    let same := d = s.settings.drainLimit ∧ f = s.settings.filterSettle
    let r := settingResult same (d != drainLimit.toNat || f != filterSettle.toNat)
    (s.onSettings fun c => { c with drainLimit := d, filterSettle := f }).answer port .setSequencing tag r

/-- SET_SEQUENCING. -/
def execSetSequencing (port : Port) (tag : Byte) (drainLimit : Half) (filterSettle : Byte) (s : State) : Host.Outcome State Fault Refusal :=
  event (serveSetSequencing port tag drainLimit filterSettle) s

/-- The conversions that a command samples a port at. -/
def sampleOf (a : Ant) : Instr → Option (Nat × Nat)
  | .couplerSample b vf vr => if b = a then some (vf, vr) else none
  | _ => none

/-- The conversions of the sample of a port that comes next in this millisecond: of a COUPLER_SAMPLE that waits,
else of the coupler inputs as they stand where the port has had no sample yet (R116, log 9, log 30). -/
def State.sampleToCome (s : State) (a : Ant) : Option (Nat × Nat) :=
  match s.pending.findSome? (sampleOf a) with
  | some v => some v
  | none => if (s.sensor a).sampled then none else some (s.coupler a)

/-- The sample of a port that comes next in this millisecond reads RF at the presence threshold (R39, R116). -/
def State.rfToCome (s : State) (a : Ant) : Bool :=
  match s.sampleToCome a with
  | some v => (s.writeReadings a (converted v.1) (converted v.2)).rfAtThreshold a
  | none => false

/-- BREAK ends on the antenna it broke, and presence turns true there in the same millisecond (R116, log 30). -/
def State.breakMeetsRf (s : State) (p : Pos) : Bool :=
  match (s.seq p).state with
  | .brk (some a) => (s.seq p).target.antenna == some a && s.rfToCome a
  | _ => false

/-- BREAK ends at its timer and HOLDOFF begins: it looks at the target antenna at once (R107), but waits where presence turns true in this millisecond on the broken antenna, if that is the target (R116, log 30). -/
def State.endBreak (s : State) (p : Pos) : State := if s.breakMeetsRf p then s.waitInHoldoff p else s.enterHoldoff p

/-- BREAK_END: the phase timer expires in BREAK, and HOLDOFF begins (R107, R116). -/
def execBreakEnd (p : Pos) (s : State) : Host.Outcome State Fault Refusal :=
  event (onlyIf (fun s => s.phaseDue p .brk) fun s => s.endBreak p) s

/-- The end of MAKE with what the state holds as next path (R108). -/
def State.endMake (s : State) (p : Pos) : State :=
  match (s.seq p).state with
  | .make next => s.finishMake p next
  | _ => s

/-- MAKE_END: the phase timer expires in MAKE, and the change is completed (R108). -/
def execMakeEnd (p : Pos) (s : State) : Host.Outcome State Fault Refusal :=
  event (onlyIf (fun s => s.phaseDue p .make) fun s => s.endMake p) s

/-- What HOLDOFF waits on (R114). -/
def waitingOn (presence : Bool) (connected : Option Pos) : WaitingOn :=
  if connected.isSome then if presence then .both else .connected else .rf

/-- The antenna a sequencer waits on: the current antenna in DRAIN, the target antenna otherwise (R114). -/
def Sequencer.waitsFor (q : Sequencer) : Option Ant :=
  match q.state with
  | .drain => q.current.antenna
  | _ => q.target.antenna

/-- The connected position an RF HOT report names: in HOLDOFF that of the antenna, none in DRAIN (R114). -/
def State.hotConnected (s : State) (p : Pos) : Option Pos :=
  match (s.seq p).state, (s.seq p).waitsFor with
  | .holdoff, some a => (s.ant a).connected
  | _, _ => none

/-- The readings of an antenna, 0 where there is none. -/
def State.readings (s : State) (a : Option Ant) : Nat × Nat :=
  match a with
  | some a => ((s.ant a).pf, (s.ant a).pr)
  | none => (0, 0)

/-- The presence of an antenna, false where there is none. -/
def State.presenceOf (s : State) (a : Option Ant) : Bool :=
  match a with
  | some a => (s.ant a).presence
  | none => false

/-- The RF HOT report of a sequencer (R114). -/
def State.hotReport (s : State) (p : Pos) : ReportBody :=
  let a := (s.seq p).waitsFor
  .rfHot a p (s.seq p).state.shown (waitingOn (s.presenceOf a) (s.hotConnected p)) (s.hotConnected p) (s.readings a).1 (s.readings a).2

/-- The report of a wait past the drain limit; the timer stops and the wait goes on (R114). -/
def State.reportHot (s : State) (p : Pos) : State :=
  (s.report (p :: (s.hotConnected p).toList) (s.hotReport p)).onSeq p fun q => { q with phase := none }

/-- RF_HOT: the phase timer expires in DRAIN or HOLDOFF (R114). -/
def execRfHot (p : Pos) (s : State) : Host.Outcome State Fault Refusal :=
  event (onlyIf (fun s => s.hotDue p) fun s => s.reportHot p) s

end Sys2Proof.Machine
end

