-- ==== Sys2Proof/Machine/Startup.lean ====
section
/-! DEFINITION. The start-up of the part and its stop (Stored Settings and Start-Up). -/

namespace Sys2Proof.Machine

/-- The store status of a start-up (R195 step 2). -/
def Store.status (st : Store) : StoreStatus := if st.image.isSome then .loaded else .defaults

/-- The settings a start-up takes: the image's where it is usable, else the defaults (R195 step 2). -/
def Store.settings (st : Store) : Settings := st.image.getD .default

/-- Steps 1 to 5 of a start-up but for the aux lines (R195). The pins, the image and the waiting commands stay. -/
def State.startValues (cause : StartCause) (s : State) : State :=
  { s with
    timebase := 0#32
    settings := s.store.settings
    decoders := Vector.replicate 6 .start
    antennas := s.store.settings.antennas.map fun c => .start c.configured
    sensors := Vector.replicate 12 .start
    quietSince := Vector.replicate 6 none
    claimQueues := Vector.replicate 12 []
    claimPointers := Vector.replicate 6 none
    sequencers := Vector.replicate 6 .start
    keys := s.pttInputs.map .start
    waiting := []
    pointer := 5
    holdOn := false
    grantCount := 0#32
    taps := Vector.replicate 12 .start
    listens := Vector.replicate 6 none
    auxLines := Vector.replicate 8 false
    links := Vector.replicate 7 (.start cause s.store.status)
    store := { image := s.store.image, saving := none, restartPending := false }
    txenOutputs := Vector.replicate 6 false }

/-- Sets every aux line from its configuration and the state as it stands (R173). -/
def State.driveAll (s : State) : State := forEach allLines (fun l s => s.driveLine l) s

/-- A start-up (R195). -/
def State.startUp (cause : StartCause) (s : State) : State := (s.startValues cause).driveAll

/-- The part stops, by RESET low or by loss of supply (R193): TXEN and the aux outputs go off, and a save in progress ends unfinished, its image unusable (R192).
What stands inside is kept as it is until the start-up writes it anew (log 21). -/
def State.stopPart (s : State) : State :=
  { s with
    auxLines := Vector.replicate 8 false
    txenOutputs := Vector.replicate 6 false
    store := if s.store.saving.isSome then { s.store with image := none, saving := none } else s.store }

end Sys2Proof.Machine
end

