-- ==== Sys2Proof/Machine/Taps.lean ====
section
/-! DEFINITION. The Tap Controller's command LISTEN (Receive Taps). -/

namespace Sys2Proof.Machine

/-- A slot holds a position other than one (R155 step 4). -/
def heldByOther (p : Pos) (slot : Option Pos) : Bool :=
  match slot with
  | some q => q != p
  | none => false

/-- The checks of LISTEN on an antenna, steps 2 to 6 (R155). -/
def State.listenResult (s : State) (p : Pos) (a : Ant) : Result :=
  if (s.ant a).service = .outOfService then .outOfService
  else if (s.ant a).owner = some p then .ownAntenna
  else if heldByOther p (s.tap a).slot1 && heldByOther p (s.tap a).slot2 then .tapsFull
  else if (s.tap a).slot1 = some p ∨ (s.tap a).slot2 = some p then .already
  else .done

/-- Frees the slot a position holds on its listen antenna, if it has one (R156 step 2, R157). -/
def State.stopListening (s : State) (p : Pos) : State :=
  match s.listen p with
  | some x => s.freeTapOf p x .listen
  | none => s

/-- Serves LISTEN (R155 to R157). -/
def serveListen (port : Port) (tag position antenna : Byte) : State → State :=
  takeRequest port .listen tag true (mayFor port position) fun s =>
    match posOf position, antOrNoneOf antenna with
    | some p, some none =>
      (s.answer port .listen tag (if (s.listen p).isSome then .done else .already)).stopListening p
    | some p, some (some a) =>
      let s' := s.answer port .listen tag (s.listenResult p a)
      if s.listenResult p a = .done then (s'.stopListening p).takeSlot p a else s'
    | _, _ => s.answer port .listen tag .badValue

/-- LISTEN. -/
def execListen (port : Port) (tag position antenna : Byte) (s : State) : Host.Outcome State Fault Refusal :=
  event (serveListen port tag position antenna) s

end Sys2Proof.Machine
end

