-- ==== Sys2Proof/Machine/Frames.lean ====
section
/-! DEFINITION. The framers and the transmitters: bytes received, frames taken apart into requests, and the end of a frame's sending (Message Links). -/

namespace Sys2Proof.Machine

/-! ### From a good frame to a request (R178, R197) -/

/-- Every request, in the order of its type code. -/
def allRequests : List Request :=
  [.ping, .query, .claim, .release, .force, .setClaims, .follow, .setPref, .listen, .setBand, .setBanding, .setBandmap,
   .setAntenna, .clear, .setSensing, .setSequencing, .hold, .setKeying, .setRules, .setExclusion, .setAux, .save, .restart]

/-- The request of a type code, if it is one. -/
def requestOf (type : Byte) : Option Request := allRequests.find? fun r => r.code == type

/-- A request whose payload length is not the one given for it (R178 step 2). -/
def badFormat (port : Port) (request : Request) (tag : Byte) : State → State := takeRequest port request tag false true id

/-- A frame whose type is no request's (R178 steps 0 and 1). -/
def unknownType (port : Port) (type tag : Byte) (s : State) : State :=
  if (s.link port).fullOfAnswers then s.setLost port else s.answerRaw port type tag .unknown .nothing

/-- The requests of the Link Controller, the Settings Store and the Transmit Arbiter, by their payloads (Record Formats, "Request payloads"). -/
def serveStation (port : Port) (request : Request) (tag : Byte) (payload : List Byte) : State → State :=
  match request with
  | .ping => match payload with
    | [] => servePing port tag
    | _ => badFormat port request tag
  | .query => match payload with
    | [subject, index, reset] => serveQuery port tag subject index reset
    | _ => badFormat port request tag
  | .save => match payload with
    | [] => serveSave port tag
    | _ => badFormat port request tag
  | .restart => match payload with
    | [] => serveRestart port tag
    | _ => badFormat port request tag
  | .hold => match payload with
    | [v] => serveHold port tag v
    | _ => badFormat port request tag
  | .setKeying => match payload with
    | [p, k, h0, h1, m0, m1] => serveSetKeying port tag p k (halfOf h0 h1) (halfOf m0 m1)
    | _ => badFormat port request tag
  | .setRules => match payload with
    | [l1, l2, l3, l4, l5, l6, total, order, preempt, guard_] =>
      serveSetRules port tag [l1, l2, l3, l4, l5, l6] total order preempt guard_
    | _ => badFormat port request tag
  | .setExclusion => match payload with
    | [op, a, b] => serveSetExclusion port tag op a b
    | _ => badFormat port request tag
  | .setAux => match payload with
    | [line, kind, index, signal, invert, flash] => serveSetAux port tag line kind index signal invert flash
    | _ => badFormat port request tag
  | _ => badFormat port request tag

/-- The requests of the other blocks, by their payloads (Record Formats, "Request payloads"). -/
def serveRequest (port : Port) (request : Request) (tag : Byte) (payload : List Byte) : State → State :=
  match request, payload with
  | .claim, [p, a, nowait] => serveClaim port tag p a nowait
  | .release, [p, what] => serveRelease port tag p what
  | .force, [a, p] => serveForce port tag a p
  | .setClaims, [t0, t1] => serveSetClaims port tag (halfOf t0 t1)
  | .follow, [p, action] => serveFollow port tag p action
  | .setPref, [p, band, count, e1, e2, e3, e4] => serveSetPref port tag p band count [e1, e2, e3, e4]
  | .listen, [p, a] => serveListen port tag p a
  | .setBand, [p, band] => serveSetBand port tag p band
  | .setBanding, [p, source, line, guard_] => serveSetBanding port tag p source line guard_
  | .setBandmap, [c0, c1, c2, c3, c4, c5, c6, c7, c8, c9, c10, c11, c12, c13, c14, c15, debounce] =>
    serveSetBandmap port tag [c0, c1, c2, c3, c4, c5, c6, c7, c8, c9, c10, c11, c12, c13, c14, c15] debounce
  | .setAntenna, [a, mask, p0, p1, swr, k0, k1, c, zf, zr, settle, service] =>
    serveSetAntenna port tag a mask (halfOf p0 p1) swr (halfOf k0 k1) c zf zr settle service
  | .clear, [a] => serveClear port tag a
  | .setSensing, [t, f0, f1, tail] => serveSetSensing port tag t (halfOf f0 f1) tail
  | .setSequencing, [d0, d1, f] => serveSetSequencing port tag (halfOf d0 d1) f
  | _, _ => serveStation port request tag payload

/-- Takes a good frame: its TYPE, its TAG and its payload (R178). -/
def serveFrame (port : Port) (type tag : Byte) (payload : List Byte) : State → State :=
  match requestOf type with
  | some request => serveRequest port request tag payload
  | none => unknownType port type tag

/-! ### The framer (R175 to R177) -/

/-- Puts a framer in HUNT: the partial frame emptied, the byte-gap timer stopped. -/
def Link.hunt (l : Link) : Link := { l with framer := .hunt, partialFrame := [], gap := none }

/-- Puts a framer in LENGTH after a start byte (R175). -/
def Link.awaitLength (l : Link) (gap : Timer) : Link := { l with framer := .length, partialFrame := [], gap := gap }

/-- A byte in LENGTH (R175). -/
def Link.takeLength (l : Link) (byte : Byte) (gap : Timer) : Link :=
  if 2 ≤ byte.toNat ∧ byte.toNat ≤ 50 then { l with framer := .body, partialFrame := [byte], gap := gap }
  else if byte = Config.startByte then l.awaitLength gap
  else l.hunt

/-- A partial frame is complete when it holds LEN + 2 bytes (R176). -/
def frameComplete (bytes : List Byte) : Bool :=
  match bytes with
  | [] => false
  | len :: _ => bytes.length == len.toNat + 2

/-- A complete frame whose bytes sum to 0 is a good frame and is taken; any other is discarded (R176). -/
def takeFrame (port : Port) (bytes : List Byte) : State → State :=
  if byteSum bytes = 0#8 then
    match bytes with
    | _ :: type :: tag :: rest => serveFrame port type tag rest.dropLast
    | _ => id
  else id

/-- A byte in BODY: appended; the frame that it completes is taken in the same event (R175, R176). -/
def State.takeBody (s : State) (port : Port) (byte : Byte) : State :=
  let bytes := (s.link port).partialFrame ++ [byte]
  if frameComplete bytes then takeFrame port bytes (s.onLink port Link.hunt)
  else s.onLink port fun l => { l with partialFrame := bytes, gap := s.load Config.byteGap }

/-- A byte received on a port, by the framer state (R175). -/
def State.takeByte (s : State) (port : Port) (byte : Byte) : State :=
  match (s.link port).framer with
  | .hunt => if byte = Config.startByte then s.onLink port fun l => l.awaitLength (s.load Config.byteGap) else s
  | .length => s.onLink port fun l => l.takeLength byte (s.load Config.byteGap)
  | .body => s.takeBody port byte

/-- BYTE_RECEIVED (R175, R176). -/
def execByteReceived (port : Port) (byte : Byte) (s : State) : Host.Outcome State Fault Refusal :=
  event (fun s => s.takeByte port byte) s

/-- FRAMING_ERROR: the byte and any partial frame are discarded (R177). -/
def execFramingError (port : Port) (s : State) : Host.Outcome State Fault Refusal :=
  event (fun s => s.onLink port Link.hunt) s

/-- BYTE_GAP_EXPIRY: the partial frame is discarded (R177). -/
def execByteGapExpiry (port : Port) (s : State) : Host.Outcome State Fault Refusal :=
  event (onlyIf (fun s => s.gapDue port) fun s => s.onLink port Link.hunt) s

/-! ### The end of a frame's sending (R185, R194) -/

/-- A record is the DONE answer of a RESTART. -/
def Record.isRestartDone : Record → Bool
  | .answer a => a.type == answerType Request.restart.code && a.result == .done
  | .report _ => false

/-- The frame just sent is the answer that a pending RESTART waits for (R194). -/
def State.restartDue (s : State) (port : Port) (sent : Transmission) : Bool :=
  port == supervisorPort && s.store.restartPending && sent.record.isRestartDone

/-- The transmitter of a port finishes sending: it is idle, and takes the next record in the same event (R185); or the pending RESTART's start-up begins (R194). -/
def State.endSending (s : State) (port : Port) : State :=
  match (s.link port).transmitter with
  | none => s
  | some sent =>
    if s.restartDue port sent then s.startUp .request
    else s.onLink port fun l => ({ l with transmitter := none }).startSending

/-- TRANSMIT_COMPLETE (R185, R194). -/
def execTransmitComplete (port : Port) (s : State) : Host.Outcome State Fault Refusal :=
  event (fun s => s.endSending port) s

end Sys2Proof.Machine
end

