-- ==== Sys2Proof/Machine/Power.lean ====
section
/-! DEFINITION. The supply and the RESET line (R193). These move pins, so they act whether the part runs or not. -/

namespace Sys2Proof.Machine

/-- The supply comes up: a start-up with cause POWER, once RESET is not low (R193, log 21). -/
def State.powerUp (s : State) : State :=
  if s.resetIsLow then s.setPowered true else (s.setPowered true).startUp .power

/-- POWER_ON: no effect on a part that has its supply (log 3). -/
def execPowerOn (s : State) : Host.Outcome State Fault Refusal := .next (if s.powered then s else s.powerUp)

/-- The RESET line falls: a part that has its supply stops (R193). -/
def State.pullReset (s : State) : State := if s.powered then (s.setReset true).stopPart else s.setReset true

/-- RESET_LOW: no effect while the line is low. -/
def execResetLow (s : State) : Host.Outcome State Fault Refusal := .next (if s.resetIsLow then s else s.pullReset)

/-- The RESET line returns high: a part that has its supply starts up with cause LINE (R193). -/
def State.letReset (s : State) : State := if s.powered then (s.setReset false).startUp .line else s.setReset false

/-- RESET_RELEASE: no effect while the line is high. -/
def execResetRelease (s : State) : Host.Outcome State Fault Refusal := .next (if s.resetIsLow then s.letReset else s)

/-- POWER_LOST: the part stops (R193). No effect without a supply. -/
def execPowerLost (s : State) : Host.Outcome State Fault Refusal := .next (if s.powered then (s.setPowered false).stopPart else s)

end Sys2Proof.Machine
end

