-- ==== Sys2Proof/Machine/Dispatch.lean ====
section
/-! DEFINITION. One arm for each command: the call of its meaning. -/

namespace Sys2Proof.Machine

def exec (i : Instr) (s : State) : Host.Outcome State Fault Refusal :=
  match i with
  | .ping port tag => Sys2Proof.Machine.execPing port tag s
  | .query port tag subject index peakReset => Sys2Proof.Machine.execQuery port tag subject index peakReset s
  | .claim port tag position antenna nowait => Sys2Proof.Machine.execClaim port tag position antenna nowait s
  | .release port tag position what => Sys2Proof.Machine.execRelease port tag position what s
  | .force port tag antenna position => Sys2Proof.Machine.execForce port tag antenna position s
  | .setClaims port tag lifetime => Sys2Proof.Machine.execSetClaims port tag lifetime s
  | .follow port tag position action => Sys2Proof.Machine.execFollow port tag position action s
  | .setPref port tag position band count entries => Sys2Proof.Machine.execSetPref port tag position band count entries s
  | .listen port tag position antenna => Sys2Proof.Machine.execListen port tag position antenna s
  | .setBand port tag position band => Sys2Proof.Machine.execSetBand port tag position band s
  | .setBanding port tag position source lineMask guardMask => Sys2Proof.Machine.execSetBanding port tag position source lineMask guardMask s
  | .setBandmap port tag bands debounce => Sys2Proof.Machine.execSetBandmap port tag bands debounce s
  | .setAntenna port tag antenna bandMask maxPower swrLimit kf c zf zr settle service => Sys2Proof.Machine.execSetAntenna port tag antenna bandMask maxPower swrLimit kf c zf zr settle service s
  | .clear port tag antenna => Sys2Proof.Machine.execClear port tag antenna s
  | .setSensing port tag threshold floor tail => Sys2Proof.Machine.execSetSensing port tag threshold floor tail s
  | .setSequencing port tag drainLimit filterSettle => Sys2Proof.Machine.execSetSequencing port tag drainLimit filterSettle s
  | .hold port tag value => Sys2Proof.Machine.execHold port tag value s
  | .setKeying port tag position precedence hang maxKey => Sys2Proof.Machine.execSetKeying port tag position precedence hang maxKey s
  | .setRules port tag limits total order preempt tapGuard => Sys2Proof.Machine.execSetRules port tag limits total order preempt tapGuard s
  | .setExclusion port tag operation first second => Sys2Proof.Machine.execSetExclusion port tag operation first second s
  | .setAux port tag line kind index signal invert flash => Sys2Proof.Machine.execSetAux port tag line kind index signal invert flash s
  | .save port tag => Sys2Proof.Machine.execSave port tag s
  | .restart port tag => Sys2Proof.Machine.execRestart port tag s
  | .byteReceived port byte => Sys2Proof.Machine.execByteReceived port byte s
  | .framingError port => Sys2Proof.Machine.execFramingError port s
  | .byteGapExpiry port => Sys2Proof.Machine.execByteGapExpiry port s
  | .transmitComplete port => Sys2Proof.Machine.execTransmitComplete port s
  | .bandLinesChange p lines => Sys2Proof.Machine.execBandLinesChange p lines s
  | .settle p => Sys2Proof.Machine.execSettle p s
  | .pttEdge p => Sys2Proof.Machine.execPttEdge p s
  | .couplerSample a vf vr => Sys2Proof.Machine.execCouplerSample a vf vr s
  | .breakEnd p => Sys2Proof.Machine.execBreakEnd p s
  | .makeEnd p => Sys2Proof.Machine.execMakeEnd p s
  | .rfHot p => Sys2Proof.Machine.execRfHot p s
  | .tapGuardExpiry p => Sys2Proof.Machine.execTapGuardExpiry p s
  | .hangExpiry p => Sys2Proof.Machine.execHangExpiry p s
  | .maxKeyExpiry p => Sys2Proof.Machine.execMaxKeyExpiry p s
  | .claimExpired p => Sys2Proof.Machine.execClaimExpired p s
  | .flashEdge => Sys2Proof.Machine.execFlashEdge s
  | .saveWriteEnd verified => Sys2Proof.Machine.execSaveWriteEnd verified s
  | .powerOn => Sys2Proof.Machine.execPowerOn s
  | .resetLow => Sys2Proof.Machine.execResetLow s
  | .resetRelease => Sys2Proof.Machine.execResetRelease s
  | .pttInputChange p asserted => Sys2Proof.Machine.execPttInputChange p asserted s
  | .powerLost => Sys2Proof.Machine.execPowerLost s

end Sys2Proof.Machine
end

