-- ==== Sys2Proof/Machine/Idle.lean ====
section
/-! DEFINITION. What the part does when no command waits: the first timed event that is due is taken as the command it is, and where none is due the Timebase counts on (log 2). -/

namespace Sys2Proof.Machine

/-- The first entry of a list for which a command is due. -/
def firstDue {α : Type} (l : List α) (due : α → Bool) (command : α → Instr) : Option Instr := (l.find? due).map command

/-- The first timed event of the positions' and the ports' timers that is due, in the model's fixed order (log 2). -/
def State.dueTimer (s : State) : Option Instr :=
  firstDue allPos s.settleDue .settle
  <|> firstDue allPos s.edgeDue .pttEdge
  <|> firstDue allPos (fun p => s.phaseDue p .brk) .breakEnd
  <|> firstDue allPos (fun p => s.phaseDue p .make) .makeEnd
  <|> firstDue allPos s.hotDue .rfHot
  <|> firstDue allPos s.tapGuardDue .tapGuardExpiry
  <|> firstDue allPos s.hangDue .hangExpiry
  <|> firstDue allPos s.maxKeyDue .maxKeyExpiry
  <|> firstDue allPos s.claimDue .claimExpired
  <|> firstDue allPorts s.gapDue .byteGapExpiry

/-- The sample of the first port not yet sampled in this millisecond, of its coupler inputs as they stand (R34, log 9). -/
def State.dueSample (s : State) : Option Instr :=
  firstDue allAnts (fun a => !(s.sensor a).sampled) fun a => .couplerSample a (s.coupler a).1 (s.coupler a).2

/-- The command that is due of itself: a timer first, then a sample (log 2). -/
def State.dueCommand (s : State) : Option Instr := s.dueTimer <|> s.dueSample

/-- The band lines and the PTT inputs as they stand are sampled (R1, R122, log 10). -/
def State.sampleInputs (s : State) : State :=
  forEach allPos (fun p s => s.samplePtt p) (forEach allPos (fun p s => s.sampleLines p) s)

/-- The Timebase counts on by one, and every port is to be sampled anew (R34). -/
def State.countOn (s : State) : State :=
  forEach allAnts (fun a s => s.onSensor a fun n => { n with sampled := false }) (s.setTimebase (s.timebase + 1))

/-- One millisecond: the count, the flash edge if it is one, and the samples of the inputs (R1, R122, R171).
The first samples after a start-up are those of count 1, not of count 0: the model's choice, where R195 says "the first millisecond of the Timebase" (log 9 for the couplers, log 10 for the band lines and the PTT inputs). -/
def State.tick (s : State) : State :=
  let s' := s.countOn
  (if flashEdgeAt s'.timebase then s'.flashLines else s').sampleInputs

/-- A step with no command waiting (log 2). -/
def idle (s : State) : Host.Outcome State Fault Refusal :=
  if s.running then
    match s.dueCommand with
    | some c => exec c s
    | none => event State.tick s
  else .next s

end Sys2Proof.Machine
end

