-- ==== Sys2Proof/Machine/Step.lean ====
section
/-! DEFINITION. One step of the machine: the command at the front of the queue, or the part's own time when the queue is empty. -/

namespace Sys2Proof.Machine

/-- Puts a command at the front of the queue of waiting commands. -/
def State.withFront (s : State) (c : Instr) : State := { s with pending := c :: s.pending }

/-- The state with a queue of waiting commands. -/
def State.withPending (s : State) (l : List Instr) : State := { s with pending := l }

/-- One step. -/
def step (s : State) : Host.Outcome State Fault Refusal :=
  match s.pending with
  | [] => idle s
  | c :: rest => exec c (s.withPending rest)

/-- The state in which the next step runs the command that a word spells: unchanged, since no word spells one (log 5). -/
def State.withFetchWord (s : State) (nbits w : Nat) : State :=
  match decodeTableWord nbits w with
  | some c => s.withFront c
  | none => s

end Sys2Proof.Machine
end

