-- ==== Sys2Proof/Safety.lean ====
section
/-! DEFINITION. What must hold of the part in every state it reaches: the bound of the queues, TXEN by the key states alone, the relays by the sequencers alone, the taps by their three conditions, the aux lines by their sources, the ground that keys and grants stand on, and the agreement of listeners, services and claim queues.
Each is stated for every step in Certificates/Slice0/Obligations.lean. -/

namespace Sys2Proof.Machine

/-- No outgoing queue holds more than 16 records, a reserved place counted (R186). -/
def LinksBounded (s : State) : Prop := ∀ port, (s.link port).used ≤ Config.queuePlaces

/-- TXEN is asserted in ON and HANG and in no other key state, and is off while the part does not run (R121, R193). -/
def TxenByKey (s : State) : Prop := ∀ p, s.txen p = (s.running && (s.key p).state.transmits)

/-- The commands of the tap relays are those their three conditions give (R154). -/
def TapsCommanded (s : State) : Prop :=
  ∀ a, (s.tap a).closed1 = tapCommand (s.tap a).slot1 (s.tap a).keyed (s.ant a).presence
    ∧ (s.tap a).closed2 = tapCommand (s.tap a).slot2 (s.tap a).keyed (s.ant a).presence

/-- The antenna whose matrix relay a sequencer holds closed: the current one in IDLE and DRAIN, the target in MAKE, none in BREAK and HOLDOFF (R101). -/
def Sequencer.holds (q : Sequencer) : Option Ant :=
  match q.state with
  | .idle | .drain => q.current.antenna
  | .brk _ | .holdoff => none
  | .make _ => q.target.antenna

/-- The connected positions are those the sequencers hold: an antenna has at most one, and a position at most one antenna (R20, R101). -/
def RelaysBySequencer (s : State) : Prop := ∀ p a, (s.ant a).connected = some p ↔ (s.seq p).holds = some a

/-- A QUEUED or granted position has an ACTIVE route: its sequencer is IDLE with an antenna (R121, R123, R103). -/
def KeyOnRoute (s : State) : Prop :=
  ∀ p, ((s.key p).state = .queued ∨ s.granted p = true) → s.routeStatus p = .active

/-- While HOLD is on, no position is granted (R142, R128). -/
def HoldSilent (s : State) : Prop := s.holdOn = true → ∀ p, s.granted p = false

/-- A grant is recorded for the granted positions and for no others (R127). -/
def GrantsRecorded (s : State) : Prop := ∀ p, (s.key p).grant.isSome = s.granted p

/-- The waiting list holds exactly the QUEUED positions, each once (R126). -/
def WaitingExact (s : State) : Prop := s.waiting.Nodup ∧ ∀ p, p ∈ s.waiting ↔ (s.key p).state = .queued

/-- Every aux line has the value R165 gives it from the state as it stands; all are 0 while the part does not run (R165, R170, R173). -/
def AuxByCondition (s : State) : Prop := ∀ l, s.auxLine l = (s.running && s.lineValue l)

/-- A position owns at most one antenna (R56). -/
def OneOwned (s : State) : Prop := ∀ a b p, (s.ant a).owner = some p → (s.ant b).owner = some p → a = b

/-- The claim queues and the waiting-claim pointers agree: a position has at most one waiting claim across all queues, and none on the antenna it owns (R56, R58). -/
structure ClaimsExact (s : State) : Prop where
  pointed : ∀ a c, c ∈ s.claims a → s.waitsOn c.position = some a
  queued : ∀ p a, s.waitsOn p = some a → ∃ c ∈ s.claims a, c.position = p
  once : ∀ a, ((s.claims a).map Claim.position).Nodup
  notOwner : ∀ p a, s.waitsOn p = some a → (s.ant a).owner ≠ some p

/-- The requested path of every position is its owned antenna with the filter of its band (R102). -/
def RequestsExact (s : State) : Prop :=
  ∀ p, (s.seq p).requested.filter = s.band p ∧ ∀ a, (s.ant a).owner = some p ↔ (s.seq p).requested.antenna = some a

/-- What must hold of keys, taps and relays together in every state (R20, R101, R103, R121, R126, R127, R142, R154). -/
structure Safe (s : State) : Prop where
  txen : TxenByKey s
  taps : TapsCommanded s
  hold : HoldSilent s
  grants : GrantsRecorded s
  waiting : WaitingExact s
  onRoute : KeyOnRoute s
  relays : RelaysBySequencer s

/-- In IDLE the target is the current path: a pair that differs starts a change (R102, R103, R108, R110). -/
def IdleSettled (s : State) : Prop := ∀ p, (s.seq p).state = .idle → (s.seq p).target = (s.seq p).current

/-- What a QUEUED or granted position keeps: a band, a current antenna that is IN_SERVICE and serves it, a precedence of at least 1;
while it is QUEUED a band that is not closed, and while it is granted the band and the antenna of its grant (R121, R123, R126, R127). -/
structure KeyGround (s : State) (p : Pos) (b : Band) (a : Ant) : Prop where
  band : s.band p = some b
  route : (s.seq p).current.antenna = some a
  inService : (s.ant a).service = .inService
  mask : (s.config a).serves b = true
  precedence : (s.place p).precedence ≠ 0
  openBand : (s.key p).state = .queued → s.limit b ≠ 0
  grant : s.granted p = true → s.grantBand p = some b ∧ s.grantAntenna p = some a

/-- Every QUEUED or granted position stands on such ground (R121, R126, R127). -/
def KeysGrounded (s : State) : Prop := ∀ p, ((s.key p).state = .queued ∨ s.granted p = true) → ∃ b a, KeyGround s p b a

/-- The keyed indication of an antenna is set exactly while a granted position has it as grant antenna (R154, R159). -/
def KeyedByGrants (s : State) : Prop := ∀ a, (s.tap a).keyed = true ↔ ∃ p, s.granted p = true ∧ s.grantAntenna p = some a

/-- What keys and taps rest on beside Safe (R102, R121, R126, R127, R154). -/
structure Grounded (s : State) : Prop where
  settled : IdleSettled s
  keys : KeysGrounded s
  keyed : KeyedByGrants s

/-- Listen antennas and tap slots agree: a position listens on an antenna exactly when one slot of it holds the position,
never in both, an antenna's owner is not among its listeners, and an OUT_OF_SERVICE antenna has none (R153, R160, R161). -/
structure ListensExact (s : State) : Prop where
  slots : ∀ p a, s.listen p = some a ↔ (s.tap a).slot1 = some p ∨ (s.tap a).slot2 = some p
  once : ∀ p a, ¬ ((s.tap a).slot1 = some p ∧ (s.tap a).slot2 = some p)
  notOwner : ∀ p a, (s.ant a).owner = some p → s.listen p ≠ some a
  outOfService : ∀ a, (s.ant a).service = .outOfService → (s.tap a).slot1 = none ∧ (s.tap a).slot2 = none

/-- The service state differs from the configured one while the antenna is TRIPPED only, and one configured OUT_OF_SERVICE has no owner (R18, R25, R27). -/
structure ServiceExact (s : State) : Prop where
  configured : ∀ a, (s.ant a).service ≠ .tripped → (s.ant a).service = (s.config a).configured.service
  emptied : ∀ a, (s.config a).configured = .outOfService → (s.ant a).owner = none

/-- Claims wait only where they may: behind an owner, on an antenna IN_SERVICE, at most five of them, and none of a position of precedence 0 (R18, R58, R59, R79). -/
structure QueuesHeld (s : State) : Prop where
  owned : ∀ a, (s.ant a).owner = none → s.claims a = []
  inService : ∀ a, (s.ant a).service ≠ .inService → s.claims a = []
  short : ∀ a, (s.claims a).length ≤ 5
  parked : ∀ p, (s.place p).precedence = 0 → s.waitsOn p = none

end Sys2Proof.Machine
end

