-- ==== Sys2Proof/Certificates/Slice0/Obligations.lean ====
section
/-! DEFINITION. The statements for the provers, and the few names they are written with. OBLIGATIONS.json lists them with their rules. -/

namespace Sys2Proof.Machine

/-! ### The names the statements use -/

/-- The part runs and the port's queue is not full of answers: a request on the port reaches its checks (R178 step 0). -/
structure State.Takes (s : State) (port : Port) : Prop where
  running : s.running = true
  room : (s.link port).fullOfAnswers = false

/-- The port, the request and the tag of a command that is a request. -/
def requestOn : Instr → Option (Port × Request × Byte)
  | .ping port tag => some (port, .ping, tag)
  | .query port tag _ _ _ => some (port, .query, tag)
  | .claim port tag _ _ _ => some (port, .claim, tag)
  | .release port tag _ _ => some (port, .release, tag)
  | .force port tag _ _ => some (port, .force, tag)
  | .setClaims port tag _ => some (port, .setClaims, tag)
  | .follow port tag _ _ => some (port, .follow, tag)
  | .setPref port tag _ _ _ _ => some (port, .setPref, tag)
  | .listen port tag _ _ => some (port, .listen, tag)
  | .setBand port tag _ _ => some (port, .setBand, tag)
  | .setBanding port tag _ _ _ _ => some (port, .setBanding, tag)
  | .setBandmap port tag _ _ => some (port, .setBandmap, tag)
  | .setAntenna port tag _ _ _ _ _ _ _ _ _ _ => some (port, .setAntenna, tag)
  | .clear port tag _ => some (port, .clear, tag)
  | .setSensing port tag _ _ _ => some (port, .setSensing, tag)
  | .setSequencing port tag _ _ => some (port, .setSequencing, tag)
  | .hold port tag _ => some (port, .hold, tag)
  | .setKeying port tag _ _ _ _ => some (port, .setKeying, tag)
  | .setRules port tag _ _ _ _ _ => some (port, .setRules, tag)
  | .setExclusion port tag _ _ _ => some (port, .setExclusion, tag)
  | .setAux port tag _ _ _ _ _ _ => some (port, .setAux, tag)
  | .save port tag => some (port, .save, tag)
  | .restart port tag => some (port, .restart, tag)
  | _ => none

/-- What a console may not ask: a request that is the supervisor's alone, one for another position, and a peak reset (R179). -/
def consoleMayNot (port : Port) : Instr → Bool
  | .ping .. => false
  | .query _ _ _ _ reset => reset.toNat == 1
  | .claim _ _ p _ _ | .release _ _ p _ | .follow _ _ p _ | .setPref _ _ p _ _ _ | .listen _ _ p _ | .setBand _ _ p _ => p.toNat != port.val
  | _ => true

/-- A byte lies outside a range. -/
def outside (lo hi : Nat) (b : Byte) : Bool := decide (b.toNat < lo) || decide (hi < b.toNat)

/-- A structural field of the request is out of range, or a list names a thing twice (R180; R8, R9, R11, R24, R30, R62, R67, R69, R86, R87, R142, R144, R146, R148, R155, R172, R183). -/
def structurallyBad : Instr → Bool
  | .query _ _ subject index reset => outside 1 3 subject || outside 0 1 reset
      || (subject.toNat == 1 && (outside 1 6 index || reset.toNat == 1)) || (subject.toNat == 2 && outside 1 12 index)
      || (subject.toNat == 3 && (outside 0 0 index || reset.toNat == 1))
  | .claim _ _ p a n => outside 1 6 p || outside 1 12 a || outside 0 1 n
  | .release _ _ p w => outside 1 6 p || outside 1 3 w
  | .force _ _ a p => outside 1 12 a || outside 0 6 p
  | .follow _ _ p w => outside 1 6 p || outside 1 3 w
  | .setPref _ _ p b n l => outside 1 6 p || outside 1 6 b || outside 0 4 n || (l.take n.toNat).any (outside 1 12)
      || decide (¬ (l.take n.toNat).Nodup)
  | .listen _ _ p a => outside 1 6 p || outside 0 12 a
  | .setBand _ _ p b => outside 1 6 p || outside 0 6 b
  | .setBanding _ _ p src line guard_ => outside 1 6 p || outside 0 1 src || outside 0 15 line || outside 0 15 guard_
  | .setBandmap _ _ l _ => l.any (outside 0 6)
  | .setAntenna _ _ a mask _ _ _ _ _ _ _ service => outside 1 12 a || mask.getLsbD 0 || mask.getLsbD 7 || (service.toNat != 0 && service.toNat != 2)
  | .clear _ _ a => outside 1 12 a
  | .hold _ _ v => outside 0 1 v
  | .setKeying _ _ p k _ _ => outside 1 6 p || outside 0 3 k
  | .setRules _ _ _ _ order preempt _ => outside 0 1 order || outside 0 1 preempt
  | .setExclusion _ _ op a b => outside 1 3 op || (outside 1 2 op == false && (outside 1 12 a || outside 1 12 b || a == b))
  | .setAux _ _ line kind index signal invert flash => outside 1 8 line || outside 0 3 kind || outside 0 1 invert || outside 0 1 flash
      || (kind.toNat == 0 && (outside 0 1 index || outside 0 0 signal)) || (kind.toNat == 1 && (outside 1 6 index || outside 1 5 signal))
      || (kind.toNat == 2 && (outside 1 12 index || outside 1 5 signal)) || (kind.toNat == 3 && (outside 0 0 index || outside 1 6 signal))
  | _ => false

/-- The low byte and the high byte of a two-byte field, as they stand on the line (R197). -/
def halfBytes (h : Half) : List Byte := [h.extractLsb' 0 8, h.extractLsb' 8 8]

/-- The payload of a request (Record Formats, "Request payloads"). -/
def payloadOf : Instr → List Byte
  | .query _ _ subject index reset => [subject, index, reset]
  | .claim _ _ p a n => [p, a, n]
  | .release _ _ p w => [p, w]
  | .force _ _ a p => [a, p]
  | .setClaims _ _ t => halfBytes t
  | .follow _ _ p w => [p, w]
  | .setPref _ _ p b n l => [p, b, n] ++ l
  | .listen _ _ p a => [p, a]
  | .setBand _ _ p b => [p, b]
  | .setBanding _ _ p src line guard_ => [p, src, line, guard_]
  | .setBandmap _ _ l t => l ++ [t]
  | .setAntenna _ _ a mask mp sl kf c zf zr st sv => [a, mask] ++ halfBytes mp ++ [sl] ++ halfBytes kf ++ [c, zf, zr, st, sv]
  | .clear _ _ a => [a]
  | .setSensing _ _ t f u => [t] ++ halfBytes f ++ [u]
  | .setSequencing _ _ d f => halfBytes d ++ [f]
  | .hold _ _ v => [v]
  | .setKeying _ _ p k h m => [p, k] ++ halfBytes h ++ halfBytes m
  | .setRules _ _ l t o pre g => l ++ [t, o, pre, g]
  | .setExclusion _ _ op a b => [op, a, b]
  | .setAux _ _ line kind index signal invert flash => [line, kind, index, signal, invert, flash]
  | _ => []

/-- The payload length of each request (Record Formats, "Request payloads"). -/
def Request.payloadLength : Request → Nat
  | .ping | .save | .restart => 0
  | .clear | .hold => 1
  | .release | .force | .setClaims | .follow | .listen | .setBand => 2
  | .query | .claim | .setSequencing | .setExclusion => 3
  | .setBanding | .setSensing => 4
  | .setKeying | .setAux => 6
  | .setPref => 7
  | .setRules => 10
  | .setAntenna => 12
  | .setBandmap => 17

/-- A link whose queue and LOST flag become those given; an idle transmitter takes the oldest record in the same event (R185, log 12), a report with the LOST indication that the flag gives, which it clears (R187). -/
def Link.holding (l : Link) (queue : List Record) (lost : Bool) : Link :=
  match l.transmitter, queue with
  | none, .answer a :: rest => { l with queue := rest, transmitter := some { record := .answer a, lost := false }, lost := lost }
  | none, .report r :: rest => { l with queue := rest, transmitter := some { record := .report r, lost := lost }, lost := false }
  | _, _ => { l with queue := queue, lost := lost }

/-- The state right after a start-up from a state (R15, R33, R53, R82, R98, R119, R151, R164, R173, R189, R195): every block at its start values, the pins and the waiting commands as they were. -/
structure StartedUp (cause : StartCause) (s t : State) : Prop where
  running : t.running = true
  timebase : t.timebase = 0#32
  settings : t.settings = s.store.image.getD Settings.default
  decoders : ∀ p, t.dec p = { band := none, raw := none, stable := none, debounce := none, reference := none }
  antennas : ∀ a, t.ant a =
    { service := (t.config a).configured.service, owner := none, connected := none, pf := 0, pr := 0, swr := 0, peak := 0, presence := false, trip := none }
  sensors : ∀ a, (t.sensor a).below = 0 ∧ (t.sensor a).swrCount = 0 ∧ (t.sensor a).powerCount = 0 ∧ (t.sensor a).unkeyed = false ∧ (t.sensor a).stray = false
  quiet : ∀ p, t.quiet p = none
  claims : ∀ a, t.claims a = []
  pointers : ∀ p, t.waitsOn p = none
  sequencers : ∀ p, t.seq p = { current := ⟨none, none⟩, target := ⟨none, none⟩, state := .idle, phase := none, setFilter := none }
  keys : ∀ p, t.key p =
    { state := if s.ptt p then .blocked else .off, level := s.ptt p, filter := none, grant := none, reported := false, tapGuard := none, hang := none,
      maxKey := none }
  waiting : t.waiting = [] ∧ t.pointer = 5 ∧ t.holdOn = false
  taps : ∀ a, t.tap a = { slot1 := none, slot2 := none, closed1 := false, closed2 := false, keyed := false }
  listens : ∀ p, t.listen p = none
  txen : ∀ p, t.txen p = false
  aux : ∀ l, t.auxLine l = t.lineValue l
  links : ∀ port, t.link port =
    { framer := .hunt, partialFrame := [], gap := none, queue := [],
      transmitter := some { record := .report { body := .start cause (if s.store.image.isSome then .loaded else .defaults), time := 0#32 }, lost := false },
      reserved := false, lost := false }
  store : t.store = { image := s.store.image, saving := none, restartPending := false }
  pins : t.lineInputs = s.lineInputs ∧ t.pttInputs = s.pttInputs ∧ t.couplers = s.couplers ∧ t.pending = s.pending

/-- The part is stopped (R193): every output off, every relay open and nothing on the lines; what stands inside is as it was, but that an unfinished write has spoilt the image (R192). -/
structure Stopped (s t : State) : Prop where
  running : t.running = false
  txen : ∀ p, t.txen p = false
  aux : ∀ l, t.auxLine l = false
  relays : ∀ p a second, t.matrixRelayClosed p a = false ∧ t.filterRelay p = none ∧ t.tapRelayClosed a second = false
  wire : ∀ port, t.wire port = []
  image : t.store.image = if s.store.saving.isSome then none else s.store.image
  saving : t.store.saving = none
  inside : t = { s with powered := t.powered, resetIsLow := t.resetIsLow, auxLines := t.auxLines, txenOutputs := t.txenOutputs, store := t.store }

/-- What granting, serving, cutting and selecting leave alone beside the settings: the supply, the Timebase, HOLD, the sensor, the store, the pins, the waiting commands,
the records of the antennas but for owner and connected position, and the decoders but for the keyed reference. -/
structure CascadeFrame (s t : State) : Prop where
  supply : t.powered = s.powered ∧ t.resetIsLow = s.resetIsLow ∧ t.timebase = s.timebase
  hold : t.holdOn = s.holdOn
  sensors : t.sensors = s.sensors
  store : t.store = s.store
  pins : t.lineInputs = s.lineInputs ∧ t.pttInputs = s.pttInputs ∧ t.couplers = s.couplers
  pending : t.pending = s.pending
  records : ∀ a, ({ t.ant a with owner := none, connected := none } : AntennaRecord) = { s.ant a with owner := none, connected := none }
  decoders : ∀ p, ({ t.dec p with reference := none } : Decoder) = { s.dec p with reference := none }

/-- Two settings that differ in nothing but the follow states. -/
def SameButFollow (c d : Settings) : Prop :=
  { c with positions := c.positions.map fun (x : PositionConfig) => { x with follow := false } } = { d with positions := d.positions.map fun (x : PositionConfig) => { x with follow := false } }

/-- What the Transmit Arbiter's own events leave alone: owners, connected positions, claims, sequencers, listeners and the store with the rest of the cascade's frame. -/
structure ArbiterFrame (s t : State) : Prop extends CascadeFrame s t where
  antennas : t.antennas = s.antennas
  claims : t.claimQueues = s.claimQueues ∧ t.claimPointers = s.claimPointers
  sequencers : t.sequencers = s.sequencers
  listens : t.listens = s.listens
  slots : ∀ a, (t.tap a).slot1 = (s.tap a).slot1 ∧ (t.tap a).slot2 = (s.tap a).slot2

/-- The forward power that the readings of a sample give (R36, R37). -/
def sampledPf (c : AntennaConfig) (vf : Nat) : Nat := (min 1023 vf - c.zf) * (min 1023 vf - c.zf) * c.kf / 16777216

/-- The corrected reflected reading of a sample (R34, R36). -/
def sampledVr (c : AntennaConfig) (vr : Nat) : Nat := (min 1023 vr - c.zr) * c.c / 128

/-- The reflected power that the readings of a sample give (R36, R37). -/
def sampledPr (c : AntennaConfig) (vr : Nat) : Nat := min 4095 (sampledVr c vr * sampledVr c vr * c.kf / 16777216)

end Sys2Proof.Machine

open Sys2Proof Sys2Proof.Machine

/-! ### The machine as a whole -/

/-- A step takes the command at the front of the queue and runs it on the state with the queue's rest. -/
def Obligations.StepRunsFront : Prop :=
  (∀ (c : Instr) (s : State), step (s.withFront c) = exec c s)
  ∧ ∀ (c : Instr) (rest : List Instr) (s : State), s.pending = c :: rest → step s = exec c { s with pending := rest }

/-- With no command waiting, a part that does not run stays as it is, a running one serves the first event that is due, and with none due its Timebase counts one millisecond: the ports' sampled marks are cleared, so that the scan of that count is due; at a count that is a multiple of 250 the flashing lines with a true condition take the new phase; then the band lines and the PTT inputs are sampled as they stand. The model's choices: that the part's time runs so, and the fixed order of the events that are due, timers before samples (log 2); the sampled marks and the coupler pins (log 9); that the first samples of the lines and inputs are those of count 1 (log 10); position order (log 15). -/
def Obligations.IdleStep : Prop :=
  (∀ s : State, s.pending = [] →
    (s.running = false → step s = .next s)
    ∧ (∀ c, s.running = true → s.dueCommand = some c → step s = exec c s)
    ∧ (s.running = true → s.dueCommand = none →
        ∃ t, step s = .next t ∧ t.timebase = s.timebase + 1 ∧ t.running = true ∧ t.pending = []
          ∧ t.lineInputs = s.lineInputs ∧ t.pttInputs = s.pttInputs ∧ t.couplers = s.couplers
          ∧ (let counted := { s with timebase := s.timebase + 1, sensors := s.sensors.map fun (n : SensorRecord) => { n with sampled := false } }
            let flashed := { counted with auxLines := Vector.ofFn fun (l : Fin 8) =>
              if counted.timebase.toNat % 250 = 0 ∧ (s.auxConfig l).flash = true ∧ s.condition (s.auxConfig l).source = true then counted.lineValue l else s.auxLine l }
            let lines := fun (p : Pos) (u : State) =>
              let seen := s.lines p &&& (s.place p).lineMask
              if (s.dec p).raw = some seen then u
              else if s.settings.debounce = 0 then (u.onDec p fun d => { d with raw := some seen }).settleBand p
              else u.onDec p fun d => { d with raw := some seen, debounce := some (s.timebase + 1 + BitVec.ofNat 32 s.settings.debounce) }
            let ptt := fun (p : Pos) (u : State) => u.onKey p fun k =>
              if s.ptt p = (s.key p).level then { k with filter := none }
              else if (s.key p).filter = none then { k with filter := some (s.timebase + 1 + 2#32) } else k
            t = followAux s (forEach [0, 1, 2, 3, 4, 5] ptt (forEach [0, 1, 2, 3, 4, 5] lines flashed)))))
  -- the order of the events that are due
  ∧ ∀ s : State,
    let positions : List Pos := [0, 1, 2, 3, 4, 5]
    let phase := fun (f : Phase) (p : Pos) => decide ((s.seq p).state.shown = f) && s.due (s.seq p).phase
    let key := fun (k : KeyState) (t : KeyRecord → Timer) (p : Pos) => decide ((s.key p).state = k) && s.due (t (s.key p))
    let events : List (List (Bool × Instr)) :=
      [positions.map fun p => (s.due (s.dec p).debounce, .settle p),
        positions.map fun p => (s.due (s.key p).filter, .pttEdge p),
        positions.map fun p => (phase .brk p, .breakEnd p),
        positions.map fun p => (phase .make p, .makeEnd p),
        positions.map fun p => (phase .drain p || phase .holdoff p, .rfHot p),
        positions.map fun p => (key .opening KeyRecord.tapGuard p, .tapGuardExpiry p),
        positions.map fun p => (key .hang KeyRecord.hang p, .hangExpiry p),
        positions.map fun p => (key .on KeyRecord.maxKey p, .maxKeyExpiry p),
        positions.map fun p => ((s.waitingClaim p).any fun x => s.due x.2.expiry, .claimExpired p),
        ([0, 1, 2, 3, 4, 5, 6] : List Port).map fun port => (s.due (s.link port).gap, .byteGapExpiry port),
        ([0, 1, 2, 3, 4, 5, 6, 7, 8, 9, 10, 11] : List Ant).map fun a => (!(s.sensor a).sampled, .couplerSample a (s.coupler a).1 (s.coupler a).2)]
    s.dueCommand = (events.flatten.find? fun x => x.1).map fun x => x.2

/-- Every command answers a next state, whatever the state, and leaves the queue of waiting commands alone: the part keeps running through every fault it knows of. -/
def Obligations.EveryCommandCompletes : Prop := ∀ (c : Instr) (s : State), ∃ t, exec c s = .next t ∧ t.pending = s.pending

/-- The state after reset meets every invariant. -/
def Obligations.ResetMeetsInvariants : Prop :=
  Safe State.reset ∧ LinksBounded State.reset ∧ OneOwned State.reset ∧ ClaimsExact State.reset ∧ RequestsExact State.reset ∧ AuxByCondition State.reset
  ∧ Grounded State.reset ∧ ListensExact State.reset ∧ ServiceExact State.reset ∧ QueuesHeld State.reset

/-- TXEN follows the key states, the taps their conditions, HOLD silences the station, grants are recorded, the waiting list holds the QUEUED positions, keys hold only ACTIVE routes, and each antenna is connected where its sequencer says and nowhere else: every step keeps it. What the keys and the keyed indications rest on beside this stands in KeysGroundedKept. -/
def Obligations.SafeKept : Prop := ∀ s t : State, Safe s → step s = .next t → Safe t

/-- No outgoing queue ever holds more than 16 records, the reserved place counted. -/
def Obligations.LinksBoundedKept : Prop := ∀ s t : State, LinksBounded s → step s = .next t → LinksBounded t

/-- A position owns at most one antenna; the claim queues and the waiting-claim pointers agree, a position has at most one waiting claim across the twelve queues, and none on the antenna it owns: every step keeps both. The guarantees of the queues, the services and the listeners stand in TablesKept. -/
def Obligations.OwnershipKept : Prop :=
  (∀ s t : State, OneOwned s → step s = .next t → OneOwned t) ∧ ∀ s t : State, ClaimsExact s → step s = .next t → ClaimsExact t

/-- The path asked of every sequencer is the position's owned antenna with the filter of its band: every step keeps it. -/
def Obligations.RequestsExactKept : Prop := ∀ s t : State, RequestsExact s → step s = .next t → RequestsExact t

/-- Every aux line has the value its configuration gives from the state as it stands: every step keeps it. -/
def Obligations.AuxByConditionKept : Prop := ∀ s t : State, AuxByCondition s → step s = .next t → AuxByCondition t

/-- No step changes the connected position of an antenna that carries RF after it: a matrix relay moves only on a quiet port. -/
def Obligations.NoRelayMovesHot : Prop :=
  ∀ s t : State, step s = .next t → ∀ a, (t.ant a).connected ≠ (s.ant a).connected → (t.ant a).presence = false

/-! ### The checks before a request's block -/

/-- The checks of a request of a running part in their order: one that meets a queue full of answers is discarded unserved, with LOST set; one of a wrong length is answered BAD_FORMAT before its port is looked at; a console request that R179 does not allow is answered NOT_PERMITTED, whatever its other fields hold; a permitted one with a structural field out of range is answered BAD_VALUE. None has any other effect. -/
def Obligations.RequestsChecked : Prop :=
  ∀ (c : Instr) (port : Port) (q : Request) (tag : Byte) (s : State), requestOn c = some (port, q, tag) → s.running = true →
    ((s.link port).fullOfAnswers = true → exec c s = .next (s.onLink port fun l => { l with lost := true }))
    ∧ ((s.link port).fullOfAnswers = false → c.wellFormed = false → exec c s = .next (s.answer port q tag .badFormat))
    ∧ ((s.link port).fullOfAnswers = false → c.wellFormed = true → port ≠ 0 → consoleMayNot port c = true →
        exec c s = .next (s.answer port q tag .notPermitted))
    ∧ ((s.link port).fullOfAnswers = false → c.wellFormed = true → (port = 0 ∨ consoleMayNot port c = false) → structurallyBad c = true →
        exec c s = .next (s.answer port q tag .badValue))

/-! ### The links -/

/-- The framer by its state and the byte received, and the bytes, the framing errors and the gaps that cost a partial frame. That a byteGapExpiry commanded before its expiry changes nothing is the model's choice (log 3). -/
def Obligations.FramerTakesBytes : Prop :=
  ∀ (port : Port) (b : Byte) (s : State), s.running = true →
    let gap : Timer := some (s.timebase + 10#32)
    let hunting := s.onLink port fun l => { l with framer := .hunt, partialFrame := [], gap := none }
    ((s.link port).framer = .hunt → exec (.byteReceived port b) s
      = .next (if b = 0xD2#8 then s.onLink port fun l => { l with framer := .length, partialFrame := [], gap := gap } else s))
    ∧ ((s.link port).framer = .length → exec (.byteReceived port b) s = .next
        (if 2 ≤ b.toNat ∧ b.toNat ≤ 50 then s.onLink port fun l => { l with framer := .body, partialFrame := [b], gap := gap }
         else if b = 0xD2#8 then s.onLink port fun l => { l with framer := .length, partialFrame := [], gap := gap } else hunting))
    ∧ (∀ len rest, (s.link port).framer = .body → (s.link port).partialFrame = len :: rest →
        (rest.length ≠ len.toNat → exec (.byteReceived port b) s
          = .next (s.onLink port fun l => { l with partialFrame := l.partialFrame ++ [b], gap := gap }))
        ∧ (rest.length = len.toNat → byteSum (len :: rest ++ [b]) ≠ 0#8 → exec (.byteReceived port b) s = .next hunting))
    ∧ exec (.framingError port) s = .next hunting
    ∧ exec (.byteGapExpiry port) s = .next (if s.due (s.link port).gap then hunting else s)

/-- The byte that completes a good frame has the effect of the request that the frame's type, tag and payload spell, and the framer hunts again; a type that no request has is answered UNKNOWN, and a payload of another length than its request's BAD_FORMAT; at a queue full of answers either is discarded with LOST set. -/
def Obligations.GoodFrameIsItsRequest : Prop :=
  (∀ (c : Instr) (port : Port) (q : Request) (tag len check : Byte) (s : State), requestOn c = some (port, q, tag) → c.wellFormed = true →
    s.running = true → (s.link port).framer = .body → (s.link port).partialFrame = len :: q.code :: tag :: payloadOf c →
    len.toNat = (payloadOf c).length + 2 → byteSum (len :: q.code :: tag :: payloadOf c ++ [check]) = 0#8 →
    exec (.byteReceived port check) s = exec c (s.onLink port fun l => { l with framer := .hunt, partialFrame := [], gap := none }))
  ∧ (∀ (port : Port) (type tag len check : Byte) (payload : List Byte) (s : State), (∀ q : Request, q.code ≠ type) → s.running = true →
    (s.link port).framer = .body → (s.link port).partialFrame = len :: type :: tag :: payload → len.toNat = payload.length + 2 →
    byteSum (len :: type :: tag :: payload ++ [check]) = 0#8 →
    let hunting := s.onLink port fun l => { l with framer := .hunt, partialFrame := [], gap := none }
    exec (.byteReceived port check) s
      = .next (if (s.link port).fullOfAnswers then hunting.onLink port fun l => { l with lost := true } else hunting.answerRaw port type tag .unknown .nothing))
  ∧ ∀ (port : Port) (q : Request) (tag len check : Byte) (payload : List Byte) (s : State), payload.length ≠ q.payloadLength → s.running = true →
    (s.link port).framer = .body → (s.link port).partialFrame = len :: q.code :: tag :: payload → len.toNat = payload.length + 2 →
    byteSum (len :: q.code :: tag :: payload ++ [check]) = 0#8 →
    let hunting := s.onLink port fun l => { l with framer := .hunt, partialFrame := [], gap := none }
    exec (.byteReceived port check) s
      = .next (if (s.link port).fullOfAnswers then hunting.onLink port fun l => { l with lost := true } else hunting.answer port q tag .badFormat)

/-- The end of a frame's sending: the oldest record of the queue is begun in the same event, a report with the LOST indication that the flag gives, which it clears. That TRANSMIT_COMPLETE on an idle transmitter changes nothing is the model's choice (log 3). -/
def Obligations.TransmitterGoesOn : Prop :=
  ∀ (port : Port) (s : State), s.running = true →
    ((s.link port).transmitter = none → exec (.transmitComplete port) s = .next s)
    ∧ ∀ sent, (s.link port).transmitter = some sent → ¬ (port = 0 ∧ s.store.restartPending = true ∧ sent.record.isRestartDone = true) →
      ((s.link port).queue = [] → exec (.transmitComplete port) s = .next (s.onLink port fun l => { l with transmitter := none }))
      ∧ (∀ a rest, (s.link port).queue = .answer a :: rest → exec (.transmitComplete port) s
          = .next (s.onLink port fun l => { l with queue := rest, transmitter := some { record := .answer a, lost := false } }))
      ∧ ∀ r rest, (s.link port).queue = .report r :: rest → exec (.transmitComplete port) s
          = .next (s.onLink port fun l => { l with queue := rest, transmitter := some { record := .report r, lost := l.lost }, lost := false })

/-- A report goes to port S and to the consoles named, once each and to no other port; one that meets a full queue is dropped with LOST set, an answer there takes the place of the most recent report, and any other record joins the end of the queue. That an idle transmitter takes the oldest record in the same event is the model's reading (log 12), and that an answer at a queue full of answers changes nothing its choice for what never happens (log 23). -/
def Obligations.QueuesTakeRecords : Prop :=
  (∀ (s : State) (consoles : List Pos) (body : ReportBody) (port : Port), (s.report consoles body).link port
    = if port = 0 ∨ ∃ p ∈ consoles, port = p.succ then (s.link port).pushReport { body := body, time := s.timebase } else s.link port)
  ∧ (∀ (l : Link) (r : Report), l.used ≥ 16 → l.pushReport r = { l with lost := true })
  ∧ (∀ (l : Link) (r : Report), l.used < 16 → l.pushReport r = l.holding (l.queue ++ [.report r]) l.lost)
  ∧ (∀ (l : Link) (a : Answer), l.used < 16 → l.pushAnswer a = l.holding (l.queue ++ [.answer a]) l.lost)
  ∧ (∀ (l : Link) (a : Answer) (r : Report) (before behind : List Record), l.used ≥ 16 →
      l.queue = before ++ .report r :: behind → behind.any Record.isReport = false →
      l.pushAnswer a = l.holding (before ++ behind ++ [.answer a]) true)
  ∧ ∀ (l : Link) (a : Answer), l.used ≥ 16 → l.queue.any Record.isReport = false → l.pushAnswer a = l

/-! ### PING and QUERY -/

/-- PING is answered DONE with the part code, the revision and the Timebase count, and changes nothing; it has no payload. -/
def Obligations.PingAnswers : Prop :=
  ∀ (port : Port) (tag : Byte) (s : State), s.Takes port →
    exec (.ping port tag) s = .next (s.onLink port fun l => l.pushAnswer { type := 0x81#8, tag := tag, result := .done, data := .ping s.timebase })
    ∧ (AnswerData.ping s.timebase).bytes = [0x64#8, 0x02#8, 1#8] ++ fourBytes s.timebase
    ∧ ∀ payload, payload ≠ [] → serveFrame port 0x01#8 tag payload s = s.answer port .ping tag .badFormat

/-- QUERY is answered DONE with the data of its subject as they stand in the one event, and changes nothing but the peak where the supervisor asks for its reset. The route status is CHANGING outside IDLE, and in IDLE ACTIVE with a current antenna and NONE without; the route antenna is the current one in IDLE, the target's in a change; granted is OPENING, ON or HANG, and a granted position counts on its grant band. -/
def Obligations.QueryAnswers : Prop :=
  (∀ (s : State) (p : Pos),
    s.routeStatus p = (if (s.seq p).state ≠ .idle then .changing else if (s.seq p).current.antenna = none then .none else .active)
    ∧ s.routeAntenna p = (if (s.seq p).state = .idle then (s.seq p).current.antenna else (s.seq p).target.antenna)
    ∧ (s.granted p = true ↔ (s.key p).state = .opening ∨ (s.key p).state = .on ∨ (s.key p).state = .hang)
    ∧ (∀ (l : List Pos) (b : Band), s.countOnBand l b = (l.filter fun q => (s.key q).grant.any fun g => g.band == b).length)
    ∧ ∀ a, OneOwned s → (s.owned p = some a ↔ (s.ant a).owner = some p))
  ∧ ∀ (port : Port) (tag : Byte) (s : State), s.Takes port →
    (∀ p, exec (.query port tag 1#8 (posByte p) 0#8) s = .next (s.answerRaw port 0x02#8 tag .done (.position
      { code := (s.dec p).stable, band := s.band p, source := (s.place p).source, routeAntenna := s.routeAntenna p, routeStatus := s.routeStatus p,
        phase := (s.seq p).state.shown, key := (s.key p).state, follow := (s.place p).follow, waitingClaim := s.waitsOn p, listen := s.listen p,
        precedence := (s.place p).precedence })))
    ∧ (∀ a, let view : AntennaView :=
          { config := s.config a, record := s.ant a, queue := (s.claims a).map fun c => (c.position, c.origin),
            listeners := (s.tap a).slot1.toList ++ (s.tap a).slot2.toList }
        exec (.query port tag 2#8 (antByte a) 0#8) s = .next (s.answerRaw port 0x02#8 tag .done (.antenna view))
        ∧ (port = 0 → exec (.query port tag 2#8 (antByte a) 1#8) s
          = .next ((s.answerRaw port 0x02#8 tag .done (.antenna view)).onAnt a fun r => { r with peak := 0 })))
    ∧ exec (.query port tag 3#8 0#8 0#8) s = .next (s.answerRaw port 0x02#8 tag .done (.station
      { hold := s.holdOn, limits := s.settings.bandLimits.toList, total := s.settings.stationTotal, order := s.settings.order,
        preempt := s.settings.preempt, granted := allBands.map fun b => s.countOnBand (allPos.filter s.granted) b, waiting := s.waiting,
        pointer := s.pointer, time := s.timebase }))

/-- The bytes on the line (Record Formats): the frame of an answer and of a report, the payload of every answer and report field by field with its length, and the codes of every enumerated value. -/
def Obligations.RecordsLaidOut : Prop :=
  (∀ (a : Answer) (lost : Bool), ∃ check, Transmission.frame { record := .answer a, lost := lost }
      = [0xD2#8, byteOf (a.data.bytes.length + 3), a.type, a.tag, a.result.code] ++ a.data.bytes ++ [check]
    ∧ byteSum ([byteOf (a.data.bytes.length + 3), a.type, a.tag, a.result.code] ++ a.data.bytes ++ [check]) = 0#8)
  ∧ (∀ (r : Report) (lost : Bool), ∃ check, Transmission.frame { record := .report r, lost := lost }
      = [0xD2#8, byteOf (r.body.fields.length + 7), r.body.type, 0#8, flagByte lost] ++ r.body.fields ++ fourBytes r.time ++ [check]
    ∧ byteSum ([byteOf (r.body.fields.length + 7), r.body.type, 0#8, flagByte lost] ++ r.body.fields ++ fourBytes r.time ++ [check]) = 0#8)
  ∧ (∀ (s : State) (port : Port) (t : Transmission), s.running = true → (s.link port).transmitter = some t → s.wire port = t.frame)
  ∧ (∀ (s : State) (port : Port) (q : Request) (tag : Byte) (r : Result), s.answer port q tag r
      = s.onLink port fun l => l.pushAnswer { type := q.code ||| 0x80#8, tag := tag, result := r, data := .nothing })
  -- the data of answers
  ∧ AnswerData.nothing.bytes = []
  ∧ (∀ v : PositionView, (AnswerData.position v).bytes
      = [codeByte v.code, bandByte v.band, v.source.code, antOrZero v.routeAntenna, v.routeStatus.code, v.phase.code, v.key.code, flagByte v.follow,
          antOrZero v.waitingClaim, antOrZero v.listen, byteOf v.precedence.val])
  ∧ (∀ v : StationView, v.limits.length = 6 → v.granted.length = 6 → v.waiting.length ≤ 6 → (AnswerData.station v).bytes
      = [flagByte v.hold] ++ v.limits.map byteOf ++ [byteOf v.total, v.order.code, flagByte v.preempt] ++ v.granted.map byteOf
          ++ [byteOf v.waiting.length] ++ v.waiting.map posByte ++ List.replicate (6 - v.waiting.length) 0#8 ++ [posByte v.pointer] ++ fourBytes v.time
      ∧ (AnswerData.station v).bytes.length = 28)
  ∧ (∀ v : AntennaView, v.queue.length ≤ 5 → v.listeners.length ≤ 2 → (AnswerData.antenna v).bytes
      = [v.config.bandMask] ++ twoBytes v.config.maxPower ++ [byteOf v.config.swrLimit] ++ twoBytes v.config.kf
          ++ [byteOf v.config.c, byteOf v.config.zf, byteOf v.config.zr, byteOf v.config.settle, v.config.configured.service.code]
          ++ [v.record.service.code, posOrZero v.record.owner, posOrZero v.record.connected, byteOf v.queue.length]
          ++ (v.queue.map fun c => posByte c.1) ++ List.replicate (5 - v.queue.length) 0#8
          ++ (v.queue.map fun c => c.2.code) ++ List.replicate (5 - v.queue.length) 0#8
          ++ v.listeners.map posByte ++ List.replicate (2 - v.listeners.length) 0#8
          ++ twoBytes v.record.pf ++ twoBytes v.record.pr ++ twoBytes v.record.swr ++ twoBytes v.record.peak ++ [flagByte v.record.presence]
          ++ (match v.record.trip with
            | some t => [t.cause.code] ++ twoBytes t.pf ++ twoBytes t.swr ++ [posOrZero t.owner] ++ fourBytes t.time
            | none => List.replicate 10 0#8)
      ∧ (AnswerData.antenna v).bytes.length = 46)
  -- the fields of reports
  ∧ (∀ body : ReportBody, (body.type, body.fields) = match body with
      | .band p previous new code cause => (0x40#8, [posByte p, bandByte previous, bandByte new, codeByte code, cause.code])
      | .route p b filter a status reason => (0x41#8, [posByte p, bandByte b, bandByte filter, antOrZero a, status.code, reason.code])
      | .keyQueued p b a place => (0x42#8, [1#8, posByte p, bandByte b, antOrZero a, byteOf place, 0#8])
      | .keyGranted p b a entered => (0x42#8, [2#8, posByte p, bandByte (some b), antByte a, entered.code, 0#8])
      | .keyDenied p reason b a => (0x42#8, [3#8, posByte p, bandByte b, antOrZero a, reason.code, 0#8])
      | .keyCut p reason grant by_ =>
        (0x42#8, [4#8, posByte p, bandByte (grant.map Grant.band), antOrZero (grant.map Grant.antenna), reason.code, posOrZero by_])
      | .claim (.queued owner place) a p origin => (0x43#8, [1#8, antByte a, posByte p, originByte origin, posOrZero owner, byteOf place])
      | .claim (.granted manner previous) a p origin => (0x43#8, [2#8, antByte a, posByte p, originByte origin, manner.code, antOrZero previous])
      | .claim (.superseded new) a p origin => (0x43#8, [3#8, antByte a, posByte p, originByte origin, antByte new, 0#8])
      | .claim (.withdrawn cause) a p origin => (0x43#8, [4#8, antByte a, posByte p, originByte origin, cause.code, 0#8])
      | .claim .expired a p origin => (0x43#8, [5#8, antByte a, posByte p, originByte origin, 0#8, 0#8])
      | .claim (.dropped reason) a p origin => (0x43#8, [6#8, antByte a, posByte p, originByte origin, reason.code, 0#8])
      | .claim .released a p origin => (0x43#8, [7#8, antByte a, posByte p, originByte origin, 0#8, 0#8])
      | .claim (.removed reason) a p origin => (0x43#8, [8#8, antByte a, posByte p, originByte origin, reason.code, 0#8])
      | .tap a second p action cause => (0x44#8, [antByte a, if second then 2#8 else 1#8, posByte p, action.code, cause.code])
      | .trip a r => (0x45#8, [antByte a, r.cause.code] ++ twoBytes r.pf ++ twoBytes r.swr ++ [posOrZero r.owner])
      | .service a previous new cause => (0x46#8, [antByte a, previous.code, new.code, cause.code])
      | .rfUnkeyed a p pf pr quiet =>
        (0x47#8, [1#8, antByte a, posByte p, 0#8, 0#8, 0#8] ++ twoBytes pf ++ twoBytes pr ++ twoBytes (min 65535 quiet))
      | .rfStray a owner pf pr => (0x47#8, [2#8, antByte a, posOrZero owner, 0#8, 0#8, 0#8] ++ twoBytes pf ++ twoBytes pr ++ [0#8, 0#8])
      | .rfHot a p phase on connected pf pr =>
        (0x47#8, [3#8, antOrZero a, posByte p, phase.code, on.code, posOrZero connected] ++ twoBytes pf ++ twoBytes pr ++ [0#8, 0#8])
      | .start cause status => (0x48#8, [cause.code, status.code, 0x64#8, 0x02#8, 1#8]))
  -- numbers and names
  ∧ (∀ n : Nat, n < 65536 → ∃ lo hi : Byte, twoBytes n = [lo, hi] ∧ lo.toNat + 256 * hi.toNat = n)
  ∧ (∀ c : Count, ∃ b0 b1 b2 b3 : Byte, fourBytes c = [b0, b1, b2, b3]
      ∧ b0.toNat + 256 * b1.toNat + 65536 * b2.toNat + 16777216 * b3.toNat = c.toNat)
  ∧ (∀ p : Pos, (posByte p).toNat = p.val + 1 ∧ posOrZero (some p) = posByte p) ∧ posOrZero none = 0#8
  ∧ (∀ a : Ant, (antByte a).toNat = a.val + 1 ∧ antOrZero (some a) = antByte a) ∧ antOrZero none = 0#8
  ∧ [none, some Band.b160, some .b80, some .b40, some .b20, some .b15, some .b10].map bandByte = [0, 1, 2, 3, 4, 5, 6]
  ∧ (∀ c : BitVec 4, (codeByte (some c)).toNat = c.toNat) ∧ codeByte none = 255#8 ∧ flagByte false = 0#8 ∧ flagByte true = 1#8
  ∧ [Source.lines, .message].map Source.code = [0, 1] ∧ [BandCause.lines, .message, .map].map BandCause.code = [1, 2, 3]
  ∧ [Service.inService, .tripped, .outOfService].map Service.code = [0, 1, 2] ∧ [ServiceCause.set, .clear].map ServiceCause.code = [1, 2]
  ∧ [TripCause.swr, .overpower, .hotSwitch].map TripCause.code = [1, 2, 3]
  ∧ [RouteStatus.none, .active, .changing].map RouteStatus.code = [0, 1, 2] ∧ [RouteReason.settled, .noAntenna].map RouteReason.code = [1, 2]
  ∧ [Phase.idle, .drain, .brk, .holdoff, .make].map Phase.code = [0, 1, 2, 3, 4]
  ∧ [WaitingOn.rf, .connected, .both].map WaitingOn.code = [1, 2, 3]
  ∧ [KeyState.off, .pending, .queued, .opening, .on, .hang, .blocked].map KeyState.code = [0, 1, 2, 3, 4, 5, 6]
  ∧ [KeyReason.tripped, .bandMismatch, .parked, .bandClosed, .noBand, .noRoute, .routeChange, .bandMoved, .stuck, .hold, .preempted].map KeyReason.code
    = [21, 22, 25, 33, 40, 41, 48, 49, 50, 51, 52]
  ∧ [none, some Origin.console, some .supervisor, some .follow].map originByte = [0, 1, 2, 3]
  ∧ [Origin.console, .supervisor, .follow].map Origin.code = [1, 2, 3]
  ∧ [Manner.immediate, .queue, .force].map Manner.code = [1, 2, 3] ∧ [WithdrawCause.release, .followOff].map WithdrawCause.code = [1, 2]
  ∧ [ClaimReason.band, .tripped, .outOfService, .parked, .forced].map ClaimReason.code = [1, 2, 3, 4, 5]
  ∧ [GrantOrder.arrival, .rotate].map GrantOrder.code = [0, 1] ∧ [TapAction.taken, .freed].map TapAction.code = [1, 2]
  ∧ [TapCause.listen, .owner, .outOfService].map TapCause.code = [1, 2, 3]
  ∧ [StartCause.power, .line, .request].map StartCause.code = [1, 2, 3] ∧ [StoreStatus.loaded, .defaults].map StoreStatus.code = [1, 2]
  ∧ [Result.done, .already, .waiting, .clamped, .notPermitted, .badValue, .badFormat, .unknown, .outOfService, .tripped, .bandMismatch, .busy, .parked,
      .tapsFull, .ownAntenna, .wrongSource, .rfPresent, .storeBusy, .exclusionsFull, .storeFault].map Result.code
    = [0, 1, 2, 3, 16, 17, 18, 19, 20, 21, 22, 24, 25, 26, 27, 28, 29, 30, 31, 32]
  ∧ [Request.ping, .query, .claim, .release, .force, .setClaims, .follow, .setPref, .listen, .setBand, .setBanding, .setBandmap, .setAntenna, .clear,
      .setSensing, .setSequencing, .hold, .setKeying, .setRules, .setExclusion, .setAux, .save, .restart].map Request.code
    = [0x01, 0x02, 0x03, 0x04, 0x05, 0x06, 0x07, 0x08, 0x09, 0x0A, 0x0B, 0x0C, 0x0D, 0x0E, 0x0F, 0x10, 0x11, 0x12, 0x13, 0x14, 0x15, 0x16, 0x17]

/-! ### Band Decoders -/

/-- SET-BAND: WRONG_SOURCE in LINES source, ALREADY for the band held, both with no effect; else DONE: the grant is cut, then the band changes, and the sequencer is asked for its filter. A band change stores the band, gives the filter, drops a waiting claim whose antenna does not serve the new band, runs START selection, and is reported last: the place of the report is the model's reading of R5 (log 28). -/
def Obligations.SetBandMoves : Prop :=
  ∀ (port : Port) (tag : Byte) (p : Pos) (b : Option Band) (s : State), s.Takes port → (port = 0 ∨ port = p.succ) →
    ((s.place p).source = .lines → exec (.setBand port tag (posByte p) (bandByte b)) s = .next (s.answer port .setBand tag .wrongSource))
    ∧ ((s.place p).source = .message → b = s.band p → exec (.setBand port tag (posByte p) (bandByte b)) s = .next (s.answer port .setBand tag .already))
    ∧ ((s.place p).source = .message → b ≠ s.band p → ∃ t, exec (.setBand port tag (posByte p) (bandByte b)) s = .next t
        ∧ t = followAux s (((s.answer port .setBand tag .done).cut p .bandMoved).changeBand p b .message)
        ∧ t.band p = b ∧ t.settings = s.settings ∧ t.timebase = s.timebase ∧ (∀ q, q ≠ p → t.band q = s.band q)
        ∧ (RequestsExact s → (t.seq p).requested.filter = b))
    ∧ ∀ cause : BandCause,
      let given := (s.onDec p fun d => { d with band := b }).givePath p { (s.seq p).requested with filter := b }
      let fitted := match s.waitsOn p, b with
        | some a, some band => if (s.config a).bandMask.getLsbD band.index then given else given.removeWaiting p (.dropped .band)
        | _, _ => given
      s.changeBand p b cause = (fitted.select p .start).report [p] (.band p (s.band p) b (s.dec p).stable cause)

/-- SET-BANDING: ALREADY for the values held; DONE with a changed guard mask alone writes it and does nothing else; a changed source or line mask cuts the grant with reason BAND_MOVED and then takes the lines through the new mask as the raw pattern, with debounce loaded and band and stable pattern left, or settled at once where the debounce time is 0: stable, and in LINES source with the map's band. That KEY CUT is queued after the reports of the walk: the model's reading (log 13). -/
def Obligations.SetBandingWrites : Prop :=
  ∀ (tag : Byte) (p : Pos) (src : Source) (line guard_ : BitVec 4) (s : State), s.Takes 0 →
    let c := Instr.setBanding 0 tag (posByte p) src.code (byteOf line.toNat) (byteOf guard_.toNat)
    let new : PositionConfig := { s.place p with source := src, lineMask := line, guardMask := guard_ }
    let pattern := s.lines p &&& line
    let written := (s.answer 0 .setBanding tag .done).onPlace p fun _ => new
    let told := if s.granted p then
        ((written.endGrant p (if (s.key p).level then .blocked else .off)).walk).report [p] (.keyCut p .bandMoved (s.key p).grant none)
      else written
    (new = s.place p → exec c s = .next (s.answer 0 .setBanding tag .already))
    ∧ (new ≠ s.place p → (s.place p).source = src → (s.place p).lineMask = line →
        exec c s = .next ((s.answer 0 .setBanding tag .done).onPlace p fun _ => new))
    ∧ (¬ ((s.place p).source = src ∧ (s.place p).lineMask = line) → s.settings.debounce ≠ 0 → ∃ t, exec c s = .next t
        ∧ t = followAux s (told.onDec p fun d => { d with raw := some pattern, debounce := some (s.timebase + BitVec.ofNat 32 s.settings.debounce) })
        ∧ t.settings = (s.onPlace p fun _ => new).settings ∧ t.granted p = false ∧ (t.dec p).raw = some (s.lines p &&& line)
        ∧ (t.dec p).debounce = some (s.timebase + BitVec.ofNat 32 s.settings.debounce) ∧ (t.dec p).stable = (s.dec p).stable ∧ t.band p = s.band p
        ∧ ∀ q, q ≠ p → ({ t.dec q with reference := none } : Decoder) = { s.dec q with reference := none })
    ∧ (¬ ((s.place p).source = src ∧ (s.place p).lineMask = line) → s.settings.debounce = 0 → ∃ t, exec c s = .next t
        ∧ (let settled := told.onDec p fun d => { d with raw := some pattern, stable := some pattern, debounce := none }
          t = followAux s (match src with
            | .message => settled
            | .lines => if s.mapBand pattern = s.band p then settled else settled.changeBand p (s.mapBand pattern) .lines))
        ∧ t.settings = (s.onPlace p fun _ => new).settings ∧ (s.granted p = true → t.granted p = false)
        ∧ (t.dec p).raw = some (s.lines p &&& line) ∧ (t.dec p).stable = some (s.lines p &&& line) ∧ (t.dec p).debounce = none
        ∧ t.band p = (match src with
          | .lines => s.settings.bandMap[(s.lines p &&& line).toNat]'((s.lines p &&& line).isLt)
          | .message => s.band p))

/-- SET-BANDMAP: the map and the clamped debounce time are written together, ALREADY where neither differs; a new map is applied at once to every position in LINES source with a stable pattern, a band that comes out different being a band change with cause MAP, and to no other position. That a position whose restarted debounce still runs after a switch to LINES is among them is the model's reading (log 29), and so is the position order (log 15). -/
def Obligations.SetBandmapApplied : Prop :=
  ∀ (tag d : Byte) (map : Vector (Option Band) 16) (s : State), s.Takes 0 →
    let c := Instr.setBandmap 0 tag (map.toList.map bandByte) d
    let time := min 250 d.toNat
    (map = s.settings.bandMap → time = s.settings.debounce → exec c s = .next (s.answer 0 .setBandmap tag .already))
    ∧ (¬ (map = s.settings.bandMap ∧ time = s.settings.debounce) → ∃ t, exec c s = .next t
        ∧ t = followAux s (forEach [0, 1, 2, 3, 4, 5] (fun p u => match (s.place p).source, (s.dec p).stable with
            | .lines, some code => if map[code.toNat]'(code.isLt) = s.band p then u else u.changeBand p (map[code.toNat]'(code.isLt)) .map
            | _, _ => u)
          ((s.answer 0 .setBandmap tag (if time = d.toNat then .done else .clamped)).onSettings fun c => { c with bandMap := map, debounce := time }))
        ∧ t.settings = { s.settings with bandMap := map, debounce := time }
        ∧ ∀ p, t.band p = match (s.place p).source, (s.dec p).stable with
            | .lines, some code => map[code.toNat]'(code.isLt)
            | _, _ => s.band p)

/-- A sample of the band lines: equal to the raw pattern it changes nothing; another becomes the raw pattern and loads the debounce timer. The timer's expiry settles the raw pattern: it becomes the stable pattern, the timer stops, and in LINES source a granted position whose new pattern differs from the keyed reference on a line of the guard mask, every guard line counting as different where the reference is absent (log 19), is cut BAND_MOVED, and then the band becomes the map's. The model's choices: the lines are sampled at once when BAND_LINES_CHANGE is commanded (log 10), and a settle commanded before its expiry changes nothing (log 3). That KEY CUT is queued after the reports of the walk: the model's reading (log 13). -/
def Obligations.LinesSampledAndSettled : Prop :=
  (∀ (p : Pos) (code : BitVec 4) (s : State), (s.dec p).raw = some code →
    let settled := s.onDec p fun d => { d with stable := some code, debounce := none }
    let departs := s.granted p = true
      ∧ ∃ i : Fin 4, (s.place p).guardMask.getLsbD i.val = true ∧ ∀ r, (s.dec p).reference = some r → code.getLsbD i.val ≠ r.getLsbD i.val
    let banded := fun u : State => if s.mapBand code = s.band p then u else u.changeBand p (s.mapBand code) .lines
    ((s.place p).source = .message → s.settleBand p = settled)
    ∧ ((s.place p).source = .lines → ¬ departs → s.settleBand p = banded settled)
    ∧ ((s.place p).source = .lines → departs → s.settleBand p
      = banded (((settled.endGrant p (if (s.key p).level then .blocked else .off)).walk).report [p] (.keyCut p .bandMoved (s.key p).grant none))))
  ∧ ∀ (p : Pos) (v : BitVec 4) (s : State), s.running = true →
    let seen := v &&& (s.place p).lineMask
    ((s.dec p).raw = some seen → exec (.bandLinesChange p v) s = .next (s.setLines p v))
    ∧ ((s.dec p).raw ≠ some seen → s.settings.debounce ≠ 0 → exec (.bandLinesChange p v) s = .next ((s.setLines p v).onDec p fun d =>
        { d with raw := some seen, debounce := some (s.timebase + BitVec.ofNat 32 s.settings.debounce) }))
    ∧ ((s.dec p).raw ≠ some seen → s.settings.debounce = 0 → exec (.bandLinesChange p v) s
        = .next (followAux (s.setLines p v) (((s.setLines p v).onDec p fun d => { d with raw := some seen }).settleBand p)))
    ∧ (s.due (s.dec p).debounce = false → exec (.settle p) s = .next s)
    ∧ (∀ code, s.due (s.dec p).debounce = true → (s.dec p).raw = some code →
        let settled := s.onDec p fun d => { d with stable := some code, debounce := none }
        ((s.place p).source = .message → exec (.settle p) s = .next settled)
        ∧ let departs := s.granted p = true
              ∧ ∃ i : Fin 4, (s.place p).guardMask.getLsbD i.val = true ∧ ∀ r, (s.dec p).reference = some r → code.getLsbD i.val ≠ r.getLsbD i.val
          let uncut := fun u : State => followAux s (if s.mapBand code = s.band p then u else u.changeBand p (s.mapBand code) .lines)
          ((s.place p).source = .lines → ¬ departs → exec (.settle p) s = .next (uncut settled))
          ∧ ((s.place p).source = .lines → departs → ∃ t, exec (.settle p) s = .next t
            ∧ t = uncut (((settled.endGrant p (if (s.key p).level then .blocked else .off)).walk).report [p]
              (.keyCut p .bandMoved (s.key p).grant none))
            ∧ (t.key p).state = (if (s.key p).level then .blocked else .off) ∧ (t.dec p).reference = none ∧ t.txen p = false)
          ∧ ((s.place p).source = .lines → ∃ t, exec (.settle p) s = .next t
            ∧ (t.dec p).stable = some code ∧ (t.dec p).debounce = none ∧ t.band p = s.mapBand code ∧ t.settings = s.settings))

/-! ### Antenna Table -/

/-- SET-ANTENNA: the nine fields are clamped and written together, ALREADY where they equal those held; limits, calibration and settle time act on nothing else; a changed service or mask acts as its rules give, the service first (the model's reading, log 17). Configured OUT_OF_SERVICE empties an antenna that was in use, in this order: its claims are dropped, its owner removed, its slots freed, the service reported, and the former owner and the dropped FOLLOW claimants re-select; its owner is removed with the grant cut, its queue and its slots are empty, and a TRIPPED one keeps its service and its record; configured IN_SERVICE returns an OUT_OF_SERVICE one and waits for the CLEAR of a TRIPPED one. A mask that loses a band cuts a granted owner on that band, denies a QUEUED one and drops the claims on it first, and keeps owner, connected position and listeners until a re-selection; a position's band is lost where the old mask had it and the new one has not (the model's reading, log 18). -/
def Obligations.SetAntennaWrites : Prop :=
  ∀ (tag : Byte) (a : Ant) (mask : BitVec 8) (mp : Half) (sl : Byte) (kf : Half) (c zf zr st : Byte) (service : Configured) (s : State), s.Takes 0 →
    mask.getLsbD 0 = false → mask.getLsbD 7 = false →
    let cmd := Instr.setAntenna 0 tag (antByte a) mask mp sl kf c zf zr st service.code
    let new : AntennaConfig :=
      { bandMask := mask, maxPower := max 1 (min 4095 mp.toNat), swrLimit := max 15 (min 99 sl.toNat), kf := kf.toNat,
        c := max 64 (min 192 c.toNat), zf := zf.toNat, zr := zr.toNat, settle := max 5 (min 200 st.toNat), configured := service }
    let r : Result := if new.maxPower = mp.toNat ∧ new.swrLimit = sl.toNat ∧ new.c = c.toNat ∧ new.settle = st.toNat then .done else .clamped
    (new = s.config a → exec cmd s = .next (s.answer 0 .setAntenna tag .already))
    ∧ (new ≠ s.config a → new.configured = (s.config a).configured → new.bandMask = (s.config a).bandMask →
        exec cmd s = .next ((s.answer 0 .setAntenna tag r).onConfig a fun _ => new))
    ∧ (new ≠ s.config a → ∃ t, exec cmd s = .next t ∧ (let written := (s.answer 0 .setAntenna tag r).onConfig a fun _ => new
          let owner := (s.ant a).owner
          let follow := fun l : List Claim => (l.filter fun x => decide (x.origin = .follow)).map Claim.position
          let resumed := fun (l : List Pos) (u : State) => forEach l (fun p v => v.select p .resume) u
          let dropped := fun (l : List Claim) (reason : ClaimReason) (u : State) => forEach l (fun x v => v.removeWaiting x.position (.dropped reason)) u
          let evicted := fun u : State => match owner with
            | none => u
            | some o => ((u.onAnt a fun x => { x with owner := none }).givePath o { (u.seq o).requested with antenna := none }).report [o]
              (.claim (.removed .outOfService) a o none)
          let recommanded := fun x : TapRecord =>
            { x with closed1 := x.slot1.isSome && !x.keyed && !(s.ant a).presence, closed2 := x.slot2.isSome && !x.keyed && !(s.ant a).presence }
          let freed := fun (second : Bool) (u : State) => match (s.tap a).slot second with
            | none => u
            | some p => ((u.onTap a fun x => recommanded (if second then { x with slot2 := none } else { x with slot1 := none })).setListen p none).report
              [p] (.tap a second p .freed .outOfService)
          let served := if new.configured = (s.config a).configured then written else match (s.ant a).service, service with
            | .inService, .outOfService => resumed (owner.toList ++ follow (s.claims a)) ((freed true (freed false (evicted (dropped (s.claims a) .outOfService
                (written.onAnt a fun x => { x with service := .outOfService }))))).report [] (.service a .inService .outOfService .set))
            | .tripped, .outOfService => resumed owner.toList (freed true (freed false (evicted written)))
            | .outOfService, .inService => (written.onAnt a fun x => { x with service := .inService }).report owner.toList (.service a .outOfService .inService .set)
            | _, _ => written
          let lost := fun p : Pos => (s.band p).any fun b => (s.config a).bandMask.getLsbD b.index && !mask.getLsbD b.index
          let unfit := (served.claims a).filter fun x => lost x.position
          let narrowed := dropped unfit .band served
          t = followAux s (if mask = (s.config a).bandMask then served else resumed (follow unfit) (match (served.ant a).owner with
            | none => narrowed
            | some o => if lost o then
                (if narrowed.granted o then narrowed.cut o .bandMismatch else if (narrowed.key o).state = .queued then narrowed.deny o .bandMismatch else narrowed).select
                  o .resume
              else narrowed)))
        ∧ t.config a = new ∧ (∀ b, b ≠ a → t.config b = s.config b)
        ∧ ((t.ant a).service = if new.configured = (s.config a).configured ∨ (s.ant a).service = .tripped then (s.ant a).service else new.configured.service)
        ∧ ((s.config a).configured = .inService → service = .outOfService → (s.ant a).service ≠ .outOfService →
          (t.ant a).owner = none ∧ (t.tap a).slot1 = none ∧ (t.tap a).slot2 = none ∧ (t.ant a).trip = (s.ant a).trip
          ∧ (ClaimsExact s → ((s.ant a).service = .tripped → s.claims a = []) → t.claims a = [])
          ∧ ∀ o, (s.ant a).owner = some o → s.granted o = true → Safe s → RequestsExact s →
            (t.key o).state = (if (s.key o).level then .blocked else .off) ∧ t.txen o = false))
    ∧ ((s.config a).configured = .outOfService → service = .inService → mask = (s.config a).bandMask →
        ((s.ant a).service = .outOfService → exec cmd s = .next (followAux s ((((s.answer 0 .setAntenna tag r).onConfig a fun _ => new).onAnt a
          fun x => { x with service := .inService }).report (s.ant a).owner.toList (.service a .outOfService .inService .set))))
        ∧ ((s.ant a).service = .tripped → exec cmd s = .next ((s.answer 0 .setAntenna tag r).onConfig a fun _ => new)))
    ∧ (new ≠ s.config a → new.configured = (s.config a).configured →
        let lost := fun p : Pos => (s.band p).any fun b => (s.config a).bandMask.getLsbD b.index && !mask.getLsbD b.index
        ((∀ p, lost p = false) → exec cmd s = .next ((s.answer 0 .setAntenna tag r).onConfig a fun _ => new))
        ∧ ∃ t, exec cmd s = .next t
          ∧ (∀ o, (s.ant a).owner = some o → lost o = true →
            (s.granted o = true → (t.key o).state = (if (s.key o).level then .blocked else .off) ∧ t.txen o = false)
            ∧ ((s.key o).state = .queued → (t.key o).state = .blocked ∧ o ∉ t.waiting))
          ∧ (ClaimsExact s → ∀ c ∈ s.claims a, lost c.position = true → t.waitsOn c.position ≠ some a)
          ∧ ((∀ p, (s.place p).follow = false) → t.antennas = s.antennas ∧ t.sequencers = s.sequencers ∧ t.listens = s.listens
            ∧ (ClaimsExact s → t.claims a = (s.claims a).filter (fun c => !lost c.position) ∧ ∀ b, b ≠ a → t.claims b = s.claims b)))

/-- CLEAR: OUT_OF_SERVICE, ALREADY and RF_PRESENT change nothing; DONE removes the trip record, takes the configured service, keeps the owner, frees the listeners if that is OUT_OF_SERVICE, and reports: the answer first, then TAP for each listener freed, then ANTENNA SERVICE. That TAP comes before ANTENNA SERVICE is the model's reading (log 20). -/
def Obligations.ClearRestores : Prop :=
  ∀ (tag : Byte) (a : Ant) (s : State), s.Takes 0 →
    let c := Instr.clear 0 tag (antByte a)
    ((s.ant a).service = .outOfService → exec c s = .next (s.answer 0 .clear tag .outOfService))
    ∧ ((s.ant a).service = .inService → exec c s = .next (s.answer 0 .clear tag .already))
    ∧ ((s.ant a).service = .tripped → (s.ant a).presence = true → exec c s = .next (s.answer 0 .clear tag .rfPresent))
    ∧ ((s.ant a).service = .tripped → (s.ant a).presence = false → (s.config a).configured = .inService → exec c s
        = .next (followAux s (((s.answer 0 .clear tag .done).onAnt a fun r => { r with service := .inService, trip := none }).report (s.ant a).owner.toList
          (.service a .tripped .inService .clear))))
    ∧ ((s.ant a).service = .tripped → (s.ant a).presence = false → (s.config a).configured = .outOfService → ∃ t, exec c s = .next t
        ∧ t.ant a = { s.ant a with service := .outOfService, trip := none } ∧ (t.tap a).slot1 = none ∧ (t.tap a).slot2 = none
        ∧ (∀ b, b ≠ a → t.ant b = s.ant b ∧ t.tap b = s.tap b)
        ∧ (∀ p, t.listen p = if (s.tap a).slot1 = some p ∨ (s.tap a).slot2 = some p then none else s.listen p)
        ∧ t.links = (let freed := fun (second : Bool) (u : State) => match (s.tap a).slot second with
            | some p => u.report [p] (.tap a second p .freed .outOfService)
            | none => u
          ((freed true (freed false (s.answer 0 .clear tag .done))).report (s.ant a).owner.toList (.service a .tripped .outOfService .clear))).links
        ∧ t = { s with antennas := t.antennas, taps := t.taps, listens := t.listens, links := t.links, auxLines := t.auxLines })

/-- A trip raised on a TRIPPED antenna changes nothing. One raised on another makes it TRIPPED, with the record of the sample, the owner and the count, and keeps its configuration; then the owner's grant is cut or its QUEUED key denied with reason TRIPPED, the claims of the queue are dropped, oldest first, each dropped FOLLOW claim with a RESUME selection at once, TRIP is reported, and the owner re-selects. Owner, connected position and listeners stay until a selection moves them. -/
def Obligations.TripRaised : Prop :=
  ∀ (s : State) (a : Ant) (c : TripCause),
    let record : TripRecord := { cause := c, pf := (s.ant a).pf, swr := (s.ant a).swr, owner := (s.ant a).owner, time := s.timebase }
    let marked := s.onAnt a fun r => { r with service := .tripped, trip := some record }
    let told := match (s.ant a).owner with
      | none => marked
      | some o => if s.granted o then marked.cut o .tripped else if (s.key o).state = .queued then marked.deny o .tripped else marked
    let emptied := forEach (s.claims a) (fun c u => if u.waitsOn c.position = some a then
      let dropped := u.removeWaiting c.position (.dropped .tripped)
      if c.origin = .follow then dropped.select c.position .resume else dropped else u) told
    let reported := emptied.report (s.ant a).owner.toList (.trip a record)
    let t := s.trip a c
    ((s.ant a).service = .tripped → t = s)
    ∧ ((s.ant a).service ≠ .tripped →
      t = (match (reported.ant a).owner with
        | none => reported
        | some o => reported.select o .resume)
      ∧ (t.ant a).service = .tripped ∧ (t.ant a).trip = some record ∧ t.settings = s.settings ∧ t.holdOn = s.holdOn
      ∧ (∀ b, b ≠ a → (t.ant b).service = (s.ant b).service ∧ (t.ant b).trip = (s.ant b).trip)
      ∧ (∀ o, (s.ant a).owner = some o →
        (s.granted o = true → (t.key o).state = (if (s.key o).level then .blocked else .off) ∧ t.txen o = false ∧ (t.key o).grant = none)
        ∧ ((s.key o).state = .queued → (t.key o).state = .blocked ∧ o ∉ t.waiting))
      ∧ (ClaimsExact s → t.claims a = [] ∧ ∀ p, t.waitsOn p ≠ some a)
      ∧ ((∀ p, (s.place p).follow = false) → t = reported ∧ (∀ b, (t.ant b).owner = (s.ant b).owner ∧ (t.ant b).connected = (s.ant b).connected
          ∧ (t.tap b).slot1 = (s.tap b).slot1 ∧ (t.tap b).slot2 = (s.tap b).slot2)
        ∧ t.listens = s.listens ∧ t.sequencers = s.sequencers ∧ ∀ b, b ≠ a → t.ant b = s.ant b))

/-! ### RF Sensor -/

/-- The zero offsets are subtracted, a negative difference taken as 0, and the reflected reading is multiplied by C over 128, rounded down. -/
def Obligations.OffsetsSubtracted : Prop :=
  ∀ (c : AntennaConfig) (raw : Nat),
    ((c.zf ≤ raw → (c.vf raw : Int) = raw - c.zf) ∧ (raw < c.zf → c.vf raw = 0))
    ∧ (c.zr ≤ raw → (c.vr raw : Int) = (raw - c.zr) * c.c / 128) ∧ (raw < c.zr → c.vr raw = 0)
    ∧ (c.c = 128 → c.vr raw = raw - c.zr) ∧ (c.c ≤ 128 → c.vr raw ≤ raw - c.zr) ∧ (128 ≤ c.c → raw - c.zr ≤ c.vr raw)
    ∧ (raw ≤ 1023 → c.c ≤ 192 → c.vr raw ≤ 1534)

/-- The powers and the SWR: the formulas, and the ranges they stay in for readings of the converter and fields of the record. -/
def Obligations.PowersAndSwr : Prop :=
  (∀ (c : AntennaConfig) (vf vr : Nat), c.power vf = vf * vf * c.kf / 2 ^ 24 ∧ c.reflectedPower vr = min 4095 (vr * vr * c.kf / 2 ^ 24)
    ∧ (vf ≤ 1023 → c.kf ≤ 65535 → c.power vf ≤ 4087) ∧ (c.kf = 0 → c.power vf = 0 ∧ c.reflectedPower vr = 0))
  ∧ (∀ vf vr : Nat, vf ≤ vr → swrOf vf vr = 999)
  ∧ (∀ vf vr : Nat, vr < vf → swrOf vf vr = min 999 ((20 * (vf + vr) + (vf - vr)) / (2 * (vf - vr))))
  ∧ ∀ vf vr : Nat, 10 ≤ swrOf vf vr ∧ swrOf vf vr ≤ 999 ∧ (0 < vf → swrOf vf 0 = 10)

/-- A coupler sample of a running part: the readings of the record are those of the sample, the peak holds the greatest forward power, presence is judged on them, and the configuration stays; other antennas keep their readings. That a sample is taken whenever it is commanded, and that the coupler inputs are pins which hold the last conversions, is the model's choice (log 9). -/
def Obligations.CouplerSampled : Prop :=
  ∀ (a : Ant) (x y : Nat) (s : State), s.running = true →
    let c := s.config a
    let pf := sampledPf c x
    let pr := sampledPr c y
    ∃ t, exec (.couplerSample a x y) s = .next t
      ∧ (t.ant a).pf = pf ∧ (t.ant a).pr = pr
      ∧ (t.ant a).swr = (if s.settings.swrFloor ≤ pf then swrOf (min 1023 x - c.zf) (sampledVr c y) else 0)
      ∧ (t.ant a).peak = max (s.ant a).peak pf
      ∧ (t.ant a).presence = (if s.settings.presenceThreshold ≤ max pf pr then true else (s.ant a).presence && decide ((s.sensor a).below < 2))
      ∧ t.coupler a = (x, y) ∧ t.settings = s.settings ∧ t.timebase = s.timebase ∧ t.holdOn = s.holdOn
      ∧ ∀ b, b ≠ a → ((t.ant b).pf = (s.ant b).pf ∧ (t.ant b).pr = (s.ant b).pr ∧ (t.ant b).swr = (s.ant b).swr ∧ (t.ant b).peak = (s.ant b).peak
        ∧ (t.ant b).presence = (s.ant b).presence ∧ (t.ant b).service = (s.ant b).service)

/-- On a port without presence, a sample at the threshold begins an episode with its flags clear and the below count 0, the reflected power counting as the forward; one below it changes nothing. -/
def Obligations.PresenceBegins : Prop :=
  ∀ (s : State) (a : Ant), (s.ant a).presence = false →
    (max (s.ant a).pf (s.ant a).pr < s.settings.presenceThreshold → s.judgePresence a = s)
    ∧ (s.settings.presenceThreshold ≤ max (s.ant a).pf (s.ant a).pr → ((s.judgePresence a).ant a).presence = true
      ∧ ((s.judgePresence a).sensor a).below = 0 ∧ ((s.judgePresence a).sensor a).unkeyed = false ∧ ((s.judgePresence a).sensor a).stray = false)

/-- The SWR count and the power count of a port at a sample, and the fault confirmed at the second. -/
def Obligations.TripCounts : Prop :=
  ∀ (s : State) (a : Ant),
    let swrOver := s.settings.swrFloor ≤ (s.ant a).pf ∧ (s.config a).swrLimit < (s.ant a).swr
    let powerOver := (s.config a).maxPower < (s.ant a).pf
    let counted := s.onSensor a fun n => { n with swrCount := if swrOver ∧ n.swrCount = 0 then 1 else 0, powerCount := if powerOver ∧ n.powerCount = 0 then 1 else 0 }
    s.judgeTrips a = if powerOver ∧ (s.sensor a).powerCount ≠ 0 then counted.trip a .overpower
      else if swrOver ∧ (s.sensor a).swrCount ≠ 0 then counted.trip a .swr else counted

/-- A sample's judgements in the order of its stages: presence, trips, peak, episode; with presence judged, a sequencer that waits in HOLDOFF for an antenna that the sample leaves free and quiet begins MAKE (PathGiven; the model's own, for a wait that expected RF, log 30). Presence that begins opens the taps of the antenna and, on the broken antenna of a sequencer in BREAK or on the target of one in MAKE, trips the antenna HOT_SWITCH with the readings of that sample, and moves no sequencer itself; where no sequencer watches, it trips nothing. While presence lasts the below count is 0 after a sample at the threshold and counts up at one below it; the third in a row ends presence, and count and flags are clear. Presence that ends lets the taps close where their other conditions hold, ends DRAIN in BREAK where the antenna is the current one, and begins MAKE for a sequencer that waits in HOLDOFF for it with nobody connected. While presence lasts, a connected position whose quiet time is greater than the unkeyed tail is reported RF UNKEYED, and a port with no connected position RF STRAY, each once an episode; a position that transmits, one whose sequencer is in MAKE and one without a stamp has no quiet time. The model's choices and readings: a sample is taken whenever it is commanded, the coupler inputs are pins that hold the last conversions, and the sampled mark is its own (log 9); the sequencers take a change of presence in position order (log 15), after the Tap Controller (log 25). -/
def Obligations.EpisodesJudged : Prop :=
  (∀ (a : Ant) (x y : Nat) (s : State), s.running = true →
    let c := s.config a
    let pf := sampledPf c x
    let pr := sampledPr c y
    let swr := if s.settings.swrFloor ≤ pf then swrOf (min 1023 x - c.zf) (sampledVr c y) else 0
    let pins := s.setCoupler a (x, y)
    let read := (pins.onSensor a fun n => { n with vfRaw := min 1023 x, vrRaw := min 1023 y, sampled := true }).onAnt a
      fun r => { r with pf := pf, pr := pr, swr := swr }
    let judged := ((read.judgePresence a).antennaCleared a).judgeTrips a
    let hot := ∃ p, ((∃ b, (s.seq p).state = .brk b ∧ b = some a) ∨ ((s.seq p).state.shown = .make ∧ (s.seq p).target.antenna = some a))
    exec (.couplerSample a x y) s
        = .next (followAux pins ((judged.onAnt a fun r => { r with peak := max r.peak r.pf }).judgeEpisode a))
    ∧ ((s.ant a).presence = false → s.settings.presenceThreshold ≤ max pf pr →
      (hot → (s.ant a).service ≠ .tripped → ∃ t, exec (.couplerSample a x y) s = .next t
        ∧ (t.ant a).service = .tripped
        ∧ (t.ant a).trip = some { cause := .hotSwitch, pf := pf, swr := swr, owner := (s.ant a).owner, time := s.timebase }
        ∧ ((∀ p, (s.place p).follow = false) → t.sequencers = s.sequencers ∧ (t.ant a).connected = (s.ant a).connected))
      ∧ (hot → (s.ant a).service = .tripped → ∃ t, exec (.couplerSample a x y) s = .next t ∧ (t.ant a).trip = (s.ant a).trip)
      ∧ (¬ hot → (s.sensor a).swrCount = 0 → (s.sensor a).powerCount = 0 → ∃ t, exec (.couplerSample a x y) s = .next t
        ∧ (t.ant a).service = (s.ant a).service ∧ (t.ant a).trip = (s.ant a).trip)))
  -- the presence judgement, and what is handed on
  ∧ (∀ (s : State) (a : Ant),
    let atThreshold := s.settings.presenceThreshold ≤ max (s.ant a).pf (s.ant a).pr
    let turned := fun (b : Bool) => ((s.onAnt a fun r => { r with presence := b }).onSensor a fun n => { n with below := 0, unkeyed := false, stray := false }).onTap a
      fun t => { t with closed1 := t.slot1.isSome && !t.keyed && !b, closed2 := t.slot2.isSome && !t.keyed && !b }
    let watched := ([0, 1, 2, 3, 4, 5] : List Pos).any fun p =>
      decide ((s.seq p).state = .brk (some a) ∨ ((s.seq p).state.shown = .make ∧ (s.seq p).target.antenna = some a))
    ((s.ant a).presence = false → s.judgePresence a = if ¬ atThreshold then s else if watched then (turned true).trip a .hotSwitch else turned true)
    ∧ ((s.ant a).presence = true → atThreshold → s.judgePresence a = s.onSensor a fun n => { n with below := 0 })
    ∧ ((s.ant a).presence = true → ¬ atThreshold → (s.sensor a).below < 2 → s.judgePresence a = s.onSensor a fun n => { n with below := n.below + 1 })
    ∧ ((s.ant a).presence = true → ¬ atThreshold → 2 ≤ (s.sensor a).below → s.judgePresence a = forEach [0, 1, 2, 3, 4, 5] (fun p u =>
        if (u.seq p).state = .drain ∧ (u.seq p).current.antenna = some a then u.enterBreak p
        else if (u.seq p).state = .holdoff ∧ (u.seq p).target.antenna = some a ∧ (u.ant a).connected = none then u.beginMake p a
        else u) (turned false)))
  -- the episode judgements
  ∧ ∀ (s : State) (a : Ant),
    ((s.ant a).presence = false → s.judgeEpisode a = s)
    ∧ ((s.ant a).presence = true → (s.ant a).connected = none → s.judgeEpisode a
      = if (s.sensor a).stray then s else (s.onSensor a fun n => { n with stray := true }).report (s.ant a).owner.toList
          (.rfStray a (s.ant a).owner (s.ant a).pf (s.ant a).pr))
    ∧ ∀ p, (s.ant a).presence = true → (s.ant a).connected = some p →
      ((s.sensor a).unkeyed = true ∨ s.txen p = true ∨ (s.seq p).state.shown = .make ∨ s.quiet p = none → s.judgeEpisode a = s)
      ∧ ∀ stamp, (s.sensor a).unkeyed = false → s.txen p = false → (s.seq p).state.shown ≠ .make → s.quiet p = some stamp → s.judgeEpisode a
        = if s.settings.unkeyedTail < (s.timebase - stamp).toNat then (s.onSensor a fun n => { n with unkeyed := true }).report [p]
            (.rfUnkeyed a p (s.ant a).pf (s.ant a).pr (s.timebase - stamp).toNat)
          else s

/-- SET-SENSING: three values clamped and written together, ALREADY, CLAMPED or DONE, never BAD_VALUE, with no report and no other effect; a wrong length is answered BAD_FORMAT before. -/
def Obligations.SetSensingWrites : Prop :=
  ∀ (tag t : Byte) (f : Half) (u : Byte) (s : State), s.Takes 0 →
    let t' := max 1 (min 100 t.toNat)
    let f' := max 5 (min 500 f.toNat)
    let u' := max 10 (min 200 u.toNat)
    (exec (.setSensing 0 tag t f u) s = .next
      (if t' = s.settings.presenceThreshold ∧ f' = s.settings.swrFloor ∧ u' = s.settings.unkeyedTail then s.answer 0 .setSensing tag .already
       else (s.onSettings fun c => { c with presenceThreshold := t', swrFloor := f', unkeyedTail := u' }).answer 0 .setSensing tag
        (if t' = t.toNat ∧ f' = f.toNat ∧ u' = u.toNat then .done else .clamped)))
    ∧ (∀ port : Port, port ≠ 0 → s.Takes port → exec (.setSensing port tag t f u) s = .next (s.answer port .setSensing tag .notPermitted))
    ∧ ∀ payload, payload.length ≠ 4 → serveFrame 0 0x0F#8 tag payload s = s.answer 0 .setSensing tag .badFormat

/-- SET-SEQUENCING and SET-CLAIMS: the values clamped and written together, ALREADY, CLAMPED or DONE, with no other effect: running timers and waiting claims keep what they have. SET-PREF: the list written for its position and band, ALREADY where it is the one held, BAND_MISMATCH where an entry does not serve the band; nothing else moves, and no selection runs. -/
def Obligations.SettingsWritten : Prop :=
  (∀ (tag : Byte) (d : Half) (fs : Byte) (l : Half) (s : State), s.Takes 0 →
    let d' := max 50 (min 2000 d.toNat)
    let f' := max 5 (min 50 fs.toNat)
    let l' := min 3600 l.toNat
    exec (.setSequencing 0 tag d fs) s = .next
      (if d' = s.settings.drainLimit ∧ f' = s.settings.filterSettle then s.answer 0 .setSequencing tag .already
       else (s.onSettings fun c => { c with drainLimit := d', filterSettle := f' }).answer 0 .setSequencing tag
        (if d' = d.toNat ∧ f' = fs.toNat then .done else .clamped))
    ∧ exec (.setClaims 0 tag l) s = .next
      (if l' = s.settings.claimLifetime then s.answer 0 .setClaims tag .already
       else (s.onSettings fun c => { c with claimLifetime := l' }).answer 0 .setClaims tag (if l' = l.toNat then .done else .clamped)))
  ∧ ∀ (port : Port) (tag : Byte) (p : Pos) (b : Band) (l : List Ant) (rest : List Byte) (s : State), s.Takes port → (port = 0 ∨ port = p.succ) →
    l.Nodup → l.length + rest.length = 4 →
    let c := Instr.setPref port tag (posByte p) (bandByte (some b)) (byteOf l.length) (l.map antByte ++ rest)
    ((∃ a ∈ l, (s.config a).bandMask.getLsbD b.index = false) → exec c s = .next (s.answer port .setPref tag .bandMismatch))
    ∧ ((∀ a ∈ l, (s.config a).bandMask.getLsbD b.index = true) → l = s.prefs p b → exec c s = .next (s.answer port .setPref tag .already))
    ∧ ((∀ a ∈ l, (s.config a).bandMask.getLsbD b.index = true) → l ≠ s.prefs p b → exec c s = .next ((s.answer port .setPref tag .done).onPlace p fun k =>
        { k with prefs := k.prefs.set b.slot.val l b.slot.isLt }))

/-! ### Claims and ownership -/

/-- The refusals of CLAIM in their order, none of which changes anything. -/
def Obligations.ClaimRefused : Prop :=
  ∀ (port : Port) (tag n : Byte) (p : Pos) (a : Ant) (s : State), s.Takes port → (port = 0 ∨ port = p.succ) → n.toNat ≤ 1 →
    let c := Instr.claim port tag (posByte p) (antByte a) n
    ((s.place p).precedence = 0 → exec c s = .next (s.answer port .claim tag .parked))
    ∧ ((s.place p).precedence ≠ 0 → (s.ant a).service = .outOfService → exec c s = .next (s.answer port .claim tag .outOfService))
    ∧ ((s.place p).precedence ≠ 0 → (s.ant a).service = .tripped → exec c s = .next (s.answer port .claim tag .tripped))
    ∧ ((s.place p).precedence ≠ 0 → (s.ant a).service = .inService →
        (∀ b, s.band p = some b → (s.config a).bandMask.getLsbD b.index = false → exec c s = .next (s.answer port .claim tag .bandMismatch))
        ∧ ((∀ b, s.band p = some b → (s.config a).bandMask.getLsbD b.index = true) → n = 1#8 → (s.ant a).owner ≠ none → (s.ant a).owner ≠ some p →
            s.waitsOn p ≠ some a → exec c s = .next (s.answer port .claim tag .busy)))

/-- The antenna may be claimed for the position (R62 checks 2 to 4). -/
def Sys2Proof.Machine.ClaimPasses (s : State) (p : Pos) (a : Ant) : Prop :=
  (s.place p).precedence ≠ 0 ∧ (s.ant a).service = .inService ∧ ∀ b, s.band p = some b → (s.config a).bandMask.getLsbD b.index = true

/-- A CLAIM of a free antenna is answered DONE and granted at once: an older claim is superseded, the position becomes the owner and gives up any other antenna it owned, its sequencer is asked for the antenna, it waits nowhere, and follow is off. -/
def Obligations.ClaimGranted : Prop :=
  ∀ (port : Port) (tag n : Byte) (p : Pos) (a : Ant) (s : State), s.Takes port → (port = 0 ∨ port = p.succ) → n.toNat ≤ 1 →
    ClaimPasses s p a → (s.ant a).owner = none → s.waitsOn p ≠ some a → ClaimsExact s → RequestsExact s →
    ∃ t, exec (.claim port tag (posByte p) (antByte a) n) s = .next t
      ∧ t = followAux s ((((s.answer port .claim tag .done).supersede p a).grantAtOnce p a (if port = 0 then .supervisor else .console)).followOff p)
      ∧ (t.ant a).owner = some p ∧ (∀ b, b ≠ a → (t.ant b).owner ≠ some p) ∧ (t.seq p).requested.antenna = some a ∧ t.waitsOn p = none
      ∧ t.settings = (s.onPlace p fun c => { c with follow := false }).settings ∧ CascadeFrame s t

/-- A CLAIM without NOWAIT of an antenna that another position owns is answered WAITING and queued at the end, with its expiry; an older claim elsewhere is superseded, and nothing else moves: the answer is queued first, then SUPERSEDED where a claim was, then QUEUED with the owner and the place. One for the antenna owned is answered ALREADY and turns follow off: a FOLLOW claim that the position has elsewhere is withdrawn, the others of its queue in their order, and reported WITHDRAWN with cause FOLLOW_OFF behind the answer; with no such claim no queue changes and no report is sent; nothing else moves. One for the antenna waited for is answered ALREADY and sends no report: the claim keeps its place, a FOLLOW claim takes the request's origin and an expiry counted from the request, another claim keeps its origin and expiry, and nothing moves but that and follow, which goes off. -/
def Obligations.ClaimQueued : Prop :=
  ∀ (port : Port) (tag n : Byte) (p : Pos) (a : Ant) (s : State), s.Takes port → (port = 0 ∨ port = p.succ) → ClaimPasses s p a → ClaimsExact s →
    let origin : Origin := if port = 0 then .supervisor else .console
    let expiry : Option Count := if s.settings.claimLifetime = 0 then none else some (s.timebase + BitVec.ofNat 32 (s.settings.claimLifetime * 1000))
    ((s.ant a).owner ≠ none → (s.ant a).owner ≠ some p → s.waitsOn p ≠ some a → ∃ t, exec (.claim port tag (posByte p) (antByte a) 0#8) s = .next t
      ∧ t.claims a = s.claims a ++ [{ position := p, origin := origin, expiry := expiry }] ∧ t.waitsOn p = some a
      ∧ (∀ b, b ≠ a → t.claims b = (s.claims b).filter fun c => c.position != p) ∧ (∀ q, q ≠ p → t.waitsOn q = s.waitsOn q)
      ∧ t.settings = (s.onPlace p fun c => { c with follow := false }).settings
      ∧ t.links = (let answered := s.answer port .claim tag .waiting
          let superseded := match s.waitingClaim p with
            | some (b, old) => answered.report (p :: (s.ant b).owner.toList) (.claim (.superseded a) b p (some old.origin))
            | none => answered
          superseded.report (p :: (s.ant a).owner.toList) (.claim (.queued (s.ant a).owner ((s.claims a).length + 1)) a p (some origin))).links
      ∧ t = { s with claimQueues := t.claimQueues, claimPointers := t.claimPointers, settings := t.settings, links := t.links, auxLines := t.auxLines })
    ∧ (n.toNat ≤ 1 → (s.ant a).owner = some p → ∃ t, exec (.claim port tag (posByte p) (antByte a) n) s = .next t
      ∧ t = followAux s ((s.answer port .claim tag .already).followOff p)
      ∧ t.settings = (s.onPlace p fun c => { c with follow := false }).settings ∧ t.claims a = s.claims a
      ∧ ((∀ b old, s.waitingClaim p = some (b, old) → old.origin ≠ .follow) → t.links = (s.answer port .claim tag .already).links
        ∧ t.claimQueues = s.claimQueues ∧ t.claimPointers = s.claimPointers)
      ∧ (∀ b old, s.waitingClaim p = some (b, old) → old.origin = .follow → b ≠ a
        ∧ t.links = ((s.answer port .claim tag .already).report (p :: (s.ant b).owner.toList) (.claim (.withdrawn .followOff) b p (some .follow))).links
        ∧ t.claims b = (s.claims b).filter (fun c => c.position != p) ∧ (∀ c, c ≠ b → t.claims c = s.claims c)
        ∧ t.waitsOn p = none ∧ ∀ q, q ≠ p → t.waitsOn q = s.waitsOn q)
      ∧ t = { s with claimQueues := t.claimQueues, claimPointers := t.claimPointers, settings := t.settings, links := t.links, auxLines := t.auxLines })
    ∧ (n.toNat ≤ 1 → s.waitsOn p = some a → ∃ t, exec (.claim port tag (posByte p) (antByte a) n) s = .next t
      ∧ t.claims a = (s.claims a).map (fun c => if c.position = p ∧ c.origin = .follow then { c with origin := origin, expiry := expiry } else c)
      ∧ (∀ b, b ≠ a → t.claims b = s.claims b) ∧ t.settings = (s.onPlace p fun c => { c with follow := false }).settings
      ∧ t.links = (s.answer port .claim tag .already).links
      ∧ t = { s with claimQueues := t.claimQueues, settings := t.settings, links := t.links, auxLines := t.auxLines })

/-- The claim a serving chooses has the highest precedence, and among equals was placed first; an antenna with no claims is served with nobody, and so is one that is not IN_SERVICE (the model's reading, log 16). The grant takes the claim out of the queue and makes the claimant the owner; a claimant that owns nothing ends the serving, and where it owns another antenna that one loses its owner and is served in turn: a chain of grants. A grant, step by step: the claim leaves the queue and the pointer is none; the owner field is written and the antenna part given to the sequencer; a tap slot that the grantee holds on the antenna is freed with TAP FREED, cause OWNER, and the other slot stays; CLAIM GRANTED is reported with its manner, its origin and the previous antenna; the previous antenna loses its owner, and is served. -/
def Obligations.QueueServed : Prop :=
  (∀ (s : State) (l : List Claim), (s.chooseClaim l = none ↔ l = [])
    ∧ ∀ c, s.chooseClaim l = some c → ∃ before behind, l = before ++ c :: behind
      ∧ (∀ d ∈ before, (s.place d.position).precedence < (s.place c.position).precedence)
      ∧ ∀ d ∈ behind, (s.place d.position).precedence ≤ (s.place c.position).precedence)
  -- the steps of a grant
  ∧ (∀ (s : State) (p : Pos) (a : Ant) (origin : Origin) (manner : Manner) (previous : Option Ant),
    let given := (s.onAnt a fun r => { r with owner := some p }).givePath p { (s.seq p).requested with antenna := some a }
    let recommanded := fun t : TapRecord =>
      { t with closed1 := t.slot1.isSome && !t.keyed && !(s.ant a).presence, closed2 := t.slot2.isSome && !t.keyed && !(s.ant a).presence }
    let untapped := if (s.tap a).slot1 = some p then
        ((given.onTap a fun t => recommanded { t with slot1 := none }).setListen p none).report [p] (.tap a false p .freed .owner)
      else if (s.tap a).slot2 = some p then
        ((given.onTap a fun t => recommanded { t with slot2 := none }).setListen p none).report [p] (.tap a true p .freed .owner)
      else given
    let told := untapped.report [p] (.claim (.granted manner previous) a p (some origin))
    s.makeOwner p a origin manner previous = match previous with
      | none => told
      | some b => told.onAnt b fun r => { r with owner := none })
  ∧ (∀ (s : State) (p : Pos) (a : Ant) (origin : Origin) (previous : Option Ant), (s.ant a).owner ≠ some p →
    (∀ b, (s.ant b).owner = some p ↔ previous = some b) →
      (∀ manner, s.grantClaim p a origin manner
        = ((s.onClaims a fun l => l.filter fun c => c.position != p).setWaitsOn p none).makeOwner p a origin manner previous)
      ∧ s.grantAtOnce p a origin = match previous with
        | none => s.grantClaim p a origin .immediate
        | some b => (s.grantClaim p a origin .immediate).serve b)
  ∧ ∀ (s : State) (a : Ant),
    ((s.ant a).service ≠ .inService → s.serve a = s) ∧ (s.claims a = [] → s.serve a = s)
    ∧ ∀ c, (s.ant a).service = .inService → s.chooseClaim (s.claims a) = some c →
      let granted := s.grantClaim c.position a c.origin .queue
      ((∀ b, (s.ant b).owner ≠ some c.position) → s.serve a = granted)
      ∧ ((granted.ant a).owner = some c.position ∧ granted.claims a = (s.claims a).filter (fun d => d.position != c.position)
        ∧ granted.waitsOn c.position = none ∧ (∀ b, b ≠ a → granted.claims b = s.claims b) ∧ ∀ q, q ≠ c.position → granted.waitsOn q = s.waitsOn q)
      ∧ ∀ b, b ≠ a → (s.ant b).owner = some c.position → OneOwned s → ClaimsExact s → (granted.ant b).owner = none ∧ s.serve a = granted.serve b

/-- RELEASE: the waiting claim is withdrawn for CLAIM and ALL, follow goes off with a FOLLOW claim that is left, and for ROUTE and ALL the owned antenna is given up, reported and served: the claim that the serving chooses gets it. The answer is DONE where a claim is withdrawn under CLAIM or ALL or an antenna released, else ALREADY, and is queued before the reports. A waiting claim that is removed leaves its queue, the others in their order, and is reported with its origin to the position and the antenna's owner; a FOLLOW claim goes as WITHDRAWN with cause FOLLOW_OFF. The lapse of a claim removes it and reports it EXPIRED, and moves nothing else; that a lapse commanded before its expiry does nothing is the model's choice (log 3). -/
def Obligations.ClaimsGivenUp : Prop :=
  (∀ (port : Port) (tag : Byte) (p : Pos) (s : State), s.Takes port → (port = 0 ∨ port = p.succ) → ClaimsExact s → OneOwned s →
    let answered := fun r : Result => s.answer port .release tag r
    let withdrawn := fun (cause : WithdrawCause) (u : State) => match s.waitingClaim p with
      | some (a, c) => u.report (p :: (s.ant a).owner.toList) (.claim (.withdrawn cause) a p (some c.origin))
      | none => u
    let off := (s.onPlace p fun c => { c with follow := false }).settings
    -- CLAIM, and ALL of a position that owns nothing
    (∀ w : Byte, w = 2#8 ∨ (w = 3#8 ∧ ∀ a, (s.ant a).owner ≠ some p) → ∃ t, exec (.release port tag (posByte p) w) s = .next t
      ∧ t.waitsOn p = none ∧ (∀ q, q ≠ p → t.waitsOn q = s.waitsOn q) ∧ (∀ a, t.claims a = (s.claims a).filter fun c => c.position != p)
      ∧ t.settings = off ∧ t.links = (withdrawn .release (answered (if s.waitsOn p = none then .already else .done))).links
      ∧ t = { s with claimQueues := t.claimQueues, claimPointers := t.claimPointers, settings := t.settings, links := t.links, auxLines := t.auxLines })
    -- ROUTE of a position that owns nothing
    ∧ ((∀ a, (s.ant a).owner ≠ some p) → ∃ t, exec (.release port tag (posByte p) 1#8) s = .next t ∧ t.settings = off
      ∧ t.links = (if s.waitsUnderFollow p then withdrawn .followOff (answered .already) else answered .already).links
      ∧ (if s.waitsUnderFollow p then t.waitsOn p = none ∧ ∀ a, t.claims a = (s.claims a).filter fun c => c.position != p
         else t.claimQueues = s.claimQueues ∧ t.claimPointers = s.claimPointers)
      ∧ t = { s with claimQueues := t.claimQueues, claimPointers := t.claimPointers, settings := t.settings, links := t.links, auxLines := t.auxLines })
    -- ROUTE and ALL of an owner
    ∧ ∀ a, (s.ant a).owner = some p → ∀ w : Byte, w = 1#8 ∨ w = 3#8 → ∃ t, exec (.release port tag (posByte p) w) s = .next t
      ∧ t.settings = off ∧ CascadeFrame s t
      ∧ t = followAux s ((((((if w = 3#8 then (answered .done).removeWaiting p (.withdrawn .release) else answered .done).onPlace p
          fun c => { c with follow := false }).withdrawFollow p).setOwner a none).giveAntenna p none |>.report [p] (.claim .released a p none)).serve a)
      ∧ (t.ant a).owner = (if (s.ant a).service = .inService then (s.chooseClaim (s.claims a)).map Claim.position else none)
      ∧ (t.ant a).owner ≠ some p)
  -- a waiting claim removed: the gap closes, the pointer is none, and the report goes to the antenna's owner as well
  ∧ (∀ (s : State) (p : Pos) (event : ClaimEvent) (new : Ant),
    (s.removeWaiting p event = match s.waitingClaim p with
      | none => s
      | some (a, c) => ((s.onClaims a fun l => l.filter fun x => x.position != p).setWaitsOn p none).report (p :: (s.ant a).owner.toList)
        (.claim event a p (some c.origin)))
    ∧ (s.waitsUnderFollow p = true ↔ ∃ a c, s.waitingClaim p = some (a, c) ∧ c.origin = .follow)
    ∧ s.withdrawFollow p = (if s.waitsUnderFollow p then s.removeWaiting p (.withdrawn .followOff) else s)
    ∧ s.followOff p = (s.onPlace p fun c => { c with follow := false }).withdrawFollow p
    ∧ s.supersede p new = s.removeWaiting p (.superseded new))
  ∧ ∀ (p : Pos) (s : State), s.running = true →
    ((∀ a c, s.waitingClaim p = some (a, c) → s.due c.expiry = false) → exec (.claimExpired p) s = .next s)
    ∧ ∀ a c, s.waitingClaim p = some (a, c) → s.due c.expiry = true → ∃ t, exec (.claimExpired p) s = .next t
      ∧ t.claims a = (s.claims a).filter (fun d => d.position != p) ∧ t.waitsOn p = none ∧ (∀ b, b ≠ a → t.claims b = s.claims b)
      ∧ (∀ q, q ≠ p → t.waitsOn q = s.waitsOn q)
      ∧ t.links = (s.report (p :: (s.ant a).owner.toList) (.claim .expired a p (some c.origin))).links
      ∧ t = { s with claimQueues := t.claimQueues, claimPointers := t.claimPointers, links := t.links, auxLines := t.auxLines }

/-- FORCE: the refusals in their order and ALREADY, none of which changes anything; else DONE. To none, the owner is removed, the antenna served, and the former owner re-selects last. To a position, its claim on the antenna is removed or its claim elsewhere superseded, its follow goes off, the old owner is removed and reported REMOVED with reason FORCED, the position owns the antenna by the steps of a grant (QueueServed) with origin SUPERVISOR and manner FORCE, the antenna it owned before is served, and the old owner re-selects last: afterwards the position owns this antenna and no other, waits nowhere, and the old owner owns it no longer. -/
def Obligations.ForceMoves : Prop :=
  ∀ (tag : Byte) (a : Ant) (s : State), s.Takes 0 →
    let out := fun (o : Pos) (u : State) =>
      ((u.onAnt a fun r => { r with owner := none }).givePath o { (u.seq o).requested with antenna := none }).report [o]
        (.claim (.removed .forced) a o (some .supervisor))
    (∀ q : Option Pos, (s.ant a).service = .outOfService → exec (.force 0 tag (antByte a) (posOrZero q)) s = .next (s.answer 0 .force tag .outOfService))
    ∧ ((s.ant a).service ≠ .outOfService → (s.ant a).owner = none → exec (.force 0 tag (antByte a) 0#8) s = .next (s.answer 0 .force tag .already))
    ∧ ((s.ant a).service ≠ .outOfService → ∀ o, (s.ant a).owner = some o → ∃ t, exec (.force 0 tag (antByte a) 0#8) s = .next t
        ∧ t = followAux s (((out o (s.answer 0 .force tag .done)).serve a).select o .resume)
        ∧ t.settings = s.settings ∧ CascadeFrame s t)
    ∧ ∀ q : Pos, let c := Instr.force 0 tag (antByte a) (posByte q)
      ((s.ant a).service = .tripped → exec c s = .next (s.answer 0 .force tag .tripped))
      ∧ ((s.ant a).service = .inService → (s.place q).precedence = 0 → exec c s = .next (s.answer 0 .force tag .parked))
      ∧ ((s.ant a).service = .inService → (s.place q).precedence ≠ 0 → ∀ b, s.band q = some b → (s.config a).bandMask.getLsbD b.index = false →
          exec c s = .next (s.answer 0 .force tag .bandMismatch))
      ∧ (ClaimPasses s q a → (s.ant a).owner = some q → exec c s = .next (s.answer 0 .force tag .already))
      ∧ (ClaimPasses s q a → (s.ant a).owner ≠ some q → ∃ t, exec c s = .next t ∧ (∀ previous : Option Ant, (∀ b, (s.ant b).owner = some q ↔ previous = some b) →
            let answered := s.answer 0 .force tag .done
            let unclaimed := if s.waitsOn q = some a then (answered.onClaims a fun l => l.filter fun c => c.position != q).setWaitsOn q none
              else answered.supersede q a
            let off := unclaimed.onPlace q fun c => { c with follow := false }
            let freed := match (s.ant a).owner with
              | some o => out o off
              | none => off
            let made := freed.makeOwner q a .supervisor .force previous
            let served := match previous with
              | some b => made.serve b
              | none => made
            t = followAux s (match (s.ant a).owner with
              | some o => served.select o .resume
              | none => served))
          ∧ t.settings = (s.onPlace q fun c => { c with follow := false }).settings ∧ CascadeFrame s t
          ∧ (ClaimsExact s → RequestsExact s → (t.ant a).owner = some q ∧ (t.seq q).requested.antenna = some a ∧ t.waitsOn q = none ∧ (∀ b, b ≠ a → (t.ant b).owner ≠ some q)
            ∧ ∀ c ∈ s.claims a, c.position ≠ q → c ∈ t.claims a))

/-! ### Follow Selector -/

/-- FOLLOW: START and RESUME set follow on and run their selection; STOP sets it off and withdraws a FOLLOW claim, and moves nothing else. -/
def Obligations.FollowSwitched : Prop :=
  ∀ (port : Port) (tag : Byte) (p : Pos) (s : State), s.Takes port → (port = 0 ∨ port = p.succ) →
    let on := (s.answer port .follow tag .done).onPlace p fun c => { c with follow := true }
    (∃ t, exec (.follow port tag (posByte p) 1#8) s = .next t ∧ t = followAux s (on.select p .start)
      ∧ t.settings = (s.onPlace p fun c => { c with follow := true }).settings ∧ CascadeFrame s t)
    ∧ (∃ t, exec (.follow port tag (posByte p) 2#8) s = .next t ∧ t = followAux s (on.select p .resume)
      ∧ t.settings = (s.onPlace p fun c => { c with follow := true }).settings ∧ CascadeFrame s t)
    ∧ ∃ t, exec (.follow port tag (posByte p) 3#8) s = .next t
      ∧ t = followAux s (((s.answer port .follow tag (if (s.place p).follow then .done else .already)).onPlace p fun c => { c with follow := false }).withdrawFollow p)
      ∧ t.settings = (s.onPlace p fun c => { c with follow := false }).settings
      ∧ (s.waitsUnderFollow p = false → t.claimQueues = s.claimQueues ∧ t.claimPointers = s.claimPointers)
      ∧ t = { s with claimQueues := t.claimQueues, claimPointers := t.claimPointers, settings := t.settings, links := t.links, auxLines := t.auxLines }

/-- A selection: not run without a band, at precedence 0 or with follow off; RESUME keeps a serviceable antenna owned; else the first free antenna of the list is kept or claimed, and granted at once; else the antenna owned is kept; else it is released and served, and a FOLLOW claim, which has no expiry, is placed on the first serviceable antenna of the list, which is granted where it is free, queued where another position owns it, and stands where the position owns it or waits for it; else NO_ANTENNA is reported. -/
def Obligations.SelectionSteps : Prop :=
  (∀ (s : State) (p : Pos) (a : Ant), s.queueClaim p a .follow
    = ((s.onClaims a fun l => l ++ [{ position := p, origin := .follow, expiry := none }]).setWaitsOn p (some a)).report (p :: (s.ant a).owner.toList)
      (.claim (.queued (s.ant a).owner ((s.claims a).length + 1)) a p (some .follow)))
  ∧ ∀ (s : State) (p : Pos) (m : SelectMode),
    (s.band p = none ∨ (s.place p).precedence = 0 ∨ (s.place p).follow = false → s.select p m = s)
    ∧ ∀ b, s.band p = some b → (s.place p).precedence ≠ 0 → (s.place p).follow = true →
      let serviceable := fun a : Ant => (s.ant a).service = .inService ∧ (s.config a).bandMask.getLsbD b.index = true
      let free := fun a : Ant => serviceable a ∧ ((s.ant a).owner = none ∨ (s.ant a).owner = some p)
      (m = .resume → (∃ c, s.owned p = some c ∧ serviceable c) → s.select p m = s.withdrawFollow p)
      ∧ (¬ (m = .resume ∧ ∃ c, s.owned p = some c ∧ serviceable c) →
        (∀ before e behind, s.prefs p b = before ++ e :: behind → (∀ d ∈ before, ¬ free d) → free e →
          s.select p m = if (s.ant e).owner = some p then s.withdrawFollow p
            else if s.waitsOn p = some e then s
            else (s.supersede p e).grantAtOnce p e .follow)
        ∧ ((∀ e ∈ s.prefs p b, ¬ free e) →
          ((∃ c, s.owned p = some c ∧ serviceable c) → s.select p m = s.withdrawFollow p)
          ∧ (¬ (∃ c, s.owned p = some c ∧ serviceable c) →
            let u := match s.owned p with
              | some c => (((s.setOwner c none).giveAntenna p none).report [p] (.claim .released c p none)).serve c
              | none => s
            (∀ before f behind, s.prefs p b = before ++ f :: behind → (∀ d ∈ before, ¬ serviceable d) → serviceable f →
              s.select p m = if (u.ant f).owner = some p ∨ u.waitsOn p = some f then u
                else if (u.ant f).owner = none then (u.supersede p f).grantAtOnce p f .follow
                else (u.supersede p f).queueClaim p f .follow)
            ∧ ((∀ f ∈ s.prefs p b, ¬ serviceable f) →
              s.select p m = u.report [p] (.route p (some b) (u.seq p).current.filter none (u.routeStatus p) .noAntenna)))))

/-! ### Path Sequencers -/

/-- A pair given to a sequencer becomes its requested path; one equal to the requested path starts nothing; one that arrives in IDLE on another path starts a change, in BREAK it is taken and another filter switched at once, in MAKE it is kept for the end. A change that starts takes the sequencer to DRAIN and is handed to the arbiter first: a granted position is cut ROUTE_CHANGE, a QUEUED one leaves the list for PENDING, and OFF, PENDING and BLOCKED stay. DRAIN waits with the drain limit where the current antenna has presence. Otherwise BREAK begins: the current antenna's connected position becomes none, the filter is switched if it differs, and the timer is loaded with the larger of that antenna's settle time and the filter settle, a time that does not apply counting as 0; a load of 0 goes on into HOLDOFF at once, and HOLDOFF begins MAKE where the target has no antenna or a free and quiet one. A connected position that becomes none is handed to the sequencers that wait in HOLDOFF for that antenna, and the first of them in position order, the model's choice (log 15), begins MAKE. A timer is loaded with the count plus its time, and has run out where the count lies less than half the range after its expiry, the model's reading (log 4), and so is that the KEY CUT of a change that starts is queued after the reports of the walk (log 13). -/
def Obligations.PathGiven : Prop :=
  (∀ (s : State) (p : Pos) (n : RfPath),
    ((s.givePath p n).seq p).requested = n ∧ (∀ q, q ≠ p → ((s.givePath p n).seq q).requested = (s.seq q).requested)
    ∧ (n = (s.seq p).requested → s.givePath p n = s)
    ∧ (n ≠ (s.seq p).requested →
      ((s.seq p).state = .idle → n ≠ (s.seq p).current → s.givePath p n = (s.onSeq p fun q => { q with target := n }).startChange p)
      ∧ ((s.seq p).state = .drain → n ≠ (s.seq p).current → s.givePath p n = s.onSeq p fun q => { q with target := n })
      ∧ ((s.seq p).state = .drain → n = (s.seq p).current → s.givePath p n
          = (s.onSeq p fun q => { q with target := n, state := .idle, phase := none }).handOverRoute p)
      ∧ (∀ b, (s.seq p).state = .brk b → n.filter = (s.seq p).setFilter → s.givePath p n = s.onSeq p fun q => { q with target := n })
      ∧ (∀ b, (s.seq p).state = .brk b → n.filter ≠ (s.seq p).setFilter → s.givePath p n = s.onSeq p fun q =>
          { q with target := n, setFilter := n.filter, phase := s.load (max (s.timeLeft q.phase) s.settings.filterSettle) })
      ∧ (∀ a, (s.seq p).state = .holdoff → n.filter = (s.seq p).setFilter → n.antenna = some a → s.givePath p n
          = if (s.ant a).connected = none ∧ (s.ant a).presence = false then (s.onSeq p fun q => { q with target := n }).beginMake p a
            else s.onSeq p fun q => { q with target := n })
      ∧ ((s.seq p).state = .holdoff → n.filter = (s.seq p).setFilter → n.antenna = none → s.givePath p n
          = (s.onSeq p fun q => { q with target := n }).completeChange p)
      ∧ ((s.seq p).state = .holdoff → n.filter ≠ (s.seq p).setFilter → s.givePath p n = s.onSeq p fun q =>
          { q with target := n, state := .brk none, setFilter := n.filter, phase := s.load s.settings.filterSettle })
      ∧ ∀ m, (s.seq p).state = .make m → s.givePath p n = s.onSeq p fun q => { q with state := .make (if n = q.target then none else some n) }))
  -- the start of a change, and DRAIN
  ∧ (∀ (s : State) (p : Pos),
    let changing := s.onSeq p fun q => { q with state := .drain }
    let told := if s.granted p then
        ((changing.endGrant p (if (s.key p).level then .blocked else .off)).walk).report [p] (.keyCut p .routeChange (s.key p).grant none)
      else if (s.key p).state = .queued then
        (changing.setWaiting (s.waiting.filter fun q => q != p)).onKey p fun k => { k with state := .pending, reported := false }
      else changing
    (∀ a, (s.seq p).current.antenna = some a → (s.ant a).presence = true → s.startChange p
      = told.onSeq p fun q => { q with phase := s.load s.settings.drainLimit })
    ∧ ((∀ a, (s.seq p).current.antenna = some a → (s.ant a).presence = false) → s.startChange p = told.enterBreak p))
  -- BREAK
  ∧ (∀ (s : State) (p : Pos),
    let filterTime := if (s.seq p).target.filter = (s.seq p).setFilter then 0 else s.settings.filterSettle
    let broken := fun (b : Option Ant) (time : Nat) (u : State) => u.onSeq p fun q =>
      { q with state := .brk b, setFilter := q.target.filter, phase := s.load time }
    let left := fun (time : Nat) (u : State) => if time = 0 then u.enterHoldoff p else u
    ((s.seq p).current.antenna = none → s.enterBreak p = left filterTime (broken none filterTime s))
    ∧ ∀ a, (s.seq p).current.antenna = some a → s.enterBreak p
      = (left (max (s.config a).settle filterTime)
          (broken (some a) (max (s.config a).settle filterTime) (s.onAnt a fun r => { r with connected := none }))).antennaCleared a)
  -- HOLDOFF, the start of MAKE, and an antenna that has been cleared
  ∧ (∀ (s : State) (p : Pos) (a : Ant),
    s.beginMake p a = (s.onAnt a fun r => { r with connected := some p }).onSeq p fun q => { q with state := .make none, phase := s.load (s.config a).settle })
  ∧ (∀ (s : State) (p : Pos),
    ((s.seq p).target.antenna = none → s.enterHoldoff p = s.completeChange p)
    ∧ ∀ a, (s.seq p).target.antenna = some a → s.enterHoldoff p
      = if (s.ant a).connected = none ∧ (s.ant a).presence = false then s.beginMake p a
        else s.onSeq p fun q => { q with state := .holdoff, phase := s.load s.settings.drainLimit })
  ∧ (∀ (s : State) (a : Ant),
    let waits := fun p : Pos => decide ((s.seq p).state = .holdoff ∧ (s.seq p).target.antenna = some a)
    s.antennaCleared a = if (s.ant a).connected = none ∧ (s.ant a).presence = false then
        match ([0, 1, 2, 3, 4, 5] : List Pos).find? waits with
        | some p => s.beginMake p a
        | none => s
      else s)
  -- the timers
  ∧ ∀ (s : State) (t : Timer) (time : Nat), s.load time = some (s.timebase + BitVec.ofNat 32 time)
    ∧ (s.due t = true ↔ ∃ e, t = some e ∧ (s.timebase - e).toNat < 2147483648)
    ∧ s.timeLeft t = match t with
      | none => 0
      | some e => if s.due t then 0 else (e - s.timebase).toNat

/-- The phase timers: BREAK ends in HOLDOFF, where MAKE begins at once on an antenna that is free and quiet; on the antenna just broken HOLDOFF waits for its presence to fall, with no trip, where presence turns true in the same millisecond (R116): where the sample that comes next in it, of a COUPLER_SAMPLE that waits or else of the coupler inputs of a port not yet sampled, reads RF at the threshold (the model's reading of R116 beside R107, log 30). MAKE ends with the target as the current path; a wait past the drain limit is reported once and goes on. A completion sets the quiet-since stamp, which an undo in DRAIN (PathGiven) leaves, and sends ROUTE SETTLED with band, filter, antenna and status; a next path that differs from the new current path starts a change, with the status CHANGING and no hand-over, and one equal to it is discarded. A sequencer left in IDLE hands its route over: a PENDING position is checked by steps 1, 2 and 4 to 8 of the eligibility and joins (JoinersServed) or is denied, and every other stays. The model's choices: a phase event commanded while its timer has not run out does nothing (log 3), and the sampled mark is its own (log 9). -/
def Obligations.PhasesEnd : Prop :=
  (∀ (p : Pos) (s : State), s.running = true →
    let q := s.seq p
    let toCome := fun a : Ant => match s.pending.findSome? (sampleOf a) with
      | some v => some v
      | none => if (s.sensor a).sampled then none else some (s.coupler a)
    let meetsRf := fun a : Ant => q.state = .brk (some a) ∧ ∃ v, toCome a = some v
      ∧ s.settings.presenceThreshold ≤ max (sampledPf (s.config a) v.1) (sampledPr (s.config a) v.2)
    (s.due q.phase = false → exec (.breakEnd p) s = .next s ∧ exec (.makeEnd p) s = .next s ∧ exec (.rfHot p) s = .next s)
    ∧ (∀ b, q.state = .brk b → s.due q.phase = true →
      (∀ a, q.target.antenna = some a → ¬ meetsRf a → (s.ant a).connected = none → (s.ant a).presence = false →
        exec (.breakEnd p) s = .next (followAux s ((s.onAnt a fun r => { r with connected := some p }).onSeq p fun q => { q with state := .make none, phase := s.load (s.config a).settle })))
      ∧ (∀ a, q.target.antenna = some a → meetsRf a ∨ (s.ant a).connected ≠ none ∨ (s.ant a).presence = true →
        exec (.breakEnd p) s = .next (s.onSeq p fun q => { q with state := .holdoff, phase := s.load s.settings.drainLimit }))
      ∧ (q.target.antenna = none → exec (.breakEnd p) s = .next (followAux s (s.completeChange p))))
    ∧ (∀ n, q.state = .make n → s.due q.phase = true → ∃ t, exec (.makeEnd p) s = .next t ∧ t = followAux s (s.finishMake p n)
      ∧ t.settings = s.settings ∧ CascadeFrame s t ∧ (t.seq p).requested = q.requested
      ∧ (n = none → t.seq p = { q with current := q.target, state := .idle, phase := none } ∧ t.antennas = s.antennas))
    ∧ (q.state = .drain → s.due q.phase = true → exec (.rfHot p) s = .next ((s.report [p] (.rfHot q.current.antenna p .drain
        .rf none (s.readings q.current.antenna).1 (s.readings q.current.antenna).2)).onSeq p fun q => { q with phase := none }))
    ∧ ∀ a, q.state = .holdoff → q.target.antenna = some a → s.due q.phase = true → exec (.rfHot p) s
      = .next ((s.report (p :: (s.ant a).connected.toList) (.rfHot (some a) p .holdoff
        (if (s.ant a).connected = none then .rf else if (s.ant a).presence then .both else .connected)
        (s.ant a).connected (s.ant a).pf (s.ant a).pr)).onSeq p fun q => { q with phase := none }))
  -- what a command samples
  ∧ (∀ (a b : Ant) (x y : Nat), sampleOf a (.couplerSample b x y) = if b = a then some (x, y) else none)
  ∧ (∀ (a : Ant) (c : Instr), (∀ x y, c ≠ .couplerSample a x y) → sampleOf a c = none)
  -- the end of BREAK on the broken antenna, and behind it the sample of that antenna in the same millisecond
  ∧ (∀ (p : Pos) (a : Ant) (x y : Nat) (rest : List Instr) (s : State), s.running = true → (s.seq p).state = .brk (some a) → (s.seq p).target.antenna = some a →
    s.due (s.seq p).phase = true → (s.ant a).connected = none → (s.ant a).presence = false →
    (∀ r, r ≠ p → (s.seq r).state ≠ .brk (some a) ∧ ((s.seq r).target.antenna = some a → (s.seq r).state.shown ≠ .make)) →
    (s.sensor a).swrCount = 0 → (s.sensor a).powerCount = 0 →
    let waiting := { s.seq p with state := .holdoff, phase := s.load s.settings.drainLimit }
    let making := { s.seq p with state := .make none, phase := s.load (s.config a).settle }
    ∃ t, step (s.withPending (.breakEnd p :: .couplerSample a x y :: rest)) = .next t ∧ ∃ u, step t = .next u ∧ u.timebase = s.timebase ∧ u.pending = rest
      ∧ (u.ant a).service = (s.ant a).service ∧ (u.ant a).trip = (s.ant a).trip
      ∧ (if s.settings.presenceThreshold ≤ max (sampledPf (s.config a) x) (sampledPr (s.config a) y) then
          t.seq p = waiting ∧ (t.ant a).connected = none ∧ u.seq p = waiting ∧ (u.ant a).connected = none ∧ (u.ant a).presence = true
        else t.seq p = making ∧ (t.ant a).connected = some p ∧ u.seq p = making ∧ (u.ant a).connected = some p ∧ (u.ant a).presence = false))
  ∧ (∀ (s : State) (a : Ant), s.readings none = (0, 0) ∧ s.readings (some a) = ((s.ant a).pf, (s.ant a).pr))
  ∧ ∀ (s : State) (p : Pos),
    let q := s.seq p
    let status := fun a : Option Ant => if a = none then RouteStatus.none else .active
    let checked := fun u : State => if (u.key p).state = .pending then u.checkKey p else u
    let settled := (s.onSeq p fun q => { q with current := q.target, state := .idle, phase := none }).setQuiet p (some s.timebase)
    let reported := fun st : RouteStatus => settled.report [p] (.route p (s.band p) q.target.filter q.target.antenna st .settled)
    let denied := fun r : KeyReason => ((s.setWaiting (s.waiting.filter fun x => x != p)).onKey p fun k => { k with state := .blocked, reported := false }).report [p]
      (.keyDenied p r (s.band p) q.current.antenna)
    -- the end of a change
    s.completeChange p = checked (reported (status q.target.antenna))
    ∧ s.finishMake p none = s.completeChange p ∧ s.finishMake p (some q.target) = s.completeChange p
    ∧ (∀ n, n ≠ q.target → s.finishMake p (some n) = ((reported .changing).onSeq p fun q => { q with target := n }).startChange p)
    -- the hand-over of a settled route, and the checks of a PENDING position
    ∧ (q.state = .idle → s.handOverRoute p = checked (s.report [p] (.route p (s.band p) q.current.filter q.current.antenna (status q.current.antenna) .settled)))
    ∧ (q.state = .idle → s.checkKey p = if (s.place p).precedence = 0 then denied .parked
        else match s.band p, q.current.antenna with
          | none, _ => denied .noBand
          | some _, none => denied .noRoute
          | some b, some a => if (s.ant a).service = .tripped then denied .tripped
            else if (s.config a).bandMask.getLsbD b.index = false then denied .bandMismatch
            else if s.limit b = 0 then denied .bandClosed
            else s.join p)

/-! ### Transmit Arbiter -/

/-- HOLD: ALREADY for the value held; ON, answered DONE, cuts every granted position in position order, into BLOCKED where PTT is held and OFF where it is not, with the grant records gone, no walk, and KEY CUT with reason HOLD each; it leaves the waiting list. OFF walks the list. -/
def Obligations.HoldSwitched : Prop :=
  ∀ (tag : Byte) (on : Bool) (s : State), s.Takes 0 →
    let c := Instr.hold 0 tag (flagByte on)
    (on = s.holdOn → exec c s = .next (s.answer 0 .hold tag .already))
    ∧ (on = true → s.holdOn = false → ∃ t, exec c s = .next t ∧ t.holdOn = true
        ∧ t = followAux s (forEach [0, 1, 2, 3, 4, 5] (fun p u => if s.granted p then
            (u.endGrant p (if (s.key p).level then .blocked else .off)).report [p] (.keyCut p .hold (s.key p).grant none) else u)
          ((s.answer 0 .hold tag .done).setHold true))
        ∧ (∀ p, s.granted p = true → (t.key p).grant = none ∧ t.txen p = false)
        ∧ (∀ p, (t.key p).state = if s.granted p then (if (s.key p).level then .blocked else .off) else (s.key p).state)
        ∧ t.waiting = s.waiting ∧ t.pointer = s.pointer ∧ t.settings = s.settings ∧ t.antennas = s.antennas ∧ t.sequencers = s.sequencers
        ∧ t.claimQueues = s.claimQueues ∧ t.claimPointers = s.claimPointers ∧ t.listens = s.listens ∧ t.timebase = s.timebase)
    ∧ (on = false → s.holdOn = true → ∃ t, exec c s = .next t ∧ t = followAux s (((s.answer 0 .hold tag .done).setHold false).walk)
        ∧ t.holdOn = false ∧ t.settings = s.settings ∧ t.antennas = s.antennas ∧ t.sequencers = s.sequencers
        ∧ t.claimQueues = s.claimQueues ∧ t.claimPointers = s.claimPointers ∧ t.listens = s.listens ∧ t.timebase = s.timebase)

/-- SET-KEYING: the three values clamped and written together, ALREADY where they equal those held; a change between levels 1 and 3 moves nobody; a precedence set to 0 cuts the grant PARKED or denies the waiting key PARKED, and then drops the waiting claim PARKED; the owned antenna and the route are kept. That KEY CUT is queued after the reports of the walk: the model's reading (log 13). -/
def Obligations.KeyingWritten : Prop :=
  ∀ (tag : Byte) (p : Pos) (k : Fin 4) (h m : Half) (s : State), s.Takes 0 →
    let c := Instr.setKeying 0 tag (posByte p) (byteOf k.val) h m
    let new : PositionConfig := { s.place p with precedence := k, hang := min 2000 h.toNat, maxKey := min 600 m.toNat }
    let r : Result := if new.hang = h.toNat ∧ new.maxKey = m.toNat then .done else .clamped
    (new = s.place p → exec c s = .next (s.answer 0 .setKeying tag .already))
    ∧ (new ≠ s.place p → ((s.place p).precedence = 0 ∨ k ≠ 0) → exec c s = .next ((s.answer 0 .setKeying tag r).onPlace p fun _ => new))
    ∧ ((s.place p).precedence ≠ 0 → k = 0 → ClaimsExact s → ∃ t, exec c s = .next t
        ∧ (let written := (s.answer 0 .setKeying tag r).onPlace p fun _ => new
          let told := if s.granted p then
              ((written.endGrant p (if (s.key p).level then .blocked else .off)).walk).report [p] (.keyCut p .parked (s.key p).grant none)
            else if (s.key p).state = .queued then
              ((written.setWaiting (s.waiting.filter fun q => q != p)).onKey p fun k => { k with state := .blocked, reported := false }).report [p]
                (.keyDenied p .parked (s.band p) (s.routeAntenna p))
            else written
          t = followAux s (match s.waitingClaim p with
            | none => told
            | some (a, old) => ((told.onClaims a fun l => l.filter fun x => x.position != p).setWaitsOn p none).report (p :: (s.ant a).owner.toList)
              (.claim (.dropped .parked) a p (some old.origin))))
        ∧ t.settings = (s.onPlace p fun _ => new).settings ∧ t.granted p = false ∧ (t.key p).state ≠ .queued ∧ t.waitsOn p = none
        ∧ (s.granted p = false → (s.key p).state ≠ .queued → t.keys = s.keys)
        ∧ t.antennas = s.antennas ∧ t.sequencers = s.sequencers ∧ CascadeFrame s t)

/-- SET-RULES and SET-EXCLUSION: the values written together, ALREADY, EXCLUSIONS_FULL and the like with no effect; after DONE or CLAMPED the pointer, the closed bands and the walk in their order, and no owner, route or claim moves. The QUEUED positions on a closed band are denied BAND_CLOSED, in list order. -/
def Obligations.RulesWritten : Prop :=
  (∀ (tag total g : Byte) (l : List Byte) (o : GrantOrder) (pre : Bool) (s : State), s.Takes 0 → l.length = 6 →
    let c := Instr.setRules 0 tag l total o.code (flagByte pre) g
    let new : Settings :=
      { s.settings with
        bandLimits := Vector.ofFn fun (i : Fin 6) => min 2 (l.getD i.val 0#8).toNat, stationTotal := max 1 (min 6 total.toNat),
        order := o, preempt := pre, tapGuard := max 2 (min 20 g.toNat) }
    let r : Result := if (∀ b ∈ l, b.toNat ≤ 2) ∧ new.stationTotal = total.toNat ∧ new.tapGuard = g.toNat then .done else .clamped
    (new = s.settings → exec c s = .next (s.answer 0 .setRules tag .already))
    ∧ (new ≠ s.settings → ∃ t, exec c s = .next t ∧ t = followAux s ((((s.answer 0 .setRules tag r).onSettings fun _ => new).setPointer
          (if s.settings.order = o then s.pointer else 5)).denyClosed.walk)
        ∧ t.settings = new ∧ t.antennas = s.antennas ∧ t.sequencers = s.sequencers ∧ t.claimQueues = s.claimQueues ∧ CascadeFrame s t))
  ∧ (∀ s : State, s.denyClosed = forEach (s.waiting.filter fun p => decide ((s.key p).state = .queued) && (s.band p).any fun b => s.limit b == 0)
      (fun p u => u.deny p .bandClosed) s)
  ∧ ∀ (tag x y : Byte) (a b : Ant) (s : State), s.Takes 0 → a ≠ b →
    let pair := if a ≤ b then (a, b) else (b, a)
    let set := s.settings.exclusions
    let write := fun r : List (Ant × Ant) => followAux s ((s.answer 0 .setExclusion tag .done).onSettings fun c => { c with exclusions := r }).walk
    (pair ∈ set → exec (.setExclusion 0 tag 1#8 (antByte a) (antByte b)) s = .next (s.answer 0 .setExclusion tag .already))
    ∧ (pair ∉ set → 16 ≤ set.length → exec (.setExclusion 0 tag 1#8 (antByte a) (antByte b)) s = .next (s.answer 0 .setExclusion tag .exclusionsFull))
    ∧ (pair ∉ set → set.length < 16 → exec (.setExclusion 0 tag 1#8 (antByte a) (antByte b)) s = .next (write (set ++ [pair])))
    ∧ (pair ∉ set → exec (.setExclusion 0 tag 2#8 (antByte a) (antByte b)) s = .next (s.answer 0 .setExclusion tag .already))
    ∧ (pair ∈ set → exec (.setExclusion 0 tag 2#8 (antByte a) (antByte b)) s = .next (write (set.filter fun x => x != pair)))
    ∧ (set = [] → exec (.setExclusion 0 tag 3#8 x y) s = .next (s.answer 0 .setExclusion tag .already))
    ∧ (set ≠ [] → exec (.setExclusion 0 tag 3#8 x y) s = .next (write []))

/-- While a position is QUEUED or granted it stands on what its eligibility found: a band, an antenna of its ACTIVE route that is IN_SERVICE and serves the band, a precedence of at least 1, and while it is QUEUED a band limit above 0; a grant keeps band and antenna of the position; the keyed indication of an antenna is set exactly while a granted position has it as grant antenna; a sequencer in IDLE stands at its target. Every step keeps it where Safe (SafeKept), the requested paths (RequestsExactKept) and the services (ServiceExact, by which no antenna OUT_OF_SERVICE has an owner; TablesKept) hold. So TXEN is asserted only in ON or HANG, on an ACTIVE route over an IN_SERVICE antenna that serves the position's band, with a precedence of at least 1 and HOLD off; and no tap is commanded closed while its antenna's owner is granted. -/
def Obligations.KeysGroundedKept : Prop :=
  (∀ s t : State, Safe s → RequestsExact s → ServiceExact s → Grounded s → step s = .next t → Grounded t)
  ∧ (∀ s : State, Safe s → Grounded s → ∀ p, s.txen p = true →
    ((s.key p).state = .on ∨ (s.key p).state = .hang) ∧ s.routeStatus p = .active ∧ s.holdOn = false ∧ (s.place p).precedence ≠ 0
    ∧ ∃ b a, s.band p = some b ∧ s.routeAntenna p = some a ∧ (s.ant a).service = .inService ∧ (s.config a).bandMask.getLsbD b.index = true)
  ∧ ∀ s : State, Safe s → RequestsExact s → Grounded s → ∀ p a, s.granted p = true → (s.ant a).owner = some p →
    (s.tap a).keyed = true ∧ (s.tap a).closed1 = false ∧ (s.tap a).closed2 = false

/-- The PTT filter and its edges. A sample equal to the level stops the filter timer, one that differs starts it for 2 ms if it is stopped, and nothing else moves. An assertion in OFF: the first check of static eligibility that fails decides what it becomes: PARKED, NO_BAND, PENDING on a CHANGING route, NO_ROUTE, TRIPPED, BAND_MISMATCH, BAND_CLOSED, else a join (JoinersServed); a denial goes to BLOCKED off the list with a KEY DENIED report. In HANG an assertion goes back to ON with no arbitration; elsewhere it changes the level alone. A release: PENDING and BLOCKED become OFF with no report, QUEUED leaves the list, OPENING ends its grant, ON goes to HANG with TXEN kept, or ends its grant where the hang is 0; OFF and HANG change the level alone. The model's choices: the input is sampled at once when PTT_INPUT_CHANGE is commanded (log 10), and a pttEdge commanded while it is not due changes nothing (log 3). -/
def Obligations.PttEdges : Prop :=
  -- the filter
  (∀ (p : Pos) (b : Bool) (s : State), s.running = true →
    (b = (s.key p).level → exec (.pttInputChange p b) s = .next ((s.setPtt p b).onKey p fun k => { k with filter := none }))
    ∧ (b ≠ (s.key p).level → (s.key p).filter = none → exec (.pttInputChange p b) s
      = .next ((s.setPtt p b).onKey p fun k => { k with filter := some (s.timebase + 2#32) }))
    ∧ (b ≠ (s.key p).level → (s.key p).filter ≠ none → exec (.pttInputChange p b) s = .next (s.setPtt p b))
    ∧ (s.due (s.key p).filter = false → exec (.pttEdge p) s = .next s))
  -- assertions
  ∧ (∀ (p : Pos) (s : State), s.running = true → s.due (s.key p).filter = true → (s.key p).level = false →
    let up := s.onKey p fun k => { k with level := true, filter := none }
    let denied := fun r : KeyReason => Host.Outcome.next (φ := Fault) (ρ := Refusal) (followAux s (((up.setWaiting (s.waiting.filter fun q => q != p)).onKey p
      fun k => { k with state := .blocked, reported := false }).report [p] (.keyDenied p r (s.band p) (s.routeAntenna p))))
    ((s.key p).state = .off →
      ((s.place p).precedence = 0 → exec (.pttEdge p) s = denied .parked)
      ∧ ((s.place p).precedence ≠ 0 → s.band p = none → exec (.pttEdge p) s = denied .noBand)
      ∧ ∀ b, (s.place p).precedence ≠ 0 → s.band p = some b →
        (s.routeStatus p = .changing → exec (.pttEdge p) s = .next (followAux s (up.onKey p fun k => { k with state := .pending })))
        ∧ (s.routeStatus p = .none → exec (.pttEdge p) s = denied .noRoute)
        ∧ ∀ a, s.routeStatus p = .active → (s.seq p).current.antenna = some a →
          ((s.ant a).service = .tripped → exec (.pttEdge p) s = denied .tripped)
          ∧ ((s.ant a).service ≠ .tripped → (s.config a).bandMask.getLsbD b.index = false → exec (.pttEdge p) s = denied .bandMismatch)
          ∧ ((s.ant a).service ≠ .tripped → (s.config a).bandMask.getLsbD b.index = true → s.limit b = 0 → exec (.pttEdge p) s = denied .bandClosed)
          ∧ ((s.ant a).service ≠ .tripped → (s.config a).bandMask.getLsbD b.index = true → s.limit b ≠ 0 →
              exec (.pttEdge p) s = .next (followAux s (up.join p))))
    ∧ ((s.key p).state = .hang → exec (.pttEdge p) s = .next (followAux s ((s.onKey p fun k =>
        { k with
          level := true, filter := none, state := .on,
          tapGuard := none, hang := none, maxKey := if (s.place p).maxKey = 0 then none else some (s.timebase + BitVec.ofNat 32 ((s.place p).maxKey * 1000)) }).setTxen p true)))
    ∧ ((s.key p).state ≠ .off → (s.key p).state ≠ .hang → exec (.pttEdge p) s = .next up))
  -- releases
  ∧ ∀ (p : Pos) (s : State), s.running = true → s.due (s.key p).filter = true → (s.key p).level = true →
    let down := s.onKey p fun k => { k with level := false, filter := none }
    ((s.key p).state = .pending ∨ (s.key p).state = .blocked → exec (.pttEdge p) s
      = .next (followAux s (s.onKey p fun k => { k with level := false, filter := none, state := .off })))
    ∧ ((s.key p).state = .queued → exec (.pttEdge p) s = .next (followAux s ((s.setWaiting (s.waiting.filter fun q => q != p)).onKey p fun k =>
        { k with level := false, filter := none, state := .off, reported := false })))
    ∧ ((s.key p).state = .opening → exec (.pttEdge p) s = .next (followAux s (down.endGrant p .off).walk))
    ∧ ((s.key p).state = .on → (s.place p).hang ≠ 0 → exec (.pttEdge p) s = .next (followAux s (s.onKey p fun k =>
        { k with level := false, filter := none, state := .hang, maxKey := none, hang := some (s.timebase + BitVec.ofNat 32 (s.place p).hang) })))
    ∧ ((s.key p).state = .on → (s.place p).hang = 0 → exec (.pttEdge p) s = .next (followAux s (down.endGrant p .off).walk))
    ∧ ((s.key p).state = .off ∨ (s.key p).state = .hang → exec (.pttEdge p) s = .next down)

/-- Listen antennas and tap slots agree, a position stands in one slot at most, an antenna's owner is not among its listeners, and an OUT_OF_SERVICE antenna has none: every step keeps it. The service state is the configured one but while TRIPPED, and an antenna configured OUT_OF_SERVICE has no owner; an antenna without an owner or not IN_SERVICE has an empty queue, a queue holds at most five claims, and no position of precedence 0 waits: every step keeps these, together with the claims (OwnershipKept). -/
def Obligations.TablesKept : Prop :=
  (∀ s t : State, ListensExact s → step s = .next t → ListensExact t)
  ∧ ∀ s t : State, OneOwned s → ClaimsExact s → ServiceExact s → QueuesHeld s → step s = .next t → ServiceExact t ∧ QueuesHeld t

/-- The key timers: the tap guard ends OPENING in ON with TXEN and the max-key timer, the hang ends the grant into OFF, the max key time cuts it STUCK. That each of these events, commanded in another key state or before its expiry, does nothing is the model's choice (log 3). -/
def Obligations.KeyTimersEnd : Prop :=
  ∀ (p : Pos) (s : State), s.running = true →
    let k := s.key p
    (exec (.tapGuardExpiry p) s = .next (if k.state = .opening ∧ s.due k.tapGuard = true then followAux s ((s.onKey p fun k =>
        { k with state := .on, tapGuard := none, hang := none, maxKey := if (s.place p).maxKey = 0 then none else some (s.timebase + BitVec.ofNat 32 ((s.place p).maxKey * 1000)) }).setTxen p true) else s))
    ∧ exec (.hangExpiry p) s = .next (if k.state = .hang ∧ s.due k.hang = true then followAux s (s.endGrant p .off).walk else s)
    ∧ exec (.maxKeyExpiry p) s = .next (if k.state = .on ∧ s.due k.maxKey = true then followAux s (s.cut p .stuck) else s)
    ∧ (k.state = .hang → s.due k.hang = true → ∀ t, exec (.hangExpiry p) s = .next t → (t.key p).state = .off ∧ t.txen p = false ∧ (t.key p).grant = none)
    ∧ (k.state = .on → s.due k.maxKey = true → ∀ t, exec (.maxKeyExpiry p) s = .next t →
        (t.key p).state = (if k.level then .blocked else .off) ∧ t.txen p = false ∧ (t.key p).grant = none)

/-- The end of a grant: the three timers of the key, the three records and the keyed reference are gone, TXEN is off with the quiet-since stamp set if it was asserted, and the taps of the grant antenna are released; nothing else moves. That the PTT filter timer runs on is the model's reading of "every timer of the position" (log 14). A cut is the end of the grant into BLOCKED or OFF, the walk and the KEY CUT report, this one last (the model's reading, log 13), and has no effect on a position not granted. A denial takes a position off the list into BLOCKED, with KEY DENIED. -/
def Obligations.GrantEnds : Prop :=
  ∀ (s : State) (p : Pos) (into : KeyState),
    let t := s.endGrant p into
    t.key p = { s.key p with state := into, grant := none, tapGuard := none, hang := none, maxKey := none } ∧ (∀ q, q ≠ p → t.key q = s.key q)
    ∧ t.txen p = false ∧ (∀ q, q ≠ p → t.txen q = s.txen q)
    ∧ t.quiet p = (if s.txen p then some s.timebase else s.quiet p) ∧ (∀ q, q ≠ p → t.quiet q = s.quiet q)
    ∧ t.dec p = { s.dec p with reference := none } ∧ (∀ q, q ≠ p → t.dec q = s.dec q)
    ∧ (∀ a, s.grantAntenna p = some a → (t.tap a).keyed = false
      ∧ (t.tap a).closed1 = ((s.tap a).slot1.isSome && !(s.ant a).presence) ∧ (t.tap a).closed2 = ((s.tap a).slot2.isSome && !(s.ant a).presence))
    ∧ (∀ a, s.grantAntenna p ≠ some a → t.tap a = s.tap a)
    ∧ t = { s with keys := t.keys, txenOutputs := t.txenOutputs, quietSince := t.quietSince, decoders := t.decoders, taps := t.taps }
    ∧ (∀ reason : KeyReason, s.cut p reason = if s.granted p then
        ((s.endGrant p (if (s.key p).level then .blocked else .off)).walk).report [p] (.keyCut p reason (s.key p).grant none) else s)
    ∧ ∀ reason : KeyReason, s.deny p reason = ((s.setWaiting (s.waiting.filter fun q => q != p)).onKey p fun k => { k with state := .blocked, reported := false }).report [p]
        (.keyDenied p reason (s.band p) (s.routeAntenna p))

/-- A grant: off the list, with band, antenna and sequence recorded, the pointer moved and the reference captured; OPENING behind a tap that was closed, ON with TXEN where none was; every tap of the antenna opened; KEY GRANTED with the entered state exactly where the position had been reported QUEUED, and that flag cleared. Nothing else moves: the other positions' keys, TXEN and decoders, the other antennas' taps, and every slot stay. -/
def Obligations.GrantMade : Prop :=
  ∀ (s : State) (p : Pos) (b : Band) (a : Ant), s.band p = some b → s.routeAntenna p = some a →
    let t := s.grant p
    let k := s.key p
    let behind := (s.tap a).closed1 || (s.tap a).closed2
    let made : Option Grant := some { band := b, antenna := a, sequence := s.grantCount + 1 }
    t.waiting = s.waiting.filter (fun q => q != p) ∧ t.pointer = p ∧ t.grantCount = s.grantCount + 1
    ∧ (behind = true → t.key p = { k with
        state := .opening, grant := made, reported := false, tapGuard := some (s.timebase + BitVec.ofNat 32 s.settings.tapGuard) } ∧ t.txen p = s.txen p)
    ∧ (behind = false → t.key p = { k with
        state := .on, grant := made, reported := false, tapGuard := none, hang := none,
        maxKey := if (s.place p).maxKey = 0 then none else some (s.timebase + BitVec.ofNat 32 ((s.place p).maxKey * 1000)) } ∧ t.txen p = true)
    ∧ t.dec p = { s.dec p with reference := if (s.place p).source = .lines then (s.dec p).stable else none }
    ∧ t.tap a = { s.tap a with keyed := true, closed1 := false, closed2 := false }
    ∧ t.links = (if k.reported then s.report [p] (.keyGranted p b a (if behind then .opening else .on)) else s).links
    ∧ (∀ q, q ≠ p → t.key q = s.key q ∧ t.txen q = s.txen q ∧ t.dec q = s.dec q) ∧ (∀ x, x ≠ a → t.tap x = s.tap x)
    ∧ t = { s with
        waiting := t.waiting, pointer := t.pointer, grantCount := t.grantCount, keys := t.keys, txenOutputs := t.txenOutputs, decoders := t.decoders,
        taps := t.taps, links := t.links }

/-- A walk takes the waiting list by precedence, each level in join order or in cyclic order from the position after the rotation pointer, that order fixed when it begins. Each position in turn is put to the granted set as it then stands: HOLD on, a band at or above its limit, or an antenna excluded with that of a granted position skips it; if it passes those, a full station stops the walk, and else it is granted (GrantMade). So, also where a lowered limit or total, or a pair added between granted positions, is exceeded already: a band at or above its limit gains no grant, a full or overfull station none, and each new grant finds count, total and exclusions kept; no grant is taken away, and nobody is left QUEUED who would still fit. That one without a band or a route antenna, or no longer QUEUED, is passed over in states that no run reaches is the model's choice (log 26). -/
def Obligations.WalkKeepsLimits : Prop :=
  let apart := fun (u : State) (p : Pos) (a : Ant) => ∀ q, q ≠ p → u.granted q = true → ∀ x, u.grantAntenna q = some x →
    (if x ≤ a then (x, a) else (a, x)) ∉ u.settings.exclusions
  -- the walk, one position at a time
  (∀ s : State, s.walk = walkList s.arbitrationOrder s ∧ walkList [] s = s)
  ∧ (∀ (s : State) (p : Pos) (rest : List Pos),
    ((s.key p).state ≠ .queued ∨ s.band p = none ∨ s.routeAntenna p = none → walkList (p :: rest) s = walkList rest s)
    ∧ ∀ b a, (s.key p).state = .queued → s.band p = some b → s.routeAntenna p = some a →
      (s.holdOn = true ∨ s.limit b ≤ s.countOnBand s.grantedSet b ∨ ¬ apart s p a → walkList (p :: rest) s = walkList rest s)
      ∧ (s.holdOn = false → s.countOnBand s.grantedSet b < s.limit b → apart s p a →
        walkList (p :: rest) s = if s.grantedSet.length < s.settings.stationTotal then walkList rest (s.grant p) else s))
  -- its order
  ∧ (∀ s : State,
    let base := match s.settings.order with
      | .arrival => s.waiting
      | .rotate => [s.pointer + 1, s.pointer + 2, s.pointer + 3, s.pointer + 4, s.pointer + 5, s.pointer].filter fun p => decide (p ∈ s.waiting)
    (∀ p, p ∈ s.arbitrationOrder ↔ p ∈ s.waiting) ∧ s.arbitrationOrder.Pairwise (fun p q => (s.place q).precedence ≤ (s.place p).precedence)
    ∧ ∀ k, s.arbitrationOrder.filter (fun p => (s.place p).precedence == k) = base.filter fun p => (s.place p).precedence == k)
  -- what it may do, whatever the granted set is when it begins
  ∧ (∀ s : State,
    (s.holdOn = true → s.walk = s) ∧ (s.settings.stationTotal ≤ s.grantedSet.length → s.walk = s)
    ∧ (∀ p, s.granted p = true → s.walk.key p = s.key p)
    ∧ (∀ b, s.limit b ≤ s.countOnBand s.grantedSet b → s.walk.countOnBand s.walk.grantedSet b = s.countOnBand s.grantedSet b)
    ∧ ∀ p, s.granted p = false → s.walk.granted p = true → (s.key p).state = .queued ∧ ∃ g, (s.walk.key p).grant = some g
      ∧ s.band p = some g.band ∧ s.routeAntenna p = some g.antenna
      ∧ s.countOnBand s.grantedSet g.band < s.limit g.band ∧ s.walk.countOnBand s.walk.grantedSet g.band ≤ s.limit g.band
      ∧ s.walk.grantedSet.length ≤ s.settings.stationTotal ∧ apart s.walk p g.antenna)
  -- a granted set within the limits stays so, the first that fits is granted, and nobody who fits is left
  ∧ ∀ s : State,
    (∀ b, s.countOnBand s.grantedSet b ≤ s.limit b → s.walk.countOnBand s.walk.grantedSet b ≤ s.limit b)
    ∧ (s.grantedSet.length ≤ s.settings.stationTotal → s.walk.grantedSet.length ≤ s.settings.stationTotal)
    ∧ ((∀ p a, s.granted p = true → s.grantAntenna p = some a → apart s p a) →
      ∀ p a, s.walk.granted p = true → s.walk.grantAntenna p = some a → apart s.walk p a)
    ∧ (let fits := fun (u : State) (p : Pos) (b : Band) (a : Ant) => u.holdOn = false ∧ u.countOnBand u.grantedSet b < u.limit b
        ∧ u.grantedSet.length < u.settings.stationTotal ∧ apart u p a
      (∀ p b a, s.arbitrationOrder.head? = some p → (s.key p).state = .queued → s.band p = some b → s.routeAntenna p = some a → fits s p b a →
        s.walk.granted p = true ∧ (s.walk.key p).grant = some { band := b, antenna := a, sequence := s.grantCount + 1 })
      ∧ ∀ p b a, p ∈ s.waiting → (s.walk.key p).state = .queued → s.walk.band p = some b → s.walk.routeAntenna p = some a → ¬ fits s.walk p b a)

/-- A position that joins goes to the end of the waiting list as QUEUED, and the list is walked. If that leaves it waiting, with preempt on and HOLD off the victims are chosen: first those whose grant antenna is excluded with its route antenna, then on its band as many as bring the count below the limit, then one more where the total is still reached, each time the lowest precedence first and at equal precedence the most recent grant. If every victim's precedence is lower and the joiner fits without them, they are cut PREEMPTED in that order without a walk, the joiner is granted and the list is walked once; otherwise it waits and is reported QUEUED with its place. The victims of the first step are taken in position order: the model's choice (log 15). -/
def Obligations.JoinersServed : Prop :=
  (∀ (s : State) (p : Pos),
    let walked := ((s.setWaiting (s.waiting ++ [p])).onKey p fun k => { k with state := .queued, reported := false }).walk
    let waits := (walked.onKey p fun k => { k with reported := true }).report [p]
      (.keyQueued p (s.band p) (s.routeAntenna p) (walked.waiting.idxOf p + 1))
    ((walked.key p).state ≠ .queued → s.join p = walked)
    ∧ ((walked.key p).state = .queued → s.settings.preempt = false ∨ s.holdOn = true → s.join p = waits)
    ∧ ((walked.key p).state = .queued → s.settings.preempt = true → s.holdOn = false → ∀ b a, s.band p = some b → s.routeAntenna p = some a →
      let victims := walked.victims b a
      let left := walked.grantedSet.filter fun q => decide (q ∉ victims)
      let made := (∀ q ∈ victims, (s.place q).precedence < (s.place p).precedence) ∧ walked.countOnBand left b < s.limit b
        ∧ left.length < s.settings.stationTotal
        ∧ ∀ q ∈ left, ∀ x, walked.grantAntenna q = some x → (if x ≤ a then (x, a) else (a, x)) ∉ s.settings.exclusions
      (made → s.join p = ((forEach victims (fun q u => (u.endGrant q (if (u.key q).level then .blocked else .off)).report [q]
          (.keyCut q .preempted (u.key q).grant (some p))) walked).grant p).walk)
      ∧ (¬ made → s.join p = waits)))
  ∧ ∀ (s : State) (b : Band) (a : Ant),
    let age := fun q : Pos => (s.grantCount - ((s.key q).grant.map Grant.sequence).getD 0#32).toNat
    let before := fun q r : Pos => (s.place q).precedence < (s.place r).precedence ∨ ((s.place q).precedence = (s.place r).precedence ∧ age q ≤ age r)
    let first := s.grantedSet.filter fun q => (s.grantAntenna q).any fun x => s.settings.exclusions.contains (if x ≤ a then (x, a) else (a, x))
    let left := s.grantedSet.filter fun q => decide (q ∉ first)
    (∀ q, s.granted q = true → age q < 2147483648) →
      ∃ second third, s.victims b a = first ++ second ++ third
        ∧ second.length = min (s.countOnBand left b) (s.countOnBand left b + 1 - s.limit b) ∧ second.Nodup ∧ second.Pairwise before
        ∧ (∀ q ∈ second, q ∈ left ∧ s.grantBand q = some b ∧ ∀ r ∈ left, s.grantBand r = some b → r ∉ second → before q r)
        ∧ let rest := left.filter fun q => decide (q ∉ second)
          third.length = (if s.settings.stationTotal ≤ rest.length then min 1 rest.length else 0) ∧ ∀ q ∈ third, q ∈ rest ∧ ∀ r ∈ rest, before q r

/-! ### Tap Controller and Aux Output Unit -/

/-- LISTEN: the refusals and ALREADY in their order change nothing; DONE frees the slot held elsewhere and takes the lower empty slot; LISTEN on none frees the slot held. The answer is queued first, then TAP FREED and TAP TAKEN, cause LISTEN. -/
def Obligations.ListenTaken : Prop :=
  ∀ (port : Port) (tag : Byte) (p : Pos) (a : Ant) (s : State), s.Takes port → (port = 0 ∨ port = p.succ) →
    let c := Instr.listen port tag (posByte p) (antByte a)
    let held := (s.tap a).slot1 = some p ∨ (s.tap a).slot2 = some p
    let full := (∃ q, (s.tap a).slot1 = some q ∧ q ≠ p) ∧ ∃ q, (s.tap a).slot2 = some q ∧ q ≠ p
    ((s.ant a).service = .outOfService → exec c s = .next (s.answer port .listen tag .outOfService))
    ∧ ((s.ant a).service ≠ .outOfService → (s.ant a).owner = some p → exec c s = .next (s.answer port .listen tag .ownAntenna))
    ∧ ((s.ant a).service ≠ .outOfService → (s.ant a).owner ≠ some p → full → exec c s = .next (s.answer port .listen tag .tapsFull))
    ∧ ((s.ant a).service ≠ .outOfService → (s.ant a).owner ≠ some p → ¬ full → held → exec c s = .next (s.answer port .listen tag .already))
    ∧ ((s.ant a).service ≠ .outOfService → (s.ant a).owner ≠ some p → ¬ full → ¬ held → ∃ t, exec c s = .next t
        ∧ t = followAux s (((s.answer port .listen tag .done).stopListening p).takeSlot p a) ∧ t.listen p = some a
        ∧ t.links = (let answered := s.answer port .listen tag .done
            let second := (s.tap a).slot1.isSome
            let freed := match s.listen p with
              | none => answered
              | some x => if (s.tap x).slot1 = some p then answered.report [p] (.tap x false p .freed .listen)
                else if (s.tap x).slot2 = some p then answered.report [p] (.tap x true p .freed .listen) else answered
            freed.report [p] (.tap a second p .taken .listen)).links
        ∧ (if (s.tap a).slot1 = none then (t.tap a).slot1 = some p ∧ (t.tap a).slot2 = (s.tap a).slot2
            ∧ (t.tap a).closed1 = (!(s.tap a).keyed && !(s.ant a).presence)
           else (t.tap a).slot2 = some p ∧ (t.tap a).slot1 = (s.tap a).slot1 ∧ (t.tap a).closed2 = (!(s.tap a).keyed && !(s.ant a).presence))
        ∧ t = { s with taps := t.taps, listens := t.listens, links := t.links, auxLines := t.auxLines })
    ∧ (s.listen p = none → exec (.listen port tag (posByte p) 0#8) s = .next (s.answer port .listen tag .already))
    ∧ ∀ x second, s.listen p = some x → (s.tap x).slot second = some p → (second = true → (s.tap x).slot1 ≠ some p) → ∃ t,
        exec (.listen port tag (posByte p) 0#8) s = .next t
        ∧ t = followAux s ((s.answer port .listen tag .done).freeSlot x second .listen) ∧ t.listen p = none ∧ (t.tap x).slot second = none
        ∧ t.links = ((s.answer port .listen tag .done).report [p] (.tap x second p .freed .listen)).links
        ∧ t = { s with taps := t.taps, listens := t.listens, links := t.links, auxLines := t.auxLines }

/-- SET-AUX: ALREADY for the configuration held; DONE writes it and works the line out again at once. What each FIXED, POSITION, ANTENNA and STATION signal reads. The lines whose condition an event has moved take the value of the state at its end, and no other line changes: that a line is worked out again only where its condition's truth differs is the model's reading (log 24). At a flash edge the flashing lines with a true condition take the new phase, and no other line changes; that a flash edge commanded at another count changes nothing is the model's choice (log 3). -/
def Obligations.AuxFollows : Prop :=
  (∀ (tag : Byte) (l : Fin 8) (kind index signal : Byte) (source : AuxSource) (inv fl : Bool) (s : State), s.Takes 0 →
    auxSourceOf kind index signal = some source →
    let c := Instr.setAux 0 tag (byteOf (l.val + 1)) kind index signal (flagByte inv) (flagByte fl)
    let new : AuxConfig := { source := source, invert := inv, flash := fl }
    (new = s.settings.aux[l.val] → exec c s = .next (s.answer 0 .setAux tag .already))
    ∧ (new ≠ s.settings.aux[l.val] → ∃ t, exec c s = .next t ∧ t.settings = { s.settings with aux := s.settings.aux.set l.val new l.isLt }
        ∧ t.auxLine l = ((if fl then s.condition source && decide (s.timebase.toNat % 500 < 250) else s.condition source) != inv)
        ∧ (∀ m, m ≠ l → t.auxLine m = s.auxLine m)
        ∧ t = { s.answer 0 .setAux tag .done with settings := t.settings, auxLines := t.auxLines }))
  -- what a source reads, and the value of a line
  ∧ (∀ (s : State) (v : Bool), s.condition (.fixed v) = v)
  ∧ (∀ (s : State) (p : Pos),
    s.condition (.position p .txen) = s.txen p
    ∧ (s.condition (.position p .waiting) = true ↔ (s.key p).state = .pending ∨ (s.key p).state = .queued)
    ∧ (s.condition (.position p .routeActive) = true ↔ (s.seq p).state = .idle ∧ (s.seq p).current.antenna ≠ none)
    ∧ (s.condition (.position p .blocked) = true ↔ (s.key p).state = .blocked)
    ∧ s.condition (.position p .followOn) = (s.place p).follow)
  ∧ (∀ (s : State) (a : Ant),
    (s.condition (.antenna a .owned) = true ↔ (s.ant a).owner ≠ none)
    ∧ (s.condition (.antenna a .tripped) = true ↔ (s.ant a).service = .tripped)
    ∧ s.condition (.antenna a .rfPresent) = (s.ant a).presence
    ∧ (s.condition (.antenna a .claimed) = true ↔ s.claims a ≠ [])
    ∧ (s.condition (.antenna a .listened) = true ↔ (s.tap a).slot1 ≠ none ∨ (s.tap a).slot2 ≠ none))
  ∧ (∀ s : State,
    (s.condition (.station .anyTx) = true ↔ ∃ p, s.txen p = true)
    ∧ (s.condition (.station .noneGranted) = true ↔ ∀ p, (s.key p).state ≠ .opening ∧ (s.key p).state ≠ .on ∧ (s.key p).state ≠ .hang)
    ∧ (s.condition (.station .anyTripped) = true ↔ ∃ a, (s.ant a).service = .tripped)
    ∧ s.condition (.station .hold) = s.holdOn
    ∧ (s.condition (.station .anyWaiting) = true ↔ ∃ p, (s.key p).state = .pending ∨ (s.key p).state = .queued)
    ∧ (s.condition (.station .anyChanging) = true ↔ ∃ p, (s.seq p).state ≠ .idle))
  ∧ (∀ (s : State) (l : Fin 8), let c := s.auxConfig l
    s.lineValue l = ((if c.flash then s.condition c.source && decide (s.timebase.toNat % 500 < 250) else s.condition c.source) != c.invert))
  ∧ (∀ (s t : State) (l : Fin 8), (followAux s t).auxLine l
      = if s.condition (t.auxConfig l).source = t.condition (t.auxConfig l).source then t.auxLine l else t.lineValue l)
  ∧ (∀ s t : State, followAux s t = { t with auxLines := (followAux s t).auxLines })
  ∧ ∀ s : State, s.running = true → ∃ t, exec .flashEdge s = .next t ∧ t = { s with auxLines := t.auxLines }
      ∧ ∀ l, t.auxLine l = if s.timebase.toNat % 250 = 0 ∧ (s.auxConfig l).flash = true ∧ s.condition (s.auxConfig l).source = true then s.lineValue l
        else s.auxLine l

/-! ### The store, the supply and the RESET line -/

/-- SAVE takes a snapshot and a reserved place, for which the most recent report gives way with LOST set where the queue is full, or is answered STORE_BUSY; the end of its write makes the image the snapshot, or unusable, and answers in the reserved place. RESTART is answered STORE_BUSY, ALREADY or DONE, and DONE makes it pending. That SAVE_WRITE_END with no save in progress changes nothing is the model's choice (log 3). -/
def Obligations.StoreServes : Prop :=
  (∀ (tag : Byte) (s : State), s.Takes 0 →
    ((s.store.saving ≠ none ∨ s.store.restartPending = true) → exec (.save 0 tag) s = .next (s.answer 0 .save tag .storeBusy))
    ∧ (s.store.saving = none → s.store.restartPending = false → ∃ t, exec (.save 0 tag) s = .next t
        ∧ t.store = { s.store with saving := some { port := 0, tag := tag, snapshot := s.settings } }
        ∧ (t.link 0).reserved = true ∧ ((s.link 0).used < 16 → t.link 0 = { s.link 0 with reserved := true })
        ∧ (∀ before r behind, 16 ≤ (s.link 0).used → (s.link 0).queue = before ++ .report r :: behind → behind.any Record.isReport = false →
          t.link 0 = { s.link 0 with queue := before ++ behind, lost := true, reserved := true })
        ∧ t = { s with store := t.store, links := t.links } ∧ ∀ port, port ≠ 0 → t.link port = s.link port)
    ∧ (s.store.saving ≠ none → exec (.restart 0 tag) s = .next (s.answer 0 .restart tag .storeBusy))
    ∧ (s.store.saving = none → s.store.restartPending = true → exec (.restart 0 tag) s = .next (s.answer 0 .restart tag .already))
    ∧ (s.store.saving = none → s.store.restartPending = false → exec (.restart 0 tag) s
        = .next ((s.answer 0 .restart tag .done).onStore fun st => { st with restartPending := true })))
  ∧ ∀ (v : Bool) (s : State), s.running = true →
    (s.store.saving = none → exec (.saveWriteEnd v) s = .next s)
    ∧ ∀ job, s.store.saving = some job → exec (.saveWriteEnd v) s
      = .next (((s.onStore fun st => { st with image := if v then some job.snapshot else none, saving := none }).onLink job.port fun l => { l with reserved := false }).answer
        job.port .save job.tag (if v then .done else .storeFault))

/-- A start-up begins when the supply comes up with RESET high, when RESET returns high on a supplied part, and when the answer of a pending RESTART has been sent; every block takes its start values, whatever stood before. The model's choices and readings: a supply that comes up under a low RESET starts nothing until the release, and a release without supply moves the pin alone (log 21); POWER_ON on a supplied part and RESET_RELEASE on a high line change nothing (log 3); the START report is already in the transmitter (log 12). -/
def Obligations.StartUpsTaken : Prop :=
  ∀ s : State,
    (s.powered = false → s.resetIsLow = false → ∃ t, exec .powerOn s = .next t ∧ StartedUp .power s t)
    ∧ (s.powered = false → s.resetIsLow = true → exec .powerOn s = .next { s with powered := true })
    ∧ (s.powered = true → exec .powerOn s = .next s)
    ∧ (s.powered = true → s.resetIsLow = true → ∃ t, exec .resetRelease s = .next t ∧ StartedUp .line s t)
    ∧ (s.powered = false → s.resetIsLow = true → exec .resetRelease s = .next { s with resetIsLow := false })
    ∧ (s.resetIsLow = false → exec .resetRelease s = .next s)
    ∧ ∀ sent, s.running = true → (s.link 0).transmitter = some sent → s.store.restartPending = true → sent.record.isRestartDone = true →
        ∃ t, exec (.transmitComplete 0) s = .next t ∧ StartedUp .request s t

/-- RESET held low and the loss of the supply stop the part: every output off, every relay open, every line silent, an unfinished write's image unusable. While the part runs a matrix relay is closed exactly where the antenna's connected position names the position, the filter relays stand at the set filter, and a tap relay is closed where it is commanded closed. The model's choices and readings: what stands inside is kept until the start-up, and a RESET that falls without supply moves the pin alone (log 21); the relay outputs are worked out from the state and whether the part runs (log 22); RESET_LOW on a low line and POWER_LOST without supply change nothing (log 3). -/
def Obligations.PartStops : Prop :=
  ∀ s : State,
    (s.powered = true → s.resetIsLow = false → ∃ t, exec .resetLow s = .next t ∧ Stopped s t ∧ t.resetIsLow = true ∧ t.powered = true)
    ∧ (s.powered = false → s.resetIsLow = false → exec .resetLow s = .next { s with resetIsLow := true })
    ∧ (s.resetIsLow = true → exec .resetLow s = .next s)
    ∧ (s.powered = true → ∃ t, exec .powerLost s = .next t ∧ Stopped s t ∧ t.powered = false ∧ t.resetIsLow = s.resetIsLow)
    ∧ (s.powered = false → exec .powerLost s = .next s)
    ∧ (s.running = true → ∀ (p : Pos) (a : Ant), (s.matrixRelayClosed p a = true ↔ (s.ant a).connected = some p)
      ∧ s.filterRelay p = (s.seq p).setFilter ∧ s.tapRelayClosed a false = (s.tap a).closed1 ∧ s.tapRelayClosed a true = (s.tap a).closed2)

/-! ### Frames -/

/-- What the events of claims, routes and keys leave alone: the requests CLAIM, RELEASE, FORCE, FOLLOW and LISTEN and the events of claims and sequencers keep every record but owner and connected position, every decoder but the reference, and the settings but follow;
the key events keep owners, connected positions, claims, sequencers, listeners and all settings as well. -/
def Obligations.FramesKept : Prop :=
  (∀ (c : Instr) (s t : State), (match c with
      | .claim .. | .release .. | .force .. | .follow .. | .listen .. | .claimExpired .. | .breakEnd .. | .makeEnd .. | .rfHot .. => True
      | _ => False) → exec c s = .next t → CascadeFrame s t ∧ SameButFollow t.settings s.settings)
  ∧ ∀ (c : Instr) (s t : State), (match c with | .pttEdge .. | .tapGuardExpiry .. | .hangExpiry .. | .maxKeyExpiry .. => True | _ => False) →
      exec c s = .next t → ArbiterFrame s t ∧ t.settings = s.settings
end

