-- ==== Sys2Proof/Laws/State.lean ====
section
/-! SUPPORT. One lemma for each field and each update of State: an update leaves every other part as it was, and its own part is read back as written. -/

namespace Sys2Proof.Machine

/-! ### Vectors -/

theorem upd_same {α : Type} {n : Nat} (v : Vector α n) (i : Fin n) (f : α → α) : (upd v i f)[i.val] = f v[i.val] := by
  simp [upd]

theorem upd_other {α : Type} {n : Nat} (v : Vector α n) (i j : Fin n) (f : α → α) (h : j ≠ i) : (upd v i f)[j.val] = v[j.val] := by
  have : i.val ≠ j.val := fun e => h (Fin.ext e.symm)
  simp [upd, this]

/-! ### onSettings -/

@[simp] theorem onSettings_dec (s : State) (f : Settings → Settings) (x : Pos) : (s.onSettings f).dec x = s.dec x := rfl
@[simp] theorem onSettings_ant (s : State) (f : Settings → Settings) (x : Ant) : (s.onSettings f).ant x = s.ant x := rfl
@[simp] theorem onSettings_sensor (s : State) (f : Settings → Settings) (x : Ant) : (s.onSettings f).sensor x = s.sensor x := rfl
@[simp] theorem onSettings_quiet (s : State) (f : Settings → Settings) (x : Pos) : (s.onSettings f).quiet x = s.quiet x := rfl
@[simp] theorem onSettings_claims (s : State) (f : Settings → Settings) (x : Ant) : (s.onSettings f).claims x = s.claims x := rfl
@[simp] theorem onSettings_waitsOn (s : State) (f : Settings → Settings) (x : Pos) : (s.onSettings f).waitsOn x = s.waitsOn x := rfl
@[simp] theorem onSettings_seq (s : State) (f : Settings → Settings) (x : Pos) : (s.onSettings f).seq x = s.seq x := rfl
@[simp] theorem onSettings_key (s : State) (f : Settings → Settings) (x : Pos) : (s.onSettings f).key x = s.key x := rfl
@[simp] theorem onSettings_waiting (s : State) (f : Settings → Settings) : (s.onSettings f).waiting = s.waiting := rfl
@[simp] theorem onSettings_pointer (s : State) (f : Settings → Settings) : (s.onSettings f).pointer = s.pointer := rfl
@[simp] theorem onSettings_holdOn (s : State) (f : Settings → Settings) : (s.onSettings f).holdOn = s.holdOn := rfl
@[simp] theorem onSettings_grantCount (s : State) (f : Settings → Settings) : (s.onSettings f).grantCount = s.grantCount := rfl
@[simp] theorem onSettings_tap (s : State) (f : Settings → Settings) (x : Ant) : (s.onSettings f).tap x = s.tap x := rfl
@[simp] theorem onSettings_listen (s : State) (f : Settings → Settings) (x : Pos) : (s.onSettings f).listen x = s.listen x := rfl
@[simp] theorem onSettings_auxLine (s : State) (f : Settings → Settings) (x : Fin 8) : (s.onSettings f).auxLine x = s.auxLine x := rfl
@[simp] theorem onSettings_link (s : State) (f : Settings → Settings) (x : Port) : (s.onSettings f).link x = s.link x := rfl
@[simp] theorem onSettings_store (s : State) (f : Settings → Settings) : (s.onSettings f).store = s.store := rfl
@[simp] theorem onSettings_lines (s : State) (f : Settings → Settings) (x : Pos) : (s.onSettings f).lines x = s.lines x := rfl
@[simp] theorem onSettings_ptt (s : State) (f : Settings → Settings) (x : Pos) : (s.onSettings f).ptt x = s.ptt x := rfl
@[simp] theorem onSettings_coupler (s : State) (f : Settings → Settings) (x : Ant) : (s.onSettings f).coupler x = s.coupler x := rfl
@[simp] theorem onSettings_txen (s : State) (f : Settings → Settings) (x : Pos) : (s.onSettings f).txen x = s.txen x := rfl
@[simp] theorem onSettings_timebase (s : State) (f : Settings → Settings) : (s.onSettings f).timebase = s.timebase := rfl
@[simp] theorem onSettings_powered (s : State) (f : Settings → Settings) : (s.onSettings f).powered = s.powered := rfl
@[simp] theorem onSettings_resetIsLow (s : State) (f : Settings → Settings) : (s.onSettings f).resetIsLow = s.resetIsLow := rfl
@[simp] theorem onSettings_pending (s : State) (f : Settings → Settings) : (s.onSettings f).pending = s.pending := rfl
@[simp] theorem onSettings_same (s : State) (f : Settings → Settings) : (s.onSettings f).settings = f s.settings := rfl

/-! ### onDec -/

@[simp] theorem onDec_settings (s : State) (p : Pos) (f : Decoder → Decoder) : (s.onDec p f).settings = s.settings := rfl
@[simp] theorem onDec_ant (s : State) (p : Pos) (f : Decoder → Decoder) (x : Ant) : (s.onDec p f).ant x = s.ant x := rfl
@[simp] theorem onDec_sensor (s : State) (p : Pos) (f : Decoder → Decoder) (x : Ant) : (s.onDec p f).sensor x = s.sensor x := rfl
@[simp] theorem onDec_quiet (s : State) (p : Pos) (f : Decoder → Decoder) (x : Pos) : (s.onDec p f).quiet x = s.quiet x := rfl
@[simp] theorem onDec_claims (s : State) (p : Pos) (f : Decoder → Decoder) (x : Ant) : (s.onDec p f).claims x = s.claims x := rfl
@[simp] theorem onDec_waitsOn (s : State) (p : Pos) (f : Decoder → Decoder) (x : Pos) : (s.onDec p f).waitsOn x = s.waitsOn x := rfl
@[simp] theorem onDec_seq (s : State) (p : Pos) (f : Decoder → Decoder) (x : Pos) : (s.onDec p f).seq x = s.seq x := rfl
@[simp] theorem onDec_key (s : State) (p : Pos) (f : Decoder → Decoder) (x : Pos) : (s.onDec p f).key x = s.key x := rfl
@[simp] theorem onDec_waiting (s : State) (p : Pos) (f : Decoder → Decoder) : (s.onDec p f).waiting = s.waiting := rfl
@[simp] theorem onDec_pointer (s : State) (p : Pos) (f : Decoder → Decoder) : (s.onDec p f).pointer = s.pointer := rfl
@[simp] theorem onDec_holdOn (s : State) (p : Pos) (f : Decoder → Decoder) : (s.onDec p f).holdOn = s.holdOn := rfl
@[simp] theorem onDec_grantCount (s : State) (p : Pos) (f : Decoder → Decoder) : (s.onDec p f).grantCount = s.grantCount := rfl
@[simp] theorem onDec_tap (s : State) (p : Pos) (f : Decoder → Decoder) (x : Ant) : (s.onDec p f).tap x = s.tap x := rfl
@[simp] theorem onDec_listen (s : State) (p : Pos) (f : Decoder → Decoder) (x : Pos) : (s.onDec p f).listen x = s.listen x := rfl
@[simp] theorem onDec_auxLine (s : State) (p : Pos) (f : Decoder → Decoder) (x : Fin 8) : (s.onDec p f).auxLine x = s.auxLine x := rfl
@[simp] theorem onDec_link (s : State) (p : Pos) (f : Decoder → Decoder) (x : Port) : (s.onDec p f).link x = s.link x := rfl
@[simp] theorem onDec_store (s : State) (p : Pos) (f : Decoder → Decoder) : (s.onDec p f).store = s.store := rfl
@[simp] theorem onDec_lines (s : State) (p : Pos) (f : Decoder → Decoder) (x : Pos) : (s.onDec p f).lines x = s.lines x := rfl
@[simp] theorem onDec_ptt (s : State) (p : Pos) (f : Decoder → Decoder) (x : Pos) : (s.onDec p f).ptt x = s.ptt x := rfl
@[simp] theorem onDec_coupler (s : State) (p : Pos) (f : Decoder → Decoder) (x : Ant) : (s.onDec p f).coupler x = s.coupler x := rfl
@[simp] theorem onDec_txen (s : State) (p : Pos) (f : Decoder → Decoder) (x : Pos) : (s.onDec p f).txen x = s.txen x := rfl
@[simp] theorem onDec_timebase (s : State) (p : Pos) (f : Decoder → Decoder) : (s.onDec p f).timebase = s.timebase := rfl
@[simp] theorem onDec_powered (s : State) (p : Pos) (f : Decoder → Decoder) : (s.onDec p f).powered = s.powered := rfl
@[simp] theorem onDec_resetIsLow (s : State) (p : Pos) (f : Decoder → Decoder) : (s.onDec p f).resetIsLow = s.resetIsLow := rfl
@[simp] theorem onDec_pending (s : State) (p : Pos) (f : Decoder → Decoder) : (s.onDec p f).pending = s.pending := rfl
@[simp] theorem onDec_same (s : State) (p : Pos) (f : Decoder → Decoder) : (s.onDec p f).dec p = f (s.dec p) := upd_same _ _ _
theorem onDec_other (s : State) (p : Pos) (f : Decoder → Decoder) (x : Pos) (h : x ≠ p) : (s.onDec p f).dec x = s.dec x := upd_other _ _ _ _ h
theorem onDec_at (s : State) (p : Pos) (f : Decoder → Decoder) (x : Pos) : (s.onDec p f).dec x = if x = p then f (s.dec p) else s.dec x := by
  by_cases h : x = p
  · subst h; simp
  · simp [onDec_other, h]

/-! ### onAnt -/

@[simp] theorem onAnt_settings (s : State) (a : Ant) (f : AntennaRecord → AntennaRecord) : (s.onAnt a f).settings = s.settings := rfl
@[simp] theorem onAnt_dec (s : State) (a : Ant) (f : AntennaRecord → AntennaRecord) (x : Pos) : (s.onAnt a f).dec x = s.dec x := rfl
@[simp] theorem onAnt_sensor (s : State) (a : Ant) (f : AntennaRecord → AntennaRecord) (x : Ant) : (s.onAnt a f).sensor x = s.sensor x := rfl
@[simp] theorem onAnt_quiet (s : State) (a : Ant) (f : AntennaRecord → AntennaRecord) (x : Pos) : (s.onAnt a f).quiet x = s.quiet x := rfl
@[simp] theorem onAnt_claims (s : State) (a : Ant) (f : AntennaRecord → AntennaRecord) (x : Ant) : (s.onAnt a f).claims x = s.claims x := rfl
@[simp] theorem onAnt_waitsOn (s : State) (a : Ant) (f : AntennaRecord → AntennaRecord) (x : Pos) : (s.onAnt a f).waitsOn x = s.waitsOn x := rfl
@[simp] theorem onAnt_seq (s : State) (a : Ant) (f : AntennaRecord → AntennaRecord) (x : Pos) : (s.onAnt a f).seq x = s.seq x := rfl
@[simp] theorem onAnt_key (s : State) (a : Ant) (f : AntennaRecord → AntennaRecord) (x : Pos) : (s.onAnt a f).key x = s.key x := rfl
@[simp] theorem onAnt_waiting (s : State) (a : Ant) (f : AntennaRecord → AntennaRecord) : (s.onAnt a f).waiting = s.waiting := rfl
@[simp] theorem onAnt_pointer (s : State) (a : Ant) (f : AntennaRecord → AntennaRecord) : (s.onAnt a f).pointer = s.pointer := rfl
@[simp] theorem onAnt_holdOn (s : State) (a : Ant) (f : AntennaRecord → AntennaRecord) : (s.onAnt a f).holdOn = s.holdOn := rfl
@[simp] theorem onAnt_grantCount (s : State) (a : Ant) (f : AntennaRecord → AntennaRecord) : (s.onAnt a f).grantCount = s.grantCount := rfl
@[simp] theorem onAnt_tap (s : State) (a : Ant) (f : AntennaRecord → AntennaRecord) (x : Ant) : (s.onAnt a f).tap x = s.tap x := rfl
@[simp] theorem onAnt_listen (s : State) (a : Ant) (f : AntennaRecord → AntennaRecord) (x : Pos) : (s.onAnt a f).listen x = s.listen x := rfl
@[simp] theorem onAnt_auxLine (s : State) (a : Ant) (f : AntennaRecord → AntennaRecord) (x : Fin 8) : (s.onAnt a f).auxLine x = s.auxLine x := rfl
@[simp] theorem onAnt_link (s : State) (a : Ant) (f : AntennaRecord → AntennaRecord) (x : Port) : (s.onAnt a f).link x = s.link x := rfl
@[simp] theorem onAnt_store (s : State) (a : Ant) (f : AntennaRecord → AntennaRecord) : (s.onAnt a f).store = s.store := rfl
@[simp] theorem onAnt_lines (s : State) (a : Ant) (f : AntennaRecord → AntennaRecord) (x : Pos) : (s.onAnt a f).lines x = s.lines x := rfl
@[simp] theorem onAnt_ptt (s : State) (a : Ant) (f : AntennaRecord → AntennaRecord) (x : Pos) : (s.onAnt a f).ptt x = s.ptt x := rfl
@[simp] theorem onAnt_coupler (s : State) (a : Ant) (f : AntennaRecord → AntennaRecord) (x : Ant) : (s.onAnt a f).coupler x = s.coupler x := rfl
@[simp] theorem onAnt_txen (s : State) (a : Ant) (f : AntennaRecord → AntennaRecord) (x : Pos) : (s.onAnt a f).txen x = s.txen x := rfl
@[simp] theorem onAnt_timebase (s : State) (a : Ant) (f : AntennaRecord → AntennaRecord) : (s.onAnt a f).timebase = s.timebase := rfl
@[simp] theorem onAnt_powered (s : State) (a : Ant) (f : AntennaRecord → AntennaRecord) : (s.onAnt a f).powered = s.powered := rfl
@[simp] theorem onAnt_resetIsLow (s : State) (a : Ant) (f : AntennaRecord → AntennaRecord) : (s.onAnt a f).resetIsLow = s.resetIsLow := rfl
@[simp] theorem onAnt_pending (s : State) (a : Ant) (f : AntennaRecord → AntennaRecord) : (s.onAnt a f).pending = s.pending := rfl
@[simp] theorem onAnt_same (s : State) (a : Ant) (f : AntennaRecord → AntennaRecord) : (s.onAnt a f).ant a = f (s.ant a) := upd_same _ _ _
theorem onAnt_other (s : State) (a : Ant) (f : AntennaRecord → AntennaRecord) (x : Ant) (h : x ≠ a) : (s.onAnt a f).ant x = s.ant x := upd_other _ _ _ _ h
theorem onAnt_at (s : State) (a : Ant) (f : AntennaRecord → AntennaRecord) (x : Ant) : (s.onAnt a f).ant x = if x = a then f (s.ant a) else s.ant x := by
  by_cases h : x = a
  · subst h; simp
  · simp [onAnt_other, h]

/-! ### onSensor -/

@[simp] theorem onSensor_settings (s : State) (a : Ant) (f : SensorRecord → SensorRecord) : (s.onSensor a f).settings = s.settings := rfl
@[simp] theorem onSensor_dec (s : State) (a : Ant) (f : SensorRecord → SensorRecord) (x : Pos) : (s.onSensor a f).dec x = s.dec x := rfl
@[simp] theorem onSensor_ant (s : State) (a : Ant) (f : SensorRecord → SensorRecord) (x : Ant) : (s.onSensor a f).ant x = s.ant x := rfl
@[simp] theorem onSensor_quiet (s : State) (a : Ant) (f : SensorRecord → SensorRecord) (x : Pos) : (s.onSensor a f).quiet x = s.quiet x := rfl
@[simp] theorem onSensor_claims (s : State) (a : Ant) (f : SensorRecord → SensorRecord) (x : Ant) : (s.onSensor a f).claims x = s.claims x := rfl
@[simp] theorem onSensor_waitsOn (s : State) (a : Ant) (f : SensorRecord → SensorRecord) (x : Pos) : (s.onSensor a f).waitsOn x = s.waitsOn x := rfl
@[simp] theorem onSensor_seq (s : State) (a : Ant) (f : SensorRecord → SensorRecord) (x : Pos) : (s.onSensor a f).seq x = s.seq x := rfl
@[simp] theorem onSensor_key (s : State) (a : Ant) (f : SensorRecord → SensorRecord) (x : Pos) : (s.onSensor a f).key x = s.key x := rfl
@[simp] theorem onSensor_waiting (s : State) (a : Ant) (f : SensorRecord → SensorRecord) : (s.onSensor a f).waiting = s.waiting := rfl
@[simp] theorem onSensor_pointer (s : State) (a : Ant) (f : SensorRecord → SensorRecord) : (s.onSensor a f).pointer = s.pointer := rfl
@[simp] theorem onSensor_holdOn (s : State) (a : Ant) (f : SensorRecord → SensorRecord) : (s.onSensor a f).holdOn = s.holdOn := rfl
@[simp] theorem onSensor_grantCount (s : State) (a : Ant) (f : SensorRecord → SensorRecord) : (s.onSensor a f).grantCount = s.grantCount := rfl
@[simp] theorem onSensor_tap (s : State) (a : Ant) (f : SensorRecord → SensorRecord) (x : Ant) : (s.onSensor a f).tap x = s.tap x := rfl
@[simp] theorem onSensor_listen (s : State) (a : Ant) (f : SensorRecord → SensorRecord) (x : Pos) : (s.onSensor a f).listen x = s.listen x := rfl
@[simp] theorem onSensor_auxLine (s : State) (a : Ant) (f : SensorRecord → SensorRecord) (x : Fin 8) : (s.onSensor a f).auxLine x = s.auxLine x := rfl
@[simp] theorem onSensor_link (s : State) (a : Ant) (f : SensorRecord → SensorRecord) (x : Port) : (s.onSensor a f).link x = s.link x := rfl
@[simp] theorem onSensor_store (s : State) (a : Ant) (f : SensorRecord → SensorRecord) : (s.onSensor a f).store = s.store := rfl
@[simp] theorem onSensor_lines (s : State) (a : Ant) (f : SensorRecord → SensorRecord) (x : Pos) : (s.onSensor a f).lines x = s.lines x := rfl
@[simp] theorem onSensor_ptt (s : State) (a : Ant) (f : SensorRecord → SensorRecord) (x : Pos) : (s.onSensor a f).ptt x = s.ptt x := rfl
@[simp] theorem onSensor_coupler (s : State) (a : Ant) (f : SensorRecord → SensorRecord) (x : Ant) : (s.onSensor a f).coupler x = s.coupler x := rfl
@[simp] theorem onSensor_txen (s : State) (a : Ant) (f : SensorRecord → SensorRecord) (x : Pos) : (s.onSensor a f).txen x = s.txen x := rfl
@[simp] theorem onSensor_timebase (s : State) (a : Ant) (f : SensorRecord → SensorRecord) : (s.onSensor a f).timebase = s.timebase := rfl
@[simp] theorem onSensor_powered (s : State) (a : Ant) (f : SensorRecord → SensorRecord) : (s.onSensor a f).powered = s.powered := rfl
@[simp] theorem onSensor_resetIsLow (s : State) (a : Ant) (f : SensorRecord → SensorRecord) : (s.onSensor a f).resetIsLow = s.resetIsLow := rfl
@[simp] theorem onSensor_pending (s : State) (a : Ant) (f : SensorRecord → SensorRecord) : (s.onSensor a f).pending = s.pending := rfl
@[simp] theorem onSensor_same (s : State) (a : Ant) (f : SensorRecord → SensorRecord) : (s.onSensor a f).sensor a = f (s.sensor a) := upd_same _ _ _
theorem onSensor_other (s : State) (a : Ant) (f : SensorRecord → SensorRecord) (x : Ant) (h : x ≠ a) : (s.onSensor a f).sensor x = s.sensor x := upd_other _ _ _ _ h
theorem onSensor_at (s : State) (a : Ant) (f : SensorRecord → SensorRecord) (x : Ant) : (s.onSensor a f).sensor x = if x = a then f (s.sensor a) else s.sensor x := by
  by_cases h : x = a
  · subst h; simp
  · simp [onSensor_other, h]

/-! ### setQuiet -/

@[simp] theorem setQuiet_settings (s : State) (p : Pos) (v : Option Count) : (s.setQuiet p v).settings = s.settings := rfl
@[simp] theorem setQuiet_dec (s : State) (p : Pos) (v : Option Count) (x : Pos) : (s.setQuiet p v).dec x = s.dec x := rfl
@[simp] theorem setQuiet_ant (s : State) (p : Pos) (v : Option Count) (x : Ant) : (s.setQuiet p v).ant x = s.ant x := rfl
@[simp] theorem setQuiet_sensor (s : State) (p : Pos) (v : Option Count) (x : Ant) : (s.setQuiet p v).sensor x = s.sensor x := rfl
@[simp] theorem setQuiet_claims (s : State) (p : Pos) (v : Option Count) (x : Ant) : (s.setQuiet p v).claims x = s.claims x := rfl
@[simp] theorem setQuiet_waitsOn (s : State) (p : Pos) (v : Option Count) (x : Pos) : (s.setQuiet p v).waitsOn x = s.waitsOn x := rfl
@[simp] theorem setQuiet_seq (s : State) (p : Pos) (v : Option Count) (x : Pos) : (s.setQuiet p v).seq x = s.seq x := rfl
@[simp] theorem setQuiet_key (s : State) (p : Pos) (v : Option Count) (x : Pos) : (s.setQuiet p v).key x = s.key x := rfl
@[simp] theorem setQuiet_waiting (s : State) (p : Pos) (v : Option Count) : (s.setQuiet p v).waiting = s.waiting := rfl
@[simp] theorem setQuiet_pointer (s : State) (p : Pos) (v : Option Count) : (s.setQuiet p v).pointer = s.pointer := rfl
@[simp] theorem setQuiet_holdOn (s : State) (p : Pos) (v : Option Count) : (s.setQuiet p v).holdOn = s.holdOn := rfl
@[simp] theorem setQuiet_grantCount (s : State) (p : Pos) (v : Option Count) : (s.setQuiet p v).grantCount = s.grantCount := rfl
@[simp] theorem setQuiet_tap (s : State) (p : Pos) (v : Option Count) (x : Ant) : (s.setQuiet p v).tap x = s.tap x := rfl
@[simp] theorem setQuiet_listen (s : State) (p : Pos) (v : Option Count) (x : Pos) : (s.setQuiet p v).listen x = s.listen x := rfl
@[simp] theorem setQuiet_auxLine (s : State) (p : Pos) (v : Option Count) (x : Fin 8) : (s.setQuiet p v).auxLine x = s.auxLine x := rfl
@[simp] theorem setQuiet_link (s : State) (p : Pos) (v : Option Count) (x : Port) : (s.setQuiet p v).link x = s.link x := rfl
@[simp] theorem setQuiet_store (s : State) (p : Pos) (v : Option Count) : (s.setQuiet p v).store = s.store := rfl
@[simp] theorem setQuiet_lines (s : State) (p : Pos) (v : Option Count) (x : Pos) : (s.setQuiet p v).lines x = s.lines x := rfl
@[simp] theorem setQuiet_ptt (s : State) (p : Pos) (v : Option Count) (x : Pos) : (s.setQuiet p v).ptt x = s.ptt x := rfl
@[simp] theorem setQuiet_coupler (s : State) (p : Pos) (v : Option Count) (x : Ant) : (s.setQuiet p v).coupler x = s.coupler x := rfl
@[simp] theorem setQuiet_txen (s : State) (p : Pos) (v : Option Count) (x : Pos) : (s.setQuiet p v).txen x = s.txen x := rfl
@[simp] theorem setQuiet_timebase (s : State) (p : Pos) (v : Option Count) : (s.setQuiet p v).timebase = s.timebase := rfl
@[simp] theorem setQuiet_powered (s : State) (p : Pos) (v : Option Count) : (s.setQuiet p v).powered = s.powered := rfl
@[simp] theorem setQuiet_resetIsLow (s : State) (p : Pos) (v : Option Count) : (s.setQuiet p v).resetIsLow = s.resetIsLow := rfl
@[simp] theorem setQuiet_pending (s : State) (p : Pos) (v : Option Count) : (s.setQuiet p v).pending = s.pending := rfl
@[simp] theorem setQuiet_same (s : State) (p : Pos) (v : Option Count) : (s.setQuiet p v).quiet p = v := upd_same _ _ _
theorem setQuiet_other (s : State) (p : Pos) (v : Option Count) (x : Pos) (h : x ≠ p) : (s.setQuiet p v).quiet x = s.quiet x := upd_other _ _ _ _ h
theorem setQuiet_at (s : State) (p : Pos) (v : Option Count) (x : Pos) : (s.setQuiet p v).quiet x = if x = p then v else s.quiet x := by
  by_cases h : x = p
  · subst h; simp
  · simp [setQuiet_other, h]

/-! ### onClaims -/

@[simp] theorem onClaims_settings (s : State) (a : Ant) (f : List Claim → List Claim) : (s.onClaims a f).settings = s.settings := rfl
@[simp] theorem onClaims_dec (s : State) (a : Ant) (f : List Claim → List Claim) (x : Pos) : (s.onClaims a f).dec x = s.dec x := rfl
@[simp] theorem onClaims_ant (s : State) (a : Ant) (f : List Claim → List Claim) (x : Ant) : (s.onClaims a f).ant x = s.ant x := rfl
@[simp] theorem onClaims_sensor (s : State) (a : Ant) (f : List Claim → List Claim) (x : Ant) : (s.onClaims a f).sensor x = s.sensor x := rfl
@[simp] theorem onClaims_quiet (s : State) (a : Ant) (f : List Claim → List Claim) (x : Pos) : (s.onClaims a f).quiet x = s.quiet x := rfl
@[simp] theorem onClaims_waitsOn (s : State) (a : Ant) (f : List Claim → List Claim) (x : Pos) : (s.onClaims a f).waitsOn x = s.waitsOn x := rfl
@[simp] theorem onClaims_seq (s : State) (a : Ant) (f : List Claim → List Claim) (x : Pos) : (s.onClaims a f).seq x = s.seq x := rfl
@[simp] theorem onClaims_key (s : State) (a : Ant) (f : List Claim → List Claim) (x : Pos) : (s.onClaims a f).key x = s.key x := rfl
@[simp] theorem onClaims_waiting (s : State) (a : Ant) (f : List Claim → List Claim) : (s.onClaims a f).waiting = s.waiting := rfl
@[simp] theorem onClaims_pointer (s : State) (a : Ant) (f : List Claim → List Claim) : (s.onClaims a f).pointer = s.pointer := rfl
@[simp] theorem onClaims_holdOn (s : State) (a : Ant) (f : List Claim → List Claim) : (s.onClaims a f).holdOn = s.holdOn := rfl
@[simp] theorem onClaims_grantCount (s : State) (a : Ant) (f : List Claim → List Claim) : (s.onClaims a f).grantCount = s.grantCount := rfl
@[simp] theorem onClaims_tap (s : State) (a : Ant) (f : List Claim → List Claim) (x : Ant) : (s.onClaims a f).tap x = s.tap x := rfl
@[simp] theorem onClaims_listen (s : State) (a : Ant) (f : List Claim → List Claim) (x : Pos) : (s.onClaims a f).listen x = s.listen x := rfl
@[simp] theorem onClaims_auxLine (s : State) (a : Ant) (f : List Claim → List Claim) (x : Fin 8) : (s.onClaims a f).auxLine x = s.auxLine x := rfl
@[simp] theorem onClaims_link (s : State) (a : Ant) (f : List Claim → List Claim) (x : Port) : (s.onClaims a f).link x = s.link x := rfl
@[simp] theorem onClaims_store (s : State) (a : Ant) (f : List Claim → List Claim) : (s.onClaims a f).store = s.store := rfl
@[simp] theorem onClaims_lines (s : State) (a : Ant) (f : List Claim → List Claim) (x : Pos) : (s.onClaims a f).lines x = s.lines x := rfl
@[simp] theorem onClaims_ptt (s : State) (a : Ant) (f : List Claim → List Claim) (x : Pos) : (s.onClaims a f).ptt x = s.ptt x := rfl
@[simp] theorem onClaims_coupler (s : State) (a : Ant) (f : List Claim → List Claim) (x : Ant) : (s.onClaims a f).coupler x = s.coupler x := rfl
@[simp] theorem onClaims_txen (s : State) (a : Ant) (f : List Claim → List Claim) (x : Pos) : (s.onClaims a f).txen x = s.txen x := rfl
@[simp] theorem onClaims_timebase (s : State) (a : Ant) (f : List Claim → List Claim) : (s.onClaims a f).timebase = s.timebase := rfl
@[simp] theorem onClaims_powered (s : State) (a : Ant) (f : List Claim → List Claim) : (s.onClaims a f).powered = s.powered := rfl
@[simp] theorem onClaims_resetIsLow (s : State) (a : Ant) (f : List Claim → List Claim) : (s.onClaims a f).resetIsLow = s.resetIsLow := rfl
@[simp] theorem onClaims_pending (s : State) (a : Ant) (f : List Claim → List Claim) : (s.onClaims a f).pending = s.pending := rfl
@[simp] theorem onClaims_same (s : State) (a : Ant) (f : List Claim → List Claim) : (s.onClaims a f).claims a = f (s.claims a) := upd_same _ _ _
theorem onClaims_other (s : State) (a : Ant) (f : List Claim → List Claim) (x : Ant) (h : x ≠ a) : (s.onClaims a f).claims x = s.claims x := upd_other _ _ _ _ h
theorem onClaims_at (s : State) (a : Ant) (f : List Claim → List Claim) (x : Ant) : (s.onClaims a f).claims x = if x = a then f (s.claims a) else s.claims x := by
  by_cases h : x = a
  · subst h; simp
  · simp [onClaims_other, h]

/-! ### setWaitsOn -/

@[simp] theorem setWaitsOn_settings (s : State) (p : Pos) (v : Option Ant) : (s.setWaitsOn p v).settings = s.settings := rfl
@[simp] theorem setWaitsOn_dec (s : State) (p : Pos) (v : Option Ant) (x : Pos) : (s.setWaitsOn p v).dec x = s.dec x := rfl
@[simp] theorem setWaitsOn_ant (s : State) (p : Pos) (v : Option Ant) (x : Ant) : (s.setWaitsOn p v).ant x = s.ant x := rfl
@[simp] theorem setWaitsOn_sensor (s : State) (p : Pos) (v : Option Ant) (x : Ant) : (s.setWaitsOn p v).sensor x = s.sensor x := rfl
@[simp] theorem setWaitsOn_quiet (s : State) (p : Pos) (v : Option Ant) (x : Pos) : (s.setWaitsOn p v).quiet x = s.quiet x := rfl
@[simp] theorem setWaitsOn_claims (s : State) (p : Pos) (v : Option Ant) (x : Ant) : (s.setWaitsOn p v).claims x = s.claims x := rfl
@[simp] theorem setWaitsOn_seq (s : State) (p : Pos) (v : Option Ant) (x : Pos) : (s.setWaitsOn p v).seq x = s.seq x := rfl
@[simp] theorem setWaitsOn_key (s : State) (p : Pos) (v : Option Ant) (x : Pos) : (s.setWaitsOn p v).key x = s.key x := rfl
@[simp] theorem setWaitsOn_waiting (s : State) (p : Pos) (v : Option Ant) : (s.setWaitsOn p v).waiting = s.waiting := rfl
@[simp] theorem setWaitsOn_pointer (s : State) (p : Pos) (v : Option Ant) : (s.setWaitsOn p v).pointer = s.pointer := rfl
@[simp] theorem setWaitsOn_holdOn (s : State) (p : Pos) (v : Option Ant) : (s.setWaitsOn p v).holdOn = s.holdOn := rfl
@[simp] theorem setWaitsOn_grantCount (s : State) (p : Pos) (v : Option Ant) : (s.setWaitsOn p v).grantCount = s.grantCount := rfl
@[simp] theorem setWaitsOn_tap (s : State) (p : Pos) (v : Option Ant) (x : Ant) : (s.setWaitsOn p v).tap x = s.tap x := rfl
@[simp] theorem setWaitsOn_listen (s : State) (p : Pos) (v : Option Ant) (x : Pos) : (s.setWaitsOn p v).listen x = s.listen x := rfl
@[simp] theorem setWaitsOn_auxLine (s : State) (p : Pos) (v : Option Ant) (x : Fin 8) : (s.setWaitsOn p v).auxLine x = s.auxLine x := rfl
@[simp] theorem setWaitsOn_link (s : State) (p : Pos) (v : Option Ant) (x : Port) : (s.setWaitsOn p v).link x = s.link x := rfl
@[simp] theorem setWaitsOn_store (s : State) (p : Pos) (v : Option Ant) : (s.setWaitsOn p v).store = s.store := rfl
@[simp] theorem setWaitsOn_lines (s : State) (p : Pos) (v : Option Ant) (x : Pos) : (s.setWaitsOn p v).lines x = s.lines x := rfl
@[simp] theorem setWaitsOn_ptt (s : State) (p : Pos) (v : Option Ant) (x : Pos) : (s.setWaitsOn p v).ptt x = s.ptt x := rfl
@[simp] theorem setWaitsOn_coupler (s : State) (p : Pos) (v : Option Ant) (x : Ant) : (s.setWaitsOn p v).coupler x = s.coupler x := rfl
@[simp] theorem setWaitsOn_txen (s : State) (p : Pos) (v : Option Ant) (x : Pos) : (s.setWaitsOn p v).txen x = s.txen x := rfl
@[simp] theorem setWaitsOn_timebase (s : State) (p : Pos) (v : Option Ant) : (s.setWaitsOn p v).timebase = s.timebase := rfl
@[simp] theorem setWaitsOn_powered (s : State) (p : Pos) (v : Option Ant) : (s.setWaitsOn p v).powered = s.powered := rfl
@[simp] theorem setWaitsOn_resetIsLow (s : State) (p : Pos) (v : Option Ant) : (s.setWaitsOn p v).resetIsLow = s.resetIsLow := rfl
@[simp] theorem setWaitsOn_pending (s : State) (p : Pos) (v : Option Ant) : (s.setWaitsOn p v).pending = s.pending := rfl
@[simp] theorem setWaitsOn_same (s : State) (p : Pos) (v : Option Ant) : (s.setWaitsOn p v).waitsOn p = v := upd_same _ _ _
theorem setWaitsOn_other (s : State) (p : Pos) (v : Option Ant) (x : Pos) (h : x ≠ p) : (s.setWaitsOn p v).waitsOn x = s.waitsOn x := upd_other _ _ _ _ h
theorem setWaitsOn_at (s : State) (p : Pos) (v : Option Ant) (x : Pos) : (s.setWaitsOn p v).waitsOn x = if x = p then v else s.waitsOn x := by
  by_cases h : x = p
  · subst h; simp
  · simp [setWaitsOn_other, h]

/-! ### onSeq -/

@[simp] theorem onSeq_settings (s : State) (p : Pos) (f : Sequencer → Sequencer) : (s.onSeq p f).settings = s.settings := rfl
@[simp] theorem onSeq_dec (s : State) (p : Pos) (f : Sequencer → Sequencer) (x : Pos) : (s.onSeq p f).dec x = s.dec x := rfl
@[simp] theorem onSeq_ant (s : State) (p : Pos) (f : Sequencer → Sequencer) (x : Ant) : (s.onSeq p f).ant x = s.ant x := rfl
@[simp] theorem onSeq_sensor (s : State) (p : Pos) (f : Sequencer → Sequencer) (x : Ant) : (s.onSeq p f).sensor x = s.sensor x := rfl
@[simp] theorem onSeq_quiet (s : State) (p : Pos) (f : Sequencer → Sequencer) (x : Pos) : (s.onSeq p f).quiet x = s.quiet x := rfl
@[simp] theorem onSeq_claims (s : State) (p : Pos) (f : Sequencer → Sequencer) (x : Ant) : (s.onSeq p f).claims x = s.claims x := rfl
@[simp] theorem onSeq_waitsOn (s : State) (p : Pos) (f : Sequencer → Sequencer) (x : Pos) : (s.onSeq p f).waitsOn x = s.waitsOn x := rfl
@[simp] theorem onSeq_key (s : State) (p : Pos) (f : Sequencer → Sequencer) (x : Pos) : (s.onSeq p f).key x = s.key x := rfl
@[simp] theorem onSeq_waiting (s : State) (p : Pos) (f : Sequencer → Sequencer) : (s.onSeq p f).waiting = s.waiting := rfl
@[simp] theorem onSeq_pointer (s : State) (p : Pos) (f : Sequencer → Sequencer) : (s.onSeq p f).pointer = s.pointer := rfl
@[simp] theorem onSeq_holdOn (s : State) (p : Pos) (f : Sequencer → Sequencer) : (s.onSeq p f).holdOn = s.holdOn := rfl
@[simp] theorem onSeq_grantCount (s : State) (p : Pos) (f : Sequencer → Sequencer) : (s.onSeq p f).grantCount = s.grantCount := rfl
@[simp] theorem onSeq_tap (s : State) (p : Pos) (f : Sequencer → Sequencer) (x : Ant) : (s.onSeq p f).tap x = s.tap x := rfl
@[simp] theorem onSeq_listen (s : State) (p : Pos) (f : Sequencer → Sequencer) (x : Pos) : (s.onSeq p f).listen x = s.listen x := rfl
@[simp] theorem onSeq_auxLine (s : State) (p : Pos) (f : Sequencer → Sequencer) (x : Fin 8) : (s.onSeq p f).auxLine x = s.auxLine x := rfl
@[simp] theorem onSeq_link (s : State) (p : Pos) (f : Sequencer → Sequencer) (x : Port) : (s.onSeq p f).link x = s.link x := rfl
@[simp] theorem onSeq_store (s : State) (p : Pos) (f : Sequencer → Sequencer) : (s.onSeq p f).store = s.store := rfl
@[simp] theorem onSeq_lines (s : State) (p : Pos) (f : Sequencer → Sequencer) (x : Pos) : (s.onSeq p f).lines x = s.lines x := rfl
@[simp] theorem onSeq_ptt (s : State) (p : Pos) (f : Sequencer → Sequencer) (x : Pos) : (s.onSeq p f).ptt x = s.ptt x := rfl
@[simp] theorem onSeq_coupler (s : State) (p : Pos) (f : Sequencer → Sequencer) (x : Ant) : (s.onSeq p f).coupler x = s.coupler x := rfl
@[simp] theorem onSeq_txen (s : State) (p : Pos) (f : Sequencer → Sequencer) (x : Pos) : (s.onSeq p f).txen x = s.txen x := rfl
@[simp] theorem onSeq_timebase (s : State) (p : Pos) (f : Sequencer → Sequencer) : (s.onSeq p f).timebase = s.timebase := rfl
@[simp] theorem onSeq_powered (s : State) (p : Pos) (f : Sequencer → Sequencer) : (s.onSeq p f).powered = s.powered := rfl
@[simp] theorem onSeq_resetIsLow (s : State) (p : Pos) (f : Sequencer → Sequencer) : (s.onSeq p f).resetIsLow = s.resetIsLow := rfl
@[simp] theorem onSeq_pending (s : State) (p : Pos) (f : Sequencer → Sequencer) : (s.onSeq p f).pending = s.pending := rfl
@[simp] theorem onSeq_same (s : State) (p : Pos) (f : Sequencer → Sequencer) : (s.onSeq p f).seq p = f (s.seq p) := upd_same _ _ _
theorem onSeq_other (s : State) (p : Pos) (f : Sequencer → Sequencer) (x : Pos) (h : x ≠ p) : (s.onSeq p f).seq x = s.seq x := upd_other _ _ _ _ h
theorem onSeq_at (s : State) (p : Pos) (f : Sequencer → Sequencer) (x : Pos) : (s.onSeq p f).seq x = if x = p then f (s.seq p) else s.seq x := by
  by_cases h : x = p
  · subst h; simp
  · simp [onSeq_other, h]

/-! ### onKey -/

@[simp] theorem onKey_settings (s : State) (p : Pos) (f : KeyRecord → KeyRecord) : (s.onKey p f).settings = s.settings := rfl
@[simp] theorem onKey_dec (s : State) (p : Pos) (f : KeyRecord → KeyRecord) (x : Pos) : (s.onKey p f).dec x = s.dec x := rfl
@[simp] theorem onKey_ant (s : State) (p : Pos) (f : KeyRecord → KeyRecord) (x : Ant) : (s.onKey p f).ant x = s.ant x := rfl
@[simp] theorem onKey_sensor (s : State) (p : Pos) (f : KeyRecord → KeyRecord) (x : Ant) : (s.onKey p f).sensor x = s.sensor x := rfl
@[simp] theorem onKey_quiet (s : State) (p : Pos) (f : KeyRecord → KeyRecord) (x : Pos) : (s.onKey p f).quiet x = s.quiet x := rfl
@[simp] theorem onKey_claims (s : State) (p : Pos) (f : KeyRecord → KeyRecord) (x : Ant) : (s.onKey p f).claims x = s.claims x := rfl
@[simp] theorem onKey_waitsOn (s : State) (p : Pos) (f : KeyRecord → KeyRecord) (x : Pos) : (s.onKey p f).waitsOn x = s.waitsOn x := rfl
@[simp] theorem onKey_seq (s : State) (p : Pos) (f : KeyRecord → KeyRecord) (x : Pos) : (s.onKey p f).seq x = s.seq x := rfl
@[simp] theorem onKey_waiting (s : State) (p : Pos) (f : KeyRecord → KeyRecord) : (s.onKey p f).waiting = s.waiting := rfl
@[simp] theorem onKey_pointer (s : State) (p : Pos) (f : KeyRecord → KeyRecord) : (s.onKey p f).pointer = s.pointer := rfl
@[simp] theorem onKey_holdOn (s : State) (p : Pos) (f : KeyRecord → KeyRecord) : (s.onKey p f).holdOn = s.holdOn := rfl
@[simp] theorem onKey_grantCount (s : State) (p : Pos) (f : KeyRecord → KeyRecord) : (s.onKey p f).grantCount = s.grantCount := rfl
@[simp] theorem onKey_tap (s : State) (p : Pos) (f : KeyRecord → KeyRecord) (x : Ant) : (s.onKey p f).tap x = s.tap x := rfl
@[simp] theorem onKey_listen (s : State) (p : Pos) (f : KeyRecord → KeyRecord) (x : Pos) : (s.onKey p f).listen x = s.listen x := rfl
@[simp] theorem onKey_auxLine (s : State) (p : Pos) (f : KeyRecord → KeyRecord) (x : Fin 8) : (s.onKey p f).auxLine x = s.auxLine x := rfl
@[simp] theorem onKey_link (s : State) (p : Pos) (f : KeyRecord → KeyRecord) (x : Port) : (s.onKey p f).link x = s.link x := rfl
@[simp] theorem onKey_store (s : State) (p : Pos) (f : KeyRecord → KeyRecord) : (s.onKey p f).store = s.store := rfl
@[simp] theorem onKey_lines (s : State) (p : Pos) (f : KeyRecord → KeyRecord) (x : Pos) : (s.onKey p f).lines x = s.lines x := rfl
@[simp] theorem onKey_ptt (s : State) (p : Pos) (f : KeyRecord → KeyRecord) (x : Pos) : (s.onKey p f).ptt x = s.ptt x := rfl
@[simp] theorem onKey_coupler (s : State) (p : Pos) (f : KeyRecord → KeyRecord) (x : Ant) : (s.onKey p f).coupler x = s.coupler x := rfl
@[simp] theorem onKey_txen (s : State) (p : Pos) (f : KeyRecord → KeyRecord) (x : Pos) : (s.onKey p f).txen x = s.txen x := rfl
@[simp] theorem onKey_timebase (s : State) (p : Pos) (f : KeyRecord → KeyRecord) : (s.onKey p f).timebase = s.timebase := rfl
@[simp] theorem onKey_powered (s : State) (p : Pos) (f : KeyRecord → KeyRecord) : (s.onKey p f).powered = s.powered := rfl
@[simp] theorem onKey_resetIsLow (s : State) (p : Pos) (f : KeyRecord → KeyRecord) : (s.onKey p f).resetIsLow = s.resetIsLow := rfl
@[simp] theorem onKey_pending (s : State) (p : Pos) (f : KeyRecord → KeyRecord) : (s.onKey p f).pending = s.pending := rfl
@[simp] theorem onKey_same (s : State) (p : Pos) (f : KeyRecord → KeyRecord) : (s.onKey p f).key p = f (s.key p) := upd_same _ _ _
theorem onKey_other (s : State) (p : Pos) (f : KeyRecord → KeyRecord) (x : Pos) (h : x ≠ p) : (s.onKey p f).key x = s.key x := upd_other _ _ _ _ h
theorem onKey_at (s : State) (p : Pos) (f : KeyRecord → KeyRecord) (x : Pos) : (s.onKey p f).key x = if x = p then f (s.key p) else s.key x := by
  by_cases h : x = p
  · subst h; simp
  · simp [onKey_other, h]

/-! ### setWaiting -/

@[simp] theorem setWaiting_settings (s : State) (l : List Pos) : (s.setWaiting l).settings = s.settings := rfl
@[simp] theorem setWaiting_dec (s : State) (l : List Pos) (x : Pos) : (s.setWaiting l).dec x = s.dec x := rfl
@[simp] theorem setWaiting_ant (s : State) (l : List Pos) (x : Ant) : (s.setWaiting l).ant x = s.ant x := rfl
@[simp] theorem setWaiting_sensor (s : State) (l : List Pos) (x : Ant) : (s.setWaiting l).sensor x = s.sensor x := rfl
@[simp] theorem setWaiting_quiet (s : State) (l : List Pos) (x : Pos) : (s.setWaiting l).quiet x = s.quiet x := rfl
@[simp] theorem setWaiting_claims (s : State) (l : List Pos) (x : Ant) : (s.setWaiting l).claims x = s.claims x := rfl
@[simp] theorem setWaiting_waitsOn (s : State) (l : List Pos) (x : Pos) : (s.setWaiting l).waitsOn x = s.waitsOn x := rfl
@[simp] theorem setWaiting_seq (s : State) (l : List Pos) (x : Pos) : (s.setWaiting l).seq x = s.seq x := rfl
@[simp] theorem setWaiting_key (s : State) (l : List Pos) (x : Pos) : (s.setWaiting l).key x = s.key x := rfl
@[simp] theorem setWaiting_pointer (s : State) (l : List Pos) : (s.setWaiting l).pointer = s.pointer := rfl
@[simp] theorem setWaiting_holdOn (s : State) (l : List Pos) : (s.setWaiting l).holdOn = s.holdOn := rfl
@[simp] theorem setWaiting_grantCount (s : State) (l : List Pos) : (s.setWaiting l).grantCount = s.grantCount := rfl
@[simp] theorem setWaiting_tap (s : State) (l : List Pos) (x : Ant) : (s.setWaiting l).tap x = s.tap x := rfl
@[simp] theorem setWaiting_listen (s : State) (l : List Pos) (x : Pos) : (s.setWaiting l).listen x = s.listen x := rfl
@[simp] theorem setWaiting_auxLine (s : State) (l : List Pos) (x : Fin 8) : (s.setWaiting l).auxLine x = s.auxLine x := rfl
@[simp] theorem setWaiting_link (s : State) (l : List Pos) (x : Port) : (s.setWaiting l).link x = s.link x := rfl
@[simp] theorem setWaiting_store (s : State) (l : List Pos) : (s.setWaiting l).store = s.store := rfl
@[simp] theorem setWaiting_lines (s : State) (l : List Pos) (x : Pos) : (s.setWaiting l).lines x = s.lines x := rfl
@[simp] theorem setWaiting_ptt (s : State) (l : List Pos) (x : Pos) : (s.setWaiting l).ptt x = s.ptt x := rfl
@[simp] theorem setWaiting_coupler (s : State) (l : List Pos) (x : Ant) : (s.setWaiting l).coupler x = s.coupler x := rfl
@[simp] theorem setWaiting_txen (s : State) (l : List Pos) (x : Pos) : (s.setWaiting l).txen x = s.txen x := rfl
@[simp] theorem setWaiting_timebase (s : State) (l : List Pos) : (s.setWaiting l).timebase = s.timebase := rfl
@[simp] theorem setWaiting_powered (s : State) (l : List Pos) : (s.setWaiting l).powered = s.powered := rfl
@[simp] theorem setWaiting_resetIsLow (s : State) (l : List Pos) : (s.setWaiting l).resetIsLow = s.resetIsLow := rfl
@[simp] theorem setWaiting_pending (s : State) (l : List Pos) : (s.setWaiting l).pending = s.pending := rfl
@[simp] theorem setWaiting_same (s : State) (l : List Pos) : (s.setWaiting l).waiting = l := rfl

/-! ### setPointer -/

@[simp] theorem setPointer_settings (s : State) (p : Pos) : (s.setPointer p).settings = s.settings := rfl
@[simp] theorem setPointer_dec (s : State) (p : Pos) (x : Pos) : (s.setPointer p).dec x = s.dec x := rfl
@[simp] theorem setPointer_ant (s : State) (p : Pos) (x : Ant) : (s.setPointer p).ant x = s.ant x := rfl
@[simp] theorem setPointer_sensor (s : State) (p : Pos) (x : Ant) : (s.setPointer p).sensor x = s.sensor x := rfl
@[simp] theorem setPointer_quiet (s : State) (p : Pos) (x : Pos) : (s.setPointer p).quiet x = s.quiet x := rfl
@[simp] theorem setPointer_claims (s : State) (p : Pos) (x : Ant) : (s.setPointer p).claims x = s.claims x := rfl
@[simp] theorem setPointer_waitsOn (s : State) (p : Pos) (x : Pos) : (s.setPointer p).waitsOn x = s.waitsOn x := rfl
@[simp] theorem setPointer_seq (s : State) (p : Pos) (x : Pos) : (s.setPointer p).seq x = s.seq x := rfl
@[simp] theorem setPointer_key (s : State) (p : Pos) (x : Pos) : (s.setPointer p).key x = s.key x := rfl
@[simp] theorem setPointer_waiting (s : State) (p : Pos) : (s.setPointer p).waiting = s.waiting := rfl
@[simp] theorem setPointer_holdOn (s : State) (p : Pos) : (s.setPointer p).holdOn = s.holdOn := rfl
@[simp] theorem setPointer_grantCount (s : State) (p : Pos) : (s.setPointer p).grantCount = s.grantCount := rfl
@[simp] theorem setPointer_tap (s : State) (p : Pos) (x : Ant) : (s.setPointer p).tap x = s.tap x := rfl
@[simp] theorem setPointer_listen (s : State) (p : Pos) (x : Pos) : (s.setPointer p).listen x = s.listen x := rfl
@[simp] theorem setPointer_auxLine (s : State) (p : Pos) (x : Fin 8) : (s.setPointer p).auxLine x = s.auxLine x := rfl
@[simp] theorem setPointer_link (s : State) (p : Pos) (x : Port) : (s.setPointer p).link x = s.link x := rfl
@[simp] theorem setPointer_store (s : State) (p : Pos) : (s.setPointer p).store = s.store := rfl
@[simp] theorem setPointer_lines (s : State) (p : Pos) (x : Pos) : (s.setPointer p).lines x = s.lines x := rfl
@[simp] theorem setPointer_ptt (s : State) (p : Pos) (x : Pos) : (s.setPointer p).ptt x = s.ptt x := rfl
@[simp] theorem setPointer_coupler (s : State) (p : Pos) (x : Ant) : (s.setPointer p).coupler x = s.coupler x := rfl
@[simp] theorem setPointer_txen (s : State) (p : Pos) (x : Pos) : (s.setPointer p).txen x = s.txen x := rfl
@[simp] theorem setPointer_timebase (s : State) (p : Pos) : (s.setPointer p).timebase = s.timebase := rfl
@[simp] theorem setPointer_powered (s : State) (p : Pos) : (s.setPointer p).powered = s.powered := rfl
@[simp] theorem setPointer_resetIsLow (s : State) (p : Pos) : (s.setPointer p).resetIsLow = s.resetIsLow := rfl
@[simp] theorem setPointer_pending (s : State) (p : Pos) : (s.setPointer p).pending = s.pending := rfl
@[simp] theorem setPointer_same (s : State) (p : Pos) : (s.setPointer p).pointer = p := rfl

/-! ### setHold -/

@[simp] theorem setHold_settings (s : State) (b : Bool) : (s.setHold b).settings = s.settings := rfl
@[simp] theorem setHold_dec (s : State) (b : Bool) (x : Pos) : (s.setHold b).dec x = s.dec x := rfl
@[simp] theorem setHold_ant (s : State) (b : Bool) (x : Ant) : (s.setHold b).ant x = s.ant x := rfl
@[simp] theorem setHold_sensor (s : State) (b : Bool) (x : Ant) : (s.setHold b).sensor x = s.sensor x := rfl
@[simp] theorem setHold_quiet (s : State) (b : Bool) (x : Pos) : (s.setHold b).quiet x = s.quiet x := rfl
@[simp] theorem setHold_claims (s : State) (b : Bool) (x : Ant) : (s.setHold b).claims x = s.claims x := rfl
@[simp] theorem setHold_waitsOn (s : State) (b : Bool) (x : Pos) : (s.setHold b).waitsOn x = s.waitsOn x := rfl
@[simp] theorem setHold_seq (s : State) (b : Bool) (x : Pos) : (s.setHold b).seq x = s.seq x := rfl
@[simp] theorem setHold_key (s : State) (b : Bool) (x : Pos) : (s.setHold b).key x = s.key x := rfl
@[simp] theorem setHold_waiting (s : State) (b : Bool) : (s.setHold b).waiting = s.waiting := rfl
@[simp] theorem setHold_pointer (s : State) (b : Bool) : (s.setHold b).pointer = s.pointer := rfl
@[simp] theorem setHold_grantCount (s : State) (b : Bool) : (s.setHold b).grantCount = s.grantCount := rfl
@[simp] theorem setHold_tap (s : State) (b : Bool) (x : Ant) : (s.setHold b).tap x = s.tap x := rfl
@[simp] theorem setHold_listen (s : State) (b : Bool) (x : Pos) : (s.setHold b).listen x = s.listen x := rfl
@[simp] theorem setHold_auxLine (s : State) (b : Bool) (x : Fin 8) : (s.setHold b).auxLine x = s.auxLine x := rfl
@[simp] theorem setHold_link (s : State) (b : Bool) (x : Port) : (s.setHold b).link x = s.link x := rfl
@[simp] theorem setHold_store (s : State) (b : Bool) : (s.setHold b).store = s.store := rfl
@[simp] theorem setHold_lines (s : State) (b : Bool) (x : Pos) : (s.setHold b).lines x = s.lines x := rfl
@[simp] theorem setHold_ptt (s : State) (b : Bool) (x : Pos) : (s.setHold b).ptt x = s.ptt x := rfl
@[simp] theorem setHold_coupler (s : State) (b : Bool) (x : Ant) : (s.setHold b).coupler x = s.coupler x := rfl
@[simp] theorem setHold_txen (s : State) (b : Bool) (x : Pos) : (s.setHold b).txen x = s.txen x := rfl
@[simp] theorem setHold_timebase (s : State) (b : Bool) : (s.setHold b).timebase = s.timebase := rfl
@[simp] theorem setHold_powered (s : State) (b : Bool) : (s.setHold b).powered = s.powered := rfl
@[simp] theorem setHold_resetIsLow (s : State) (b : Bool) : (s.setHold b).resetIsLow = s.resetIsLow := rfl
@[simp] theorem setHold_pending (s : State) (b : Bool) : (s.setHold b).pending = s.pending := rfl
@[simp] theorem setHold_same (s : State) (b : Bool) : (s.setHold b).holdOn = b := rfl

/-! ### setGrantCount -/

@[simp] theorem setGrantCount_settings (s : State) (c : Count) : (s.setGrantCount c).settings = s.settings := rfl
@[simp] theorem setGrantCount_dec (s : State) (c : Count) (x : Pos) : (s.setGrantCount c).dec x = s.dec x := rfl
@[simp] theorem setGrantCount_ant (s : State) (c : Count) (x : Ant) : (s.setGrantCount c).ant x = s.ant x := rfl
@[simp] theorem setGrantCount_sensor (s : State) (c : Count) (x : Ant) : (s.setGrantCount c).sensor x = s.sensor x := rfl
@[simp] theorem setGrantCount_quiet (s : State) (c : Count) (x : Pos) : (s.setGrantCount c).quiet x = s.quiet x := rfl
@[simp] theorem setGrantCount_claims (s : State) (c : Count) (x : Ant) : (s.setGrantCount c).claims x = s.claims x := rfl
@[simp] theorem setGrantCount_waitsOn (s : State) (c : Count) (x : Pos) : (s.setGrantCount c).waitsOn x = s.waitsOn x := rfl
@[simp] theorem setGrantCount_seq (s : State) (c : Count) (x : Pos) : (s.setGrantCount c).seq x = s.seq x := rfl
@[simp] theorem setGrantCount_key (s : State) (c : Count) (x : Pos) : (s.setGrantCount c).key x = s.key x := rfl
@[simp] theorem setGrantCount_waiting (s : State) (c : Count) : (s.setGrantCount c).waiting = s.waiting := rfl
@[simp] theorem setGrantCount_pointer (s : State) (c : Count) : (s.setGrantCount c).pointer = s.pointer := rfl
@[simp] theorem setGrantCount_holdOn (s : State) (c : Count) : (s.setGrantCount c).holdOn = s.holdOn := rfl
@[simp] theorem setGrantCount_tap (s : State) (c : Count) (x : Ant) : (s.setGrantCount c).tap x = s.tap x := rfl
@[simp] theorem setGrantCount_listen (s : State) (c : Count) (x : Pos) : (s.setGrantCount c).listen x = s.listen x := rfl
@[simp] theorem setGrantCount_auxLine (s : State) (c : Count) (x : Fin 8) : (s.setGrantCount c).auxLine x = s.auxLine x := rfl
@[simp] theorem setGrantCount_link (s : State) (c : Count) (x : Port) : (s.setGrantCount c).link x = s.link x := rfl
@[simp] theorem setGrantCount_store (s : State) (c : Count) : (s.setGrantCount c).store = s.store := rfl
@[simp] theorem setGrantCount_lines (s : State) (c : Count) (x : Pos) : (s.setGrantCount c).lines x = s.lines x := rfl
@[simp] theorem setGrantCount_ptt (s : State) (c : Count) (x : Pos) : (s.setGrantCount c).ptt x = s.ptt x := rfl
@[simp] theorem setGrantCount_coupler (s : State) (c : Count) (x : Ant) : (s.setGrantCount c).coupler x = s.coupler x := rfl
@[simp] theorem setGrantCount_txen (s : State) (c : Count) (x : Pos) : (s.setGrantCount c).txen x = s.txen x := rfl
@[simp] theorem setGrantCount_timebase (s : State) (c : Count) : (s.setGrantCount c).timebase = s.timebase := rfl
@[simp] theorem setGrantCount_powered (s : State) (c : Count) : (s.setGrantCount c).powered = s.powered := rfl
@[simp] theorem setGrantCount_resetIsLow (s : State) (c : Count) : (s.setGrantCount c).resetIsLow = s.resetIsLow := rfl
@[simp] theorem setGrantCount_pending (s : State) (c : Count) : (s.setGrantCount c).pending = s.pending := rfl
@[simp] theorem setGrantCount_same (s : State) (c : Count) : (s.setGrantCount c).grantCount = c := rfl

/-! ### onTap -/

@[simp] theorem onTap_settings (s : State) (a : Ant) (f : TapRecord → TapRecord) : (s.onTap a f).settings = s.settings := rfl
@[simp] theorem onTap_dec (s : State) (a : Ant) (f : TapRecord → TapRecord) (x : Pos) : (s.onTap a f).dec x = s.dec x := rfl
@[simp] theorem onTap_ant (s : State) (a : Ant) (f : TapRecord → TapRecord) (x : Ant) : (s.onTap a f).ant x = s.ant x := rfl
@[simp] theorem onTap_sensor (s : State) (a : Ant) (f : TapRecord → TapRecord) (x : Ant) : (s.onTap a f).sensor x = s.sensor x := rfl
@[simp] theorem onTap_quiet (s : State) (a : Ant) (f : TapRecord → TapRecord) (x : Pos) : (s.onTap a f).quiet x = s.quiet x := rfl
@[simp] theorem onTap_claims (s : State) (a : Ant) (f : TapRecord → TapRecord) (x : Ant) : (s.onTap a f).claims x = s.claims x := rfl
@[simp] theorem onTap_waitsOn (s : State) (a : Ant) (f : TapRecord → TapRecord) (x : Pos) : (s.onTap a f).waitsOn x = s.waitsOn x := rfl
@[simp] theorem onTap_seq (s : State) (a : Ant) (f : TapRecord → TapRecord) (x : Pos) : (s.onTap a f).seq x = s.seq x := rfl
@[simp] theorem onTap_key (s : State) (a : Ant) (f : TapRecord → TapRecord) (x : Pos) : (s.onTap a f).key x = s.key x := rfl
@[simp] theorem onTap_waiting (s : State) (a : Ant) (f : TapRecord → TapRecord) : (s.onTap a f).waiting = s.waiting := rfl
@[simp] theorem onTap_pointer (s : State) (a : Ant) (f : TapRecord → TapRecord) : (s.onTap a f).pointer = s.pointer := rfl
@[simp] theorem onTap_holdOn (s : State) (a : Ant) (f : TapRecord → TapRecord) : (s.onTap a f).holdOn = s.holdOn := rfl
@[simp] theorem onTap_grantCount (s : State) (a : Ant) (f : TapRecord → TapRecord) : (s.onTap a f).grantCount = s.grantCount := rfl
@[simp] theorem onTap_listen (s : State) (a : Ant) (f : TapRecord → TapRecord) (x : Pos) : (s.onTap a f).listen x = s.listen x := rfl
@[simp] theorem onTap_auxLine (s : State) (a : Ant) (f : TapRecord → TapRecord) (x : Fin 8) : (s.onTap a f).auxLine x = s.auxLine x := rfl
@[simp] theorem onTap_link (s : State) (a : Ant) (f : TapRecord → TapRecord) (x : Port) : (s.onTap a f).link x = s.link x := rfl
@[simp] theorem onTap_store (s : State) (a : Ant) (f : TapRecord → TapRecord) : (s.onTap a f).store = s.store := rfl
@[simp] theorem onTap_lines (s : State) (a : Ant) (f : TapRecord → TapRecord) (x : Pos) : (s.onTap a f).lines x = s.lines x := rfl
@[simp] theorem onTap_ptt (s : State) (a : Ant) (f : TapRecord → TapRecord) (x : Pos) : (s.onTap a f).ptt x = s.ptt x := rfl
@[simp] theorem onTap_coupler (s : State) (a : Ant) (f : TapRecord → TapRecord) (x : Ant) : (s.onTap a f).coupler x = s.coupler x := rfl
@[simp] theorem onTap_txen (s : State) (a : Ant) (f : TapRecord → TapRecord) (x : Pos) : (s.onTap a f).txen x = s.txen x := rfl
@[simp] theorem onTap_timebase (s : State) (a : Ant) (f : TapRecord → TapRecord) : (s.onTap a f).timebase = s.timebase := rfl
@[simp] theorem onTap_powered (s : State) (a : Ant) (f : TapRecord → TapRecord) : (s.onTap a f).powered = s.powered := rfl
@[simp] theorem onTap_resetIsLow (s : State) (a : Ant) (f : TapRecord → TapRecord) : (s.onTap a f).resetIsLow = s.resetIsLow := rfl
@[simp] theorem onTap_pending (s : State) (a : Ant) (f : TapRecord → TapRecord) : (s.onTap a f).pending = s.pending := rfl
@[simp] theorem onTap_same (s : State) (a : Ant) (f : TapRecord → TapRecord) : (s.onTap a f).tap a = f (s.tap a) := upd_same _ _ _
theorem onTap_other (s : State) (a : Ant) (f : TapRecord → TapRecord) (x : Ant) (h : x ≠ a) : (s.onTap a f).tap x = s.tap x := upd_other _ _ _ _ h
theorem onTap_at (s : State) (a : Ant) (f : TapRecord → TapRecord) (x : Ant) : (s.onTap a f).tap x = if x = a then f (s.tap a) else s.tap x := by
  by_cases h : x = a
  · subst h; simp
  · simp [onTap_other, h]

/-! ### setListen -/

@[simp] theorem setListen_settings (s : State) (p : Pos) (v : Option Ant) : (s.setListen p v).settings = s.settings := rfl
@[simp] theorem setListen_dec (s : State) (p : Pos) (v : Option Ant) (x : Pos) : (s.setListen p v).dec x = s.dec x := rfl
@[simp] theorem setListen_ant (s : State) (p : Pos) (v : Option Ant) (x : Ant) : (s.setListen p v).ant x = s.ant x := rfl
@[simp] theorem setListen_sensor (s : State) (p : Pos) (v : Option Ant) (x : Ant) : (s.setListen p v).sensor x = s.sensor x := rfl
@[simp] theorem setListen_quiet (s : State) (p : Pos) (v : Option Ant) (x : Pos) : (s.setListen p v).quiet x = s.quiet x := rfl
@[simp] theorem setListen_claims (s : State) (p : Pos) (v : Option Ant) (x : Ant) : (s.setListen p v).claims x = s.claims x := rfl
@[simp] theorem setListen_waitsOn (s : State) (p : Pos) (v : Option Ant) (x : Pos) : (s.setListen p v).waitsOn x = s.waitsOn x := rfl
@[simp] theorem setListen_seq (s : State) (p : Pos) (v : Option Ant) (x : Pos) : (s.setListen p v).seq x = s.seq x := rfl
@[simp] theorem setListen_key (s : State) (p : Pos) (v : Option Ant) (x : Pos) : (s.setListen p v).key x = s.key x := rfl
@[simp] theorem setListen_waiting (s : State) (p : Pos) (v : Option Ant) : (s.setListen p v).waiting = s.waiting := rfl
@[simp] theorem setListen_pointer (s : State) (p : Pos) (v : Option Ant) : (s.setListen p v).pointer = s.pointer := rfl
@[simp] theorem setListen_holdOn (s : State) (p : Pos) (v : Option Ant) : (s.setListen p v).holdOn = s.holdOn := rfl
@[simp] theorem setListen_grantCount (s : State) (p : Pos) (v : Option Ant) : (s.setListen p v).grantCount = s.grantCount := rfl
@[simp] theorem setListen_tap (s : State) (p : Pos) (v : Option Ant) (x : Ant) : (s.setListen p v).tap x = s.tap x := rfl
@[simp] theorem setListen_auxLine (s : State) (p : Pos) (v : Option Ant) (x : Fin 8) : (s.setListen p v).auxLine x = s.auxLine x := rfl
@[simp] theorem setListen_link (s : State) (p : Pos) (v : Option Ant) (x : Port) : (s.setListen p v).link x = s.link x := rfl
@[simp] theorem setListen_store (s : State) (p : Pos) (v : Option Ant) : (s.setListen p v).store = s.store := rfl
@[simp] theorem setListen_lines (s : State) (p : Pos) (v : Option Ant) (x : Pos) : (s.setListen p v).lines x = s.lines x := rfl
@[simp] theorem setListen_ptt (s : State) (p : Pos) (v : Option Ant) (x : Pos) : (s.setListen p v).ptt x = s.ptt x := rfl
@[simp] theorem setListen_coupler (s : State) (p : Pos) (v : Option Ant) (x : Ant) : (s.setListen p v).coupler x = s.coupler x := rfl
@[simp] theorem setListen_txen (s : State) (p : Pos) (v : Option Ant) (x : Pos) : (s.setListen p v).txen x = s.txen x := rfl
@[simp] theorem setListen_timebase (s : State) (p : Pos) (v : Option Ant) : (s.setListen p v).timebase = s.timebase := rfl
@[simp] theorem setListen_powered (s : State) (p : Pos) (v : Option Ant) : (s.setListen p v).powered = s.powered := rfl
@[simp] theorem setListen_resetIsLow (s : State) (p : Pos) (v : Option Ant) : (s.setListen p v).resetIsLow = s.resetIsLow := rfl
@[simp] theorem setListen_pending (s : State) (p : Pos) (v : Option Ant) : (s.setListen p v).pending = s.pending := rfl
@[simp] theorem setListen_same (s : State) (p : Pos) (v : Option Ant) : (s.setListen p v).listen p = v := upd_same _ _ _
theorem setListen_other (s : State) (p : Pos) (v : Option Ant) (x : Pos) (h : x ≠ p) : (s.setListen p v).listen x = s.listen x := upd_other _ _ _ _ h
theorem setListen_at (s : State) (p : Pos) (v : Option Ant) (x : Pos) : (s.setListen p v).listen x = if x = p then v else s.listen x := by
  by_cases h : x = p
  · subst h; simp
  · simp [setListen_other, h]

/-! ### setAuxLine -/

@[simp] theorem setAuxLine_settings (s : State) (l : Fin 8) (b : Bool) : (s.setAuxLine l b).settings = s.settings := rfl
@[simp] theorem setAuxLine_dec (s : State) (l : Fin 8) (b : Bool) (x : Pos) : (s.setAuxLine l b).dec x = s.dec x := rfl
@[simp] theorem setAuxLine_ant (s : State) (l : Fin 8) (b : Bool) (x : Ant) : (s.setAuxLine l b).ant x = s.ant x := rfl
@[simp] theorem setAuxLine_sensor (s : State) (l : Fin 8) (b : Bool) (x : Ant) : (s.setAuxLine l b).sensor x = s.sensor x := rfl
@[simp] theorem setAuxLine_quiet (s : State) (l : Fin 8) (b : Bool) (x : Pos) : (s.setAuxLine l b).quiet x = s.quiet x := rfl
@[simp] theorem setAuxLine_claims (s : State) (l : Fin 8) (b : Bool) (x : Ant) : (s.setAuxLine l b).claims x = s.claims x := rfl
@[simp] theorem setAuxLine_waitsOn (s : State) (l : Fin 8) (b : Bool) (x : Pos) : (s.setAuxLine l b).waitsOn x = s.waitsOn x := rfl
@[simp] theorem setAuxLine_seq (s : State) (l : Fin 8) (b : Bool) (x : Pos) : (s.setAuxLine l b).seq x = s.seq x := rfl
@[simp] theorem setAuxLine_key (s : State) (l : Fin 8) (b : Bool) (x : Pos) : (s.setAuxLine l b).key x = s.key x := rfl
@[simp] theorem setAuxLine_waiting (s : State) (l : Fin 8) (b : Bool) : (s.setAuxLine l b).waiting = s.waiting := rfl
@[simp] theorem setAuxLine_pointer (s : State) (l : Fin 8) (b : Bool) : (s.setAuxLine l b).pointer = s.pointer := rfl
@[simp] theorem setAuxLine_holdOn (s : State) (l : Fin 8) (b : Bool) : (s.setAuxLine l b).holdOn = s.holdOn := rfl
@[simp] theorem setAuxLine_grantCount (s : State) (l : Fin 8) (b : Bool) : (s.setAuxLine l b).grantCount = s.grantCount := rfl
@[simp] theorem setAuxLine_tap (s : State) (l : Fin 8) (b : Bool) (x : Ant) : (s.setAuxLine l b).tap x = s.tap x := rfl
@[simp] theorem setAuxLine_listen (s : State) (l : Fin 8) (b : Bool) (x : Pos) : (s.setAuxLine l b).listen x = s.listen x := rfl
@[simp] theorem setAuxLine_link (s : State) (l : Fin 8) (b : Bool) (x : Port) : (s.setAuxLine l b).link x = s.link x := rfl
@[simp] theorem setAuxLine_store (s : State) (l : Fin 8) (b : Bool) : (s.setAuxLine l b).store = s.store := rfl
@[simp] theorem setAuxLine_lines (s : State) (l : Fin 8) (b : Bool) (x : Pos) : (s.setAuxLine l b).lines x = s.lines x := rfl
@[simp] theorem setAuxLine_ptt (s : State) (l : Fin 8) (b : Bool) (x : Pos) : (s.setAuxLine l b).ptt x = s.ptt x := rfl
@[simp] theorem setAuxLine_coupler (s : State) (l : Fin 8) (b : Bool) (x : Ant) : (s.setAuxLine l b).coupler x = s.coupler x := rfl
@[simp] theorem setAuxLine_txen (s : State) (l : Fin 8) (b : Bool) (x : Pos) : (s.setAuxLine l b).txen x = s.txen x := rfl
@[simp] theorem setAuxLine_timebase (s : State) (l : Fin 8) (b : Bool) : (s.setAuxLine l b).timebase = s.timebase := rfl
@[simp] theorem setAuxLine_powered (s : State) (l : Fin 8) (b : Bool) : (s.setAuxLine l b).powered = s.powered := rfl
@[simp] theorem setAuxLine_resetIsLow (s : State) (l : Fin 8) (b : Bool) : (s.setAuxLine l b).resetIsLow = s.resetIsLow := rfl
@[simp] theorem setAuxLine_pending (s : State) (l : Fin 8) (b : Bool) : (s.setAuxLine l b).pending = s.pending := rfl
@[simp] theorem setAuxLine_same (s : State) (l : Fin 8) (b : Bool) : (s.setAuxLine l b).auxLine l = b := upd_same _ _ _
theorem setAuxLine_other (s : State) (l : Fin 8) (b : Bool) (x : Fin 8) (h : x ≠ l) : (s.setAuxLine l b).auxLine x = s.auxLine x := upd_other _ _ _ _ h
theorem setAuxLine_at (s : State) (l : Fin 8) (b : Bool) (x : Fin 8) : (s.setAuxLine l b).auxLine x = if x = l then b else s.auxLine x := by
  by_cases h : x = l
  · subst h; simp
  · simp [setAuxLine_other, h]

/-! ### onLink -/

@[simp] theorem onLink_settings (s : State) (port : Port) (f : Link → Link) : (s.onLink port f).settings = s.settings := rfl
@[simp] theorem onLink_dec (s : State) (port : Port) (f : Link → Link) (x : Pos) : (s.onLink port f).dec x = s.dec x := rfl
@[simp] theorem onLink_ant (s : State) (port : Port) (f : Link → Link) (x : Ant) : (s.onLink port f).ant x = s.ant x := rfl
@[simp] theorem onLink_sensor (s : State) (port : Port) (f : Link → Link) (x : Ant) : (s.onLink port f).sensor x = s.sensor x := rfl
@[simp] theorem onLink_quiet (s : State) (port : Port) (f : Link → Link) (x : Pos) : (s.onLink port f).quiet x = s.quiet x := rfl
@[simp] theorem onLink_claims (s : State) (port : Port) (f : Link → Link) (x : Ant) : (s.onLink port f).claims x = s.claims x := rfl
@[simp] theorem onLink_waitsOn (s : State) (port : Port) (f : Link → Link) (x : Pos) : (s.onLink port f).waitsOn x = s.waitsOn x := rfl
@[simp] theorem onLink_seq (s : State) (port : Port) (f : Link → Link) (x : Pos) : (s.onLink port f).seq x = s.seq x := rfl
@[simp] theorem onLink_key (s : State) (port : Port) (f : Link → Link) (x : Pos) : (s.onLink port f).key x = s.key x := rfl
@[simp] theorem onLink_waiting (s : State) (port : Port) (f : Link → Link) : (s.onLink port f).waiting = s.waiting := rfl
@[simp] theorem onLink_pointer (s : State) (port : Port) (f : Link → Link) : (s.onLink port f).pointer = s.pointer := rfl
@[simp] theorem onLink_holdOn (s : State) (port : Port) (f : Link → Link) : (s.onLink port f).holdOn = s.holdOn := rfl
@[simp] theorem onLink_grantCount (s : State) (port : Port) (f : Link → Link) : (s.onLink port f).grantCount = s.grantCount := rfl
@[simp] theorem onLink_tap (s : State) (port : Port) (f : Link → Link) (x : Ant) : (s.onLink port f).tap x = s.tap x := rfl
@[simp] theorem onLink_listen (s : State) (port : Port) (f : Link → Link) (x : Pos) : (s.onLink port f).listen x = s.listen x := rfl
@[simp] theorem onLink_auxLine (s : State) (port : Port) (f : Link → Link) (x : Fin 8) : (s.onLink port f).auxLine x = s.auxLine x := rfl
@[simp] theorem onLink_store (s : State) (port : Port) (f : Link → Link) : (s.onLink port f).store = s.store := rfl
@[simp] theorem onLink_lines (s : State) (port : Port) (f : Link → Link) (x : Pos) : (s.onLink port f).lines x = s.lines x := rfl
@[simp] theorem onLink_ptt (s : State) (port : Port) (f : Link → Link) (x : Pos) : (s.onLink port f).ptt x = s.ptt x := rfl
@[simp] theorem onLink_coupler (s : State) (port : Port) (f : Link → Link) (x : Ant) : (s.onLink port f).coupler x = s.coupler x := rfl
@[simp] theorem onLink_txen (s : State) (port : Port) (f : Link → Link) (x : Pos) : (s.onLink port f).txen x = s.txen x := rfl
@[simp] theorem onLink_timebase (s : State) (port : Port) (f : Link → Link) : (s.onLink port f).timebase = s.timebase := rfl
@[simp] theorem onLink_powered (s : State) (port : Port) (f : Link → Link) : (s.onLink port f).powered = s.powered := rfl
@[simp] theorem onLink_resetIsLow (s : State) (port : Port) (f : Link → Link) : (s.onLink port f).resetIsLow = s.resetIsLow := rfl
@[simp] theorem onLink_pending (s : State) (port : Port) (f : Link → Link) : (s.onLink port f).pending = s.pending := rfl
@[simp] theorem onLink_same (s : State) (port : Port) (f : Link → Link) : (s.onLink port f).link port = f (s.link port) := upd_same _ _ _
theorem onLink_other (s : State) (port : Port) (f : Link → Link) (x : Port) (h : x ≠ port) : (s.onLink port f).link x = s.link x := upd_other _ _ _ _ h
theorem onLink_at (s : State) (port : Port) (f : Link → Link) (x : Port) : (s.onLink port f).link x = if x = port then f (s.link port) else s.link x := by
  by_cases h : x = port
  · subst h; simp
  · simp [onLink_other, h]

/-! ### onStore -/

@[simp] theorem onStore_settings (s : State) (f : Store → Store) : (s.onStore f).settings = s.settings := rfl
@[simp] theorem onStore_dec (s : State) (f : Store → Store) (x : Pos) : (s.onStore f).dec x = s.dec x := rfl
@[simp] theorem onStore_ant (s : State) (f : Store → Store) (x : Ant) : (s.onStore f).ant x = s.ant x := rfl
@[simp] theorem onStore_sensor (s : State) (f : Store → Store) (x : Ant) : (s.onStore f).sensor x = s.sensor x := rfl
@[simp] theorem onStore_quiet (s : State) (f : Store → Store) (x : Pos) : (s.onStore f).quiet x = s.quiet x := rfl
@[simp] theorem onStore_claims (s : State) (f : Store → Store) (x : Ant) : (s.onStore f).claims x = s.claims x := rfl
@[simp] theorem onStore_waitsOn (s : State) (f : Store → Store) (x : Pos) : (s.onStore f).waitsOn x = s.waitsOn x := rfl
@[simp] theorem onStore_seq (s : State) (f : Store → Store) (x : Pos) : (s.onStore f).seq x = s.seq x := rfl
@[simp] theorem onStore_key (s : State) (f : Store → Store) (x : Pos) : (s.onStore f).key x = s.key x := rfl
@[simp] theorem onStore_waiting (s : State) (f : Store → Store) : (s.onStore f).waiting = s.waiting := rfl
@[simp] theorem onStore_pointer (s : State) (f : Store → Store) : (s.onStore f).pointer = s.pointer := rfl
@[simp] theorem onStore_holdOn (s : State) (f : Store → Store) : (s.onStore f).holdOn = s.holdOn := rfl
@[simp] theorem onStore_grantCount (s : State) (f : Store → Store) : (s.onStore f).grantCount = s.grantCount := rfl
@[simp] theorem onStore_tap (s : State) (f : Store → Store) (x : Ant) : (s.onStore f).tap x = s.tap x := rfl
@[simp] theorem onStore_listen (s : State) (f : Store → Store) (x : Pos) : (s.onStore f).listen x = s.listen x := rfl
@[simp] theorem onStore_auxLine (s : State) (f : Store → Store) (x : Fin 8) : (s.onStore f).auxLine x = s.auxLine x := rfl
@[simp] theorem onStore_link (s : State) (f : Store → Store) (x : Port) : (s.onStore f).link x = s.link x := rfl
@[simp] theorem onStore_lines (s : State) (f : Store → Store) (x : Pos) : (s.onStore f).lines x = s.lines x := rfl
@[simp] theorem onStore_ptt (s : State) (f : Store → Store) (x : Pos) : (s.onStore f).ptt x = s.ptt x := rfl
@[simp] theorem onStore_coupler (s : State) (f : Store → Store) (x : Ant) : (s.onStore f).coupler x = s.coupler x := rfl
@[simp] theorem onStore_txen (s : State) (f : Store → Store) (x : Pos) : (s.onStore f).txen x = s.txen x := rfl
@[simp] theorem onStore_timebase (s : State) (f : Store → Store) : (s.onStore f).timebase = s.timebase := rfl
@[simp] theorem onStore_powered (s : State) (f : Store → Store) : (s.onStore f).powered = s.powered := rfl
@[simp] theorem onStore_resetIsLow (s : State) (f : Store → Store) : (s.onStore f).resetIsLow = s.resetIsLow := rfl
@[simp] theorem onStore_pending (s : State) (f : Store → Store) : (s.onStore f).pending = s.pending := rfl
@[simp] theorem onStore_same (s : State) (f : Store → Store) : (s.onStore f).store = f s.store := rfl

/-! ### setLines -/

@[simp] theorem setLines_settings (s : State) (p : Pos) (v : BitVec 4) : (s.setLines p v).settings = s.settings := rfl
@[simp] theorem setLines_dec (s : State) (p : Pos) (v : BitVec 4) (x : Pos) : (s.setLines p v).dec x = s.dec x := rfl
@[simp] theorem setLines_ant (s : State) (p : Pos) (v : BitVec 4) (x : Ant) : (s.setLines p v).ant x = s.ant x := rfl
@[simp] theorem setLines_sensor (s : State) (p : Pos) (v : BitVec 4) (x : Ant) : (s.setLines p v).sensor x = s.sensor x := rfl
@[simp] theorem setLines_quiet (s : State) (p : Pos) (v : BitVec 4) (x : Pos) : (s.setLines p v).quiet x = s.quiet x := rfl
@[simp] theorem setLines_claims (s : State) (p : Pos) (v : BitVec 4) (x : Ant) : (s.setLines p v).claims x = s.claims x := rfl
@[simp] theorem setLines_waitsOn (s : State) (p : Pos) (v : BitVec 4) (x : Pos) : (s.setLines p v).waitsOn x = s.waitsOn x := rfl
@[simp] theorem setLines_seq (s : State) (p : Pos) (v : BitVec 4) (x : Pos) : (s.setLines p v).seq x = s.seq x := rfl
@[simp] theorem setLines_key (s : State) (p : Pos) (v : BitVec 4) (x : Pos) : (s.setLines p v).key x = s.key x := rfl
@[simp] theorem setLines_waiting (s : State) (p : Pos) (v : BitVec 4) : (s.setLines p v).waiting = s.waiting := rfl
@[simp] theorem setLines_pointer (s : State) (p : Pos) (v : BitVec 4) : (s.setLines p v).pointer = s.pointer := rfl
@[simp] theorem setLines_holdOn (s : State) (p : Pos) (v : BitVec 4) : (s.setLines p v).holdOn = s.holdOn := rfl
@[simp] theorem setLines_grantCount (s : State) (p : Pos) (v : BitVec 4) : (s.setLines p v).grantCount = s.grantCount := rfl
@[simp] theorem setLines_tap (s : State) (p : Pos) (v : BitVec 4) (x : Ant) : (s.setLines p v).tap x = s.tap x := rfl
@[simp] theorem setLines_listen (s : State) (p : Pos) (v : BitVec 4) (x : Pos) : (s.setLines p v).listen x = s.listen x := rfl
@[simp] theorem setLines_auxLine (s : State) (p : Pos) (v : BitVec 4) (x : Fin 8) : (s.setLines p v).auxLine x = s.auxLine x := rfl
@[simp] theorem setLines_link (s : State) (p : Pos) (v : BitVec 4) (x : Port) : (s.setLines p v).link x = s.link x := rfl
@[simp] theorem setLines_store (s : State) (p : Pos) (v : BitVec 4) : (s.setLines p v).store = s.store := rfl
@[simp] theorem setLines_ptt (s : State) (p : Pos) (v : BitVec 4) (x : Pos) : (s.setLines p v).ptt x = s.ptt x := rfl
@[simp] theorem setLines_coupler (s : State) (p : Pos) (v : BitVec 4) (x : Ant) : (s.setLines p v).coupler x = s.coupler x := rfl
@[simp] theorem setLines_txen (s : State) (p : Pos) (v : BitVec 4) (x : Pos) : (s.setLines p v).txen x = s.txen x := rfl
@[simp] theorem setLines_timebase (s : State) (p : Pos) (v : BitVec 4) : (s.setLines p v).timebase = s.timebase := rfl
@[simp] theorem setLines_powered (s : State) (p : Pos) (v : BitVec 4) : (s.setLines p v).powered = s.powered := rfl
@[simp] theorem setLines_resetIsLow (s : State) (p : Pos) (v : BitVec 4) : (s.setLines p v).resetIsLow = s.resetIsLow := rfl
@[simp] theorem setLines_pending (s : State) (p : Pos) (v : BitVec 4) : (s.setLines p v).pending = s.pending := rfl
@[simp] theorem setLines_same (s : State) (p : Pos) (v : BitVec 4) : (s.setLines p v).lines p = v := upd_same _ _ _
theorem setLines_other (s : State) (p : Pos) (v : BitVec 4) (x : Pos) (h : x ≠ p) : (s.setLines p v).lines x = s.lines x := upd_other _ _ _ _ h
theorem setLines_at (s : State) (p : Pos) (v : BitVec 4) (x : Pos) : (s.setLines p v).lines x = if x = p then v else s.lines x := by
  by_cases h : x = p
  · subst h; simp
  · simp [setLines_other, h]

/-! ### setPtt -/

@[simp] theorem setPtt_settings (s : State) (p : Pos) (b : Bool) : (s.setPtt p b).settings = s.settings := rfl
@[simp] theorem setPtt_dec (s : State) (p : Pos) (b : Bool) (x : Pos) : (s.setPtt p b).dec x = s.dec x := rfl
@[simp] theorem setPtt_ant (s : State) (p : Pos) (b : Bool) (x : Ant) : (s.setPtt p b).ant x = s.ant x := rfl
@[simp] theorem setPtt_sensor (s : State) (p : Pos) (b : Bool) (x : Ant) : (s.setPtt p b).sensor x = s.sensor x := rfl
@[simp] theorem setPtt_quiet (s : State) (p : Pos) (b : Bool) (x : Pos) : (s.setPtt p b).quiet x = s.quiet x := rfl
@[simp] theorem setPtt_claims (s : State) (p : Pos) (b : Bool) (x : Ant) : (s.setPtt p b).claims x = s.claims x := rfl
@[simp] theorem setPtt_waitsOn (s : State) (p : Pos) (b : Bool) (x : Pos) : (s.setPtt p b).waitsOn x = s.waitsOn x := rfl
@[simp] theorem setPtt_seq (s : State) (p : Pos) (b : Bool) (x : Pos) : (s.setPtt p b).seq x = s.seq x := rfl
@[simp] theorem setPtt_key (s : State) (p : Pos) (b : Bool) (x : Pos) : (s.setPtt p b).key x = s.key x := rfl
@[simp] theorem setPtt_waiting (s : State) (p : Pos) (b : Bool) : (s.setPtt p b).waiting = s.waiting := rfl
@[simp] theorem setPtt_pointer (s : State) (p : Pos) (b : Bool) : (s.setPtt p b).pointer = s.pointer := rfl
@[simp] theorem setPtt_holdOn (s : State) (p : Pos) (b : Bool) : (s.setPtt p b).holdOn = s.holdOn := rfl
@[simp] theorem setPtt_grantCount (s : State) (p : Pos) (b : Bool) : (s.setPtt p b).grantCount = s.grantCount := rfl
@[simp] theorem setPtt_tap (s : State) (p : Pos) (b : Bool) (x : Ant) : (s.setPtt p b).tap x = s.tap x := rfl
@[simp] theorem setPtt_listen (s : State) (p : Pos) (b : Bool) (x : Pos) : (s.setPtt p b).listen x = s.listen x := rfl
@[simp] theorem setPtt_auxLine (s : State) (p : Pos) (b : Bool) (x : Fin 8) : (s.setPtt p b).auxLine x = s.auxLine x := rfl
@[simp] theorem setPtt_link (s : State) (p : Pos) (b : Bool) (x : Port) : (s.setPtt p b).link x = s.link x := rfl
@[simp] theorem setPtt_store (s : State) (p : Pos) (b : Bool) : (s.setPtt p b).store = s.store := rfl
@[simp] theorem setPtt_lines (s : State) (p : Pos) (b : Bool) (x : Pos) : (s.setPtt p b).lines x = s.lines x := rfl
@[simp] theorem setPtt_coupler (s : State) (p : Pos) (b : Bool) (x : Ant) : (s.setPtt p b).coupler x = s.coupler x := rfl
@[simp] theorem setPtt_txen (s : State) (p : Pos) (b : Bool) (x : Pos) : (s.setPtt p b).txen x = s.txen x := rfl
@[simp] theorem setPtt_timebase (s : State) (p : Pos) (b : Bool) : (s.setPtt p b).timebase = s.timebase := rfl
@[simp] theorem setPtt_powered (s : State) (p : Pos) (b : Bool) : (s.setPtt p b).powered = s.powered := rfl
@[simp] theorem setPtt_resetIsLow (s : State) (p : Pos) (b : Bool) : (s.setPtt p b).resetIsLow = s.resetIsLow := rfl
@[simp] theorem setPtt_pending (s : State) (p : Pos) (b : Bool) : (s.setPtt p b).pending = s.pending := rfl
@[simp] theorem setPtt_same (s : State) (p : Pos) (b : Bool) : (s.setPtt p b).ptt p = b := upd_same _ _ _
theorem setPtt_other (s : State) (p : Pos) (b : Bool) (x : Pos) (h : x ≠ p) : (s.setPtt p b).ptt x = s.ptt x := upd_other _ _ _ _ h
theorem setPtt_at (s : State) (p : Pos) (b : Bool) (x : Pos) : (s.setPtt p b).ptt x = if x = p then b else s.ptt x := by
  by_cases h : x = p
  · subst h; simp
  · simp [setPtt_other, h]

/-! ### setCoupler -/

@[simp] theorem setCoupler_settings (s : State) (a : Ant) (v : Nat × Nat) : (s.setCoupler a v).settings = s.settings := rfl
@[simp] theorem setCoupler_dec (s : State) (a : Ant) (v : Nat × Nat) (x : Pos) : (s.setCoupler a v).dec x = s.dec x := rfl
@[simp] theorem setCoupler_ant (s : State) (a : Ant) (v : Nat × Nat) (x : Ant) : (s.setCoupler a v).ant x = s.ant x := rfl
@[simp] theorem setCoupler_sensor (s : State) (a : Ant) (v : Nat × Nat) (x : Ant) : (s.setCoupler a v).sensor x = s.sensor x := rfl
@[simp] theorem setCoupler_quiet (s : State) (a : Ant) (v : Nat × Nat) (x : Pos) : (s.setCoupler a v).quiet x = s.quiet x := rfl
@[simp] theorem setCoupler_claims (s : State) (a : Ant) (v : Nat × Nat) (x : Ant) : (s.setCoupler a v).claims x = s.claims x := rfl
@[simp] theorem setCoupler_waitsOn (s : State) (a : Ant) (v : Nat × Nat) (x : Pos) : (s.setCoupler a v).waitsOn x = s.waitsOn x := rfl
@[simp] theorem setCoupler_seq (s : State) (a : Ant) (v : Nat × Nat) (x : Pos) : (s.setCoupler a v).seq x = s.seq x := rfl
@[simp] theorem setCoupler_key (s : State) (a : Ant) (v : Nat × Nat) (x : Pos) : (s.setCoupler a v).key x = s.key x := rfl
@[simp] theorem setCoupler_waiting (s : State) (a : Ant) (v : Nat × Nat) : (s.setCoupler a v).waiting = s.waiting := rfl
@[simp] theorem setCoupler_pointer (s : State) (a : Ant) (v : Nat × Nat) : (s.setCoupler a v).pointer = s.pointer := rfl
@[simp] theorem setCoupler_holdOn (s : State) (a : Ant) (v : Nat × Nat) : (s.setCoupler a v).holdOn = s.holdOn := rfl
@[simp] theorem setCoupler_grantCount (s : State) (a : Ant) (v : Nat × Nat) : (s.setCoupler a v).grantCount = s.grantCount := rfl
@[simp] theorem setCoupler_tap (s : State) (a : Ant) (v : Nat × Nat) (x : Ant) : (s.setCoupler a v).tap x = s.tap x := rfl
@[simp] theorem setCoupler_listen (s : State) (a : Ant) (v : Nat × Nat) (x : Pos) : (s.setCoupler a v).listen x = s.listen x := rfl
@[simp] theorem setCoupler_auxLine (s : State) (a : Ant) (v : Nat × Nat) (x : Fin 8) : (s.setCoupler a v).auxLine x = s.auxLine x := rfl
@[simp] theorem setCoupler_link (s : State) (a : Ant) (v : Nat × Nat) (x : Port) : (s.setCoupler a v).link x = s.link x := rfl
@[simp] theorem setCoupler_store (s : State) (a : Ant) (v : Nat × Nat) : (s.setCoupler a v).store = s.store := rfl
@[simp] theorem setCoupler_lines (s : State) (a : Ant) (v : Nat × Nat) (x : Pos) : (s.setCoupler a v).lines x = s.lines x := rfl
@[simp] theorem setCoupler_ptt (s : State) (a : Ant) (v : Nat × Nat) (x : Pos) : (s.setCoupler a v).ptt x = s.ptt x := rfl
@[simp] theorem setCoupler_txen (s : State) (a : Ant) (v : Nat × Nat) (x : Pos) : (s.setCoupler a v).txen x = s.txen x := rfl
@[simp] theorem setCoupler_timebase (s : State) (a : Ant) (v : Nat × Nat) : (s.setCoupler a v).timebase = s.timebase := rfl
@[simp] theorem setCoupler_powered (s : State) (a : Ant) (v : Nat × Nat) : (s.setCoupler a v).powered = s.powered := rfl
@[simp] theorem setCoupler_resetIsLow (s : State) (a : Ant) (v : Nat × Nat) : (s.setCoupler a v).resetIsLow = s.resetIsLow := rfl
@[simp] theorem setCoupler_pending (s : State) (a : Ant) (v : Nat × Nat) : (s.setCoupler a v).pending = s.pending := rfl
@[simp] theorem setCoupler_same (s : State) (a : Ant) (v : Nat × Nat) : (s.setCoupler a v).coupler a = v := upd_same _ _ _
theorem setCoupler_other (s : State) (a : Ant) (v : Nat × Nat) (x : Ant) (h : x ≠ a) : (s.setCoupler a v).coupler x = s.coupler x := upd_other _ _ _ _ h
theorem setCoupler_at (s : State) (a : Ant) (v : Nat × Nat) (x : Ant) : (s.setCoupler a v).coupler x = if x = a then v else s.coupler x := by
  by_cases h : x = a
  · subst h; simp
  · simp [setCoupler_other, h]

/-! ### setTxen -/

@[simp] theorem setTxen_settings (s : State) (p : Pos) (b : Bool) : (s.setTxen p b).settings = s.settings := rfl
@[simp] theorem setTxen_dec (s : State) (p : Pos) (b : Bool) (x : Pos) : (s.setTxen p b).dec x = s.dec x := rfl
@[simp] theorem setTxen_ant (s : State) (p : Pos) (b : Bool) (x : Ant) : (s.setTxen p b).ant x = s.ant x := rfl
@[simp] theorem setTxen_sensor (s : State) (p : Pos) (b : Bool) (x : Ant) : (s.setTxen p b).sensor x = s.sensor x := rfl
@[simp] theorem setTxen_quiet (s : State) (p : Pos) (b : Bool) (x : Pos) : (s.setTxen p b).quiet x = s.quiet x := rfl
@[simp] theorem setTxen_claims (s : State) (p : Pos) (b : Bool) (x : Ant) : (s.setTxen p b).claims x = s.claims x := rfl
@[simp] theorem setTxen_waitsOn (s : State) (p : Pos) (b : Bool) (x : Pos) : (s.setTxen p b).waitsOn x = s.waitsOn x := rfl
@[simp] theorem setTxen_seq (s : State) (p : Pos) (b : Bool) (x : Pos) : (s.setTxen p b).seq x = s.seq x := rfl
@[simp] theorem setTxen_key (s : State) (p : Pos) (b : Bool) (x : Pos) : (s.setTxen p b).key x = s.key x := rfl
@[simp] theorem setTxen_waiting (s : State) (p : Pos) (b : Bool) : (s.setTxen p b).waiting = s.waiting := rfl
@[simp] theorem setTxen_pointer (s : State) (p : Pos) (b : Bool) : (s.setTxen p b).pointer = s.pointer := rfl
@[simp] theorem setTxen_holdOn (s : State) (p : Pos) (b : Bool) : (s.setTxen p b).holdOn = s.holdOn := rfl
@[simp] theorem setTxen_grantCount (s : State) (p : Pos) (b : Bool) : (s.setTxen p b).grantCount = s.grantCount := rfl
@[simp] theorem setTxen_tap (s : State) (p : Pos) (b : Bool) (x : Ant) : (s.setTxen p b).tap x = s.tap x := rfl
@[simp] theorem setTxen_listen (s : State) (p : Pos) (b : Bool) (x : Pos) : (s.setTxen p b).listen x = s.listen x := rfl
@[simp] theorem setTxen_auxLine (s : State) (p : Pos) (b : Bool) (x : Fin 8) : (s.setTxen p b).auxLine x = s.auxLine x := rfl
@[simp] theorem setTxen_link (s : State) (p : Pos) (b : Bool) (x : Port) : (s.setTxen p b).link x = s.link x := rfl
@[simp] theorem setTxen_store (s : State) (p : Pos) (b : Bool) : (s.setTxen p b).store = s.store := rfl
@[simp] theorem setTxen_lines (s : State) (p : Pos) (b : Bool) (x : Pos) : (s.setTxen p b).lines x = s.lines x := rfl
@[simp] theorem setTxen_ptt (s : State) (p : Pos) (b : Bool) (x : Pos) : (s.setTxen p b).ptt x = s.ptt x := rfl
@[simp] theorem setTxen_coupler (s : State) (p : Pos) (b : Bool) (x : Ant) : (s.setTxen p b).coupler x = s.coupler x := rfl
@[simp] theorem setTxen_timebase (s : State) (p : Pos) (b : Bool) : (s.setTxen p b).timebase = s.timebase := rfl
@[simp] theorem setTxen_powered (s : State) (p : Pos) (b : Bool) : (s.setTxen p b).powered = s.powered := rfl
@[simp] theorem setTxen_resetIsLow (s : State) (p : Pos) (b : Bool) : (s.setTxen p b).resetIsLow = s.resetIsLow := rfl
@[simp] theorem setTxen_pending (s : State) (p : Pos) (b : Bool) : (s.setTxen p b).pending = s.pending := rfl
@[simp] theorem setTxen_same (s : State) (p : Pos) (b : Bool) : (s.setTxen p b).txen p = b := upd_same _ _ _
theorem setTxen_other (s : State) (p : Pos) (b : Bool) (x : Pos) (h : x ≠ p) : (s.setTxen p b).txen x = s.txen x := upd_other _ _ _ _ h
theorem setTxen_at (s : State) (p : Pos) (b : Bool) (x : Pos) : (s.setTxen p b).txen x = if x = p then b else s.txen x := by
  by_cases h : x = p
  · subst h; simp
  · simp [setTxen_other, h]

/-! ### setTimebase -/

@[simp] theorem setTimebase_settings (s : State) (c : Count) : (s.setTimebase c).settings = s.settings := rfl
@[simp] theorem setTimebase_dec (s : State) (c : Count) (x : Pos) : (s.setTimebase c).dec x = s.dec x := rfl
@[simp] theorem setTimebase_ant (s : State) (c : Count) (x : Ant) : (s.setTimebase c).ant x = s.ant x := rfl
@[simp] theorem setTimebase_sensor (s : State) (c : Count) (x : Ant) : (s.setTimebase c).sensor x = s.sensor x := rfl
@[simp] theorem setTimebase_quiet (s : State) (c : Count) (x : Pos) : (s.setTimebase c).quiet x = s.quiet x := rfl
@[simp] theorem setTimebase_claims (s : State) (c : Count) (x : Ant) : (s.setTimebase c).claims x = s.claims x := rfl
@[simp] theorem setTimebase_waitsOn (s : State) (c : Count) (x : Pos) : (s.setTimebase c).waitsOn x = s.waitsOn x := rfl
@[simp] theorem setTimebase_seq (s : State) (c : Count) (x : Pos) : (s.setTimebase c).seq x = s.seq x := rfl
@[simp] theorem setTimebase_key (s : State) (c : Count) (x : Pos) : (s.setTimebase c).key x = s.key x := rfl
@[simp] theorem setTimebase_waiting (s : State) (c : Count) : (s.setTimebase c).waiting = s.waiting := rfl
@[simp] theorem setTimebase_pointer (s : State) (c : Count) : (s.setTimebase c).pointer = s.pointer := rfl
@[simp] theorem setTimebase_holdOn (s : State) (c : Count) : (s.setTimebase c).holdOn = s.holdOn := rfl
@[simp] theorem setTimebase_grantCount (s : State) (c : Count) : (s.setTimebase c).grantCount = s.grantCount := rfl
@[simp] theorem setTimebase_tap (s : State) (c : Count) (x : Ant) : (s.setTimebase c).tap x = s.tap x := rfl
@[simp] theorem setTimebase_listen (s : State) (c : Count) (x : Pos) : (s.setTimebase c).listen x = s.listen x := rfl
@[simp] theorem setTimebase_auxLine (s : State) (c : Count) (x : Fin 8) : (s.setTimebase c).auxLine x = s.auxLine x := rfl
@[simp] theorem setTimebase_link (s : State) (c : Count) (x : Port) : (s.setTimebase c).link x = s.link x := rfl
@[simp] theorem setTimebase_store (s : State) (c : Count) : (s.setTimebase c).store = s.store := rfl
@[simp] theorem setTimebase_lines (s : State) (c : Count) (x : Pos) : (s.setTimebase c).lines x = s.lines x := rfl
@[simp] theorem setTimebase_ptt (s : State) (c : Count) (x : Pos) : (s.setTimebase c).ptt x = s.ptt x := rfl
@[simp] theorem setTimebase_coupler (s : State) (c : Count) (x : Ant) : (s.setTimebase c).coupler x = s.coupler x := rfl
@[simp] theorem setTimebase_txen (s : State) (c : Count) (x : Pos) : (s.setTimebase c).txen x = s.txen x := rfl
@[simp] theorem setTimebase_powered (s : State) (c : Count) : (s.setTimebase c).powered = s.powered := rfl
@[simp] theorem setTimebase_resetIsLow (s : State) (c : Count) : (s.setTimebase c).resetIsLow = s.resetIsLow := rfl
@[simp] theorem setTimebase_pending (s : State) (c : Count) : (s.setTimebase c).pending = s.pending := rfl
@[simp] theorem setTimebase_same (s : State) (c : Count) : (s.setTimebase c).timebase = c := rfl

/-! ### setPowered -/

@[simp] theorem setPowered_settings (s : State) (b : Bool) : (s.setPowered b).settings = s.settings := rfl
@[simp] theorem setPowered_dec (s : State) (b : Bool) (x : Pos) : (s.setPowered b).dec x = s.dec x := rfl
@[simp] theorem setPowered_ant (s : State) (b : Bool) (x : Ant) : (s.setPowered b).ant x = s.ant x := rfl
@[simp] theorem setPowered_sensor (s : State) (b : Bool) (x : Ant) : (s.setPowered b).sensor x = s.sensor x := rfl
@[simp] theorem setPowered_quiet (s : State) (b : Bool) (x : Pos) : (s.setPowered b).quiet x = s.quiet x := rfl
@[simp] theorem setPowered_claims (s : State) (b : Bool) (x : Ant) : (s.setPowered b).claims x = s.claims x := rfl
@[simp] theorem setPowered_waitsOn (s : State) (b : Bool) (x : Pos) : (s.setPowered b).waitsOn x = s.waitsOn x := rfl
@[simp] theorem setPowered_seq (s : State) (b : Bool) (x : Pos) : (s.setPowered b).seq x = s.seq x := rfl
@[simp] theorem setPowered_key (s : State) (b : Bool) (x : Pos) : (s.setPowered b).key x = s.key x := rfl
@[simp] theorem setPowered_waiting (s : State) (b : Bool) : (s.setPowered b).waiting = s.waiting := rfl
@[simp] theorem setPowered_pointer (s : State) (b : Bool) : (s.setPowered b).pointer = s.pointer := rfl
@[simp] theorem setPowered_holdOn (s : State) (b : Bool) : (s.setPowered b).holdOn = s.holdOn := rfl
@[simp] theorem setPowered_grantCount (s : State) (b : Bool) : (s.setPowered b).grantCount = s.grantCount := rfl
@[simp] theorem setPowered_tap (s : State) (b : Bool) (x : Ant) : (s.setPowered b).tap x = s.tap x := rfl
@[simp] theorem setPowered_listen (s : State) (b : Bool) (x : Pos) : (s.setPowered b).listen x = s.listen x := rfl
@[simp] theorem setPowered_auxLine (s : State) (b : Bool) (x : Fin 8) : (s.setPowered b).auxLine x = s.auxLine x := rfl
@[simp] theorem setPowered_link (s : State) (b : Bool) (x : Port) : (s.setPowered b).link x = s.link x := rfl
@[simp] theorem setPowered_store (s : State) (b : Bool) : (s.setPowered b).store = s.store := rfl
@[simp] theorem setPowered_lines (s : State) (b : Bool) (x : Pos) : (s.setPowered b).lines x = s.lines x := rfl
@[simp] theorem setPowered_ptt (s : State) (b : Bool) (x : Pos) : (s.setPowered b).ptt x = s.ptt x := rfl
@[simp] theorem setPowered_coupler (s : State) (b : Bool) (x : Ant) : (s.setPowered b).coupler x = s.coupler x := rfl
@[simp] theorem setPowered_txen (s : State) (b : Bool) (x : Pos) : (s.setPowered b).txen x = s.txen x := rfl
@[simp] theorem setPowered_timebase (s : State) (b : Bool) : (s.setPowered b).timebase = s.timebase := rfl
@[simp] theorem setPowered_resetIsLow (s : State) (b : Bool) : (s.setPowered b).resetIsLow = s.resetIsLow := rfl
@[simp] theorem setPowered_pending (s : State) (b : Bool) : (s.setPowered b).pending = s.pending := rfl
@[simp] theorem setPowered_same (s : State) (b : Bool) : (s.setPowered b).powered = b := rfl

/-! ### setReset -/

@[simp] theorem setReset_settings (s : State) (b : Bool) : (s.setReset b).settings = s.settings := rfl
@[simp] theorem setReset_dec (s : State) (b : Bool) (x : Pos) : (s.setReset b).dec x = s.dec x := rfl
@[simp] theorem setReset_ant (s : State) (b : Bool) (x : Ant) : (s.setReset b).ant x = s.ant x := rfl
@[simp] theorem setReset_sensor (s : State) (b : Bool) (x : Ant) : (s.setReset b).sensor x = s.sensor x := rfl
@[simp] theorem setReset_quiet (s : State) (b : Bool) (x : Pos) : (s.setReset b).quiet x = s.quiet x := rfl
@[simp] theorem setReset_claims (s : State) (b : Bool) (x : Ant) : (s.setReset b).claims x = s.claims x := rfl
@[simp] theorem setReset_waitsOn (s : State) (b : Bool) (x : Pos) : (s.setReset b).waitsOn x = s.waitsOn x := rfl
@[simp] theorem setReset_seq (s : State) (b : Bool) (x : Pos) : (s.setReset b).seq x = s.seq x := rfl
@[simp] theorem setReset_key (s : State) (b : Bool) (x : Pos) : (s.setReset b).key x = s.key x := rfl
@[simp] theorem setReset_waiting (s : State) (b : Bool) : (s.setReset b).waiting = s.waiting := rfl
@[simp] theorem setReset_pointer (s : State) (b : Bool) : (s.setReset b).pointer = s.pointer := rfl
@[simp] theorem setReset_holdOn (s : State) (b : Bool) : (s.setReset b).holdOn = s.holdOn := rfl
@[simp] theorem setReset_grantCount (s : State) (b : Bool) : (s.setReset b).grantCount = s.grantCount := rfl
@[simp] theorem setReset_tap (s : State) (b : Bool) (x : Ant) : (s.setReset b).tap x = s.tap x := rfl
@[simp] theorem setReset_listen (s : State) (b : Bool) (x : Pos) : (s.setReset b).listen x = s.listen x := rfl
@[simp] theorem setReset_auxLine (s : State) (b : Bool) (x : Fin 8) : (s.setReset b).auxLine x = s.auxLine x := rfl
@[simp] theorem setReset_link (s : State) (b : Bool) (x : Port) : (s.setReset b).link x = s.link x := rfl
@[simp] theorem setReset_store (s : State) (b : Bool) : (s.setReset b).store = s.store := rfl
@[simp] theorem setReset_lines (s : State) (b : Bool) (x : Pos) : (s.setReset b).lines x = s.lines x := rfl
@[simp] theorem setReset_ptt (s : State) (b : Bool) (x : Pos) : (s.setReset b).ptt x = s.ptt x := rfl
@[simp] theorem setReset_coupler (s : State) (b : Bool) (x : Ant) : (s.setReset b).coupler x = s.coupler x := rfl
@[simp] theorem setReset_txen (s : State) (b : Bool) (x : Pos) : (s.setReset b).txen x = s.txen x := rfl
@[simp] theorem setReset_timebase (s : State) (b : Bool) : (s.setReset b).timebase = s.timebase := rfl
@[simp] theorem setReset_powered (s : State) (b : Bool) : (s.setReset b).powered = s.powered := rfl
@[simp] theorem setReset_pending (s : State) (b : Bool) : (s.setReset b).pending = s.pending := rfl
@[simp] theorem setReset_same (s : State) (b : Bool) : (s.setReset b).resetIsLow = b := rfl

end Sys2Proof.Machine
end

