-- ==== Sys2Proof/Laws/Links.lean ====
section
/-! SUPPORT. What reports and answers do to the state: they touch the links alone, and a queue within its bound stays within it. -/

namespace Sys2Proof.Machine

/-! ### One link -/

/-- The second link comes from the first by reports pushed in order. -/
def Link.grows (l m : Link) : Prop := ∃ rs : List Report, m = rs.foldl Link.pushReport l

theorem Link.grows_refl (l : Link) : l.grows l := ⟨[], rfl⟩

theorem Link.grows_trans {l m n : Link} (h : l.grows m) (h' : m.grows n) : l.grows n := by
  obtain ⟨a, rfl⟩ := h
  obtain ⟨b, rfl⟩ := h'
  exact ⟨a ++ b, by simp⟩

theorem Link.grows_push (l : Link) (r : Report) : l.grows (l.pushReport r) := ⟨[r], rfl⟩

theorem Link.used_startSending (l : Link) : l.startSending.used ≤ l.used := by
  unfold Link.startSending
  split <;> simp_all [Link.used]

theorem Link.used_append (l : Link) (r : Record) : (l.append r).used ≤ l.used + 1 := by
  refine Nat.le_trans (Link.used_startSending _) ?_
  simp [Link.used]
  omega

theorem Link.used_pushReport (l : Link) (r : Report) (h : l.used ≤ Config.queuePlaces) : (l.pushReport r).used ≤ Config.queuePlaces := by
  unfold Link.pushReport
  split
  · exact h
  · rename_i hf
    have := Link.used_append l (.report r)
    simp [Link.full] at hf
    omega

theorem Link.used_grows {l m : Link} (g : l.grows m) (h : l.used ≤ Config.queuePlaces) : m.used ≤ Config.queuePlaces := by
  obtain ⟨rs, rfl⟩ := g
  induction rs generalizing l with
  | nil => exact h
  | cons r rs ih => exact ih (Link.used_pushReport l r h)

theorem dropLastReport_length (l m : List Record) (h : dropLastReport l = some m) : m.length + 1 = l.length := by
  induction l generalizing m with
  | nil => simp [dropLastReport] at h
  | cons r rest ih =>
    simp only [dropLastReport] at h
    split at h
    · rename_i rest' hr
      simp only [Option.some.injEq] at h
      subst h
      simp [ih rest' hr]
    · split at h
      · simp only [Option.some.injEq] at h
        subst h; simp
      · simp at h

theorem Link.used_makeRoom {l m : Link} (hm : l.makeRoom = some m) (h : l.used ≤ Config.queuePlaces) : m.used < Config.queuePlaces := by
  unfold Link.makeRoom at hm
  split at hm
  · rename_i hf
    simp only [Option.map_eq_some_iff] at hm
    obtain ⟨q, hq, rfl⟩ := hm
    have := dropLastReport_length _ _ hq
    simp [Link.used] at h ⊢
    omega
  · simp only [Option.some.injEq] at hm
    subst hm
    rename_i hf
    simp [Link.full] at hf
    omega

theorem Link.used_pushAnswer (l : Link) (a : Answer) (h : l.used ≤ Config.queuePlaces) : (l.pushAnswer a).used ≤ Config.queuePlaces := by
  unfold Link.pushAnswer
  split
  · rename_i m hm
    have := Link.used_makeRoom hm h
    have := Link.used_append m (.answer a)
    omega
  · exact h

/-! ### Reports and answers in the state -/

/-- A report touches the links alone, and each of them by reports pushed (R184). -/
theorem report_links (s : State) (consoles : List Pos) (body : ReportBody) :
    ∃ L : Vector Link 7, s.report consoles body = { s with links := L } ∧ ∀ port : Port, (s.link port).grows L[port.val] := by
  unfold State.report
  suffices h : ∀ (l : List Port) (u : State), (∃ L : Vector Link 7, u = { s with links := L } ∧ ∀ port : Port, (s.link port).grows L[port.val]) →
      ∃ L : Vector Link 7, forEach l (fun port s => s.onLink port fun l => l.pushReport { body := body, time := s.timebase }) u
        = { s with links := L } ∧ ∀ port : Port, (s.link port).grows L[port.val] from
    h _ s ⟨s.links, rfl, fun port => Link.grows_refl _⟩
  intro l
  induction l with
  | nil => exact fun u h => h
  | cons port rest ih =>
    intro u h
    refine ih _ ?_
    obtain ⟨L, rfl, hL⟩ := h
    refine ⟨upd L port fun l => l.pushReport { body := body, time := s.timebase }, rfl, fun q => ?_⟩
    by_cases hq : q = port
    · subst hq
      rw [upd_same]
      exact Link.grows_trans (hL q) (Link.grows_push _ _)
    · rw [upd_other _ _ _ _ hq]
      exact hL q

/-- An answer touches the link of its port alone (R181). -/
theorem answerRaw_eq (s : State) (port : Port) (type tag : Byte) (result : Result) (data : AnswerData) :
    s.answerRaw port type tag result data =
      s.onLink port fun l => l.pushAnswer { type := answerType type, tag := tag, result := result, data := data } := rfl

end Sys2Proof.Machine
end

