-- ==== Sys2Proof/Laws/Frames.lean ====
section
/-! SUPPORT. What an operation of the Transmit Arbiter may do: a frame that composes, with the invariants of the keys that it keeps. -/

namespace Sys2Proof.Machine

/-- The invariants of the keys of a running part, taken together (R121, R126, R127, R142, R154). -/
structure KeyInv (s : State) : Prop where
  txen : ∀ p, s.txen p = (s.key p).state.transmits
  taps : TapsCommanded s
  hold : HoldSilent s
  grants : GrantsRecorded s
  waiting : WaitingExact s

/-- A position is QUEUED or granted. -/
def State.busy (s : State) (p : Pos) : Prop := (s.key p).state = .queued ∨ s.granted p = true

/-- The parts of the state that no operation of the arbiter touches. -/
structure ArbEq (s t : State) : Prop where
  powered : t.powered = s.powered
  resetIsLow : t.resetIsLow = s.resetIsLow
  timebase : t.timebase = s.timebase
  pending : t.pending = s.pending
  auxLines : t.auxLines = s.auxLines
  lineInputs : t.lineInputs = s.lineInputs
  pttInputs : t.pttInputs = s.pttInputs
  couplers : t.couplers = s.couplers
  sensors : t.sensors = s.sensors
  store : t.store = s.store
  settings : t.settings = s.settings
  antennas : t.antennas = s.antennas
  claimQueues : t.claimQueues = s.claimQueues
  claimPointers : t.claimPointers = s.claimPointers
  listens : t.listens = s.listens
  sequencers : t.sequencers = s.sequencers
  holdOn : t.holdOn = s.holdOn

theorem ArbEq.refl (s : State) : ArbEq s s := by constructor <;> rfl

theorem ArbEq.trans {s t u : State} (h : ArbEq s t) (k : ArbEq t u) : ArbEq s u :=
  ⟨k.powered.trans h.powered, k.resetIsLow.trans h.resetIsLow, k.timebase.trans h.timebase, k.pending.trans h.pending, k.auxLines.trans h.auxLines, k.lineInputs.trans h.lineInputs, k.pttInputs.trans h.pttInputs, k.couplers.trans h.couplers, k.sensors.trans h.sensors, k.store.trans h.store, k.settings.trans h.settings, k.antennas.trans h.antennas, k.claimQueues.trans h.claimQueues, k.claimPointers.trans h.claimPointers, k.listens.trans h.listens, k.sequencers.trans h.sequencers, k.holdOn.trans h.holdOn⟩

theorem ArbEq.onKey {s t : State} (h : ArbEq s t) (p : Pos) (f : KeyRecord → KeyRecord) : ArbEq s (t.onKey p f) := h.trans (by constructor <;> rfl)
theorem ArbEq.setWaiting {s t : State} (h : ArbEq s t) (l : List Pos) : ArbEq s (t.setWaiting l) := h.trans (by constructor <;> rfl)
theorem ArbEq.setPointer {s t : State} (h : ArbEq s t) (p : Pos) : ArbEq s (t.setPointer p) := h.trans (by constructor <;> rfl)
theorem ArbEq.setGrantCount {s t : State} (h : ArbEq s t) (c : Count) : ArbEq s (t.setGrantCount c) := h.trans (by constructor <;> rfl)
theorem ArbEq.onDec {s t : State} (h : ArbEq s t) (p : Pos) (f : Decoder → Decoder) : ArbEq s (t.onDec p f) := h.trans (by constructor <;> rfl)
theorem ArbEq.setQuiet {s t : State} (h : ArbEq s t) (p : Pos) (v : Option Count) : ArbEq s (t.setQuiet p v) := h.trans (by constructor <;> rfl)
theorem ArbEq.onTap {s t : State} (h : ArbEq s t) (a : Ant) (f : TapRecord → TapRecord) : ArbEq s (t.onTap a f) := h.trans (by constructor <;> rfl)
theorem ArbEq.setTxen {s t : State} (h : ArbEq s t) (p : Pos) (b : Bool) : ArbEq s (t.setTxen p b) := h.trans (by constructor <;> rfl)
theorem ArbEq.onLink {s t : State} (h : ArbEq s t) (port : Port) (f : Link → Link) : ArbEq s (t.onLink port f) := h.trans (by constructor <;> rfl)

/-- What an operation of the arbiter may do: the keys, the waiting list, the pointer, the keyed indications and the tap commands, the keyed references, the quiet-since stamps, TXEN and the links; nothing else. -/
structure ArbFrame (s t : State) : Prop extends ArbEq s t where
  dec : ∀ p, ∃ v, t.dec p = { s.dec p with reference := v }
  key : ∀ p, (t.key p).level = (s.key p).level ∧ (t.key p).filter = (s.key p).filter
  slots : ∀ a, (t.tap a).slot1 = (s.tap a).slot1 ∧ (t.tap a).slot2 = (s.tap a).slot2
  links : ∀ port, (s.link port).grows (t.link port)
  busy : ∀ p, t.busy p → s.busy p ∨ s.routeStatus p = .active
  keys : KeyInv s → KeyInv t

theorem ArbFrame.refl (s : State) : ArbFrame s s :=
  ⟨.refl s, fun p => ⟨(s.dec p).reference, rfl⟩, fun _ => ⟨rfl, rfl⟩, fun _ => ⟨rfl, rfl⟩, fun _ => Link.grows_refl _, fun _ h => .inl h, id⟩

theorem ArbFrame.band {s t : State} (h : ArbFrame s t) (p : Pos) : t.band p = s.band p := by
  obtain ⟨v, e⟩ := h.dec p
  simp [State.band, e]
theorem ArbFrame.stable {s t : State} (h : ArbFrame s t) (p : Pos) : (t.dec p).stable = (s.dec p).stable := by
  obtain ⟨v, e⟩ := h.dec p
  simp [e]
theorem ArbFrame.seq {s t : State} (h : ArbFrame s t) (p : Pos) : t.seq p = s.seq p := by simp [State.seq, h.sequencers]
theorem ArbFrame.ant {s t : State} (h : ArbFrame s t) (a : Ant) : t.ant a = s.ant a := by simp [State.ant, h.antennas]
theorem ArbFrame.config {s t : State} (h : ArbFrame s t) (a : Ant) : t.config a = s.config a := by simp [State.config, h.settings]
theorem ArbFrame.place {s t : State} (h : ArbFrame s t) (p : Pos) : t.place p = s.place p := by simp [State.place, h.settings]
theorem ArbFrame.claims {s t : State} (h : ArbFrame s t) (a : Ant) : t.claims a = s.claims a := by simp [State.claims, h.claimQueues]
theorem ArbFrame.waitsOn {s t : State} (h : ArbFrame s t) (p : Pos) : t.waitsOn p = s.waitsOn p := by simp [State.waitsOn, h.claimPointers]
theorem ArbFrame.routeStatus {s t : State} (h : ArbFrame s t) (p : Pos) : t.routeStatus p = s.routeStatus p := by
  simp [State.routeStatus, h.seq]

theorem ArbFrame.trans {s t u : State} (h : ArbFrame s t) (k : ArbFrame t u) : ArbFrame s u where
  toArbEq := h.toArbEq.trans k.toArbEq
  dec p := by
    obtain ⟨v, e⟩ := h.dec p
    obtain ⟨w, e'⟩ := k.dec p
    exact ⟨w, by rw [e', e]⟩
  key p := ⟨(k.key p).1.trans (h.key p).1, (k.key p).2.trans (h.key p).2⟩
  slots a := ⟨(k.slots a).1.trans (h.slots a).1, (k.slots a).2.trans (h.slots a).2⟩
  links port := Link.grows_trans (h.links port) (k.links port)
  busy p b := by
    rcases k.busy p b with b | b
    · exact h.busy p b
    · exact .inr (h.routeStatus p ▸ b)
  keys i := k.keys (h.keys i)

/-- A report keeps everything but the links. -/
theorem report_arb (s : State) (consoles : List Pos) (body : ReportBody) : ArbFrame s (s.report consoles body) := by
  obtain ⟨L, h, hL⟩ := report_links s consoles body
  rw [h]
  exact ⟨by constructor <;> rfl, fun p => ⟨(s.dec p).reference, rfl⟩, fun _ => ⟨rfl, rfl⟩, fun _ => ⟨rfl, rfl⟩, hL, fun _ h => .inl h,
    fun i => ⟨i.txen, i.taps, i.hold, i.grants, i.waiting⟩⟩

/-- Operations run for a list of entries compose. -/
theorem forEach_arb {α : Type} (l : List α) (f : α → State → State) (h : ∀ x ∈ l, ∀ s, ArbFrame s (f x s)) (s : State) : ArbFrame s (forEach l f s) := by
  induction l generalizing s with
  | nil => exact .refl s
  | cons x rest ih =>
    exact (h x (by simp) s).trans (ih (fun y hy => h y (by simp [hy])) _)

end Sys2Proof.Machine
end

