-- ==== Sys2Proof/Laws/Arbiter.lean ====
section
/-! SUPPORT. What each shared operation of the Transmit Arbiter may do (Machine/ArbiterOps.lean). -/

namespace Sys2Proof.Machine

/-! ### Key states -/

theorem KeyState.transmits_granted (k : KeyState) (h : k.granted = false) : k.transmits = false := by
  cases k <;> simp_all [KeyState.granted, KeyState.transmits]

theorem transmits_queued : KeyState.queued.transmits = false := rfl

/-- The states outside the waiting list and outside a grant. -/
def KeyState.resting (k : KeyState) : Bool := !k.granted && k != .queued

theorem KeyState.resting_granted {k : KeyState} (h : k.resting = true) : k.granted = false := by
  cases k <;> simp_all [KeyState.granted, KeyState.resting]

theorem KeyState.resting_queued {k : KeyState} (h : k.resting = true) : k ≠ .queued := by
  cases k <;> simp_all [KeyState.granted, KeyState.resting]

theorem mem_filter_ne (l : List Pos) (p q : Pos) : q ∈ (l.filter fun x => x != p) ↔ q ∈ l ∧ q ≠ p := by simp

/-! ### Leaving and joining the list -/

/-- An ungranted position moves off the list into a state of rest (R126). -/
theorem leaveList_arb (s : State) (p : Pos) (into : KeyState) (hp : s.granted p = false) (hi : into.resting = true) :
    ArbFrame s (s.leaveList p into) := by
  have hg := KeyState.resting_granted hi
  have hq := KeyState.resting_queued hi
  refine ⟨((ArbEq.refl s).setWaiting _).onKey _ _, fun q => ⟨(s.dec q).reference, rfl⟩, fun q => ?_, fun _ => ⟨rfl, rfl⟩, fun _ => Link.grows_refl _, ?_, ?_⟩
  · by_cases h : q = p <;> simp [State.leaveList, onKey_at, h]
  · intro q b
    by_cases h : q = p
    · subst h
      simp [State.busy, State.leaveList, State.granted, hg, hq] at b
    · left
      simpa [State.busy, State.leaveList, State.granted, onKey_at, h] using b
  · intro i
    refine ⟨fun q => ?_, i.taps, fun hh q => ?_, fun q => ?_, ?_, fun q => ?_⟩
    · by_cases h : q = p
      · subst h
        simp [State.leaveList, i.txen, KeyState.transmits_granted _ hg, KeyState.transmits_granted _ hp]
      · simp [State.leaveList, onKey_at, h, i.txen]
    · have := i.hold hh q
      by_cases h : q = p
      · subst h; simp [State.leaveList, State.granted, hg]
      · simpa [State.leaveList, State.granted, onKey_at, h] using this
    · have := i.grants q
      by_cases h : q = p
      · subst h
        simp [hp] at this
        simp [State.leaveList, State.granted, hg, this]
      · simpa [State.leaveList, State.granted, onKey_at, h] using this
    · exact i.waiting.1.filter _
    · have := i.waiting.2 q
      by_cases h : q = p
      · subst h; simp [State.leaveList, hq]
      · simp [State.leaveList, onKey_at, h, this]

/-- A resting position is appended to the list (R126). -/
theorem enlist_arb (s : State) (p : Pos) (hr : (s.key p).state.resting = true) (ha : s.routeStatus p = .active) : ArbFrame s (s.enlist p) := by
  have hg := KeyState.resting_granted hr
  have hq := KeyState.resting_queued hr
  refine ⟨((ArbEq.refl s).setWaiting _).onKey _ _, fun q => ⟨(s.dec q).reference, rfl⟩, fun q => ?_, fun _ => ⟨rfl, rfl⟩, fun _ => Link.grows_refl _, ?_, ?_⟩
  · by_cases h : q = p <;> simp [State.enlist, onKey_at, h]
  · intro q b
    by_cases h : q = p
    · subst h; exact .inr ha
    · left
      simpa [State.busy, State.enlist, State.granted, onKey_at, h] using b
  · intro i
    have hw : p ∉ s.waiting := fun h => hq ((i.waiting.2 p).1 h)
    refine ⟨fun q => ?_, i.taps, fun hh q => ?_, fun q => ?_, ?_, fun q => ?_⟩
    · by_cases h : q = p
      · subst h
        simp [State.enlist, i.txen, KeyState.transmits_granted _ hg, transmits_queued]
      · simp [State.enlist, onKey_at, h, i.txen]
    · have := i.hold hh q
      by_cases h : q = p
      · subst h; simp [State.enlist, State.granted, KeyState.granted]
      · simpa [State.enlist, State.granted, onKey_at, h] using this
    · have := i.grants q
      by_cases h : q = p
      · subst h
        simp [State.granted, hg] at this
        simp [State.enlist, State.granted, KeyState.granted, this]
      · simpa [State.enlist, State.granted, onKey_at, h] using this
    · simpa [State.enlist, List.nodup_append] using ⟨i.waiting.1, fun x hx => (fun e => hw (e ▸ hx))⟩
    · have := i.waiting.2 q
      by_cases h : q = p
      · subst h; simp [State.enlist]
      · simp [State.enlist, onKey_at, h, this]

/-! ### The taps of an antenna, as the arbiter sets them -/

theorem TapsCommanded.of {s t : State} (h : TapsCommanded s) (ht : ∀ a, t.tap a = s.tap a) (ha : ∀ a, t.ant a = s.ant a) : TapsCommanded t := by
  intro a
  rw [ht, ha]
  exact h a

/-- Setting the keyed indication commands the taps of that antenna by the three conditions (R154, R159). -/
theorem setKeyed_taps (s : State) (a : Ant) (k : Bool) (h : TapsCommanded s) : TapsCommanded (s.setKeyed a k) := by
  intro b
  by_cases hb : b = a
  · subst hb; simp [State.setKeyed, State.commandTaps]
  · simpa [State.setKeyed, State.commandTaps, onTap_at, hb] using h b

/-- Setting the keyed indication keeps everything but that antenna's taps. -/
theorem setKeyed_arb (s : State) (a : Ant) (k : Bool) : ArbFrame s (s.setKeyed a k) := by
  refine ⟨((ArbEq.refl s).onTap _ _).onTap _ _, fun q => ⟨(s.dec q).reference, rfl⟩, fun _ => ⟨rfl, rfl⟩, fun b => ?_, fun _ => Link.grows_refl _, fun _ h => .inl h, ?_⟩
  · by_cases hb : b = a <;> simp [State.setKeyed, State.commandTaps, onTap_at, hb]
  · exact fun i => ⟨i.txen, setKeyed_taps s a k i.taps, i.hold, i.grants, i.waiting⟩

/-! ### Changes of one key -/

/-- The record of one key replaced, with TXEN, and the position taken off the list: what it takes to keep the key invariants. -/
theorem rekey_inv (s t : State) (p : Pos) (i : KeyInv s)
    (htaps : TapsCommanded t) (hhold : t.holdOn = s.holdOn)
    (hkey : ∀ q, q ≠ p → t.key q = s.key q) (htx : ∀ q, q ≠ p → t.txen q = s.txen q)
    (hw : t.waiting = s.waiting.filter fun q => q != p)
    (hp : t.txen p = (t.key p).state.transmits) (hg : (t.key p).grant.isSome = t.granted p)
    (hnq : (t.key p).state ≠ .queued) (hho : s.holdOn = true → t.granted p = false) : KeyInv t := by
  refine ⟨fun q => ?_, htaps, fun hh q => ?_, fun q => ?_, ?_, fun q => ?_⟩
  · by_cases h : q = p
    · subst h; exact hp
    · rw [htx q h, hkey q h, i.txen]
  · by_cases h : q = p
    · subst h; exact hho (hhold ▸ hh)
    · rw [State.granted, hkey q h]; exact i.hold (hhold ▸ hh) q
  · by_cases h : q = p
    · subst h; exact hg
    · rw [State.granted, hkey q h]; exact i.grants q
  · rw [hw]; exact i.waiting.1.filter _
  · rw [hw, mem_filter_ne]
    by_cases h : q = p
    · subst h; simp [hnq]
    · rw [hkey q h]; simp [h, i.waiting.2 q]

/-- A position that is not QUEUED is not on the list. -/
theorem filter_not_queued {s : State} (i : KeyInv s) {p : Pos} (h : (s.key p).state ≠ .queued) :
    s.waiting = s.waiting.filter fun q => q != p := by
  symm
  rw [List.filter_eq_self]
  intro q hq
  have := (i.waiting.2 q).1 hq
  simp only [bne_iff_ne, ne_eq]
  intro e
  exact h (e ▸ this)

/-! ### Grants (R132) -/

theorem captureReference_eq (s : State) (p : Pos) : ∃ v, s.captureReference p = s.onDec p fun d => { d with reference := v } := by
  unfold State.captureReference
  cases h : (s.place p).source
  · exact ⟨(s.dec p).stable, by simp [State.onDec, upd, State.dec]⟩
  · exact ⟨none, rfl⟩

/-- The record of step 3 of a grant (R132, R159). -/
theorem openTaps_spec (u : State) (p : Pos) (a : Ant) :
    ∃ k : KeyRecord, u.openTaps p a = (if u.anyTapClosed a then (u.setKeyed a true).onKey p fun _ => k
        else ((u.setKeyed a true).onKey p fun _ => k).setTxen p true)
      ∧ k.state = (if u.anyTapClosed a then .opening else .on) ∧ k.grant = (u.key p).grant ∧ k.level = (u.key p).level
      ∧ k.filter = (u.key p).filter ∧ k.reported = (u.key p).reported := by
  unfold State.openTaps
  by_cases h : u.anyTapClosed a = true
  · refine ⟨{ u.key p with state := .opening, tapGuard := u.load u.settings.tapGuard }, ?_, ?_⟩
    · simp only [h, if_true]
      simp [State.onKey, upd, State.setKeyed, State.commandTaps, State.onTap, State.key]
    · simp [h]
  · refine ⟨{ u.key p with state := .on, tapGuard := none, hang := none, maxKey := (u.setKeyed a true).maxKeyTimer p }, ?_, ?_⟩
    · simp only [h, State.enterOn]
      simp [State.onKey, upd, State.setKeyed, State.commandTaps, State.onTap, State.key]
    · simp [h]

/-- A grant up to its report: steps 1 to 3 of R132. -/
def State.granting (s : State) (p : Pos) (b : Band) (a : Ant) : State := ((s.recordGrant p b a).captureReference p).openTaps p a

/-- A grant from QUEUED with HOLD off, up to its report. -/
theorem granting_arb (s : State) (p : Pos) (b : Band) (a : Ant) (hq : (s.key p).state = .queued) (hh : s.holdOn = false) :
    ArbFrame s (s.granting p b a) := by
  unfold State.granting
  obtain ⟨v, hv⟩ := captureReference_eq (s.recordGrant p b a) p
  rw [hv]
  obtain ⟨k, ho, hs, hgr, hl, hf, -⟩ := openTaps_spec ((s.recordGrant p b a).onDec p fun d => { d with reference := v }) p a
  rw [ho]
  have hgr' : k.grant.isSome = true := by simp [hgr, State.recordGrant]
  replace hl : k.level = (s.key p).level := by simpa [State.recordGrant] using hl
  replace hf : k.filter = (s.key p).filter := by simpa [State.recordGrant] using hf
  generalize hc : ((s.recordGrant p b a).onDec p fun d => { d with reference := v }).anyTapClosed a = closed at hs ⊢
  clear ho hgr
  have hks : k.state.granted = true := by rw [hs]; cases closed <;> rfl
  cases closed
  all_goals
    simp only [Bool.false_eq_true, ↓reduceIte] at hs ⊢
    refine ⟨?_, fun q => ?_, fun q => ?_, fun x => ?_, fun port => ?_, fun q bz => ?_, fun i => ?_⟩
    · unfold State.recordGrant State.setKeyed State.commandTaps
      repeat with_reducible first | apply ArbEq.setTxen | apply ArbEq.onKey | apply ArbEq.onTap | apply ArbEq.onDec | apply ArbEq.setPointer | apply ArbEq.setGrantCount | apply ArbEq.setWaiting | exact ArbEq.refl s
    · by_cases h : q = p
      · subst h; exact ⟨v, by simp [State.recordGrant, State.setKeyed, State.commandTaps]⟩
      · exact ⟨(s.dec q).reference, by simp [State.recordGrant, State.setKeyed, State.commandTaps, onDec_at, h]⟩
    · by_cases h : q = p <;> simp [State.recordGrant, State.setKeyed, State.commandTaps, onKey_at, h, hl, hf]
    · by_cases h : x = a <;> simp [State.recordGrant, State.setKeyed, State.commandTaps, onTap_at, h]
    · simp [State.recordGrant, State.setKeyed, State.commandTaps, Link.grows_refl]
    · by_cases h : q = p
      · subst h; exact .inl (.inl hq)
      · left; simpa [State.busy, State.granted, State.recordGrant, State.setKeyed, State.commandTaps, onKey_at, h] using bz
    · have htx := i.txen p
      rw [hq] at htx
      have htaps : TapsCommanded (((s.recordGrant p b a).onDec p fun d => { d with reference := v }).setKeyed a true) :=
        setKeyed_taps _ a true (i.taps.of (fun _ => by simp [State.recordGrant]) (fun _ => by simp [State.recordGrant]))
      refine rekey_inv s _ p i (htaps.of (fun _ => by simp) (fun _ => by simp)) ?_ (fun q h => ?_) (fun q h => ?_) ?_ ?_ ?_ ?_ ?_
      · simp [State.recordGrant, State.setKeyed, State.commandTaps]
      · simp [State.recordGrant, State.setKeyed, State.commandTaps, onKey_at, h]
      · simp [State.recordGrant, State.setKeyed, State.commandTaps, setTxen_at, h]
      · simp [State.recordGrant, State.setKeyed, State.commandTaps]
      · simp [State.recordGrant, State.setKeyed, State.commandTaps, htx, hs, KeyState.transmits]
      · simp [State.granted, State.setKeyed, State.commandTaps, hks, hgr']
      · simp [State.setKeyed, State.commandTaps, hs]
      · intro e; simp [hh] at e

theorem onKey_reported_arb (s : State) (p : Pos) (v : Bool) : ArbFrame s (s.onKey p fun k => { k with reported := v }) := by
  refine ⟨(ArbEq.refl s).onKey _ _, fun q => ⟨(s.dec q).reference, rfl⟩, fun q => ?_, fun _ => ⟨rfl, rfl⟩, fun _ => Link.grows_refl _, ?_, ?_⟩
  · by_cases h : q = p <;> simp [onKey_at, h]
  · intro q b
    left
    by_cases h : q = p <;> simpa [State.busy, State.granted, onKey_at, h] using b
  · intro i
    refine ⟨fun q => ?_, i.taps, fun hh q => ?_, fun q => ?_, i.waiting.1, fun q => ?_⟩
    · by_cases h : q = p <;> simp [onKey_at, h, i.txen]
    · have := i.hold hh q
      by_cases h : q = p <;> simp_all [State.granted, onKey_at]
    · have := i.grants q
      by_cases h : q = p <;> simp_all [State.granted, onKey_at]
    · have := i.waiting.2 q
      by_cases h : q = p <;> simp_all [onKey_at]

/-- Granting a QUEUED position with HOLD off (R132). -/
theorem grant_arb (s : State) (p : Pos) (hq : (s.key p).state = .queued) (hh : s.holdOn = false) : ArbFrame s (s.grant p) := by
  unfold State.grant
  split
  · rename_i b a _ _
    refine (granting_arb s p b a hq hh).trans ?_
    unfold State.reportGrant
    split
    · exact (onKey_reported_arb _ p false).trans (report_arb _ _ _)
    · exact onKey_reported_arb _ p false
  · exact .refl s

/-! ### The walk (R130) -/

/-- A passed fit test says that HOLD is off (R128). -/
theorem fitAmong_hold {s : State} {g : List Pos} {b : Band} {a : Ant} (h : s.fitAmong g b a = .fits) : s.holdOn = false := by
  unfold State.fitAmong at h
  split at h
  · simp at h
  · simp_all

theorem walkFit_spec {s : State} {p : Pos} (h : s.walkFit p = .fits) : (s.key p).state = .queued ∧ s.holdOn = false := by
  unfold State.walkFit State.fit at h
  split at h
  · rename_i hq
    refine ⟨by simpa using hq, ?_⟩
    split at h
    · exact fitAmong_hold h
    · simp at h
  · simp at h

theorem walkList_arb (l : List Pos) (s : State) : ArbFrame s (walkList l s) := by
  induction l generalizing s with
  | nil => exact .refl s
  | cons p rest ih =>
    unfold walkList
    split
    · rename_i h
      exact (grant_arb s p (walkFit_spec h).1 (walkFit_spec h).2).trans (ih _)
    · exact ih s
    · exact .refl s

/-- The walk (R130). -/
theorem walk_arb (s : State) : ArbFrame s s.walk := walkList_arb _ s

/-! ### Ends and cuts (R137, R138) -/

theorem dropTxen_txen (s : State) (p q : Pos) : (s.dropTxen p).txen q = if q = p then false else s.txen q := by
  unfold State.dropTxen
  by_cases h : s.txen p = true
  · simp only [h, if_true]; simp [setTxen_at]
  · by_cases e : q = p
    · subst e; simp [h]
    · simp [h, e]

theorem dropTxen_eq (s : State) (p : Pos) : ArbEq s (s.dropTxen p) ∧ (s.dropTxen p).waiting = s.waiting ∧ (∀ q, (s.dropTxen p).key q = s.key q)
    ∧ (∀ q, (s.dropTxen p).dec q = s.dec q) ∧ (∀ a, (s.dropTxen p).tap a = s.tap a) ∧ (∀ port, (s.dropTxen p).link port = s.link port) := by
  unfold State.dropTxen
  split
  · exact ⟨((ArbEq.refl s).setTxen _ _).setQuiet _ _, by simp⟩
  · exact ⟨.refl s, by simp⟩

theorem ArbEq.dropTxen {s t : State} (h : ArbEq s t) (p : Pos) : ArbEq s (t.dropTxen p) := h.trans (dropTxen_eq t p).1

theorem releaseTaps_eq (s : State) (a : Option Ant) : ArbEq s (s.releaseTaps a) ∧ (s.releaseTaps a).waiting = s.waiting
    ∧ (∀ q, (s.releaseTaps a).key q = s.key q) ∧ (∀ q, (s.releaseTaps a).dec q = s.dec q) ∧ (∀ q, (s.releaseTaps a).txen q = s.txen q)
    ∧ (∀ x, ((s.releaseTaps a).tap x).slot1 = (s.tap x).slot1 ∧ ((s.releaseTaps a).tap x).slot2 = (s.tap x).slot2)
    ∧ (∀ port, (s.releaseTaps a).link port = s.link port) ∧ (TapsCommanded s → TapsCommanded (s.releaseTaps a)) := by
  unfold State.releaseTaps
  split
  · rename_i b
    have h := setKeyed_arb s b false
    exact ⟨h.toArbEq, by simp [State.setKeyed, State.commandTaps], by simp [State.setKeyed, State.commandTaps],
      by simp [State.setKeyed, State.commandTaps], by simp [State.setKeyed, State.commandTaps], h.slots,
      by simp [State.setKeyed, State.commandTaps], setKeyed_taps s b false⟩
  · exact ⟨.refl s, rfl, fun _ => rfl, fun _ => rfl, fun _ => rfl, fun _ => ⟨rfl, rfl⟩, fun _ => rfl, id⟩

theorem ArbEq.releaseTaps {s t : State} (h : ArbEq s t) (a : Option Ant) : ArbEq s (t.releaseTaps a) := h.trans (releaseTaps_eq t a).1

theorem granted_not_queued {s : State} {p : Pos} (h : s.granted p = true) : (s.key p).state ≠ .queued := by
  intro e; simp [State.granted, e, KeyState.granted] at h

theorem endGrant_key (s : State) (p : Pos) (into : KeyState) (q : Pos) : (s.endGrant p into).key q =
    if q = p then { s.key p with state := into, grant := none, tapGuard := none, hang := none, maxKey := none } else s.key q := by
  unfold State.endGrant
  rw [(releaseTaps_eq _ _).2.2.1]
  simp [(dropTxen_eq _ p).2.2.1, onKey_at]

theorem endGrant_txen (s : State) (p : Pos) (into : KeyState) (q : Pos) : (s.endGrant p into).txen q = if q = p then false else s.txen q := by
  unfold State.endGrant
  rw [(releaseTaps_eq _ _).2.2.2.2.1]
  simp [dropTxen_txen]

theorem endGrant_waiting (s : State) (p : Pos) (into : KeyState) : (s.endGrant p into).waiting = s.waiting := by
  unfold State.endGrant
  rw [(releaseTaps_eq _ _).2.1]
  simp [(dropTxen_eq _ p).2.1]

/-- The end of a grant into a state of rest, steps 1 to 4 (R137). -/
theorem endGrant_arb (s : State) (p : Pos) (into : KeyState) (hg : s.granted p = true) (hi : into.resting = true) : ArbFrame s (s.endGrant p into) := by
  have hig := KeyState.resting_granted hi
  refine ⟨?_, fun q => ?_, fun q => ?_, fun x => ?_, fun port => ?_, fun q bz => ?_, fun i => ?_⟩
  · unfold State.endGrant
    exact ((((ArbEq.refl s).onKey _ _).dropTxen _).onDec _ _).releaseTaps _
  · unfold State.endGrant
    rw [(releaseTaps_eq _ _).2.2.2.1]
    by_cases h : q = p
    · subst h; exact ⟨none, by simp [(dropTxen_eq _ q).2.2.2.1]⟩
    · exact ⟨(s.dec q).reference, by simp [onDec_at, h, (dropTxen_eq _ p).2.2.2.1]⟩
  · rw [endGrant_key]
    by_cases h : q = p <;> simp [h]
  · unfold State.endGrant
    rw [((releaseTaps_eq _ _).2.2.2.2.2.1 x).1, ((releaseTaps_eq _ _).2.2.2.2.2.1 x).2]
    simp [(dropTxen_eq _ p).2.2.2.2.1]
  · unfold State.endGrant
    rw [(releaseTaps_eq _ _).2.2.2.2.2.2.1]
    simp [(dropTxen_eq _ p).2.2.2.2.2, Link.grows_refl]
  · by_cases h : q = p
    · subst h; exact .inl (.inr hg)
    · left; simpa [State.busy, State.granted, endGrant_key, h] using bz
  · refine rekey_inv s _ p i ?_ ?_ (fun q h => ?_) (fun q h => ?_) ?_ ?_ ?_ ?_ ?_
    · unfold State.endGrant
      refine (releaseTaps_eq _ _).2.2.2.2.2.2.2 (i.taps.of (fun a => ?_) (fun a => ?_))
      · simp [(dropTxen_eq _ p).2.2.2.2.1]
      · rw [onDec_ant, State.ant, (dropTxen_eq _ p).1.antennas]; rfl
    · unfold State.endGrant
      exact ((((ArbEq.refl s).onKey _ _).dropTxen _).onDec _ _).releaseTaps _ |>.holdOn
    · simp [endGrant_key, h]
    · simp [endGrant_txen, h]
    · rw [endGrant_waiting]; exact filter_not_queued i (granted_not_queued hg)
    · simp [endGrant_txen, endGrant_key, KeyState.transmits_granted _ hig]
    · simp [endGrant_key, State.granted, hig]
    · simp [endGrant_key, KeyState.resting_queued hi]
    · intro _; simp [endGrant_key, State.granted, hig]

theorem afterCut_resting (s : State) (p : Pos) : (s.afterCut p).resting = true := by
  unfold State.afterCut
  split <;> rfl

/-- A cut without its walk (R138, R141, R142). -/
theorem cutQuietly_arb (s : State) (p : Pos) (reason : KeyReason) (by_ : Option Pos) : ArbFrame s (s.cutQuietly p reason by_) := by
  unfold State.cutQuietly
  split
  · rename_i h
    exact (endGrant_arb s p _ h (afterCut_resting s p)).trans (report_arb _ _ _)
  · exact .refl s

/-- A cut (R138). -/
theorem cut_arb (s : State) (p : Pos) (reason : KeyReason) : ArbFrame s (s.cut p reason) := by
  unfold State.cut
  split
  · rename_i h
    exact ((endGrant_arb s p _ h (afterCut_resting s p)).trans (walk_arb _)).trans (report_arb _ _ _)
  · exact .refl s

/-- A denial of an ungranted position (R123, R126). -/
theorem deny_arb (s : State) (p : Pos) (reason : KeyReason) (h : s.granted p = false) : ArbFrame s (s.deny p reason) :=
  (leaveList_arb s p .blocked h rfl).trans (report_arb _ _ _)

theorem queued_not_granted {s : State} {p : Pos} (h : (s.key p).state = .queued) : s.granted p = false := by
  simp [State.granted, h, KeyState.granted]

/-- What an event of another block does to the owner of an antenna (R22, R28, R145). -/
theorem cutOrDeny_arb (s : State) (p : Pos) (reason : KeyReason) : ArbFrame s (s.cutOrDeny p reason) := by
  unfold State.cutOrDeny
  split
  · exact cut_arb s p reason
  · split
    · rename_i h; exact deny_arb s p reason (queued_not_granted (by simpa using h))
    · exact .refl s

/-- The start of a path change, as the arbiter acts on it (R103). -/
theorem routeChanging_arb (s : State) (p : Pos) : ArbFrame s (s.routeChanging p) := by
  unfold State.routeChanging
  split
  · exact cut_arb s p _
  · split
    · rename_i h; exact leaveList_arb s p .pending (queued_not_granted (by simpa using h)) rfl
    · exact .refl s

/-- After the hand-over of a path change, the position is neither QUEUED nor granted, if its route is not ACTIVE (R103). -/
theorem routeChanging_not_busy (s : State) (p : Pos) (h : s.routeStatus p ≠ .active) : ¬ (s.routeChanging p).busy p := by
  unfold State.routeChanging
  split
  · rename_i hg
    unfold State.cut
    simp only [hg, if_true]
    intro b
    have hr := afterCut_resting s p
    have e := endGrant_arb s p _ hg hr
    rcases ((walk_arb _).trans (report_arb _ _ _)).busy p b with b | b
    · simp [State.busy, endGrant_key, State.granted, KeyState.resting_granted hr, KeyState.resting_queued hr] at b
    · rw [e.routeStatus] at b; exact h b
  · rename_i hg
    split
    · intro b
      simp [State.busy, State.leaveList, State.granted, KeyState.granted] at b
    · rename_i hq
      intro b
      rcases b with b | b
      · simp [b] at hq
      · exact hg b

/-! ### Preemption (R139 to R141) -/

theorem cutQuietly_queued (s : State) (p j : Pos) (reason : KeyReason) (by_ : Option Pos) (hj : (s.key j).state = .queued) :
    ((s.cutQuietly p reason by_).key j).state = .queued := by
  unfold State.cutQuietly
  split
  · rename_i h
    obtain ⟨L, e, -⟩ := report_links (s.endGrant p (s.afterCut p)) [p] (.keyCut p reason (s.key p).grant by_)
    rw [e]
    have hne : j ≠ p := fun e => granted_not_queued h (e ▸ hj)
    show ((s.endGrant p (s.afterCut p)).key j).state = .queued
    simp [endGrant_key, hne, hj]
  · exact hj

theorem cutAll_queued (l : List Pos) (s : State) (j : Pos) (reason : KeyReason) (by_ : Option Pos) (hj : (s.key j).state = .queued) :
    ((forEach l (fun p s => s.cutQuietly p reason by_) s).key j).state = .queued := by
  induction l generalizing s with
  | nil => exact hj
  | cons p rest ih => exact ih _ (cutQuietly_queued s p j reason by_ hj)

theorem cutAll_arb (l : List Pos) (s : State) (reason : KeyReason) (by_ : Option Pos) :
    ArbFrame s (forEach l (fun p s => s.cutQuietly p reason by_) s) :=
  forEach_arb l _ (fun p _ s => cutQuietly_arb s p reason by_) s

/-- The preemption for a QUEUED joiner (R141). -/
theorem preempt_arb (s : State) (j : Pos) (hj : (s.key j).state = .queued) : ArbFrame s (s.preempt j) := by
  unfold State.preempt
  split
  · rename_i b a _ _
    simp only []
    split
    · rename_i h
      simp only [Bool.and_eq_true, beq_iff_eq] at h
      have hh := fitAmong_hold h.2
      have c := cutAll_arb (s.victims b a) s .preempted (some j)
      exact (c.trans (grant_arb _ j (cutAll_queued _ s j _ _ hj) (c.holdOn.trans hh))).trans (walk_arb _)
    · exact .refl s
  · exact .refl s

/-! ### Joining and eligibility (R123, R124, R126, R131) -/

theorem considerPreemption_arb (s : State) (p : Pos) : ArbFrame s (s.considerPreemption p) := by
  unfold State.considerPreemption
  split
  · rename_i h
    simp only [Bool.and_eq_true, beq_iff_eq] at h
    exact preempt_arb s p h.1.1
  · exact .refl s

theorem reportQueued_arb (s : State) (p : Pos) : ArbFrame s (s.reportQueued p) := by
  unfold State.reportQueued
  split
  · exact (onKey_reported_arb s p true).trans (report_arb _ _ _)
  · exact .refl s

/-- A resting position on an ACTIVE route joins (R126, R131). -/
theorem join_arb (s : State) (p : Pos) (hr : (s.key p).state.resting = true) (ha : s.routeStatus p = .active) : ArbFrame s (s.join p) :=
  (((enlist_arb s p hr ha).trans (walk_arb _)).trans (considerPreemption_arb _ p)).trans (reportQueued_arb _ p)

/-- A resting key moves to another state of rest. -/
theorem rest_arb (s : State) (p : Pos) (into : KeyState) (hr : (s.key p).state.resting = true) (hi : into.resting = true) :
    ArbFrame s (s.onKey p fun k => { k with state := into }) := by
  have hg := KeyState.resting_granted hr
  have hig := KeyState.resting_granted hi
  refine ⟨(ArbEq.refl s).onKey _ _, fun q => ⟨(s.dec q).reference, rfl⟩, fun q => ?_, fun _ => ⟨rfl, rfl⟩, fun _ => Link.grows_refl _, fun q b => ?_, fun i => ?_⟩
  · by_cases h : q = p <;> simp [onKey_at, h]
  · left
    by_cases h : q = p
    · subst h; simp [State.busy, State.granted, hig, KeyState.resting_queued hi] at b
    · simpa [State.busy, State.granted, onKey_at, h] using b
  · have hgr := i.grants p
    refine rekey_inv s _ p i i.taps rfl (fun q h => ?_) (fun q h => rfl) ?_ ?_ ?_ ?_ ?_
    · simp [onKey_at, h]
    · simpa using filter_not_queued i (KeyState.resting_queued hr)
    · simp [i.txen, KeyState.transmits_granted _ hg, KeyState.transmits_granted _ hig]
    · simp [State.granted, hig] at hgr ⊢
      simpa [State.granted, hg] using hgr
    · simp [KeyState.resting_queued hi]
    · intro _; simp [State.granted, hig]

theorem eligibility_joins {s : State} {p : Pos} (h : s.eligibility p = .joins) : s.routeStatus p = .active := by
  unfold State.eligibility at h
  split at h
  · simp at h
  · split at h
    · simp at h
    · split at h
      · simp at h
      · rename_i hc
        unfold State.routeEligibility at h
        split at h
        · simp at h
        · rename_i a ha
          simp only [beq_iff_eq] at hc
          unfold State.routeStatus at hc ⊢
          rw [ha] at hc ⊢
          cases hs : (s.seq p).state <;> simp [hs] at hc ⊢

/-- Static eligibility, as it acts on a resting position (R123). -/
theorem checkKey_arb (s : State) (p : Pos) (hr : (s.key p).state.resting = true) : ArbFrame s (s.checkKey p) := by
  unfold State.checkKey
  split
  · exact deny_arb s p _ (KeyState.resting_granted hr)
  · exact rest_arb s p .pending hr rfl
  · rename_i h; exact join_arb s p hr (eligibility_joins h)

/-- A settled route handed over (R109, R124). -/
theorem routeSettled_arb (s : State) (p : Pos) : ArbFrame s (s.routeSettled p) := by
  unfold State.routeSettled
  split
  · rename_i h
    exact checkKey_arb s p (by simp only [beq_iff_eq] at h; simp [h, KeyState.resting, KeyState.granted])
  · exact .refl s

/-! ### The entry to ON -/

/-- A granted position enters ON (R121, R133, R135, R136). -/
theorem enterOn_arb (s : State) (p : Pos) (hg : s.granted p = true) : ArbFrame s (s.enterOn p) := by
  unfold State.enterOn
  refine ⟨((ArbEq.refl s).onKey _ _).setTxen _ _, fun q => ⟨(s.dec q).reference, by simp⟩, fun q => ?_, fun _ => ⟨by simp, by simp⟩, fun _ => by simp [Link.grows_refl], fun q b => ?_, fun i => ?_⟩
  · by_cases h : q = p <;> simp [onKey_at, h]
  · left
    by_cases h : q = p
    · subst h; exact .inr hg
    · simpa [State.busy, State.granted, onKey_at, h] using b
  · have hgr := i.grants p
    refine rekey_inv s _ p i (i.taps.of (fun _ => by simp) (fun _ => by simp)) rfl (fun q h => ?_) (fun q h => ?_) ?_ ?_ ?_ ?_ ?_
    · simp [onKey_at, h]
    · simp [setTxen_at, h]
    · simpa using filter_not_queued i (granted_not_queued hg)
    · simp [KeyState.transmits]
    · simpa [State.granted, KeyState.granted, hg] using hgr.trans hg
    · simp
    · intro hh; have := i.hold hh p; simp [hg] at this

/-- ON to HANG at a release (R134). -/
theorem toHang_arb (s : State) (p : Pos) (t : Timer) (ho : (s.key p).state = .on) :
    ArbFrame s (s.onKey p fun k => { k with state := .hang, maxKey := none, hang := t }) := by
  have hg : s.granted p = true := by simp [State.granted, ho, KeyState.granted]
  refine ⟨(ArbEq.refl s).onKey _ _, fun q => ⟨(s.dec q).reference, rfl⟩, fun q => ?_, fun _ => ⟨rfl, rfl⟩, fun _ => Link.grows_refl _, fun q b => ?_, fun i => ?_⟩
  · by_cases h : q = p <;> simp [onKey_at, h]
  · left
    by_cases h : q = p
    · subst h; exact .inr hg
    · simpa [State.busy, State.granted, onKey_at, h] using b
  · have hgr := i.grants p
    refine rekey_inv s _ p i i.taps rfl (fun q h => ?_) (fun q h => rfl) ?_ ?_ ?_ ?_ ?_
    · simp [onKey_at, h]
    · simpa using filter_not_queued i (granted_not_queued hg)
    · simp [i.txen, ho, KeyState.transmits]
    · simpa [State.granted, KeyState.granted, hg] using hgr.trans hg
    · simp
    · intro hh; have := i.hold hh p; simp [hg] at this

/-- A grant that ends by release or by the hang (R133 to R135). -/
theorem releaseGrant_arb (s : State) (p : Pos) (hg : s.granted p = true) : ArbFrame s ((s.endGrant p .off).walk) :=
  (endGrant_arb s p .off hg rfl).trans (walk_arb _)

end Sys2Proof.Machine
end

