-- ==== Sys2Proof/Laws/Band.lean ====
section
/-! SUPPORT. What the band-moved check asks: the departure of a settled pattern line by line, and the settle of a position that does not depart. -/

namespace Sys2Proof.Machine

/-- A word of four lines is 0 exactly where no line is set. -/
theorem lines_ne_zero (v : BitVec 4) : (v != 0#4) = true ↔ ∃ i : Fin 4, v.getLsbD i.val = true := by
  revert v
  decide

/-- With an empty guard mask nothing departs (R14). -/
@[simp] theorem departs_empty_guard (pattern : BitVec 4) (reference : Option (BitVec 4)) : departs pattern reference 0#4 = false := by
  cases reference <;> simp [departs]

/-- A departure is a guard line that differs; where the reference is absent, any guard line (R13, R14). -/
theorem departs_iff (pattern : BitVec 4) (reference : Option (BitVec 4)) (guard_ : BitVec 4) :
    departs pattern reference guard_ = true
      ↔ ∃ i : Fin 4, guard_.getLsbD i.val = true ∧ ∀ r, reference = some r → pattern.getLsbD i.val ≠ r.getLsbD i.val := by
  cases reference with
  | none => simpa [departs] using lines_ne_zero guard_
  | some r =>
    rw [departs, lines_ne_zero]
    simp [and_comm, bne_iff_ne]

/-- A position that does not depart is not cut by its settle (R13). -/
theorem checkReference_stays (s : State) (p : Pos) (pattern : BitVec 4)
    (stays : departs pattern (s.dec p).reference (s.place p).guardMask = false) : s.checkReference p pattern = s := by
  simp [State.checkReference, stays]

/-- With an empty guard mask no settle cuts through the band-moved check (R14). -/
theorem checkReference_empty_guard (s : State) (p : Pos) (pattern : BitVec 4) (empty : (s.place p).guardMask = 0#4) : s.checkReference p pattern = s :=
  checkReference_stays s p pattern (by rw [empty]; exact departs_empty_guard _ _)

end Sys2Proof.Machine
end

