-- ==== Sys2Proof/Laws/Sequencer.lean ====
section
/-! SUPPORT. What each shared operation of the Path Sequencers may do (Machine/SequencerOps.lean): no relay moves on a port with presence, the connected positions stay those the sequencers hold, and a position that is QUEUED or granted keeps an ACTIVE route. -/

namespace Sys2Proof.Machine

/-- The invariants of the keys and of the relays of a running part, taken together (R20, R101, R121). -/
structure RouteInv (s : State) : Prop where
  keys : KeyInv s
  onRoute : KeyOnRoute s
  relays : RelaysBySequencer s

/-- The parts of the state that no operation of a sequencer touches. -/
structure SeqEq (s t : State) : Prop where
  powered : t.powered = s.powered
  resetIsLow : t.resetIsLow = s.resetIsLow
  timebase : t.timebase = s.timebase
  pending : t.pending = s.pending
  auxLines : t.auxLines = s.auxLines
  lineInputs : t.lineInputs = s.lineInputs
  pttInputs : t.pttInputs = s.pttInputs
  couplers : t.couplers = s.couplers
  sensors : t.sensors = s.sensors
  store : t.store = s.store
  settings : t.settings = s.settings
  claimQueues : t.claimQueues = s.claimQueues
  claimPointers : t.claimPointers = s.claimPointers
  listens : t.listens = s.listens
  holdOn : t.holdOn = s.holdOn

theorem SeqEq.refl (s : State) : SeqEq s s := by constructor <;> rfl

theorem SeqEq.trans {s t u : State} (h : SeqEq s t) (k : SeqEq t u) : SeqEq s u :=
  ⟨k.powered.trans h.powered, k.resetIsLow.trans h.resetIsLow, k.timebase.trans h.timebase, k.pending.trans h.pending, k.auxLines.trans h.auxLines, k.lineInputs.trans h.lineInputs, k.pttInputs.trans h.pttInputs, k.couplers.trans h.couplers, k.sensors.trans h.sensors, k.store.trans h.store, k.settings.trans h.settings, k.claimQueues.trans h.claimQueues, k.claimPointers.trans h.claimPointers, k.listens.trans h.listens, k.holdOn.trans h.holdOn⟩

/-- What an operation of a sequencer may do. -/
structure SeqStep (s t : State) : Prop extends SeqEq s t where
  dec : ∀ p, ∃ v, t.dec p = { s.dec p with reference := v }
  key : ∀ p, (t.key p).level = (s.key p).level ∧ (t.key p).filter = (s.key p).filter
  slots : ∀ a, (t.tap a).slot1 = (s.tap a).slot1 ∧ (t.tap a).slot2 = (s.tap a).slot2
  links : ∀ port, (s.link port).grows (t.link port)
  ant : ∀ a, ∃ c, t.ant a = { s.ant a with connected := c }
  quiet : ∀ a, (t.ant a).connected ≠ (s.ant a).connected → (s.ant a).presence = false
  inv : RouteInv s → RouteInv t

theorem SeqStep.refl (s : State) : SeqStep s s :=
  ⟨.refl s, fun p => ⟨(s.dec p).reference, rfl⟩, fun _ => ⟨rfl, rfl⟩, fun _ => ⟨rfl, rfl⟩, fun _ => Link.grows_refl _,
    fun a => ⟨(s.ant a).connected, rfl⟩, fun _ h => absurd rfl h, id⟩

theorem SeqStep.presence {s t : State} (h : SeqStep s t) (a : Ant) : (t.ant a).presence = (s.ant a).presence := by
  obtain ⟨c, e⟩ := h.ant a
  rw [e]

theorem SeqStep.owner {s t : State} (h : SeqStep s t) (a : Ant) : (t.ant a).owner = (s.ant a).owner := by
  obtain ⟨c, e⟩ := h.ant a
  rw [e]

theorem SeqStep.band {s t : State} (h : SeqStep s t) (p : Pos) : t.band p = s.band p := by
  obtain ⟨v, e⟩ := h.dec p
  simp [State.band, e]

theorem SeqStep.trans {s t u : State} (h : SeqStep s t) (k : SeqStep t u) : SeqStep s u where
  toSeqEq := h.toSeqEq.trans k.toSeqEq
  dec p := by
    obtain ⟨v, e⟩ := h.dec p
    obtain ⟨w, e'⟩ := k.dec p
    exact ⟨w, by rw [e', e]⟩
  key p := ⟨(k.key p).1.trans (h.key p).1, (k.key p).2.trans (h.key p).2⟩
  slots a := ⟨(k.slots a).1.trans (h.slots a).1, (k.slots a).2.trans (h.slots a).2⟩
  links port := Link.grows_trans (h.links port) (k.links port)
  ant a := by
    obtain ⟨v, e⟩ := h.ant a
    obtain ⟨w, e'⟩ := k.ant a
    exact ⟨w, by rw [e', e]⟩
  quiet a d := by
    by_cases hh : (t.ant a).connected = (s.ant a).connected
    · rw [← h.presence a]; exact k.quiet a (fun e => d (e.trans hh))
    · exact h.quiet a hh
  inv i := k.inv (h.inv i)

/-- An operation of the arbiter is one of a sequencer's that moves no relay. -/
theorem ArbFrame.step {s t : State} (h : ArbFrame s t) : SeqStep s t where
  toSeqEq := ⟨h.powered, h.resetIsLow, h.timebase, h.pending, h.auxLines, h.lineInputs, h.pttInputs, h.couplers, h.sensors, h.store, h.settings, h.claimQueues, h.claimPointers, h.listens, h.holdOn⟩
  dec := h.dec
  key := h.key
  slots := h.slots
  links := h.links
  ant a := ⟨(s.ant a).connected, by rw [h.ant a]⟩
  quiet a d := absurd (by rw [h.ant a]) d
  inv i := ⟨h.keys i.keys, fun p b => by
      rw [h.routeStatus p]
      rcases h.busy p b with b | b
      · exact i.onRoute p b
      · exact b,
    fun p a => by rw [h.ant a, h.seq p]; exact i.relays p a⟩

theorem forEach_step {α : Type} (l : List α) (f : α → State → State) (h : ∀ x s, SeqStep s (f x s)) (s : State) : SeqStep s (forEach l f s) := by
  induction l generalizing s with
  | nil => exact .refl s
  | cons x rest ih => exact (h x s).trans (ih _)

theorem KeyInv.of {s t : State} (i : KeyInv s) (hk : ∀ p, t.key p = s.key p) (hx : ∀ p, t.txen p = s.txen p) (hw : t.waiting = s.waiting)
    (hh : t.holdOn = s.holdOn) (ht : TapsCommanded t) : KeyInv t :=
  ⟨fun p => by rw [hx, hk, i.txen], ht, fun h p => by rw [State.granted, hk]; exact i.hold (hh ▸ h) p,
    fun p => by rw [State.granted, hk]; exact i.grants p, hw ▸ i.waiting.1, fun p => by rw [hw, hk]; exact i.waiting.2 p⟩

/-! ### One sequencer's record -/

/-- A sequencer's record changes, its relay as held and its route, if ACTIVE, as it was. -/
theorem onSeq_step (s : State) (p : Pos) (f : Sequencer → Sequencer) (hh : (f (s.seq p)).holds = (s.seq p).holds)
    (hr : s.routeStatus p = .active → (s.onSeq p f).routeStatus p = .active) : SeqStep s (s.onSeq p f) := by
  refine ⟨by constructor <;> rfl, fun q => ⟨(s.dec q).reference, rfl⟩, fun _ => ⟨rfl, rfl⟩, fun _ => ⟨rfl, rfl⟩, fun _ => Link.grows_refl _,
    fun a => ⟨(s.ant a).connected, rfl⟩, fun _ h => absurd rfl h, fun i => ⟨?_, fun q b => ?_, fun q a => ?_⟩⟩
  · exact i.keys.of (fun _ => rfl) (fun _ => rfl) rfl rfl i.keys.taps
  · have := i.onRoute q b
    by_cases h : q = p
    · subst h; exact hr this
    · simpa [State.routeStatus, onSeq_at, h] using this
  · have := i.relays q a
    by_cases h : q = p
    · subst h; simpa [hh] using this
    · simpa [onSeq_at, h] using this

theorem setQuiet_step (s : State) (p : Pos) (v : Option Count) : SeqStep s (s.setQuiet p v) :=
  ⟨by constructor <;> rfl, fun q => ⟨(s.dec q).reference, rfl⟩, fun _ => ⟨rfl, rfl⟩, fun _ => ⟨rfl, rfl⟩, fun _ => Link.grows_refl _,
    fun a => ⟨(s.ant a).connected, rfl⟩, fun _ h => absurd rfl h,
    fun i => ⟨i.keys.of (fun _ => rfl) (fun _ => rfl) rfl rfl i.keys.taps, i.onRoute, i.relays⟩⟩

theorem not_active {s : State} {p : Pos} (h : (s.seq p).state ≠ .idle) : s.routeStatus p ≠ .active := by
  unfold State.routeStatus
  cases hs : (s.seq p).state <;> simp_all

/-! ### Completion (R108, R109) -/

theorem settlePath_step (s : State) (p : Pos) (hs : (s.seq p).state ≠ .idle) (hh : (s.seq p).target.antenna = (s.seq p).holds) :
    SeqStep s (s.settlePath p) :=
  (onSeq_step s p (fun q => { q with current := q.target, state := .idle, phase := none }) (by simpa [Sequencer.holds] using hh)
    (fun h => absurd h (not_active hs))).trans (setQuiet_step _ _ _)

theorem handOverRoute_step (s : State) (p : Pos) : SeqStep s (s.handOverRoute p) :=
  ((report_arb _ _ _).trans (routeSettled_arb _ p)).step

theorem completeChange_step (s : State) (p : Pos) (hs : (s.seq p).state ≠ .idle) (hh : (s.seq p).target.antenna = (s.seq p).holds) :
    SeqStep s (s.completeChange p) :=
  (settlePath_step s p hs hh).trans (handOverRoute_step _ p)

/-! ### MAKE and HOLDOFF (R107, R108) -/

/-- MAKE begins on a free antenna: the one place where a relay closes (R101). -/
theorem beginMake_step (s : State) (p : Pos) (a : Ant) (hs : (s.seq p).state ≠ .idle) (hh : (s.seq p).holds = none)
    (ht : (s.seq p).target.antenna = some a) (hf : s.antennaFree a = true) : SeqStep s (s.beginMake p a) := by
  simp only [State.antennaFree, Bool.and_eq_true, Option.isNone_iff_eq_none, Bool.not_eq_true'] at hf
  unfold State.beginMake
  refine ⟨by constructor <;> rfl, fun q => ⟨(s.dec q).reference, rfl⟩, fun _ => ⟨rfl, rfl⟩, fun _ => ⟨rfl, rfl⟩, fun _ => Link.grows_refl _,
    fun b => ?_, fun b h => ?_, fun i => ⟨?_, fun q bz => ?_, fun q b => ?_⟩⟩
  · by_cases hb : b = a
    · subst hb; exact ⟨some p, by simp⟩
    · exact ⟨(s.ant b).connected, by simp [onAnt_at, hb]⟩
  · by_cases hb : b = a
    · subst hb; exact hf.2
    · simp [onAnt_at, hb] at h
  · refine i.keys.of (fun _ => rfl) (fun _ => rfl) rfl rfl (fun b => ?_)
    by_cases hb : b = a
    · subst hb; simpa using i.keys.taps b
    · simpa [onAnt_at, hb] using i.keys.taps b
  · have := i.onRoute q bz
    by_cases h : q = p
    · subst h; exact absurd this (not_active hs)
    · simpa [State.routeStatus, onSeq_at, h] using this
  · have hq := i.relays q b
    by_cases h : q = p <;> by_cases hb : b = a
    · subst h hb; simp [Sequencer.holds, ht]
    · subst h
      rw [hh] at hq
      simpa [onAnt_at, hb, Sequencer.holds, ht, Ne.symm hb] using hq
    · subst hb
      rw [hf.1] at hq
      simp [onSeq_at, h] at hq ⊢
      exact ⟨fun e => absurd e (Ne.symm h), fun e => absurd e hq⟩
    · simpa [onAnt_at, hb, onSeq_at, h] using hq

theorem waitInHoldoff_step (s : State) (p : Pos) (hs : (s.seq p).state ≠ .idle) (hh : (s.seq p).holds = none) : SeqStep s (s.waitInHoldoff p) :=
  onSeq_step s p _ (by rw [hh]; rfl) (fun h => absurd h (not_active hs))

theorem enterHoldoff_step (s : State) (p : Pos) (hs : (s.seq p).state ≠ .idle) (hh : (s.seq p).holds = none) : SeqStep s (s.enterHoldoff p) := by
  unfold State.enterHoldoff
  split
  · rename_i ht
    exact completeChange_step s p hs (ht.trans hh.symm)
  · rename_i a ht
    split
    · rename_i hf
      exact beginMake_step s p a hs hh ht hf
    · exact waitInHoldoff_step s p hs hh

theorem retestHoldoff_step (s : State) (p : Pos) : SeqStep s (s.retestHoldoff p) := by
  unfold State.retestHoldoff
  split
  · rename_i a hs ht
    split
    · rename_i hf
      exact beginMake_step s p a (by simp [hs]) (by simp [Sequencer.holds, hs]) ht hf
    · exact .refl s
  · exact .refl s

theorem antennaCleared_step (s : State) (a : Ant) : SeqStep s (s.antennaCleared a) :=
  forEach_step _ _ (fun q s => by
    split
    · exact retestHoldoff_step s q
    · exact .refl s) s

/-! ### BREAK and DRAIN (R104, R105) -/

theorem relayOpened_step (s : State) (a : Option Ant) : SeqStep s (s.relayOpened a) := by
  unfold State.relayOpened
  split
  · exact antennaCleared_step s _
  · exact .refl s

/-- The relay of the current antenna opens at the start of BREAK, on a port without presence (R101, R105). -/
theorem openBreak_step (s : State) (p : Pos) (f : Sequencer → Sequencer) (hs : (s.seq p).state = .drain)
    (hf : (f (s.seq p)).holds = none) (hq : ∀ a, (s.seq p).current.antenna = some a → (s.ant a).presence = false) :
    SeqStep s ((s.openRelay (s.seq p).current.antenna).onSeq p f) := by
  have hn : (s.seq p).state ≠ .idle := by simp [hs]
  have hold : (s.seq p).holds = (s.seq p).current.antenna := by simp [Sequencer.holds, hs]
  cases hc : (s.seq p).current.antenna with
  | none => exact onSeq_step s p f (by rw [hf, hold, hc]) (fun h => absurd h (not_active hn))
  | some a =>
    refine ⟨by constructor <;> rfl, fun q => ⟨(s.dec q).reference, rfl⟩, fun _ => ⟨rfl, rfl⟩, fun _ => ⟨rfl, rfl⟩, fun _ => Link.grows_refl _,
      fun b => ?_, fun b h => ?_, fun i => ⟨?_, fun q bz => ?_, fun q b => ?_⟩⟩
    · by_cases hb : b = a
      · subst hb; exact ⟨none, by simp [State.openRelay]⟩
      · exact ⟨(s.ant b).connected, by simp [State.openRelay, onAnt_at, hb]⟩
    · by_cases hb : b = a
      · subst hb; exact hq b hc
      · simp [State.openRelay, onAnt_at, hb] at h
    · refine i.keys.of (fun _ => rfl) (fun _ => rfl) rfl rfl (fun b => ?_)
      by_cases hb : b = a
      · subst hb; simpa [State.openRelay] using i.keys.taps b
      · simpa [State.openRelay, onAnt_at, hb] using i.keys.taps b
    · have := i.onRoute q bz
      by_cases h : q = p
      · subst h; exact absurd this (not_active hn)
      · simpa [State.openRelay, State.routeStatus, onSeq_at, h] using this
    · have hp := (i.relays p a).2 (hold.trans hc)
      have hq' := i.relays q b
      by_cases h : q = p <;> by_cases hb : b = a
      · subst h hb; simp [State.openRelay, hf]
      · subst h
        rw [hold, hc] at hq'
        simpa [State.openRelay, onAnt_at, hb, hf, Ne.symm hb] using hq'
      · subst hb
        rw [hp] at hq'
        simp only [Option.some.injEq] at hq'
        simpa [State.openRelay, onSeq_at, h] using fun e => h (hq'.2 e).symm
      · simpa [State.openRelay, onAnt_at, hb, onSeq_at, h] using hq'

theorem enterBreak_step (s : State) (p : Pos) (hs : (s.seq p).state = .drain)
    (hq : ∀ a, (s.seq p).current.antenna = some a → (s.ant a).presence = false) : SeqStep s (s.enterBreak p) := by
  unfold State.enterBreak
  refine .trans ?_ (relayOpened_step _ _)
  have h1 := openBreak_step s p
    (fun q => { q with state := .brk (s.seq p).current.antenna, setFilter := q.target.filter, phase := s.load (s.breakTime p) }) hs (by simp [Sequencer.holds]) hq
  split
  · refine h1.trans (enterHoldoff_step _ p ?_ ?_)
    · simp
    · simp [Sequencer.holds]
  · exact h1

theorem enterDrain_step (s : State) (p : Pos) (hs : (s.seq p).state = .drain) : SeqStep s (s.enterDrain p) := by
  unfold State.enterDrain
  split
  · rename_i hc
    exact enterBreak_step s p hs (fun a h => by rw [hc] at h; cases h)
  · rename_i a hc
    split
    · exact onSeq_step s p _ (by simp [Sequencer.holds, hs]) (fun h => absurd h (not_active (by simp [hs])))
    · rename_i hp
      exact enterBreak_step s p hs (fun b h => by rw [hc] at h; cases h; simpa using hp)

/-- A path change starts from IDLE (R103). -/
theorem startChange_step (s : State) (p : Pos) (hs : (s.seq p).state = .idle) : SeqStep s (s.startChange p) := by
  unfold State.startChange
  have ha := routeChanging_arb (s.onSeq p fun q => { q with state := .drain }) p
  have hst : ∀ q, ((s.onSeq p fun q => { q with state := .drain }).routeChanging p).seq q = (s.onSeq p fun q => { q with state := .drain }).seq q := ha.seq
  have h0 : SeqEq s (s.onSeq p fun q => { q with state := .drain }) := by constructor <;> rfl
  refine .trans (t := (s.onSeq p fun q => { q with state := .drain }).routeChanging p) ?_ (enterDrain_step _ p (by rw [hst]; simp))
  refine ⟨h0.trans ha.step.toSeqEq, ha.dec, ha.key, ha.slots, ha.links, fun a => ⟨(s.ant a).connected, ha.ant a⟩, fun a h => absurd (by rw [ha.ant a]; rfl) h,
    fun i => ⟨?_, fun q b => ?_, fun q a => ?_⟩⟩
  · exact ha.keys (i.keys.of (fun _ => rfl) (fun _ => rfl) rfl rfl i.keys.taps)
  · by_cases h : q = p
    · subst h
      exact absurd b (routeChanging_not_busy _ q (by apply not_active; simp))
    · have e : (s.onSeq p fun q => { q with state := .drain }).routeStatus q = s.routeStatus q := by simp [State.routeStatus, onSeq_at, h]
      rw [ha.routeStatus, e]
      rcases ha.busy q b with b | b
      · exact i.onRoute q b
      · rwa [e] at b
  · rw [ha.ant, hst]
    have := i.relays q a
    by_cases h : q = p
    · subst h; simpa [Sequencer.holds, hs] using this
    · simpa [onSeq_at, h] using this

/-! ### Giving a path (R102, R110 to R113) -/

theorem pathInIdle_step (s : State) (p : Pos) (n : RfPath) (hs : (s.seq p).state = .idle) : SeqStep s (s.pathInIdle p n) := by
  unfold State.pathInIdle
  have h1 : SeqStep s (s.onSeq p fun q => { q with target := n }) :=
    onSeq_step s p _ (by simp [Sequencer.holds, hs]) (fun h => by simpa [State.routeStatus, hs] using h)
  simp only []
  split
  · exact h1
  · exact h1.trans (startChange_step _ p (by simpa using hs))

theorem pathInDrain_step (s : State) (p : Pos) (n : RfPath) (hs : (s.seq p).state = .drain) : SeqStep s (s.pathInDrain p n) := by
  unfold State.pathInDrain
  have hn : (s.seq p).state ≠ .idle := by simp [hs]
  split
  · exact (onSeq_step s p _ (by simp [Sequencer.holds, hs]) (fun h => absurd h (not_active hn))).trans (handOverRoute_step _ p)
  · exact onSeq_step s p _ (by simp [Sequencer.holds, hs]) (fun h => absurd h (not_active hn))

theorem pathInBreak_step (s : State) (p : Pos) (n : RfPath) (b : Option Ant) (hs : (s.seq p).state = .brk b) : SeqStep s (s.pathInBreak p n) := by
  unfold State.pathInBreak
  have hn : (s.seq p).state ≠ .idle := by simp [hs]
  split <;> exact onSeq_step s p _ (by simp [Sequencer.holds, hs]) (fun h => absurd h (not_active hn))

theorem pathInHoldoff_step (s : State) (p : Pos) (n : RfPath) (hs : (s.seq p).state = .holdoff) : SeqStep s (s.pathInHoldoff p n) := by
  unfold State.pathInHoldoff
  have hn : (s.seq p).state ≠ .idle := by simp [hs]
  have h1 : SeqStep s (s.onSeq p fun q => { q with target := n }) :=
    onSeq_step s p _ (by simp [Sequencer.holds, hs]) (fun h => absurd h (not_active hn))
  simp only []
  split
  · split
    · rename_i ha
      exact h1.trans (completeChange_step _ p (by simpa using hn) (by simp [Sequencer.holds, hs, ha]))
    · exact h1.trans (retestHoldoff_step _ p)
  · refine h1.trans (onSeq_step _ p _ (by simp [Sequencer.holds, hs]) (fun h => absurd h (not_active (by simpa using hn))))

theorem pathInMake_step (s : State) (p : Pos) (n : RfPath) (m : Option RfPath) (hs : (s.seq p).state = .make m) : SeqStep s (s.pathInMake p n) :=
  onSeq_step s p _ (by simp [Sequencer.holds, hs]) (fun h => absurd h (not_active (by simp [hs])))

/-- A pair given to a sequencer (R102). -/
theorem givePath_step (s : State) (p : Pos) (n : RfPath) : SeqStep s (s.givePath p n) := by
  unfold State.givePath
  split
  · exact .refl s
  · split
    · rename_i hs; exact pathInIdle_step s p n hs
    · rename_i hs; exact pathInDrain_step s p n hs
    · rename_i hs; exact pathInBreak_step s p n _ hs
    · rename_i hs; exact pathInHoldoff_step s p n hs
    · rename_i hs; exact pathInMake_step s p n _ hs

theorem giveFilter_step (s : State) (p : Pos) (f : Option Band) : SeqStep s (s.giveFilter p f) := givePath_step s p _

theorem giveAntenna_step (s : State) (p : Pos) (a : Option Ant) : SeqStep s (s.giveAntenna p a) := givePath_step s p _

/-! ### The end of MAKE (R108) -/

theorem finishMake_step (s : State) (p : Pos) (next : Option RfPath) (m : Option RfPath) (hs : (s.seq p).state = .make m) :
    SeqStep s (s.finishMake p next) := by
  have hn : (s.seq p).state ≠ .idle := by simp [hs]
  have hh : (s.seq p).target.antenna = (s.seq p).holds := by simp [Sequencer.holds, hs]
  unfold State.finishMake
  split
  · exact completeChange_step s p hn hh
  · split
    · exact completeChange_step s p hn hh
    · rename_i n _
      have h1 := (settlePath_step s p hn hh).trans (report_arb (s.settlePath p) [p]
        (.route p ((s.settlePath p).band p) ((s.settlePath p).seq p).current.filter ((s.settlePath p).seq p).current.antenna .changing .settled)).step
      have hst : (((s.settlePath p).reportRoute p .changing).seq p).state = .idle := by
        unfold State.reportRoute
        rw [(report_arb _ _ _).seq]
        simp [State.settlePath]
      refine (h1.trans (onSeq_step ((s.settlePath p).reportRoute p .changing) p (fun q => { q with target := n }) ?_ (fun h => ?_))).trans (startChange_step _ p ?_)
      · simp [Sequencer.holds, hst]
      · simpa [State.routeStatus, hst] using h
      · simpa using hst

end Sys2Proof.Machine
end

