-- ==== Sys2Proof/Laws/Requested.lean ====
section
/-! SUPPORT. The requested path of a sequencer (R102): what each operation of the sequencers leaves it at, and that giving a path makes it the path given. -/

namespace Sys2Proof.Machine

/-- After an operation the requested path of one position is a path, and that of every other is as it was. -/
structure Asks (s t : State) (p : Pos) (n : RfPath) : Prop where
  here : (t.seq p).requested = n
  there : ∀ q, q ≠ p → (t.seq q).requested = (s.seq q).requested

/-- An operation that changes no requested path. -/
def AsksAlike (s t : State) : Prop := ∀ q, (t.seq q).requested = (s.seq q).requested

theorem AsksAlike.refl (s : State) : AsksAlike s s := fun _ => rfl
theorem AsksAlike.trans {s t u : State} (h : AsksAlike s t) (k : AsksAlike t u) : AsksAlike s u := fun q => (k q).trans (h q)
theorem Asks.alike {s t u : State} {p : Pos} {n : RfPath} (h : Asks s t p n) (k : AsksAlike t u) : Asks s u p n :=
  ⟨(k p).trans h.here, fun q hq => (k q).trans (h.there q hq)⟩
theorem AsksAlike.asks {s t : State} (h : AsksAlike s t) {p : Pos} {n : RfPath} (hn : (s.seq p).requested = n) : Asks s t p n :=
  ⟨(h p).trans hn, fun q _ => h q⟩
theorem AsksAlike.before {s t u : State} {p : Pos} {n : RfPath} (h : AsksAlike s t) (k : Asks t u p n) : Asks s u p n :=
  ⟨k.here, fun q hq => (k.there q hq).trans (h q)⟩
theorem Asks.again {s t u : State} {p : Pos} {m n : RfPath} (h : Asks s t p m) (k : Asks t u p n) : Asks s u p n :=
  ⟨k.here, fun q hq => (k.there q hq).trans (h.there q hq)⟩

theorem ArbFrame.asks {s t : State} (h : ArbFrame s t) : AsksAlike s t := fun q => by rw [h.seq]

theorem forEach_asks {α : Type} (l : List α) (f : α → State → State) (h : ∀ x s, AsksAlike s (f x s)) (s : State) : AsksAlike s (forEach l f s) := by
  induction l generalizing s with
  | nil => exact .refl s
  | cons x rest ih => exact (h x s).trans (ih _)

theorem onSeq_asks (s : State) (p : Pos) (f : Sequencer → Sequencer) (n : RfPath) (h : (f (s.seq p)).requested = n) : Asks s (s.onSeq p f) p n :=
  ⟨by simpa using h, fun q hq => by simp [onSeq_at, hq]⟩

theorem requested_idle {q : Sequencer} (h : ∀ n, q.state ≠ .make (some n)) : q.requested = q.target := by
  unfold Sequencer.requested
  split
  · rename_i n hn; exact absurd hn (h n)
  · rfl

/-- Asking for the target of a sequencer outside MAKE changes no requested path. -/
theorem Asks.alikeOf {s t : State} {p : Pos} (h : Asks s t p (s.seq p).target) (hs : ∀ n, (s.seq p).state ≠ .make (some n)) : AsksAlike s t := fun q => by
  by_cases e : q = p
  · subst e; rw [h.here, requested_idle hs]
  · exact h.there q e

theorem settlePath_asks (s : State) (p : Pos) : Asks s (s.settlePath p) p (s.seq p).target :=
  (onSeq_asks s p (fun q => { q with current := q.target, state := .idle, phase := none }) _ rfl).alike (u := s.settlePath p) (fun _ => rfl)

theorem handOverRoute_asks (s : State) (p : Pos) : AsksAlike s (s.handOverRoute p) := ((report_arb _ _ _).trans (routeSettled_arb _ p)).asks

theorem completeChange_asks (s : State) (p : Pos) : Asks s (s.completeChange p) p (s.seq p).target := (settlePath_asks s p).alike (handOverRoute_asks _ p)

theorem beginMake_asks (s : State) (p : Pos) (a : Ant) : Asks s (s.beginMake p a) p (s.seq p).target :=
  have h := onSeq_asks (s.onAnt a fun r => { r with connected := some p }) p (fun q => { q with state := .make none, phase := s.load (s.config a).settle }) _ rfl
  ⟨h.here, h.there⟩

theorem waitInHoldoff_asks (s : State) (p : Pos) : Asks s (s.waitInHoldoff p) p (s.seq p).target := onSeq_asks s p _ _ rfl

theorem enterHoldoff_asks (s : State) (p : Pos) : Asks s (s.enterHoldoff p) p (s.seq p).target := by
  unfold State.enterHoldoff
  split
  · exact completeChange_asks s p
  · split
    · exact beginMake_asks s p _
    · exact waitInHoldoff_asks s p

theorem retestHoldoff_asks (s : State) (p : Pos) : AsksAlike s (s.retestHoldoff p) := by
  unfold State.retestHoldoff
  split
  · rename_i a hs ht
    split
    · intro q
      have h := beginMake_asks s p a
      by_cases e : q = p
      · subst e
        rw [h.here, requested_idle (fun n => by rw [hs]; simp)]
      · exact h.there q e
    · exact .refl s
  · exact .refl s

theorem antennaCleared_asks (s : State) (a : Ant) : AsksAlike s (s.antennaCleared a) :=
  forEach_asks _ _ (fun q u => by
    split
    · exact retestHoldoff_asks u q
    · exact .refl u) s

theorem relayOpened_asks (s : State) (a : Option Ant) : AsksAlike s (s.relayOpened a) := by
  unfold State.relayOpened
  split
  · exact antennaCleared_asks s _
  · exact .refl s

theorem openRelay_seq (s : State) (a : Option Ant) (q : Pos) : (s.openRelay a).seq q = s.seq q := by
  unfold State.openRelay
  split <;> rfl

theorem enterBreak_asks (s : State) (p : Pos) : Asks s (s.enterBreak p) p (s.seq p).target := by
  unfold State.enterBreak
  refine Asks.alike ?_ (relayOpened_asks _ _)
  have h1 : Asks s ((s.openRelay (s.seq p).current.antenna).onSeq p
      fun q => { q with state := .brk (s.seq p).current.antenna, setFilter := q.target.filter, phase := s.load (s.breakTime p) }) p (s.seq p).target := by
    refine AsksAlike.before (fun q => by rw [openRelay_seq]) (onSeq_asks _ p _ _ ?_)
    rw [openRelay_seq]; rfl
  split
  · refine h1.again ?_
    have := enterHoldoff_asks ((s.openRelay (s.seq p).current.antenna).onSeq p
      fun q => { q with state := .brk (s.seq p).current.antenna, setFilter := q.target.filter, phase := s.load (s.breakTime p) }) p
    simpa [openRelay_seq] using this
  · exact h1

theorem enterDrain_asks (s : State) (p : Pos) (hs : (s.seq p).state = .drain) : Asks s (s.enterDrain p) p (s.seq p).target := by
  unfold State.enterDrain
  split
  · exact enterBreak_asks s p
  · split
    · exact onSeq_asks s p _ _ (requested_idle (by simp [hs]))
    · exact enterBreak_asks s p

theorem startChange_asks (s : State) (p : Pos) : Asks s (s.startChange p) p (s.seq p).target := by
  have h1 : Asks s (s.onSeq p fun q => { q with state := .drain }) p (s.seq p).target := onSeq_asks s p _ _ rfl
  have ha := routeChanging_arb (s.onSeq p fun q => { q with state := .drain }) p
  have h3 := enterDrain_asks ((s.onSeq p fun q => { q with state := .drain }).routeChanging p) p (by rw [ha.seq]; simp)
  rw [ha.seq] at h3
  have h4 := (h1.alike ha.asks).again h3
  have e : ((s.onSeq p fun q => { q with state := .drain }).seq p).target = (s.seq p).target := by simp
  rw [e] at h4
  exact h4

/-- Giving a path makes it the requested path (R102). -/
theorem givePath_asks (s : State) (p : Pos) (n : RfPath) : Asks s (s.givePath p n) p n := by
  unfold State.givePath
  split
  · rename_i h
    exact (AsksAlike.refl s).asks h.symm
  · have h1 : ∀ m, (∀ k, (s.seq p).state ≠ .make k) → Asks s (s.onSeq p fun q => { q with target := m }) p m := fun m hs =>
      onSeq_asks s p _ _ (requested_idle (fun k => hs _))
    split
    · rename_i hs
      unfold State.pathInIdle
      simp only []
      have h2 := h1 n (by simp [hs])
      split
      · exact h2
      · have := h2.again (startChange_asks (s.onSeq p fun q => { q with target := n }) p)
        simpa using this
    · rename_i hs
      unfold State.pathInDrain
      split
      · exact (onSeq_asks s p (fun q => { q with target := n, state := .idle, phase := none }) n rfl).alike (handOverRoute_asks _ p)
      · exact h1 n (by simp [hs])
    · rename_i b hs
      unfold State.pathInBreak
      split
      · exact h1 n (by simp [hs])
      · exact onSeq_asks s p _ _ (requested_idle (by simp [hs]))
    · rename_i hs
      unfold State.pathInHoldoff
      simp only []
      have h2 := h1 n (by simp [hs])
      split
      · split
        · have := h2.again (completeChange_asks (s.onSeq p fun q => { q with target := n }) p)
          simpa using this
        · exact h2.alike (retestHoldoff_asks _ p)
      · refine h2.again (onSeq_asks _ p _ _ ?_)
        simp [Sequencer.requested]
    · rename_i m hs
      unfold State.pathInMake
      refine onSeq_asks s p _ _ ?_
      by_cases e : n = (s.seq p).target
      · simp [Sequencer.requested, e]
      · simp [Sequencer.requested, e]

theorem giveAntenna_asks (s : State) (p : Pos) (a : Option Ant) : Asks s (s.giveAntenna p a) p { (s.seq p).requested with antenna := a } := givePath_asks s p _

theorem giveFilter_asks (s : State) (p : Pos) (f : Option Band) : Asks s (s.giveFilter p f) p { (s.seq p).requested with filter := f } := givePath_asks s p _

/-- The end of MAKE leaves the requested path as it was (R108). -/
theorem finishMake_asks (s : State) (p : Pos) (next : Option RfPath) (hs : (s.seq p).state = .make next) : AsksAlike s (s.finishMake p next) := by
  have hr : (s.seq p).requested = next.getD (s.seq p).target := by
    unfold Sequencer.requested
    rw [hs]
    cases next <;> rfl
  have key : Asks s (s.finishMake p next) p (next.getD (s.seq p).target) := by
    unfold State.finishMake
    split
    · exact completeChange_asks s p
    · rename_i n
      split
      · rename_i e
        have := completeChange_asks s p
        rw [← e] at this
        exact this
      · have h1 : Asks s ((s.settlePath p).reportRoute p .changing) p (s.seq p).target := (settlePath_asks s p).alike (report_arb _ _ _).asks
        have hst : (((s.settlePath p).reportRoute p .changing).seq p).state = .idle := by
          unfold State.reportRoute
          rw [(report_arb _ _ _).seq]
          simp [State.settlePath]
        have h2 := h1.again (onSeq_asks ((s.settlePath p).reportRoute p .changing) p (fun q => { q with target := n }) n (requested_idle (by simp [hst])))
        have h3 := h2.again (startChange_asks (((s.settlePath p).reportRoute p .changing).onSeq p (fun q => { q with target := n })) p)
        simpa using h3
  intro q
  by_cases e : q = p
  · subst e; rw [key.here, hr]
  · exact key.there q e

/-! ### The requested paths and the owners (R102) -/

theorem RequestsExact.same {s t : State} (hs : AsksAlike s t) (hb : ∀ p, t.band p = s.band p) (ho : ∀ a, (t.ant a).owner = (s.ant a).owner)
    (i : RequestsExact s) : RequestsExact t := fun p => by
  rw [hs p, hb]
  exact ⟨(i p).1, fun a => by rw [ho]; exact (i p).2 a⟩

theorem RequestsExact.unowned {s : State} (i : RequestsExact s) {a : Ant} (h : (s.ant a).owner = none) (p : Pos) : (s.seq p).requested.antenna ≠ some a := fun e => by
  have := ((i p).2 a).2 e
  rw [h] at this; cases this

end Sys2Proof.Machine
end

