-- ==== Sys2Proof/Laws/Keeps.lean ====
section
/-! SUPPORT. What the operations above the sequencers may do, as one relation that composes: the bounds of the links, no relay moved on a port with presence, and the invariants of keys, relays and owners kept. -/

namespace Sys2Proof.Machine

/-- What an operation of the Route Controller, the Follow Selector, the Tap Controller, the Antenna Table or a Band Decoder may do. -/
structure Moves (s t : State) : Prop where
  powered : t.powered = s.powered
  resetIsLow : t.resetIsLow = s.resetIsLow
  timebase : t.timebase = s.timebase
  pending : t.pending = s.pending
  auxLines : t.auxLines = s.auxLines
  aux : t.settings.aux = s.settings.aux
  lineInputs : t.lineInputs = s.lineInputs
  pttInputs : t.pttInputs = s.pttInputs
  couplers : t.couplers = s.couplers
  store : t.store = s.store
  links : ∀ port, (s.link port).grows (t.link port)
  presence : ∀ a, (t.ant a).presence = (s.ant a).presence
  quiet : ∀ a, (t.ant a).connected ≠ (s.ant a).connected → (s.ant a).presence = false
  inv : RouteInv s → RouteInv t

/-- Such an operation, with a position owning at most one antenna after it as before (R56). -/
structure Keeps (s t : State) : Prop extends Moves s t where
  owned : OneOwned s → OneOwned t
  claims : ClaimsExact s → ClaimsExact t
  asks : RequestsExact s → RequestsExact t

theorem Keeps.refl (s : State) : Keeps s s :=
  ⟨⟨rfl, rfl, rfl, rfl, rfl, rfl, rfl, rfl, rfl, rfl, fun _ => Link.grows_refl _, fun _ => rfl, fun _ h => absurd rfl h, id⟩, id, id, id⟩

theorem Moves.trans {s t u : State} (h : Moves s t) (k : Moves t u) : Moves s u where
  powered := k.powered.trans h.powered
  resetIsLow := k.resetIsLow.trans h.resetIsLow
  timebase := k.timebase.trans h.timebase
  pending := k.pending.trans h.pending
  auxLines := k.auxLines.trans h.auxLines
  aux := k.aux.trans h.aux
  lineInputs := k.lineInputs.trans h.lineInputs
  pttInputs := k.pttInputs.trans h.pttInputs
  couplers := k.couplers.trans h.couplers
  store := k.store.trans h.store
  links port := Link.grows_trans (h.links port) (k.links port)
  presence a := (k.presence a).trans (h.presence a)
  quiet a d := by
    by_cases hh : (t.ant a).connected = (s.ant a).connected
    · rw [← h.presence a]; exact k.quiet a (fun e => d (e.trans hh))
    · exact h.quiet a hh
  inv i := k.inv (h.inv i)

theorem Keeps.trans {s t u : State} (h : Keeps s t) (k : Keeps t u) : Keeps s u := ⟨h.toMoves.trans k.toMoves, fun i => k.owned (h.owned i), fun i => k.claims (h.claims i), fun i => k.asks (h.asks i)⟩

/-- The claims read nothing but the queues, the pointers and the owners. -/
theorem ClaimsExact.same {s t : State} (hc : ∀ a, t.claims a = s.claims a) (hw : ∀ p, t.waitsOn p = s.waitsOn p)
    (ho : ∀ a, (t.ant a).owner = (s.ant a).owner) (i : ClaimsExact s) : ClaimsExact t :=
  ⟨fun a c h => by rw [hw]; exact i.pointed a c (hc a ▸ h), fun p a h => by rw [hc]; exact i.queued p a (hw p ▸ h),
    fun a => by rw [hc]; exact i.once a, fun p a h => by rw [ho]; exact i.notOwner p a (hw p ▸ h)⟩

theorem SeqStep.keeps {s t : State} (h : SeqStep s t) (hr : AsksAlike s t) : Keeps s t where
  powered := h.powered
  resetIsLow := h.resetIsLow
  timebase := h.timebase
  pending := h.pending
  auxLines := h.auxLines
  aux := by rw [h.settings]
  lineInputs := h.lineInputs
  pttInputs := h.pttInputs
  couplers := h.couplers
  store := h.store
  links := h.links
  presence := h.presence
  quiet := h.quiet
  inv := h.inv
  owned i := fun a b p ha hb => i a b p (h.owner a ▸ ha) (h.owner b ▸ hb)
  claims := ClaimsExact.same (fun a => by simp [State.claims, h.claimQueues]) (fun p => by simp [State.waitsOn, h.claimPointers]) h.owner
  asks := RequestsExact.same hr h.band h.owner

theorem ArbFrame.keeps {s t : State} (h : ArbFrame s t) : Keeps s t := h.step.keeps h.asks

theorem report_keeps (s : State) (consoles : List Pos) (body : ReportBody) : Keeps s (s.report consoles body) := (report_arb s consoles body).keeps

theorem forEach_keeps {α : Type} (l : List α) (f : α → State → State) (h : ∀ x s, Keeps s (f x s)) (s : State) : Keeps s (forEach l f s) := by
  induction l generalizing s with
  | nil => exact .refl s
  | cons x rest ih => exact (h x s).trans (ih _)

/-- The invariants of keys and relays read nothing but the keys, TXEN, the waiting list, HOLD, the taps, the sequencers, and the presence and connected positions. -/
theorem RouteInv.same {s t : State} (hk : ∀ p, t.key p = s.key p) (hx : ∀ p, t.txen p = s.txen p) (hw : t.waiting = s.waiting)
    (hh : t.holdOn = s.holdOn) (ht : ∀ a, t.tap a = s.tap a) (hs : ∀ p, t.seq p = s.seq p)
    (ha : ∀ a, (t.ant a).presence = (s.ant a).presence ∧ (t.ant a).connected = (s.ant a).connected) (i : RouteInv s) : RouteInv t where
  keys := i.keys.of hk hx hw hh (fun a => by rw [ht a, (ha a).1]; exact i.keys.taps a)
  onRoute p b := by
    have := i.onRoute p (by simpa [State.granted, hk] using b)
    simpa [State.routeStatus, hs] using this
  relays p a := by rw [(ha a).2, hs]; exact i.relays p a

/-- An update of what no invariant reads, and of nothing that the frame names. -/
theorem Keeps.plain {s t : State} (h1 : t.powered = s.powered) (h2 : t.resetIsLow = s.resetIsLow) (h3 : t.timebase = s.timebase) (h4 : t.pending = s.pending)
    (h5 : t.auxLines = s.auxLines) (h6 : t.settings.aux = s.settings.aux) (h7 : t.lineInputs = s.lineInputs) (h8 : t.pttInputs = s.pttInputs)
    (h9 : t.couplers = s.couplers) (h10 : t.store = s.store) (h11 : ∀ port, (s.link port).grows (t.link port))
    (hk : ∀ p, t.key p = s.key p) (hx : ∀ p, t.txen p = s.txen p) (hw : t.waiting = s.waiting)
    (hh : t.holdOn = s.holdOn) (ht : ∀ a, t.tap a = s.tap a) (hs : ∀ p, t.seq p = s.seq p)
    (ha : ∀ a, (t.ant a).presence = (s.ant a).presence ∧ (t.ant a).connected = (s.ant a).connected)
    (ho : OneOwned s → OneOwned t) (hl : ClaimsExact s → ClaimsExact t)
    (hq : RequestsExact s → RequestsExact t) : Keeps s t :=
  ⟨⟨h1, h2, h3, h4, h5, h6, h7, h8, h9, h10, h11, fun a => (ha a).1, fun a d => absurd (ha a).2 d, RouteInv.same hk hx hw hh ht hs ha⟩, ho, hl, hq⟩

theorem OneOwned.same {s t : State} (h : ∀ a, (t.ant a).owner = (s.ant a).owner) (i : OneOwned s) : OneOwned t :=
  fun a b p ha hb => i a b p (h a ▸ ha) (h b ▸ hb)

theorem onSettings_keeps (s : State) (f : Settings → Settings) (h : (f s.settings).aux = s.settings.aux) : Keeps s (s.onSettings f) :=
  .plain rfl rfl rfl rfl rfl h rfl rfl rfl rfl (fun _ => Link.grows_refl _) (fun _ => rfl) (fun _ => rfl) rfl rfl (fun _ => rfl) (fun _ => rfl) (fun _ => ⟨rfl, rfl⟩) id
    (ClaimsExact.same (fun _ => rfl) (fun _ => rfl) (fun _ => rfl)) (RequestsExact.same (fun _ => rfl) (fun _ => rfl) (fun _ => rfl))

theorem onPlace_keeps (s : State) (p : Pos) (f : PositionConfig → PositionConfig) : Keeps s (s.onPlace p f) := onSettings_keeps s _ rfl

theorem onConfig_keeps (s : State) (a : Ant) (f : AntennaConfig → AntennaConfig) : Keeps s (s.onConfig a f) := onSettings_keeps s _ rfl

theorem onDec_keeps (s : State) (p : Pos) (f : Decoder → Decoder) (h : (f (s.dec p)).band = (s.dec p).band) : Keeps s (s.onDec p f) :=
  .plain rfl rfl rfl rfl rfl rfl rfl rfl rfl rfl (fun _ => Link.grows_refl _) (fun _ => rfl) (fun _ => rfl) rfl rfl (fun _ => rfl) (fun _ => rfl) (fun _ => ⟨rfl, rfl⟩) id
    (ClaimsExact.same (fun _ => rfl) (fun _ => rfl) (fun _ => rfl)) (RequestsExact.same (fun _ => rfl) (fun q => by
      unfold State.band
      by_cases e : q = p
      · subst e; simpa using h
      · simp [onDec_at, e]) (fun _ => rfl))

/-- An update of the queues and the pointers. -/
theorem claims_keeps (s : State) (a : Ant) (f : List Claim → List Claim) (p : Pos) (v : Option Ant)
    (h : ClaimsExact s → ClaimsExact ((s.onClaims a f).setWaitsOn p v)) : Keeps s ((s.onClaims a f).setWaitsOn p v) :=
  .plain rfl rfl rfl rfl rfl rfl rfl rfl rfl rfl (fun _ => Link.grows_refl _) (fun _ => rfl) (fun _ => rfl) rfl rfl (fun _ => rfl) (fun _ => rfl) (fun _ => ⟨rfl, rfl⟩) id h
    (RequestsExact.same (fun _ => rfl) (fun _ => rfl) (fun _ => rfl))

theorem onSensor_keeps (s : State) (a : Ant) (f : SensorRecord → SensorRecord) : Keeps s (s.onSensor a f) :=
  .plain rfl rfl rfl rfl rfl rfl rfl rfl rfl rfl (fun _ => Link.grows_refl _) (fun _ => rfl) (fun _ => rfl) rfl rfl (fun _ => rfl) (fun _ => rfl) (fun _ => ⟨rfl, rfl⟩) id
    (ClaimsExact.same (fun _ => rfl) (fun _ => rfl) (fun _ => rfl)) (RequestsExact.same (fun _ => rfl) (fun _ => rfl) (fun _ => rfl))

theorem setListen_keeps (s : State) (p : Pos) (v : Option Ant) : Keeps s (s.setListen p v) :=
  .plain rfl rfl rfl rfl rfl rfl rfl rfl rfl rfl (fun _ => Link.grows_refl _) (fun _ => rfl) (fun _ => rfl) rfl rfl (fun _ => rfl) (fun _ => rfl) (fun _ => ⟨rfl, rfl⟩) id
    (ClaimsExact.same (fun _ => rfl) (fun _ => rfl) (fun _ => rfl)) (RequestsExact.same (fun _ => rfl) (fun _ => rfl) (fun _ => rfl))

theorem setPointer_keeps (s : State) (p : Pos) : Keeps s (s.setPointer p) :=
  .plain rfl rfl rfl rfl rfl rfl rfl rfl rfl rfl (fun _ => Link.grows_refl _) (fun _ => rfl) (fun _ => rfl) rfl rfl (fun _ => rfl) (fun _ => rfl) (fun _ => ⟨rfl, rfl⟩) id
    (ClaimsExact.same (fun _ => rfl) (fun _ => rfl) (fun _ => rfl)) (RequestsExact.same (fun _ => rfl) (fun _ => rfl) (fun _ => rfl))

/-- A key's record changes but for its state and its grant. -/
theorem onKey_keeps (s : State) (p : Pos) (f : KeyRecord → KeyRecord) (hs : (f (s.key p)).state = (s.key p).state)
    (hg : (f (s.key p)).grant = (s.key p).grant) : Keeps s (s.onKey p f) := by
  have hst : ∀ q, ((s.onKey p f).key q).state = (s.key q).state := fun q => by
    by_cases h : q = p
    · subst h; simpa using hs
    · simp [onKey_at, h]
  have hgr : ∀ q, ((s.onKey p f).key q).grant = (s.key q).grant := fun q => by
    by_cases h : q = p
    · subst h; simpa using hg
    · simp [onKey_at, h]
  refine ⟨⟨rfl, rfl, rfl, rfl, rfl, rfl, rfl, rfl, rfl, rfl, fun _ => Link.grows_refl _, fun _ => rfl, fun _ d => absurd rfl d, fun i => ⟨⟨fun q => ?_, i.keys.taps, fun hh q => ?_, fun q => ?_, i.keys.waiting.1, fun q => ?_⟩,
    fun q b => ?_, i.relays⟩⟩, id, ClaimsExact.same (fun _ => rfl) (fun _ => rfl) (fun _ => rfl),
    RequestsExact.same (fun _ => rfl) (fun _ => rfl) (fun _ => rfl)⟩
  · rw [hst]; exact i.keys.txen q
  · rw [State.granted, hst]; exact i.keys.hold hh q
  · rw [State.granted, hst, hgr]; exact i.keys.grants q
  · rw [hst]; exact i.keys.waiting.2 q
  · rw [State.granted, hst] at b; exact i.onRoute q b

/-- An antenna's record changes but for its owner, its connected position and its presence. -/
theorem onAnt_keeps (s : State) (a : Ant) (f : AntennaRecord → AntennaRecord) (hp : (f (s.ant a)).presence = (s.ant a).presence)
    (hc : (f (s.ant a)).connected = (s.ant a).connected) (ho : (f (s.ant a)).owner = (s.ant a).owner) : Keeps s (s.onAnt a f) := by
  have h : ∀ b, ((s.onAnt a f).ant b).presence = (s.ant b).presence ∧ ((s.onAnt a f).ant b).connected = (s.ant b).connected
      ∧ ((s.onAnt a f).ant b).owner = (s.ant b).owner := fun b => by
    by_cases e : b = a
    · subst e; simp [hp, hc, ho]
    · simp [onAnt_at, e]
  exact .plain rfl rfl rfl rfl rfl rfl rfl rfl rfl rfl (fun _ => Link.grows_refl _) (fun _ => rfl) (fun _ => rfl) rfl rfl (fun _ => rfl) (fun _ => rfl)
    (fun b => ⟨(h b).1, (h b).2.1⟩) (OneOwned.same fun b => (h b).2.2) (ClaimsExact.same (fun _ => rfl) (fun _ => rfl) fun b => (h b).2.2)
    (RequestsExact.same (fun _ => rfl) (fun _ => rfl) fun b => (h b).2.2)

/-! ### Taps (R154 to R161) -/

/-- The slots of an antenna change and its taps are commanded again (R154). -/
theorem recommand_keeps (s : State) (a : Ant) (f : TapRecord → TapRecord) : Keeps s ((s.onTap a f).commandTaps a) := by
  refine ⟨⟨rfl, rfl, rfl, rfl, rfl, rfl, rfl, rfl, rfl, rfl, fun _ => Link.grows_refl _, fun _ => rfl, fun _ d => absurd rfl d,
    fun i => ⟨i.keys.of (fun _ => rfl) (fun _ => rfl) rfl rfl (fun b => ?_), i.onRoute, i.relays⟩⟩, id, ClaimsExact.same (fun _ => rfl) (fun _ => rfl) (fun _ => rfl),
    RequestsExact.same (fun _ => rfl) (fun _ => rfl) (fun _ => rfl)⟩
  by_cases e : b = a
  · subst e; simp [State.commandTaps]
  · simpa [State.commandTaps, onTap_at, e] using i.keys.taps b

theorem commandTaps_keeps (s : State) (a : Ant) : Keeps s (s.commandTaps a) := by
  refine ⟨⟨rfl, rfl, rfl, rfl, rfl, rfl, rfl, rfl, rfl, rfl, fun _ => Link.grows_refl _, fun _ => rfl, fun _ d => absurd rfl d,
    fun i => ⟨i.keys.of (fun _ => rfl) (fun _ => rfl) rfl rfl (fun b => ?_), i.onRoute, i.relays⟩⟩, id, ClaimsExact.same (fun _ => rfl) (fun _ => rfl) (fun _ => rfl),
    RequestsExact.same (fun _ => rfl) (fun _ => rfl) (fun _ => rfl)⟩
  by_cases e : b = a
  · subst e; simp [State.commandTaps]
  · simpa [State.commandTaps, onTap_at, e] using i.keys.taps b

theorem freeSlot_keeps (s : State) (a : Ant) (second : Bool) (cause : TapCause) : Keeps s (s.freeSlot a second cause) := by
  unfold State.freeSlot
  split
  · exact .refl s
  · exact ((recommand_keeps s a _).trans (setListen_keeps _ _ _)).trans (report_keeps _ _ _)

theorem freeTapOf_keeps (s : State) (p : Pos) (a : Ant) (cause : TapCause) : Keeps s (s.freeTapOf p a cause) := by
  unfold State.freeTapOf
  split
  · exact freeSlot_keeps _ _ _ _
  · split
    · exact freeSlot_keeps _ _ _ _
    · exact .refl s

theorem freeBothSlots_keeps (s : State) (a : Ant) (cause : TapCause) : Keeps s (s.freeBothSlots a cause) :=
  (freeSlot_keeps _ _ _ _).trans (freeSlot_keeps _ _ _ _)

theorem takeSlot_keeps (s : State) (p : Pos) (a : Ant) : Keeps s (s.takeSlot p a) :=
  ((recommand_keeps s a _).trans (setListen_keeps _ _ _)).trans (report_keeps _ _ _)

/-! ### Claims (R58 to R75) -/

theorem claimReport_keeps (s : State) (a : Ant) (p : Pos) (o : Option Origin) (e : ClaimEvent) : Keeps s (s.claimReport a p o e) := report_keeps _ _ _

theorem claims_removeClaim (s : State) (p : Pos) (a b : Ant) :
    (s.removeClaim p a).claims b = if b = a then (s.claims a).filter fun c => c.position != p else s.claims b := by
  by_cases h : b = a
  · subst h; simp [State.removeClaim]
  · simp [State.removeClaim, onClaims_at, h]

theorem waitsOn_removeClaim (s : State) (p q : Pos) (a : Ant) : (s.removeClaim p a).waitsOn q = if q = p then none else s.waitsOn q := by
  by_cases h : q = p
  · subst h; simp [State.removeClaim]
  · simp [State.removeClaim, setWaitsOn_at, h]

theorem removeClaim_exact (s : State) (p : Pos) (a : Ant) (h : s.waitsOn p = none ∨ s.waitsOn p = some a) (i : ClaimsExact s) : ClaimsExact (s.removeClaim p a) := by
  refine ⟨fun b c hc => ?_, fun q b hq => ?_, fun b => ?_, fun q b hq => ?_⟩
  · rw [claims_removeClaim] at hc
    rw [waitsOn_removeClaim]
    split at hc
    · rename_i e
      subst e
      have hm := List.mem_filter.1 hc
      have hn : c.position ≠ p := by simpa using hm.2
      rw [if_neg hn]
      exact i.pointed b c hm.1
    · rename_i e
      have hw := i.pointed b c hc
      by_cases hn : c.position = p
      · rw [hn] at hw
        rcases h with h | h
        · rw [h] at hw; cases hw
        · rw [h] at hw; cases hw; exact absurd rfl e
      · rw [if_neg hn]; exact hw
  · rw [waitsOn_removeClaim] at hq
    split at hq
    · cases hq
    · rename_i hn
      obtain ⟨c, hc, e⟩ := i.queued q b hq
      refine ⟨c, ?_, e⟩
      rw [claims_removeClaim]
      split
      · rename_i hb
        subst hb
        exact List.mem_filter.2 ⟨hc, by simpa [e] using hn⟩
      · exact hc
  · rw [claims_removeClaim]
    split
    · exact (i.once a).sublist (List.filter_sublist.map _)
    · exact i.once b
  · rw [waitsOn_removeClaim] at hq
    split at hq
    · cases hq
    · exact i.notOwner q b hq

theorem removeClaim_keeps (s : State) (p : Pos) (a : Ant) (h : ClaimsExact s → s.waitsOn p = none ∨ s.waitsOn p = some a) : Keeps s (s.removeClaim p a) :=
  claims_keeps _ _ _ _ _ fun i => removeClaim_exact s p a (h i) i

theorem waitingClaim_waitsOn {s : State} {p : Pos} {a : Ant} {c : Claim} (h : s.waitingClaim p = some (a, c)) : s.waitsOn p = some a := by
  unfold State.waitingClaim at h
  split at h
  · cases h
  · rename_i b hb
    simp only [Option.map_eq_some_iff, Prod.mk.injEq] at h
    obtain ⟨_, _, e, _⟩ := h
    rw [hb, e]

theorem removeWaiting_keeps (s : State) (p : Pos) (e : ClaimEvent) : Keeps s (s.removeWaiting p e) := by
  unfold State.removeWaiting
  split
  · rename_i a c h
    exact (removeClaim_keeps _ _ _ fun _ => .inr (waitingClaim_waitsOn h)).trans (claimReport_keeps _ _ _ _ _)
  · exact .refl s

theorem claimReport_waitsOn (s : State) (a : Ant) (p q : Pos) (o : Option Origin) (e : ClaimEvent) : (s.claimReport a p o e).waitsOn q = s.waitsOn q :=
  (report_arb _ _ _).waitsOn q

/-- A position whose waiting claim is removed waits nowhere. -/
theorem removeWaiting_waitsOn {s : State} {p : Pos} {e : ClaimEvent} (i : ClaimsExact (s.removeWaiting p e)) : (s.removeWaiting p e).waitsOn p = none := by
  unfold State.removeWaiting at i ⊢
  split
  · rw [claimReport_waitsOn, waitsOn_removeClaim, if_pos rfl]
  · rename_i h
    rw [h] at i
    have i : ClaimsExact s := i
    unfold State.waitingClaim at h
    split at h
    · assumption
    · rename_i a ha
      simp only [Option.map_eq_none_iff, List.find?_eq_none] at h
      obtain ⟨c, hc, hp⟩ := i.queued p a ha
      exact absurd (by simpa using hp) (h c hc)

theorem withdrawFollow_keeps (s : State) (p : Pos) : Keeps s (s.withdrawFollow p) := by
  unfold State.withdrawFollow
  split
  · exact removeWaiting_keeps _ _ _
  · exact .refl s

theorem followOff_keeps (s : State) (p : Pos) : Keeps s (s.followOff p) := (onPlace_keeps _ _ _).trans (withdrawFollow_keeps _ _)

theorem supersede_keeps (s : State) (p : Pos) (new : Ant) : Keeps s (s.supersede p new) := removeWaiting_keeps _ _ _

theorem dropClaim_keeps (s : State) (p : Pos) (r : ClaimReason) : Keeps s (s.dropClaim p r) := removeWaiting_keeps _ _ _

/-! ### Owners (R60, R67, R70) -/

theorem setOwner_owner (s : State) (a : Ant) (o : Option Pos) (b : Ant) : ((s.setOwner a o).ant b).owner = if b = a then o else (s.ant b).owner := by
  by_cases e : b = a
  · subst e; simp [State.setOwner]
  · simp [State.setOwner, onAnt_at, e]

theorem setOwner_moves (s : State) (a : Ant) (o : Option Pos) : Moves s (s.setOwner a o) := by
  refine ⟨rfl, rfl, rfl, rfl, rfl, rfl, rfl, rfl, rfl, rfl, fun _ => Link.grows_refl _, ?_, ?_, RouteInv.same (fun _ => rfl) (fun _ => rfl) rfl rfl (fun _ => rfl) (fun _ => rfl) ?_⟩
  all_goals
    intro b
    by_cases e : b = a
    · subst e; simp [State.setOwner]
    · simp [State.setOwner, onAnt_at, e]

theorem SeqStep.moves {s t : State} (h : SeqStep s t) : Moves s t :=
  ⟨h.powered, h.resetIsLow, h.timebase, h.pending, h.auxLines, by rw [h.settings], h.lineInputs, h.pttInputs, h.couplers, h.store, h.links, h.presence, h.quiet, h.inv⟩

theorem SeqStep.claims {s t : State} (h : SeqStep s t) (a : Ant) : t.claims a = s.claims a := by simp [State.claims, h.claimQueues]
theorem SeqStep.waitsOn {s t : State} (h : SeqStep s t) (p : Pos) : t.waitsOn p = s.waitsOn p := by simp [State.waitsOn, h.claimPointers]

theorem removeOwner_owner (s : State) (p : Pos) (a b : Ant) : ((s.removeOwner p a).ant b).owner = if b = a then none else (s.ant b).owner := by
  unfold State.removeOwner
  rw [(giveAntenna_step _ _ _).owner, setOwner_owner]

/-- An owner removed, with the antenna part none given (R67, R70, R71, R78). -/
theorem removeOwner_keeps (s : State) (p : Pos) (a : Ant) (h : (s.ant a).owner = some p) : Keeps s (s.removeOwner p a) := by
  have hst := giveAntenna_step (s.setOwner a none) p none
  refine ⟨(setOwner_moves _ _ _).trans hst.moves, fun i b c q hb hc => ?_, fun i => ⟨fun b c hc => ?_, fun q b hq => ?_, fun b => ?_, fun q b hq => ?_⟩, fun i q => ⟨?_, fun b => ?_⟩⟩
  · rw [removeOwner_owner] at hb hc
    split at hb
    · cases hb
    · split at hc
      · cases hc
      · exact i b c q hb hc
  · exact (hst.waitsOn _).trans (i.pointed b c (hst.claims b ▸ hc))
  · obtain ⟨c, hc, e⟩ := i.queued q b ((hst.waitsOn q).symm.trans hq)
    exact ⟨c, (hst.claims b).symm ▸ hc, e⟩
  · have e : (s.removeOwner p a).claims b = s.claims b := hst.claims b
    rw [e]; exact i.once b
  · rw [removeOwner_owner]
    split
    · simp
    · exact i.notOwner q b ((hst.waitsOn q).symm.trans hq)
  · have hb : (s.removeOwner p a).band q = s.band q := hst.band q
    rw [hb]
    have ha := giveAntenna_asks (s.setOwner a none) p none
    by_cases e : q = p
    · subst e
      have := ha.here
      unfold State.removeOwner
      rw [this]
      exact (i q).1
    · have := ha.there q e
      unfold State.removeOwner
      rw [this]
      exact (i q).1
  · rw [removeOwner_owner]
    have ha := giveAntenna_asks (s.setOwner a none) p none
    unfold State.removeOwner
    by_cases e : q = p
    · subst e
      rw [ha.here]
      have h1 := ((i q).2 a).1 h
      by_cases eb : b = a
      · simp [eb]
      · rw [if_neg eb]
        refine ⟨fun hb => ?_, fun hb => by simp at hb⟩
        have := ((i q).2 b).1 hb
        rw [h1] at this
        cases this
        exact absurd rfl eb
    · rw [ha.there q e]
      by_cases eb : b = a
      · subst eb
        simp only [if_true]
        refine ⟨fun hb => (by cases hb), fun hb => ?_⟩
        have := ((i q).2 b).2 hb
        rw [h] at this
        cases this
        exact absurd rfl e
      · rw [if_neg eb]
        exact (i q).2 b

/-! ### Grants (R60, R70) -/

theorem freeSlot_owner (s : State) (a : Ant) (second : Bool) (cause : TapCause) (b : Ant) : ((s.freeSlot a second cause).ant b).owner = (s.ant b).owner := by
  unfold State.freeSlot
  split
  · rfl
  · rw [(report_arb _ _ _).ant]; rfl

theorem freeTapOf_owner (s : State) (p : Pos) (a : Ant) (cause : TapCause) (b : Ant) : ((s.freeTapOf p a cause).ant b).owner = (s.ant b).owner := by
  unfold State.freeTapOf
  split
  · exact freeSlot_owner _ _ _ _ _
  · split
    · exact freeSlot_owner _ _ _ _ _
    · rfl

theorem claimReport_ant (s : State) (a : Ant) (p : Pos) (o : Option Origin) (e : ClaimEvent) (b : Ant) : (s.claimReport a p o e).ant b = s.ant b :=
  (report_arb _ _ _).ant b

theorem mem_allAnts : ∀ a : Ant, a ∈ allAnts := by decide

theorem mem_allPos : ∀ p : Pos, p ∈ allPos := by decide

theorem owned_spec {s : State} {p : Pos} {a : Ant} (i : OneOwned s) (h : (s.ant a).owner = some p) : s.owned p = some a := by
  unfold State.owned
  cases hf : allAnts.find? fun a => (s.ant a).owner == some p with
  | none =>
    have := List.find?_eq_none.1 hf a (mem_allAnts a)
    simp [h] at this
  | some b =>
    have hb := List.find?_some hf
    simp only [beq_iff_eq] at hb
    rw [i a b p h hb]

theorem owned_owner {s : State} {p : Pos} {a : Ant} (h : s.owned p = some a) : (s.ant a).owner = some p := by
  have := List.find?_some h
  simpa using this

theorem clearPrevious_moves (s : State) (previous : Option Ant) : Moves s (s.clearPrevious previous) := by
  unfold State.clearPrevious
  split
  · exact setOwner_moves _ _ _
  · exact (Keeps.refl s).toMoves

theorem makeOwner_owner (s : State) (p : Pos) (a : Ant) (o : Origin) (m : Manner) (previous : Option Ant) (b : Ant) :
    ((s.makeOwner p a o m previous).ant b).owner = if previous = some b then none else if b = a then some p else (s.ant b).owner := by
  have h : ((((((s.setOwner a (some p)).giveAntenna p (some a)).freeTapOf p a .owner).claimReport a p (some o) (.granted m previous))).ant b).owner
      = if b = a then some p else (s.ant b).owner := by
    rw [claimReport_ant, freeTapOf_owner, (giveAntenna_step _ _ _).owner, setOwner_owner]
  unfold State.makeOwner State.clearPrevious
  split
  · rename_i x
    rw [setOwner_owner, h]
    by_cases e : b = x
    · simp [e]
    · simp [e, Ne.symm e]
  · rw [h]; simp

theorem makeOwner_moves (s : State) (p : Pos) (a : Ant) (o : Origin) (m : Manner) (previous : Option Ant) : Moves s (s.makeOwner p a o m previous) :=
  ((((setOwner_moves s a (some p)).trans (giveAntenna_step _ _ _).moves).trans (freeTapOf_keeps _ _ _ _).toMoves).trans
    (claimReport_keeps _ _ _ _ _).toMoves).trans (clearPrevious_moves _ _)

/-- A new owner owns that antenna alone, where the antenna cleared is any other it owned. -/
theorem makeOwner_owned {s : State} {p : Pos} {a : Ant} (o : Origin) (m : Manner) {previous : Option Ant} (i : OneOwned s)
    (key : ∀ x, (s.ant x).owner = some p → x ≠ a → previous = some x) : OneOwned (s.makeOwner p a o m previous) := by
  intro b c q hb hc
  rw [makeOwner_owner] at hb hc
  split at hb
  · exact absurd hb (by simp)
  · rename_i nb
    split at hc
    · exact absurd hc (by simp)
    · rename_i nc
      split at hb <;> split at hc
      · simp_all
      · rename_i eb ec
        cases hb
        exact absurd (key c hc ec) nc
      · rename_i eb ec
        cases hc
        exact absurd (key b hb eb) nb
      · exact i b c q hb hc

theorem freeSlot_claims (s : State) (a : Ant) (second : Bool) (cause : TapCause) :
    (∀ b, (s.freeSlot a second cause).claims b = s.claims b) ∧ ∀ q, (s.freeSlot a second cause).waitsOn q = s.waitsOn q := by
  unfold State.freeSlot
  split
  · exact ⟨fun _ => rfl, fun _ => rfl⟩
  · exact ⟨fun b => by rw [(report_arb _ _ _).claims]; rfl, fun q => by rw [(report_arb _ _ _).waitsOn]; rfl⟩

theorem freeTapOf_claims (s : State) (p : Pos) (a : Ant) (cause : TapCause) :
    (∀ b, (s.freeTapOf p a cause).claims b = s.claims b) ∧ ∀ q, (s.freeTapOf p a cause).waitsOn q = s.waitsOn q := by
  unfold State.freeTapOf
  split
  · exact freeSlot_claims _ _ _ _
  · split
    · exact freeSlot_claims _ _ _ _
    · exact ⟨fun _ => rfl, fun _ => rfl⟩

theorem clearPrevious_claims (s : State) (previous : Option Ant) :
    (∀ b, (s.clearPrevious previous).claims b = s.claims b) ∧ ∀ q, (s.clearPrevious previous).waitsOn q = s.waitsOn q := by
  unfold State.clearPrevious
  split <;> exact ⟨fun _ => rfl, fun _ => rfl⟩

/-- A grant of ownership touches no queue and no pointer. -/
theorem makeOwner_claims (s : State) (p : Pos) (a : Ant) (o : Origin) (m : Manner) (previous : Option Ant) :
    (∀ b, (s.makeOwner p a o m previous).claims b = s.claims b) ∧ ∀ q, (s.makeOwner p a o m previous).waitsOn q = s.waitsOn q := by
  unfold State.makeOwner
  refine ⟨fun b => ?_, fun q => ?_⟩
  · rw [(clearPrevious_claims _ _).1]
    unfold State.claimReport
    rw [(report_arb _ _ _).claims, (freeTapOf_claims _ _ _ _).1, (giveAntenna_step _ _ _).claims]
    rfl
  · rw [(clearPrevious_claims _ _).2, claimReport_waitsOn, (freeTapOf_claims _ _ _ _).2, (giveAntenna_step _ _ _).waitsOn]
    rfl

theorem makeOwner_exact {s : State} {p : Pos} {a : Ant} (o : Origin) (m : Manner) (previous : Option Ant) (h : s.waitsOn p = none) (i : ClaimsExact s) :
    ClaimsExact (s.makeOwner p a o m previous) := by
  obtain ⟨hc, hw⟩ := makeOwner_claims s p a o m previous
  refine ⟨fun b c k => by rw [hw]; exact i.pointed b c (hc b ▸ k), fun q b k => by rw [hc]; exact i.queued q b (hw q ▸ k), fun b => by rw [hc]; exact i.once b, fun q b k => ?_⟩
  rw [hw] at k
  rw [makeOwner_owner]
  split
  · simp
  · split
    · intro e
      cases e
      rw [h] at k; cases k
    · exact i.notOwner q b k

theorem AsksAlike.clear (s : State) (previous : Option Ant) : AsksAlike s (s.clearPrevious previous) := by
  unfold State.clearPrevious
  split <;> exact fun _ => rfl

theorem freeSlot_seq (s : State) (a : Ant) (second : Bool) (cause : TapCause) (q : Pos) :
    (s.freeSlot a second cause).seq q = s.seq q ∧ (s.freeSlot a second cause).band q = s.band q := by
  unfold State.freeSlot
  split
  · exact ⟨rfl, rfl⟩
  · exact ⟨by rw [(report_arb _ _ _).seq]; rfl, by rw [(report_arb _ _ _).band]; rfl⟩

theorem freeTapOf_seq (s : State) (p : Pos) (a : Ant) (cause : TapCause) (q : Pos) :
    (s.freeTapOf p a cause).seq q = s.seq q ∧ (s.freeTapOf p a cause).band q = s.band q := by
  unfold State.freeTapOf
  split
  · exact freeSlot_seq _ _ _ _ _
  · split
    · exact freeSlot_seq _ _ _ _ _
    · exact ⟨rfl, rfl⟩

/-- A new owner's sequencer is asked for the antenna (R60 step 2, R70 step 4). -/
theorem makeOwner_asks (s : State) (p : Pos) (a : Ant) (o : Origin) (m : Manner) (previous : Option Ant) :
    Asks s (s.makeOwner p a o m previous) p { (s.seq p).requested with antenna := some a } := by
  have h1 : Asks s ((s.setOwner a (some p)).giveAntenna p (some a)) p { (s.seq p).requested with antenna := some a } :=
    have h := giveAntenna_asks (s.setOwner a (some p)) p (some a)
    ⟨h.here, h.there⟩
  exact ((h1.alike (fun q => by rw [(freeTapOf_seq _ _ _ _ q).1])).alike (report_arb _ _ _).asks).alike (AsksAlike.clear _ _)

theorem makeOwner_band (s : State) (p : Pos) (a : Ant) (o : Origin) (m : Manner) (previous : Option Ant) (q : Pos) :
    (s.makeOwner p a o m previous).band q = s.band q := by
  have e : ∀ (u : State) (x : Option Ant), (u.clearPrevious x).band q = u.band q := fun u x => by
    unfold State.clearPrevious
    split <;> rfl
  unfold State.makeOwner State.claimReport
  rw [e, (report_arb _ _ _).band, (freeTapOf_seq _ _ _ _ q).2, (giveAntenna_step _ _ _).band]
  rfl

theorem makeOwner_requests {s : State} {p : Pos} {a : Ant} (o : Origin) (m : Manner) {previous : Option Ant} (i : RequestsExact s) (ha : (s.ant a).owner = none)
    (key : ∀ x, (s.ant x).owner = some p → x ≠ a → previous = some x) (back : ∀ x, previous = some x → (s.ant x).owner = some p) :
    RequestsExact (s.makeOwner p a o m previous) := by
  have hr := makeOwner_asks s p a o m previous
  have hpa : previous ≠ some a := fun e => by
    have := back a e
    rw [ha] at this; cases this
  intro q
  rw [makeOwner_band]
  by_cases e : q = p
  · subst e
    rw [hr.here]
    refine ⟨(i q).1, fun b => ?_⟩
    rw [makeOwner_owner]
    by_cases eb : b = a
    · subst eb; simp [hpa]
    · by_cases ep : previous = some b
      · simp [ep, Ne.symm eb]
      · rw [if_neg ep, if_neg eb]
        refine ⟨fun hb => absurd (key b hb eb) ep, fun hb => ?_⟩
        simp only [Option.some.injEq] at hb
        exact absurd hb.symm eb
  · rw [hr.there q e]
    refine ⟨(i q).1, fun b => ?_⟩
    rw [makeOwner_owner]
    by_cases ep : previous = some b
    · rw [if_pos ep]
      refine ⟨fun hb => (by cases hb), fun hb => ?_⟩
      have h1 := ((i q).2 b).2 hb
      rw [back b ep] at h1
      cases h1; exact absurd rfl e
    · rw [if_neg ep]
      by_cases eb : b = a
      · subst eb
        rw [if_pos rfl]
        refine ⟨fun hb => ?_, fun hb => absurd hb (i.unowned ha q)⟩
        cases hb; exact absurd rfl e
      · rw [if_neg eb]; exact (i q).2 b

theorem RequestsExact.one {s : State} (i : RequestsExact s) : OneOwned s := fun a b p ha hb => by
  have h1 := ((i p).2 a).1 ha
  have h2 := ((i p).2 b).1 hb
  rw [h1] at h2
  exact Option.some.inj h2

theorem ownedOther_owner {s : State} {p : Pos} {a b : Ant} (h : s.ownedOther p a = some b) : (s.ant b).owner = some p ∧ b ≠ a := by
  unfold State.ownedOther at h
  simp only [Option.filter_eq_some_iff] at h
  exact ⟨owned_owner h.1, by simpa using h.2⟩

theorem makeOwner_keeps (s : State) (p : Pos) (a : Ant) (o : Origin) (m : Manner) (h : ClaimsExact s → s.waitsOn p = none) (ha : (s.ant a).owner = none) :
    Keeps s (s.makeOwner p a o m (s.ownedOther p a)) := by
  have key : OneOwned s → ∀ x, (s.ant x).owner = some p → x ≠ a → s.ownedOther p a = some x := fun i x hx hn => by
    simp [State.ownedOther, owned_spec i hx, hn]
  exact ⟨makeOwner_moves _ _ _ _ _ _, fun i => makeOwner_owned o m i (key i), fun i => makeOwner_exact _ _ _ (h i) i,
    fun i => makeOwner_requests o m i ha (key i.one) fun x hx => (ownedOther_owner hx).1⟩

theorem ownedOther_removeClaim (s : State) (p q : Pos) (a b : Ant) : (s.removeClaim q b).ownedOther p a = s.ownedOther p a := rfl

theorem grantClaim_keeps (s : State) (p : Pos) (a : Ant) (o : Origin) (m : Manner) (h : ClaimsExact s → s.waitsOn p = none ∨ s.waitsOn p = some a)
    (ha : (s.ant a).owner = none) : Keeps s (s.grantClaim p a o m) := by
  unfold State.grantClaim
  rw [← ownedOther_removeClaim s p p a a]
  exact (removeClaim_keeps _ _ _ h).trans (makeOwner_keeps _ _ _ _ _ (fun _ => by rw [waitsOn_removeClaim, if_pos rfl]) ha)

theorem grantClaim_owner (s : State) (p : Pos) (a : Ant) (o : Origin) (m : Manner) {b : Ant} (h : s.ownedOther p a = some b) :
    ((s.grantClaim p a o m).ant b).owner = none := by
  unfold State.grantClaim
  rw [makeOwner_owner, if_pos h]

theorem chooseClaim_mem (s : State) (l : List Claim) (c : Claim) (h : s.chooseClaim l = some c) : c ∈ l := by
  induction l generalizing c with
  | nil => cases h
  | cons d rest ih =>
    unfold State.chooseClaim at h
    split at h
    · cases h; simp
    · rename_i e he
      split at h
      · cases h; exact List.mem_cons_of_mem _ (ih _ he)
      · cases h; simp

theorem serveChain_keeps (n : Nat) (a : Ant) (s : State) (ha : (s.ant a).owner = none) : Keeps s (serveChain n a s) := by
  induction n generalizing a s with
  | zero => exact .refl s
  | succ n ih =>
    unfold serveChain
    split
    · split
      · exact .refl s
      · rename_i c hc
        have h : ClaimsExact s → s.waitsOn c.position = none ∨ s.waitsOn c.position = some a :=
          fun i => .inr (i.pointed a c (chooseClaim_mem s _ c hc))
        split
        · exact grantClaim_keeps _ _ _ _ _ h ha
        · rename_i b hb
          exact (grantClaim_keeps _ _ _ _ _ h ha).trans (ih _ _ (grantClaim_owner _ _ _ _ _ hb))
    · exact .refl s

theorem serve_keeps (s : State) (a : Ant) (ha : (s.ant a).owner = none) : Keeps s (s.serve a) := serveChain_keeps _ _ _ ha

theorem servePrevious_keeps (s : State) (a : Option Ant) (h : ∀ b, a = some b → (s.ant b).owner = none) : Keeps s (s.servePrevious a) := by
  unfold State.servePrevious
  split
  · exact serve_keeps _ _ (h _ rfl)
  · exact .refl s

theorem releaseRoute_keeps (s : State) (p : Pos) (a : Ant) (h : (s.ant a).owner = some p) : Keeps s (s.releaseRoute p a) :=
  ((removeOwner_keeps _ _ _ h).trans (claimReport_keeps _ _ _ _ _)).trans (serve_keeps _ _ (by rw [claimReport_ant, removeOwner_owner, if_pos rfl]))

theorem queueClaim_keeps (s : State) (p : Pos) (a : Ant) (o : Origin) (h : ClaimsExact s → s.waitsOn p = none ∧ (s.ant a).owner ≠ some p) :
    Keeps s (s.queueClaim p a o) := by
  refine (claims_keeps s a _ p (some a) fun i => ?_).trans (claimReport_keeps _ _ _ _ _)
  obtain ⟨hw, ho⟩ := h i
  have hcl : ∀ b, ((s.onClaims a fun l => l ++ [{ position := p, origin := o, expiry := s.claimExpiry o }]).setWaitsOn p (some a)).claims b
      = if b = a then s.claims a ++ [{ position := p, origin := o, expiry := s.claimExpiry o }] else s.claims b := fun b => by
    by_cases e : b = a
    · subst e; simp
    · simp [onClaims_at, e]
  have hpt : ∀ q, ((s.onClaims a fun l => l ++ [{ position := p, origin := o, expiry := s.claimExpiry o }]).setWaitsOn p (some a)).waitsOn q
      = if q = p then some a else s.waitsOn q := fun q => by
    by_cases e : q = p
    · subst e; simp
    · simp [setWaitsOn_at, e]
  have hno : ∀ b, ∀ c ∈ s.claims b, c.position ≠ p := fun b c hc e => by
    have := i.pointed b c hc
    rw [e, hw] at this; cases this
  refine ⟨fun b c hc => ?_, fun q b hq => ?_, fun b => ?_, fun q b hq => ?_⟩
  · rw [hcl] at hc
    rw [hpt]
    split at hc
    · rename_i e
      rcases List.mem_append.1 hc with hc | hc
      · rw [if_neg (hno a c hc), e]; exact i.pointed a c hc
      · simp only [List.mem_singleton] at hc
        rw [hc, if_pos rfl, e]
    · rw [if_neg (hno b c hc)]; exact i.pointed b c hc
  · rw [hpt] at hq
    rw [hcl]
    split at hq
    · rename_i e
      cases hq
      rw [if_pos rfl]
      exact ⟨_, List.mem_append.2 (.inr (List.mem_singleton.2 rfl)), e.symm⟩
    · obtain ⟨c, hc, e⟩ := i.queued q b hq
      split
      · rename_i eb
        exact ⟨c, List.mem_append.2 (.inl (eb ▸ hc)), e⟩
      · exact ⟨c, hc, e⟩
  · rw [hcl]
    split
    · rw [List.map_append, List.nodup_append]
      refine ⟨i.once a, by simp, fun x hx y hy => ?_⟩
      obtain ⟨c, hc, e⟩ := List.mem_map.1 hx
      simp at hy
      rw [← e, hy]
      exact hno a c hc
    · exact i.once b
  · rw [hpt] at hq
    split at hq
    · rename_i e
      cases hq
      rw [e]; exact ho
    · exact i.notOwner q b hq

theorem grantAtOnce_keeps (s : State) (p : Pos) (a : Ant) (o : Origin) (h : ClaimsExact s → s.waitsOn p = none) (ha : (s.ant a).owner = none) :
    Keeps s (s.grantAtOnce p a o) :=
  (grantClaim_keeps _ _ _ _ _ (fun i => .inl (h i)) ha).trans (servePrevious_keeps _ _ fun _ hb => grantClaim_owner _ _ _ _ _ hb)

theorem takeOverClaim_keeps (s : State) (p : Pos) (a : Ant) (o : Origin) : Keeps s (s.takeOverClaim p a o) := by
  unfold State.takeOverClaim
  split
  · exact .refl s
  · generalize hf : (fun c : Claim => if c.position = p ∧ c.origin = .follow then ({ c with origin := o, expiry := s.claimExpiry o } : Claim) else c) = f
    have hp : ∀ c : Claim, (f c).position = c.position := fun c => by
      subst hf; dsimp only; split <;> rfl
    have hcl : ∀ b, (s.onClaims a fun l => l.map f).claims b = if b = a then (s.claims a).map f else s.claims b := fun b => by
      by_cases e : b = a
      · subst e; simp
      · simp [onClaims_at, e]
    refine .plain rfl rfl rfl rfl rfl rfl rfl rfl rfl rfl (fun _ => Link.grows_refl _) (fun _ => rfl) (fun _ => rfl) rfl rfl (fun _ => rfl) (fun _ => rfl)
      (fun _ => ⟨rfl, rfl⟩) id (fun i => ⟨fun b c hc => ?_, fun q b hq => ?_, fun b => ?_, i.notOwner⟩)
      (RequestsExact.same (fun _ => rfl) (fun _ => rfl) (fun _ => rfl))
    · rw [hcl] at hc
      split at hc
      · rename_i e
        obtain ⟨d, hd, e2⟩ := List.mem_map.1 hc
        rw [← e2, hp, e]; exact i.pointed a d hd
      · exact i.pointed b c hc
    · obtain ⟨c, hc, e⟩ := i.queued q b hq
      rw [hcl]
      split
      · rename_i eb
        exact ⟨f c, List.mem_map.2 ⟨c, eb ▸ hc, rfl⟩, (hp c).trans e⟩
      · exact ⟨c, hc, e⟩
    · rw [hcl]
      split
      · rw [List.map_map]
        have : Claim.position ∘ f = Claim.position := funext hp
        rw [this]; exact i.once a
      · exact i.once b

theorem removeWaiting_owner (s : State) (p : Pos) (e : ClaimEvent) (b : Ant) : ((s.removeWaiting p e).ant b).owner = (s.ant b).owner := by
  unfold State.removeWaiting
  split
  · rw [claimReport_ant]; rfl
  · rfl

theorem placeClaim_keeps (s : State) (p : Pos) (a : Ant) (o : Origin) (r : Result) (hr : r = .waiting → (s.ant a).owner ≠ some p)
    (hd : r = .done → (s.ant a).owner = none) : Keeps s (s.placeClaim p a o r) := by
  unfold State.placeClaim
  split
  · exact (supersede_keeps _ _ _).trans (grantAtOnce_keeps _ _ _ _ (fun i => removeWaiting_waitsOn i)
      (by unfold State.supersede; rw [removeWaiting_owner]; exact hd rfl))
  · refine (supersede_keeps _ _ _).trans (queueClaim_keeps _ _ _ _ fun i => ⟨removeWaiting_waitsOn i, ?_⟩)
    unfold State.supersede
    rw [removeWaiting_owner]
    exact hr rfl
  · split
    · exact takeOverClaim_keeps _ _ _ _
    · exact .refl s
  · exact .refl s

theorem claimCheck_waiting {s : State} {p : Pos} {a : Ant} {n : Bool} (h : s.claimCheck p a n = .waiting) : (s.ant a).owner ≠ some p := by
  unfold State.claimCheck at h
  intro e
  simp only [e, beq_self_eq_true, Bool.true_or, if_true] at h
  split at h <;> try cases h
  split at h <;> try cases h
  split at h <;> cases h

theorem claimCheck_done {s : State} {p : Pos} {a : Ant} {n : Bool} (h : s.claimCheck p a n = .done) : (s.ant a).owner = none := by
  unfold State.claimCheck at h
  split at h <;> try cases h
  split at h <;> try cases h
  split at h <;> try cases h
  split at h <;> try cases h
  split at h
  · rename_i e; simpa using e
  · split at h <;> cases h

theorem dropForBand_keeps (s : State) (p : Pos) (b : Option Band) : Keeps s (s.dropForBand p b) := by
  unfold State.dropForBand
  split
  · split
    · exact .refl s
    · exact dropClaim_keeps _ _ _
  · exact .refl s

/-! ### Selections (R89 to R93) -/

theorem followClaim_keeps (s : State) (p : Pos) (a : Ant) : Keeps s (s.followClaim p a) :=
  placeClaim_keeps _ _ _ _ _ claimCheck_waiting claimCheck_done

theorem releaseOwned_keeps (s : State) (p : Pos) : Keeps s (s.releaseOwned p) := by
  unfold State.releaseOwned
  split
  · rename_i h
    exact releaseRoute_keeps _ _ _ (owned_owner h)
  · exact .refl s

theorem fallback_keeps (s : State) (p : Pos) (b : Band) : Keeps s (s.fallback p b) := by
  unfold State.fallback
  split
  · exact followClaim_keeps _ _ _
  · exact report_keeps _ _ _

theorem selectFromList_keeps (s : State) (p : Pos) (b : Band) : Keeps s (s.selectFromList p b) := by
  unfold State.selectFromList
  split
  · split
    · exact withdrawFollow_keeps _ _
    · exact followClaim_keeps _ _ _
  · split
    · exact withdrawFollow_keeps _ _
    · exact (releaseOwned_keeps _ _).trans (fallback_keeps _ _ _)

theorem select_keeps (s : State) (p : Pos) (m : SelectMode) : Keeps s (s.select p m) := by
  unfold State.select
  split
  · exact .refl s
  · split
    · exact .refl s
    · split
      · exact withdrawFollow_keeps _ _
      · exact selectFromList_keeps _ _ _

theorem resumeEach_keeps (s : State) (l : List Pos) : Keeps s (s.resumeEach l) := forEach_keeps _ _ (fun _ _ => select_keeps _ _ _) s

/-! ### The Antenna Table (R22 to R28) -/

theorem dropEach_keeps (s : State) (l : List Claim) (r : ClaimReason) : Keeps s (s.dropEach l r) := forEach_keeps _ _ (fun _ _ => dropClaim_keeps _ _ _) s

theorem dropTripped_keeps (s : State) (a : Ant) (l : List Claim) : Keeps s (s.dropTripped a l) :=
  forEach_keeps _ _ (fun c u => by
    split
    · split
      · exact (dropClaim_keeps _ _ _).trans (select_keeps _ _ _)
      · exact dropClaim_keeps _ _ _
    · exact .refl u) s

theorem onOwner_keeps (s : State) (a : Ant) (f : Pos → State → State) (h : ∀ o, (s.ant a).owner = some o → Keeps s (f o s)) : Keeps s (s.onOwner a f) := by
  unfold State.onOwner
  split
  · rename_i e
    exact h _ e
  · exact .refl s

theorem trip_keeps (s : State) (a : Ant) (c : TripCause) : Keeps s (s.trip a c) := by
  unfold State.trip
  split
  · exact .refl s
  · exact ((((onAnt_keeps s a _ rfl rfl rfl).trans (onOwner_keeps _ _ _ fun _ _ => (cutOrDeny_arb _ _ _).keeps)).trans (dropTripped_keeps _ _ _)).trans
      (report_keeps _ _ _)).trans (onOwner_keeps _ _ _ fun _ _ => select_keeps _ _ _)

theorem serviceReport_keeps (s : State) (a : Ant) (v : Service) (c : ServiceCause) : Keeps s (s.serviceReport a v c) := report_keeps _ _ _

theorem evictOwner_keeps (s : State) (a : Ant) : Keeps s (s.evictOwner a) :=
  onOwner_keeps _ _ _ fun _ e => (removeOwner_keeps _ _ _ e).trans (claimReport_keeps _ _ _ _ _)

theorem takeOutOfService_keeps (s : State) (a : Ant) : Keeps s (s.takeOutOfService a) :=
  (((((onAnt_keeps s a _ rfl rfl rfl).trans (dropEach_keeps _ _ _)).trans (evictOwner_keeps _ _)).trans (freeBothSlots_keeps _ _ _)).trans
    (serviceReport_keeps _ _ _ _)).trans (resumeEach_keeps _ _)

theorem emptyTripped_keeps (s : State) (a : Ant) : Keeps s (s.emptyTripped a) :=
  ((evictOwner_keeps _ _).trans (freeBothSlots_keeps _ _ _)).trans (resumeEach_keeps _ _)

theorem returnToService_keeps (s : State) (a : Ant) : Keeps s (s.returnToService a) :=
  (onAnt_keeps s a _ rfl rfl rfl).trans (serviceReport_keeps _ _ _ _)

theorem serviceChanged_keeps (s : State) (a : Ant) : Keeps s (s.serviceChanged a) := by
  unfold State.serviceChanged
  split
  · exact takeOutOfService_keeps _ _
  · exact emptyTripped_keeps _ _
  · exact returnToService_keeps _ _
  · exact .refl s

theorem maskChanged_keeps (s : State) (a : Ant) (old : AntennaConfig) : Keeps s (s.maskChanged a old) :=
  ((dropEach_keeps _ _ _).trans (onOwner_keeps _ _ _ fun o _ => by
    split
    · exact (cutOrDeny_arb _ _ _).keeps.trans (select_keeps _ _ _)
    · exact .refl _)).trans (resumeEach_keeps _ _)

/-! ### The Band Decoder (R1 to R13) -/

/-- A new band stored and its filter given (R5 step 1). -/
theorem newBand_keeps (s : State) (p : Pos) (b : Option Band) : Keeps s ((s.onDec p fun d => { d with band := b }).giveFilter p b) := by
  have h1 : Moves s (s.onDec p fun d => { d with band := b }) :=
    ⟨rfl, rfl, rfl, rfl, rfl, rfl, rfl, rfl, rfl, rfl, fun _ => Link.grows_refl _, fun _ => rfl, fun _ d => absurd rfl d,
      RouteInv.same (fun _ => rfl) (fun _ => rfl) rfl rfl (fun _ => rfl) (fun _ => rfl) (fun _ => ⟨rfl, rfl⟩)⟩
  have h2 := giveFilter_step (s.onDec p fun d => { d with band := b }) p b
  have ha := giveFilter_asks (s.onDec p fun d => { d with band := b }) p b
  refine ⟨h1.trans h2.moves, OneOwned.same h2.owner, ClaimsExact.same h2.claims h2.waitsOn h2.owner, fun i q => ?_⟩
  rw [h2.band q]
  by_cases e : q = p
  · subst e
    rw [ha.here]
    refine ⟨by simp [State.band], fun a => ?_⟩
    rw [h2.owner]
    exact (i q).2 a
  · rw [ha.there q e]
    refine ⟨?_, fun a => ?_⟩
    · have : (s.onDec p fun d => { d with band := b }).band q = s.band q := by simp [State.band, onDec_at, e]
      rw [this]; exact (i q).1
    · rw [h2.owner]
      exact (i q).2 a

theorem changeBand_keeps (s : State) (p : Pos) (b : Option Band) (c : BandCause) : Keeps s (s.changeBand p b c) :=
  (((newBand_keeps s p b).trans (dropForBand_keeps _ _ _)).trans (select_keeps _ _ _)).trans (report_keeps _ _ _)

theorem applyBand_keeps (s : State) (p : Pos) (b : Option Band) (c : BandCause) : Keeps s (s.applyBand p b c) := by
  unfold State.applyBand
  split
  · exact .refl s
  · exact changeBand_keeps _ _ _ _

theorem checkReference_keeps (s : State) (p : Pos) (v : BitVec 4) : Keeps s (s.checkReference p v) := by
  unfold State.checkReference
  split
  · exact (cut_arb _ _ _).keeps
  · exact .refl s

theorem settleBand_keeps (s : State) (p : Pos) : Keeps s (s.settleBand p) := by
  unfold State.settleBand
  split
  · exact onDec_keeps _ _ _ rfl
  · simp only []
    split
    · exact onDec_keeps _ _ _ rfl
    · exact ((onDec_keeps _ _ _ rfl).trans (checkReference_keeps _ _ _)).trans (applyBand_keeps _ _ _ _)

theorem takePattern_keeps (s : State) (p : Pos) (v : BitVec 4) : Keeps s (s.takePattern p v) := by
  unfold State.takePattern
  split
  · exact (onDec_keeps _ _ _ rfl).trans (settleBand_keeps _ _)
  · exact onDec_keeps _ _ _ rfl

theorem sampleLines_keeps (s : State) (p : Pos) : Keeps s (s.sampleLines p) := by
  unfold State.sampleLines
  split
  · exact .refl s
  · exact takePattern_keeps _ _ _

end Sys2Proof.Machine
end

