-- ==== Sys2Proof/Laws/Blind.lean ====
section
/-! SUPPORT. The frame of the operations that grant, serve, cut and select: a reading of the state that none of their setters moves is the same after them.
One predicate on readings, and one lemma per operation; every frame of these operations is an instance. -/

namespace Sys2Proof.Machine

/-- A reading that sees no key, sequencer, claim, tap, listen, queue, stamp or aux line, no owner, no connected position and no keyed reference. -/
structure Blind {α : Type} (π : State → α) : Prop where
  dec : ∀ s p (r : Decoder → Option (BitVec 4)), π (s.onDec p fun d => { d with reference := r d }) = π s
  owner : ∀ s a o, π (s.setOwner a o) = π s
  connected : ∀ s a c, π (s.onAnt a fun r => { r with connected := c }) = π s
  claims : ∀ s a f, π (s.onClaims a f) = π s
  waitsOn : ∀ s p v, π (s.setWaitsOn p v) = π s
  seq : ∀ s p f, π (s.onSeq p f) = π s
  key : ∀ s p f, π (s.onKey p f) = π s
  waiting : ∀ s l, π (s.setWaiting l) = π s
  pointer : ∀ s p, π (s.setPointer p) = π s
  count : ∀ s c, π (s.setGrantCount c) = π s
  tap : ∀ s a f, π (s.onTap a f) = π s
  listen : ∀ s p v, π (s.setListen p v) = π s
  link : ∀ s port f, π (s.onLink port f) = π s
  quiet : ∀ s p v, π (s.setQuiet p v) = π s
  txen : ∀ s p b, π (s.setTxen p b) = π s
  aux : ∀ s l b, π (s.setAuxLine l b) = π s

variable {α : Type} {π : State → α}

theorem blind_forEach {β : Type} (l : List β) (f : β → State → State) (h : ∀ x s, π (f x s) = π s) (s : State) : π (forEach l f s) = π s := by
  induction l generalizing s with
  | nil => rfl
  | cons x rest ih => exact (ih (f x s)).trans (h x s)

theorem Blind.report (h : Blind π) (s : State) (c : List Pos) (b : ReportBody) : π (s.report c b) = π s :=
  blind_forEach _ _ (fun _ _ => h.link _ _ _) s

theorem Blind.answer (h : Blind π) (s : State) (port : Port) (q : Request) (tag : Byte) (r : Result) : π (s.answer port q tag r) = π s := h.link _ _ _

theorem Blind.followAux (h : Blind π) (s t : State) : π (followAux s t) = π t :=
  blind_forEach _ _ (fun _ _ => by split <;> first | exact h.aux _ _ _ | rfl) t

/-! ### Arbiter -/

theorem Blind.setKeyed (h : Blind π) (s : State) (a : Ant) (k : Bool) : π (s.setKeyed a k) = π s := (h.tap _ _ _).trans (h.tap _ _ _)

theorem Blind.enterOn (h : Blind π) (s : State) (p : Pos) : π (s.enterOn p) = π s := (h.txen _ _ _).trans (h.key _ _ _)

theorem Blind.recordGrant (h : Blind π) (s : State) (p : Pos) (b : Band) (a : Ant) : π (s.recordGrant p b a) = π s := by
  unfold State.recordGrant
  rw [h.key, h.pointer, h.count, h.waiting]

theorem Blind.openTaps (h : Blind π) (s : State) (p : Pos) (a : Ant) : π (s.openTaps p a) = π s := by
  unfold State.openTaps
  split
  · rw [h.key, h.setKeyed]
  · rw [h.enterOn, h.setKeyed]

theorem Blind.reportGrant (h : Blind π) (s : State) (p : Pos) (b : Band) (a : Ant) : π (s.reportGrant p b a) = π s := by
  unfold State.reportGrant
  simp only []
  split
  · rw [h.report, h.key]
  · rw [h.key]

theorem Blind.grant (h : Blind π) (s : State) (p : Pos) : π (s.grant p) = π s := by
  unfold State.grant
  split
  · rw [h.reportGrant, h.openTaps, State.captureReference, h.dec, h.recordGrant]
  · rfl

theorem Blind.walkList (h : Blind π) (l : List Pos) (s : State) : π (walkList l s) = π s := by
  induction l generalizing s with
  | nil => rfl
  | cons p rest ih =>
    unfold Sys2Proof.Machine.walkList
    split
    · rw [ih, h.grant]
    · exact ih s
    · rfl

theorem Blind.walk (h : Blind π) (s : State) : π s.walk = π s := h.walkList _ s

theorem Blind.endGrant (h : Blind π) (s : State) (p : Pos) (into : KeyState) : π (s.endGrant p into) = π s := by
  unfold State.endGrant State.releaseTaps State.dropTxen
  split <;> split <;> simp only [h.setKeyed, h.dec, h.quiet, h.txen, h.key]

theorem Blind.cutQuietly (h : Blind π) (s : State) (p : Pos) (r : KeyReason) (x : Option Pos) : π (s.cutQuietly p r x) = π s := by
  unfold State.cutQuietly
  split
  · rw [h.report, h.endGrant]
  · rfl

theorem Blind.cut (h : Blind π) (s : State) (p : Pos) (r : KeyReason) : π (s.cut p r) = π s := by
  unfold State.cut
  split
  · rw [h.report, h.walk, h.endGrant]
  · rfl

theorem Blind.leaveList (h : Blind π) (s : State) (p : Pos) (into : KeyState) : π (s.leaveList p into) = π s := (h.key _ _ _).trans (h.waiting _ _)

theorem Blind.deny (h : Blind π) (s : State) (p : Pos) (r : KeyReason) : π (s.deny p r) = π s := (h.report _ _ _).trans (h.leaveList _ _ _)

theorem Blind.cutOrDeny (h : Blind π) (s : State) (p : Pos) (r : KeyReason) : π (s.cutOrDeny p r) = π s := by
  unfold State.cutOrDeny
  split
  · exact h.cut _ _ _
  · split
    · exact h.deny _ _ _
    · rfl

theorem Blind.routeChanging (h : Blind π) (s : State) (p : Pos) : π (s.routeChanging p) = π s := by
  unfold State.routeChanging
  split
  · exact h.cut _ _ _
  · split
    · exact h.leaveList _ _ _
    · rfl

theorem Blind.preempt (h : Blind π) (s : State) (j : Pos) : π (s.preempt j) = π s := by
  unfold State.preempt
  split
  · simp only []
    split
    · rw [h.walk, h.grant, blind_forEach _ _ fun _ _ => h.cutQuietly _ _ _ _]
    · rfl
  · rfl

theorem Blind.join (h : Blind π) (s : State) (p : Pos) : π (s.join p) = π s := by
  unfold State.join State.reportQueued State.considerPreemption
  have e : π (s.enlist p).walk = π s := by rw [h.walk, State.enlist, h.key, h.waiting]
  split <;> split <;> simp only [h.report, h.key, h.preempt, e]

theorem Blind.checkKey (h : Blind π) (s : State) (p : Pos) : π (s.checkKey p) = π s := by
  unfold State.checkKey
  split
  · exact h.deny _ _ _
  · exact h.key _ _ _
  · exact h.join _ _

theorem Blind.routeSettled (h : Blind π) (s : State) (p : Pos) : π (s.routeSettled p) = π s := by
  unfold State.routeSettled
  split
  · exact h.checkKey _ _
  · rfl

theorem Blind.releaseGrant (h : Blind π) (s : State) (p : Pos) : π ((s.endGrant p .off).walk) = π s := (h.walk _).trans (h.endGrant _ _ _)

/-! ### Sequencers -/

theorem Blind.handOverRoute (h : Blind π) (s : State) (p : Pos) : π (s.handOverRoute p) = π s := (h.routeSettled _ _).trans (h.report _ _ _)

theorem Blind.settlePath (h : Blind π) (s : State) (p : Pos) : π (s.settlePath p) = π s := (h.quiet _ _ _).trans (h.seq _ _ _)

theorem Blind.completeChange (h : Blind π) (s : State) (p : Pos) : π (s.completeChange p) = π s := (h.handOverRoute _ _).trans (h.settlePath _ _)

theorem Blind.beginMake (h : Blind π) (s : State) (p : Pos) (a : Ant) : π (s.beginMake p a) = π s := (h.seq _ _ _).trans (h.connected _ _ _)

theorem Blind.enterHoldoff (h : Blind π) (s : State) (p : Pos) : π (s.enterHoldoff p) = π s := by
  unfold State.enterHoldoff
  split
  · exact h.completeChange _ _
  · split
    · exact h.beginMake _ _ _
    · exact h.seq _ _ _

theorem Blind.retestHoldoff (h : Blind π) (s : State) (p : Pos) : π (s.retestHoldoff p) = π s := by
  unfold State.retestHoldoff
  split
  · split
    · exact h.beginMake _ _ _
    · rfl
  · rfl

theorem Blind.relayOpened (h : Blind π) (s : State) (a : Option Ant) : π (s.relayOpened a) = π s := by
  unfold State.relayOpened
  split
  · refine blind_forEach _ _ (fun _ _ => ?_) s
    split
    · exact h.retestHoldoff _ _
    · rfl
  · rfl

theorem Blind.openRelay (h : Blind π) (s : State) (a : Option Ant) : π (s.openRelay a) = π s := by
  unfold State.openRelay
  split
  · exact h.connected _ _ _
  · rfl

theorem Blind.enterBreak (h : Blind π) (s : State) (p : Pos) : π (s.enterBreak p) = π s := by
  unfold State.enterBreak
  simp only []
  rw [h.relayOpened]
  split
  · rw [h.enterHoldoff, h.seq, h.openRelay]
  · rw [h.seq, h.openRelay]

theorem Blind.startChange (h : Blind π) (s : State) (p : Pos) : π (s.startChange p) = π s := by
  have e : π ((s.onSeq p fun q => { q with state := .drain }).routeChanging p) = π s := by rw [h.routeChanging, h.seq]
  unfold State.startChange State.enterDrain
  split
  · rw [h.enterBreak, e]
  · split
    · rw [h.seq, e]
    · rw [h.enterBreak, e]

theorem Blind.givePath (h : Blind π) (s : State) (p : Pos) (n : RfPath) : π (s.givePath p n) = π s := by
  unfold State.givePath
  split
  · rfl
  · split
    · unfold State.pathInIdle
      simp only []
      split
      · exact h.seq _ _ _
      · rw [h.startChange, h.seq]
    · unfold State.pathInDrain
      split
      · rw [h.handOverRoute, h.seq]
      · exact h.seq _ _ _
    · unfold State.pathInBreak
      split <;> exact h.seq _ _ _
    · unfold State.pathInHoldoff
      simp only []
      split
      · split
        · rw [h.completeChange, h.seq]
        · rw [h.retestHoldoff, h.seq]
      · rw [h.seq, h.seq]
    · exact h.seq _ _ _

theorem Blind.finishMake (h : Blind π) (s : State) (p : Pos) (n : Option RfPath) : π (s.finishMake p n) = π s := by
  unfold State.finishMake
  split
  · exact h.completeChange _ _
  · split
    · exact h.completeChange _ _
    · rw [h.startChange, h.seq, State.reportRoute, h.report, h.settlePath]

/-! ### Claims and selection -/

theorem Blind.claimReport (h : Blind π) (s : State) (a : Ant) (p : Pos) (o : Option Origin) (e : ClaimEvent) : π (s.claimReport a p o e) = π s := h.report _ _ _

theorem Blind.removeClaim (h : Blind π) (s : State) (p : Pos) (a : Ant) : π (s.removeClaim p a) = π s := (h.waitsOn _ _ _).trans (h.claims _ _ _)

theorem Blind.removeWaiting (h : Blind π) (s : State) (p : Pos) (e : ClaimEvent) : π (s.removeWaiting p e) = π s := by
  unfold State.removeWaiting
  split
  · rw [h.claimReport, h.removeClaim]
  · rfl

theorem Blind.withdrawFollow (h : Blind π) (s : State) (p : Pos) : π (s.withdrawFollow p) = π s := by
  unfold State.withdrawFollow
  split
  · exact h.removeWaiting _ _ _
  · rfl

theorem Blind.freeSlot (h : Blind π) (s : State) (a : Ant) (second : Bool) (c : TapCause) : π (s.freeSlot a second c) = π s := by
  unfold State.freeSlot
  split
  · rfl
  · rw [h.report, h.listen, State.commandTaps, h.tap, h.tap]

theorem Blind.freeTapOf (h : Blind π) (s : State) (p : Pos) (a : Ant) (c : TapCause) : π (s.freeTapOf p a c) = π s := by
  unfold State.freeTapOf
  split
  · exact h.freeSlot _ _ _ _
  · split
    · exact h.freeSlot _ _ _ _
    · rfl

theorem Blind.makeOwner (h : Blind π) (s : State) (p : Pos) (a : Ant) (o : Origin) (m : Manner) (x : Option Ant) : π (s.makeOwner p a o m x) = π s := by
  have e : π ((((s.setOwner a (some p)).giveAntenna p (some a)).freeTapOf p a .owner).claimReport a p (some o) (.granted m x)) = π s := by
    rw [h.claimReport, h.freeTapOf, State.giveAntenna, h.givePath, h.owner]
  unfold State.makeOwner State.clearPrevious
  split
  · rw [h.owner, e]
  · exact e

theorem Blind.grantClaim (h : Blind π) (s : State) (p : Pos) (a : Ant) (o : Origin) (m : Manner) : π (s.grantClaim p a o m) = π s :=
  (h.makeOwner _ _ _ _ _ _).trans (h.removeClaim _ _ _)

theorem Blind.serve (h : Blind π) (s : State) (a : Ant) : π (s.serve a) = π s := by
  unfold State.serve
  generalize s.claimTotal = n
  induction n generalizing a s with
  | zero => rfl
  | succ n ih =>
    unfold serveChain
    split
    · split
      · rfl
      · split
        · exact h.grantClaim _ _ _ _ _
        · rw [ih, h.grantClaim]
    · rfl

theorem Blind.servePrevious (h : Blind π) (s : State) (x : Option Ant) : π (s.servePrevious x) = π s := by
  unfold State.servePrevious
  split
  · exact h.serve _ _
  · rfl

theorem Blind.removeOwner (h : Blind π) (s : State) (p : Pos) (a : Ant) : π (s.removeOwner p a) = π s := by
  unfold State.removeOwner State.giveAntenna
  rw [h.givePath, h.owner]

theorem Blind.releaseRoute (h : Blind π) (s : State) (p : Pos) (a : Ant) : π (s.releaseRoute p a) = π s := by
  unfold State.releaseRoute
  rw [h.serve, h.claimReport, h.removeOwner]

theorem Blind.placeClaim (h : Blind π) (s : State) (p : Pos) (a : Ant) (o : Origin) (r : Result) : π (s.placeClaim p a o r) = π s := by
  unfold State.placeClaim
  split
  · rw [State.grantAtOnce, h.servePrevious, h.grantClaim, State.supersede, h.removeWaiting]
  · rw [State.queueClaim, h.claimReport, h.waitsOn, h.claims, State.supersede, h.removeWaiting]
  · split
    · unfold State.takeOverClaim
      split
      · rfl
      · exact h.claims _ _ _
    · rfl
  · rfl

theorem Blind.releaseOwned (h : Blind π) (s : State) (p : Pos) : π (s.releaseOwned p) = π s := by
  unfold State.releaseOwned
  split
  · exact h.releaseRoute _ _ _
  · rfl

theorem Blind.select (h : Blind π) (s : State) (p : Pos) (m : SelectMode) : π (s.select p m) = π s := by
  have hl : ∀ b, π (s.selectFromList p b) = π s := fun b => by
    unfold State.selectFromList
    split
    · split
      · exact h.withdrawFollow _ _
      · exact h.placeClaim _ _ _ _ _
    · split
      · exact h.withdrawFollow _ _
      · unfold State.fallback
        split
        · rw [State.followClaim, h.placeClaim, h.releaseOwned]
        · rw [State.reportNoAntenna, h.report, h.releaseOwned]
  unfold State.select
  split
  · rfl
  · split
    · rfl
    · split
      · exact h.withdrawFollow _ _
      · exact hl _

/-! ### Readings that see none of it -/

/-- The settings. -/
theorem blind_settings : Blind State.settings := by constructor <;> intros <;> rfl

/-- What the operations leave alone beside the settings: supply, RESET, Timebase, HOLD, the sensor, the store, the pins and the waiting commands. -/
theorem blind_surroundings : Blind fun s : State =>
    (s.powered, s.resetIsLow, s.timebase, s.holdOn, s.sensors, s.store, s.lineInputs, s.pttInputs, s.couplers, s.pending) := by
  constructor <;> intros <;> rfl

/-- An antenna's record but for its owner and its connected position. -/
theorem blind_record (a : Ant) : Blind fun s : State => ({ s.ant a with owner := none, connected := none } : AntennaRecord) := by
  constructor <;> intros <;> try rfl
  · rename_i s b o
    by_cases e : a = b
    · subst e; simp [State.setOwner]
    · simp [State.setOwner, onAnt_at, e]
  · rename_i s b c
    by_cases e : a = b
    · subst e; simp
    · simp [onAnt_at, e]

/-- A Band Decoder but for its keyed reference. -/
theorem blind_decoder (p : Pos) : Blind fun s : State => ({ s.dec p with reference := none } : Decoder) := by
  constructor <;> intros <;> try rfl
  rename_i s q r
  by_cases e : p = q
  · subst e; simp
  · simp [onDec_at, e]

end Sys2Proof.Machine
end

