-- ==== Sys2Proof/Laws/Serves.lean ====
section
/-! SUPPORT. What the effect of each command may do to a running part, before its aux lines follow (R170): one relation, and one lemma for each command's own function. -/

namespace Sys2Proof.Machine

/-- What the effect of a command may do, but for SET-AUX, a flash edge, a tick and a start-up. -/
structure Serves (s t : State) : Prop where
  powered : t.powered = s.powered
  resetIsLow : t.resetIsLow = s.resetIsLow
  timebase : t.timebase = s.timebase
  pending : t.pending = s.pending
  auxLines : t.auxLines = s.auxLines
  aux : t.settings.aux = s.settings.aux
  bounded : LinksBounded s → LinksBounded t
  quiet : ∀ a, (t.ant a).connected ≠ (s.ant a).connected → (t.ant a).presence = false
  inv : RouteInv s → RouteInv t
  owned : OneOwned s → OneOwned t
  claims : ClaimsExact s → ClaimsExact t
  asks : RequestsExact s → RequestsExact t

theorem Serves.refl (s : State) : Serves s s :=
  ⟨rfl, rfl, rfl, rfl, rfl, rfl, id, fun _ d => absurd rfl d, id, id, id, id⟩

theorem Keeps.serves {s t : State} (h : Keeps s t) : Serves s t :=
  ⟨h.powered, h.resetIsLow, h.timebase, h.pending, h.auxLines, h.aux, fun b port => Link.used_grows (h.links port) (b port),
    fun a d => (h.presence a).trans (h.quiet a d), h.inv, h.owned, h.claims, h.asks⟩

theorem Serves.andThen {s t u : State} (h : Serves s t) (k : Keeps t u) : Serves s u where
  powered := k.powered.trans h.powered
  resetIsLow := k.resetIsLow.trans h.resetIsLow
  timebase := k.timebase.trans h.timebase
  pending := k.pending.trans h.pending
  auxLines := k.auxLines.trans h.auxLines
  aux := k.aux.trans h.aux
  bounded b := k.serves.bounded (h.bounded b)
  quiet a d := by
    by_cases hh : (t.ant a).connected = (s.ant a).connected
    · exact k.serves.quiet a (fun e => d (e.trans hh))
    · exact (k.presence a).trans (h.quiet a hh)
  inv i := k.inv (h.inv i)
  owned i := k.owned (h.owned i)
  claims i := k.claims (h.claims i)
  asks i := k.asks (h.asks i)

/-- A change of the links alone, with their bound kept. -/
theorem onLink_serves (s : State) (port : Port) (f : Link → Link)
    (h : (s.link port).used ≤ Config.queuePlaces → (f (s.link port)).used ≤ Config.queuePlaces) : Serves s (s.onLink port f) :=
  ⟨rfl, rfl, rfl, rfl, rfl, rfl, fun b q => by
      by_cases e : q = port
      · subst e; simpa using h (b q)
      · simpa [onLink_at, e] using b q,
    fun _ d => absurd rfl d, RouteInv.same (fun _ => rfl) (fun _ => rfl) rfl rfl (fun _ => rfl) (fun _ => rfl) (fun _ => ⟨rfl, rfl⟩), id,
    ClaimsExact.same (fun _ => rfl) (fun _ => rfl) (fun _ => rfl), RequestsExact.same (fun _ => rfl) (fun _ => rfl) (fun _ => rfl)⟩

theorem answerRaw_serves (s : State) (port : Port) (type tag : Byte) (r : Result) (d : AnswerData) : Serves s (s.answerRaw port type tag r d) :=
  onLink_serves _ _ _ (Link.used_pushAnswer _ _)

theorem answer_serves (s : State) (port : Port) (q : Request) (tag : Byte) (r : Result) : Serves s (s.answer port q tag r) := answerRaw_serves _ _ _ _ _ _

theorem setLost_serves (s : State) (port : Port) : Serves s (s.setLost port) := onLink_serves _ _ _ id

theorem onStore_serves (s : State) (f : Store → Store) : Serves s (s.onStore f) :=
  ⟨rfl, rfl, rfl, rfl, rfl, rfl, id, fun _ d => absurd rfl d, RouteInv.same (fun _ => rfl) (fun _ => rfl) rfl rfl (fun _ => rfl) (fun _ => rfl) (fun _ => ⟨rfl, rfl⟩), id,
    ClaimsExact.same (fun _ => rfl) (fun _ => rfl) (fun _ => rfl), RequestsExact.same (fun _ => rfl) (fun _ => rfl) (fun _ => rfl)⟩

/-- Two effects that move no relay compose. -/
theorem Serves.links {s t u : State} (h : Serves s t) (k : Serves t u) (hs : ∀ a, t.ant a = s.ant a) : Serves s u :=
  ⟨k.powered.trans h.powered, k.resetIsLow.trans h.resetIsLow, k.timebase.trans h.timebase, k.pending.trans h.pending, k.auxLines.trans h.auxLines,
    k.aux.trans h.aux, fun b => k.bounded (h.bounded b), fun a d => k.quiet a (by rw [hs]; exact d), fun i => k.inv (h.inv i), fun i => k.owned (h.owned i), fun i => k.claims (h.claims i), fun i => k.asks (h.asks i)⟩

/-- The checks of R178 before a block's own service. -/
theorem takeRequest_serves (port : Port) (q : Request) (tag : Byte) (len perm : Bool) (f : State → State) (s : State)
    (h : (s.link port).fullOfAnswers = false → len = true → perm = true → Serves s (f s)) : Serves s (takeRequest port q tag len perm f s) := by
  unfold takeRequest
  split
  · exact setLost_serves _ _
  · rename_i hf
    split
    · exact answer_serves _ _ _ _ _
    · rename_i hl
      split
      · exact answer_serves _ _ _ _ _
      · rename_i hp
        exact h (by simpa using hf) (by simpa using hl) (by simpa using hp)

/-! ### Band Decoder -/

theorem serveSetBand_serves (port : Port) (tag p b : Byte) (s : State) : Serves s (serveSetBand port tag p b s) :=
  takeRequest_serves _ _ _ _ _ _ _ fun _ _ _ => by
    split
    · simp only []
      split
      · exact ((answer_serves _ _ _ _ _).andThen (cut_arb _ _ _).keeps).andThen (changeBand_keeps _ _ _ _)
      · exact answer_serves _ _ _ _ _
    · exact answer_serves _ _ _ _ _

theorem writeBanding_keeps (s : State) (p : Pos) (n : PositionConfig) : Keeps s (s.writeBanding p n) := by
  unfold State.writeBanding
  simp only []
  split
  · exact onPlace_keeps _ _ _
  · exact ((onPlace_keeps _ _ _).trans (cut_arb _ _ _).keeps).trans (takePattern_keeps _ _ _)

theorem serveSetBanding_serves (port : Port) (tag p src lm gm : Byte) (s : State) : Serves s (serveSetBanding port tag p src lm gm s) :=
  takeRequest_serves _ _ _ _ _ _ _ fun _ _ _ => by
    split
    · simp only []
      split
      · exact answer_serves _ _ _ _ _
      · exact (answer_serves _ _ _ _ _).andThen (writeBanding_keeps _ _ _)
    · exact answer_serves _ _ _ _ _

theorem remap_keeps (s : State) (p : Pos) : Keeps s (s.remap p) := by
  unfold State.remap
  split
  · exact applyBand_keeps _ _ _ _
  · exact .refl s

theorem writeBandMap_keeps (s : State) (m : Vector (Option Band) 16) (d : Nat) : Keeps s (s.writeBandMap m d) :=
  (onSettings_keeps s _ rfl).trans (forEach_keeps _ _ (fun _ _ => remap_keeps _ _) _)

theorem serveSetBandmap_serves (port : Port) (tag : Byte) (l : List Byte) (d : Byte) (s : State) : Serves s (serveSetBandmap port tag l d s) :=
  takeRequest_serves _ _ _ _ _ _ _ fun _ _ _ => by
    split
    · exact answer_serves _ _ _ _ _
    · simp only []
      split
      · exact answer_serves _ _ _ _ _
      · exact (answer_serves _ _ _ _ _).andThen (writeBandMap_keeps _ _ _)

/-! ### Antenna Table -/

theorem writeAntenna_keeps (s : State) (a : Ant) (n : AntennaConfig) : Keeps s (s.writeAntenna a n) := by
  have h1 : Keeps s (if (s.config a).configured = n.configured then s.onConfig a fun _ => n else (s.onConfig a fun _ => n).serviceChanged a) := by
    split
    · exact onConfig_keeps _ _ _
    · exact (onConfig_keeps _ _ _).trans (serviceChanged_keeps _ _)
  unfold State.writeAntenna
  simp only []
  by_cases hm : (s.config a).bandMask = n.bandMask
  · rw [if_pos hm]; exact h1
  · rw [if_neg hm]; exact h1.trans (maskChanged_keeps _ _ _)

theorem serveSetAntenna_serves (port : Port) (tag a m : Byte) (mp : Half) (sl : Byte) (kf : Half) (c zf zr st sv : Byte) (s : State) :
    Serves s (serveSetAntenna port tag a m mp sl kf c zf zr st sv s) :=
  takeRequest_serves _ _ _ _ _ _ _ fun _ _ _ => by
    split
    · simp only []
      split
      · exact answer_serves _ _ _ _ _
      · exact (answer_serves _ _ _ _ _).andThen (writeAntenna_keeps _ _ _)
    · exact answer_serves _ _ _ _ _

theorem clearTrip_keeps (s : State) (a : Ant) : Keeps s (s.clearTrip a) := by
  unfold State.clearTrip
  simp only []
  refine .trans ?_ (serviceReport_keeps _ _ _ _)
  split
  · exact (onAnt_keeps s a _ rfl rfl rfl).trans (freeBothSlots_keeps _ _ _)
  · exact onAnt_keeps s a _ rfl rfl rfl

theorem serveClear_serves (port : Port) (tag a : Byte) (s : State) : Serves s (serveClear port tag a s) :=
  takeRequest_serves _ _ _ _ _ _ _ fun _ _ _ => by
    split
    · simp only []
      split
      · exact (answer_serves _ _ _ _ _).andThen (clearTrip_keeps _ _)
      · exact answer_serves _ _ _ _ _
    · exact answer_serves _ _ _ _ _

/-! ### Settings that write and answer -/

/-- A setting written and answered. -/
theorem setting_serves (s : State) (f : Settings → Settings) (h : (f s.settings).aux = s.settings.aux) (port : Port) (q : Request) (tag : Byte) (r : Result) :
    Serves s ((s.onSettings f).answer port q tag r) :=
  (onSettings_keeps s f h).serves.links (answer_serves _ _ _ _ _) (fun _ => rfl)

theorem serveSetSensing_serves (port : Port) (tag t : Byte) (f : Half) (u : Byte) (s : State) : Serves s (serveSetSensing port tag t f u s) :=
  takeRequest_serves _ _ _ _ _ _ _ fun _ _ _ => by
    simp only []
    exact setting_serves _ _ rfl _ _ _ _

theorem serveSetSequencing_serves (port : Port) (tag : Byte) (d : Half) (f : Byte) (s : State) : Serves s (serveSetSequencing port tag d f s) :=
  takeRequest_serves _ _ _ _ _ _ _ fun _ _ _ => by
    simp only []
    exact setting_serves _ _ rfl _ _ _ _

theorem serveSetClaims_serves (port : Port) (tag : Byte) (l : Half) (s : State) : Serves s (serveSetClaims port tag l s) :=
  takeRequest_serves _ _ _ _ _ _ _ fun _ _ _ => by
    simp only []
    exact setting_serves _ _ rfl _ _ _ _

/-! ### Route Controller and Follow Selector -/

theorem serveClaim_serves (port : Port) (tag p a n : Byte) (s : State) : Serves s (serveClaim port tag p a n s) :=
  takeRequest_serves _ _ _ _ _ _ _ fun _ _ _ => by
    split
    · simp only []
      split
      · exact ((answer_serves _ _ _ _ _).andThen (placeClaim_keeps _ _ _ _ _ (fun h => claimCheck_waiting (s := s) h) fun h => claimCheck_done (s := s) h)).andThen (followOff_keeps _ _)
      · exact (answer_serves _ _ _ _ _).andThen (placeClaim_keeps _ _ _ _ _ (fun h => claimCheck_waiting (s := s) h) fun h => claimCheck_done (s := s) h)
    · exact answer_serves _ _ _ _ _

theorem release_keeps (s : State) (p : Pos) (w : ReleaseWhat) : Keeps s (s.release p w) := by
  have h1 : Keeps s (if w.claims then s.removeWaiting p (.withdrawn .release) else s) := by
    split
    · exact removeWaiting_keeps _ _ _
    · exact .refl s
  have h2 := h1.trans (followOff_keeps _ p)
  unfold State.release
  simp only []
  by_cases hr : w.routes = true
  · rw [if_pos hr]; exact h2.trans (releaseOwned_keeps _ _)
  · rw [if_neg hr]; exact h2

theorem serveRelease_serves (port : Port) (tag p w : Byte) (s : State) : Serves s (serveRelease port tag p w s) :=
  takeRequest_serves _ _ _ _ _ _ _ fun _ _ _ => by
    split
    · exact (answer_serves _ _ _ _ _).andThen (release_keeps _ _ _)
    · exact answer_serves _ _ _ _ _

theorem forceClaims_keeps (s : State) (q : Pos) (a : Ant) : Keeps s (s.forceClaims q a) := by
  unfold State.forceClaims
  split
  · rename_i h
    exact removeClaim_keeps _ _ _ fun _ => .inr (by simpa using h)
  · exact supersede_keeps _ _ _

/-- The new owner of a forced antenna waits nowhere once its claims are seen to (R70 step 1). -/
theorem forceClaims_waitsOn {s : State} {q : Pos} {a : Ant} (i : ClaimsExact (s.forceClaims q a)) : (s.forceClaims q a).waitsOn q = none := by
  unfold State.forceClaims at i ⊢
  split at i
  · rename_i h
    rw [if_pos h, waitsOn_removeClaim, if_pos rfl]
  · rename_i h
    rw [if_neg h]
    exact removeWaiting_waitsOn i

theorem forceOut_keeps (s : State) (a : Ant) (o : Option Pos) (h : (s.ant a).owner = o) : Keeps s (s.forceOut a o) := by
  unfold State.forceOut
  split
  · exact (removeOwner_keeps _ _ _ h).trans (claimReport_keeps _ _ _ _ _)
  · exact .refl s

theorem reselect_keeps (s : State) (o : Option Pos) : Keeps s (s.reselect o) := by
  unfold State.reselect
  split
  · exact select_keeps _ _ _
  · exact .refl s

theorem forceClaims_owner (s : State) (q : Pos) (a b : Ant) : ((s.forceClaims q a).ant b).owner = (s.ant b).owner := by
  unfold State.forceClaims
  split
  · rfl
  · exact removeWaiting_owner _ _ _ _

theorem forceOut_owner (s : State) (a : Ant) (o : Option Pos) (b : Ant) (h : b ≠ a) : ((s.forceOut a o).ant b).owner = (s.ant b).owner := by
  unfold State.forceOut
  split
  · rw [claimReport_ant, State.removeOwner, (giveAntenna_step _ _ _).owner, setOwner_owner, if_neg h]
  · rfl

theorem forceOut_waitsOn (s : State) (a : Ant) (o : Option Pos) (q : Pos) : (s.forceOut a o).waitsOn q = s.waitsOn q := by
  unfold State.forceOut
  split
  · rw [claimReport_waitsOn, State.removeOwner, (giveAntenna_step _ _ _).waitsOn]; rfl
  · rfl

theorem forceOut_none (s : State) (a : Ant) (o : Option Pos) (h : (s.ant a).owner = o) : ((s.forceOut a o).ant a).owner = none := by
  unfold State.forceOut
  split
  · rw [claimReport_ant, removeOwner_owner, if_pos rfl]
  · exact h

/-- The part as it is when the forced antenna goes to its new owner (R70 steps 1 to 3). -/
theorem forced_spec (s : State) (a : Ant) (q : Pos) {u : State} (hu : u = ((s.forceClaims q a).onPlace q fun c => { c with follow := false }).forceOut a (s.ant a).owner) :
    Keeps s u ∧ (u.ant a).owner = none ∧ (∀ b, b ≠ a → (u.ant b).owner = (s.ant b).owner) ∧ (ClaimsExact s → u.waitsOn q = none) := by
  have ho : ∀ b, (((s.forceClaims q a).onPlace q fun c => { c with follow := false }).ant b).owner = (s.ant b).owner := fun b => forceClaims_owner s q a b
  subst hu
  refine ⟨((forceClaims_keeps s q a).trans (onPlace_keeps _ _ _)).trans (forceOut_keeps _ _ _ (ho a)), forceOut_none _ _ _ (ho a),
    fun b hb => by rw [forceOut_owner _ _ _ _ hb, ho], fun i => ?_⟩
  rw [forceOut_waitsOn]
  exact forceClaims_waitsOn ((forceClaims_keeps s q a).claims i)

theorem forceTo_keeps (s : State) (a : Ant) (q : Pos) : Keeps s (s.forceTo a q) := by
  unfold State.forceTo
  simp only []
  generalize hu : ((s.forceClaims q a).onPlace q fun c => { c with follow := false }).forceOut a (s.ant a).owner = u
  obtain ⟨h1, hn, ho, hw⟩ := forced_spec s a q hu.symm
  have key : OneOwned s → ∀ x, (u.ant x).owner = some q → x ≠ a → s.ownedOther q a = some x := fun i x hx hne => by
    rw [ho x hne] at hx
    simp [State.ownedOther, owned_spec i hx, hne]
  have h2 : Keeps s (u.makeOwner q a .supervisor .force (s.ownedOther q a)) :=
    ⟨h1.toMoves.trans (makeOwner_moves _ _ _ _ _ _), fun i => makeOwner_owned _ _ (h1.owned i) (key i),
      fun i => makeOwner_exact _ _ _ (hw i) (h1.claims i), fun i => makeOwner_requests _ _ (h1.asks i) hn (key i.one) fun x hx => by
        obtain ⟨h3, h4⟩ := ownedOther_owner hx
        rw [ho x h4]; exact h3⟩
  refine (h2.trans (servePrevious_keeps _ _ fun b hb => ?_)).trans (reselect_keeps _ _)
  rw [makeOwner_owner, if_pos hb]

theorem forceNone_keeps (s : State) (a : Ant) : Keeps s (s.forceNone a) :=
  ((forceOut_keeps _ _ _ rfl).trans (serve_keeps _ _ (forceOut_none _ _ _ rfl))).trans (reselect_keeps _ _)

theorem force_keeps (s : State) (a : Ant) (t : Option Pos) : Keeps s (s.force a t) := by
  unfold State.force
  split
  · exact forceTo_keeps _ _ _
  · exact forceNone_keeps _ _

theorem serveForce_serves (port : Port) (tag a p : Byte) (s : State) : Serves s (serveForce port tag a p s) :=
  takeRequest_serves _ _ _ _ _ _ _ fun _ _ _ => by
    split
    · simp only []
      split
      · exact (answer_serves _ _ _ _ _).andThen (force_keeps _ _ _)
      · exact answer_serves _ _ _ _ _
    · exact answer_serves _ _ _ _ _

theorem followAction_keeps (s : State) (p : Pos) (act : FollowAction) : Keeps s (s.followAction p act) := by
  unfold State.followAction
  split
  · exact (onPlace_keeps _ _ _).trans (select_keeps _ _ _)
  · exact (onPlace_keeps _ _ _).trans (select_keeps _ _ _)
  · exact followOff_keeps _ _

theorem serveFollow_serves (port : Port) (tag p act : Byte) (s : State) : Serves s (serveFollow port tag p act s) :=
  takeRequest_serves _ _ _ _ _ _ _ fun _ _ _ => by
    split
    · exact (answer_serves _ _ _ _ _).andThen (followAction_keeps _ _ _)
    · exact answer_serves _ _ _ _ _

theorem serveSetPref_serves (port : Port) (tag p b n : Byte) (l : List Byte) (s : State) : Serves s (serveSetPref port tag p b n l s) :=
  takeRequest_serves _ _ _ _ _ _ _ fun _ _ _ => by
    split
    · simp only []
      split
      · exact (answer_serves _ _ _ _ _).andThen (onPlace_keeps _ _ _)
      · exact answer_serves _ _ _ _ _
    · exact answer_serves _ _ _ _ _

/-! ### Path Sequencers -/

theorem endMake_keeps (s : State) (p : Pos) : Keeps s (s.endMake p) := by
  unfold State.endMake
  split
  · rename_i h
    exact (finishMake_step s p _ _ h).keeps (finishMake_asks s p _ h)
  · exact .refl s

theorem phaseDue_spec {s : State} {p : Pos} {f : Phase} (h : s.phaseDue p f = true) : (s.seq p).state.shown = f := by
  simp [State.phaseDue] at h
  exact h.1

/-- The end of BREAK (R107, R116). -/
theorem endBreak_step (s : State) (p : Pos) (hs : (s.seq p).state ≠ .idle) (hh : (s.seq p).holds = none) : SeqStep s (s.endBreak p) := by
  unfold State.endBreak
  split
  · exact waitInHoldoff_step s p hs hh
  · exact enterHoldoff_step s p hs hh

theorem endBreak_asks (s : State) (p : Pos) : Asks s (s.endBreak p) p (s.seq p).target := by
  unfold State.endBreak
  split
  · exact waitInHoldoff_asks s p
  · exact enterHoldoff_asks s p

theorem breakEnd_keeps (s : State) (p : Pos) : Keeps s (onlyIf (fun s => s.phaseDue p .brk) (fun s => s.endBreak p) s) := by
  unfold onlyIf
  split
  · rename_i h
    have h := phaseDue_spec h
    cases hs : (s.seq p).state <;> simp [hs, SeqState.shown] at h
    exact (endBreak_step s p (by simp [hs]) (by simp [Sequencer.holds, hs])).keeps
      ((endBreak_asks s p).alikeOf (by simp [hs]))
  · exact .refl s

theorem makeEnd_keeps (s : State) (p : Pos) : Keeps s (onlyIf (fun s => s.phaseDue p .make) (fun s => s.endMake p) s) := by
  unfold onlyIf
  split
  · exact endMake_keeps _ _
  · exact .refl s

theorem rfHot_keeps (s : State) (p : Pos) : Keeps s (onlyIf (fun s => s.hotDue p) (fun s => s.reportHot p) s) := by
  unfold onlyIf
  split
  · refine (report_keeps _ _ _).trans ((onSeq_step _ p _ rfl fun h => ?_).keeps fun q => ?_)
    · simpa [State.routeStatus] using h
    · by_cases e : q = p
      · subst e; simp [Sequencer.requested]
      · simp [onSeq_at, e]
  · exact .refl s

/-! ### Transmit Arbiter -/

/-- A cut without the walk leaves HOLD as it was, and is the same whether HOLD is on or off. -/
theorem report_setHold (s : State) (b : Bool) (consoles : List Pos) (body : ReportBody) :
    (s.setHold b).report consoles body = (s.report consoles body).setHold b := by
  unfold State.report
  generalize reportPorts consoles = l
  induction l generalizing s with
  | nil => rfl
  | cons x rest ih => exact ih (s.onLink x fun l => l.pushReport { body := body, time := s.timebase })

theorem endGrant_setHold (s : State) (b : Bool) (p : Pos) (into : KeyState) : (s.setHold b).endGrant p into = (s.endGrant p into).setHold b := by
  unfold State.endGrant State.dropTxen State.releaseTaps
  have e : (s.setHold b).grantAntenna p = s.grantAntenna p := rfl
  rw [e]
  have e2 : (((s.setHold b).onKey p fun k => { k with state := into, grant := none, tapGuard := none, hang := none, maxKey := none }).txen p)
    = ((s.onKey p fun k => { k with state := into, grant := none, tapGuard := none, hang := none, maxKey := none }).txen p) := rfl
  rw [e2]
  split <;> split <;> rfl

theorem cutQuietly_setHold (s : State) (b : Bool) (p : Pos) (r : KeyReason) (x : Option Pos) :
    (s.setHold b).cutQuietly p r x = (s.cutQuietly p r x).setHold b := by
  unfold State.cutQuietly
  have e : (s.setHold b).granted p = s.granted p := rfl
  have e2 : (s.setHold b).afterCut p = s.afterCut p := rfl
  have e3 : (s.setHold b).key p = s.key p := rfl
  rw [e, e2, e3, endGrant_setHold, report_setHold]
  split <;> rfl

theorem cutAll_setHold (l : List Pos) (s : State) (b : Bool) (r : KeyReason) (x : Option Pos) :
    forEach l (fun p s => s.cutQuietly p r x) (s.setHold b) = (forEach l (fun p s => s.cutQuietly p r x) s).setHold b := by
  induction l generalizing s with
  | nil => rfl
  | cons p rest ih =>
    show forEach rest _ ((s.setHold b).cutQuietly p r x) = _
    rw [cutQuietly_setHold, ih]
    rfl

theorem cutQuietly_granted (s : State) (p q : Pos) (r : KeyReason) (x : Option Pos) :
    (s.cutQuietly p r x).granted q = if q = p then false else s.granted q := by
  unfold State.cutQuietly
  split
  · have e : ∀ (u : State) c b, (u.report c b).granted q = u.granted q := fun u c b => by
      obtain ⟨L, h, _⟩ := report_links u c b
      rw [h]; rfl
    rw [e, State.granted, endGrant_key]
    by_cases h : q = p
    · subst h
      simp only [if_true]
      have := afterCut_resting s q
      exact KeyState.resting_granted this
    · simp [h, State.granted]
  · rename_i h
    by_cases e : q = p
    · subst e; simpa using h
    · simp [e]

theorem cutAll_granted (l : List Pos) (s : State) (q : Pos) (r : KeyReason) (x : Option Pos) :
    (forEach l (fun p s => s.cutQuietly p r x) s).granted q = if q ∈ l then false else s.granted q := by
  induction l generalizing s with
  | nil => simp [forEach]
  | cons p rest ih =>
    show (forEach rest _ (s.cutQuietly p r x)).granted q = _
    rw [ih, cutQuietly_granted]
    by_cases h : q ∈ rest <;> by_cases e : q = p <;> simp [h, e]

theorem setHold_inv {s : State} {b : Bool} (h : b = true → ∀ p, s.granted p = false) (i : RouteInv s) : RouteInv (s.setHold b) :=
  ⟨⟨i.keys.txen, i.keys.taps, h, i.keys.grants, i.keys.waiting⟩, i.onRoute, i.relays⟩

theorem setHold_keeps (s : State) (b : Bool) (h : b = true → ∀ p, s.granted p = false) : Keeps s (s.setHold b) :=
  ⟨⟨rfl, rfl, rfl, rfl, rfl, rfl, rfl, rfl, rfl, rfl, fun _ => Link.grows_refl _, fun _ => rfl, fun _ d => absurd rfl d, setHold_inv h⟩, id,
    ClaimsExact.same (fun _ => rfl) (fun _ => rfl) (fun _ => rfl), RequestsExact.same (fun _ => rfl) (fun _ => rfl) (fun _ => rfl)⟩

theorem changeHold_keeps (s : State) (on : Bool) : Keeps s (s.changeHold on) := by
  unfold State.changeHold
  split
  · rw [cutAll_setHold]
    refine (cutAll_arb _ _ _ _).keeps.trans (setHold_keeps _ _ fun _ p => ?_)
    rw [cutAll_granted, if_pos (mem_allPos p)]
  · exact (setHold_keeps _ _ (by simp)).trans (walk_arb _).keeps

theorem serveHold_serves (port : Port) (tag v : Byte) (s : State) : Serves s (serveHold port tag v s) :=
  takeRequest_serves _ _ _ _ _ _ _ fun _ _ _ => by
    split
    · split
      · exact answer_serves _ _ _ _ _
      · exact (answer_serves _ _ _ _ _).andThen (changeHold_keeps _ _)
    · exact answer_serves _ _ _ _ _

theorem park_keeps (s : State) (p : Pos) : Keeps s (s.park p) := (cutOrDeny_arb _ _ _).keeps.trans (dropClaim_keeps _ _ _)

theorem writeKeying_keeps (s : State) (p : Pos) (n : PositionConfig) : Keeps s (s.writeKeying p n) := by
  unfold State.writeKeying
  simp only []
  split
  · exact (onPlace_keeps _ _ _).trans (park_keeps _ _)
  · exact onPlace_keeps _ _ _

theorem serveSetKeying_serves (port : Port) (tag p k : Byte) (h m : Half) (s : State) : Serves s (serveSetKeying port tag p k h m s) :=
  takeRequest_serves _ _ _ _ _ _ _ fun _ _ _ => by
    split
    · exact (answer_serves _ _ _ _ _).andThen (writeKeying_keeps _ _ _)
    · exact answer_serves _ _ _ _ _

theorem deny_granted (s : State) (p q : Pos) (r : KeyReason) (h : s.granted q = false) : (s.deny p r).granted q = false := by
  unfold State.deny
  obtain ⟨L, e, _⟩ := report_links (s.leaveList p .blocked) [p] (.keyDenied p r (s.band p) (s.routeAntenna p))
  rw [e]
  show ((s.leaveList p .blocked).key q).state.granted = false
  unfold State.leaveList
  by_cases k : q = p
  · subst k; simp [KeyState.granted]
  · simpa [State.granted, onKey_at, k] using h

theorem denyClosed_keeps (s : State) : Keeps s s.denyClosed := by
  unfold State.denyClosed
  have h : ∀ (l : List Pos) (u : State), (∀ p ∈ l, u.granted p = false) → Keeps u (forEach l (fun p s => s.deny p .bandClosed) u) := by
    intro l
    induction l with
    | nil => exact fun u _ => .refl u
    | cons p rest ih =>
      intro u hu
      exact (deny_arb u p .bandClosed (hu p (by simp))).keeps.trans (ih _ fun q hq => deny_granted u p q _ (hu q (by simp [hq])))
  refine h _ _ fun p hp => ?_
  have := (List.mem_filter.1 hp).2
  unfold State.onClosedBand at this
  split at this
  · simp at this
    exact queued_not_granted this.1
  · simp at this

theorem writeRules_keeps (s : State) (n : Settings) (h : n.aux = s.settings.aux) : Keeps s (s.writeRules n) := by
  have h1 : Keeps s (if s.settings.order = n.order then s.onSettings fun _ => n else (s.onSettings fun _ => n).setPointer 5) := by
    split
    · exact onSettings_keeps _ _ h
    · exact (onSettings_keeps _ _ h).trans (setPointer_keeps _ _)
  exact (h1.trans (denyClosed_keeps _)).trans (walk_arb _).keeps

theorem serveSetRules_serves (port : Port) (tag : Byte) (l : List Byte) (t o pre g : Byte) (s : State) : Serves s (serveSetRules port tag l t o pre g s) :=
  takeRequest_serves _ _ _ _ _ _ _ fun _ _ _ => by
    split
    · simp only []
      split
      · exact answer_serves _ _ _ _ _
      · exact (answer_serves _ _ _ _ _).andThen (writeRules_keeps _ _ rfl)
    · exact answer_serves _ _ _ _ _

theorem serveSetExclusion_serves (port : Port) (tag op a b : Byte) (s : State) : Serves s (serveSetExclusion port tag op a b s) :=
  takeRequest_serves _ _ _ _ _ _ _ fun _ _ _ => by
    simp only []
    split
    · exact ((answer_serves _ _ _ _ _).andThen (onSettings_keeps _ _ rfl)).andThen (walk_arb _).keeps
    · exact answer_serves _ _ _ _ _

theorem samplePtt_keeps (s : State) (p : Pos) : Keeps s (s.samplePtt p) := by
  unfold State.samplePtt
  split
  · exact onKey_keeps _ _ _ rfl rfl
  · split
    · exact .refl s
    · exact onKey_keeps _ _ _ rfl rfl

theorem releaseOn_keeps (s : State) (p : Pos) (h : (s.key p).state = .on) : Keeps s (s.releaseOn p) := by
  unfold State.releaseOn
  split
  · exact (releaseGrant_arb s p (by simp [State.granted, h, KeyState.granted])).keeps
  · exact (toHang_arb s p _ h).keeps

theorem assertKey_keeps (s : State) (p : Pos) : Keeps s (s.assertKey p) := by
  unfold State.assertKey
  split <;> try exact .refl s
  · rename_i h; exact (checkKey_arb s p (by rw [h]; rfl)).keeps
  · rename_i h; exact (enterOn_arb s p (by simp [State.granted, h, KeyState.granted])).keeps

theorem releaseKey_keeps (s : State) (p : Pos) : Keeps s (s.releaseKey p) := by
  unfold State.releaseKey
  split
  · rename_i h; exact (rest_arb s p .off (by rw [h]; rfl) rfl).keeps
  · rename_i h; exact (rest_arb s p .off (by rw [h]; rfl) rfl).keeps
  · rename_i h; exact (leaveList_arb s p .off (queued_not_granted h) rfl).keeps
  · rename_i h; exact (releaseGrant_arb s p (by simp [State.granted, h, KeyState.granted])).keeps
  · rename_i h; exact releaseOn_keeps s p h
  · exact .refl s
  · exact .refl s

theorem pttEdge_keeps (s : State) (p : Pos) : Keeps s (s.pttEdge p) := by
  unfold State.pttEdge
  simp only []
  split
  · exact (onKey_keeps _ _ _ rfl rfl).trans (releaseKey_keeps _ _)
  · exact (onKey_keeps _ _ _ rfl rfl).trans (assertKey_keeps _ _)

theorem onlyIf_keeps (c : State → Bool) (f : State → State) (s : State) (h : c s = true → Keeps s (f s)) : Keeps s (onlyIf c f s) := by
  unfold onlyIf
  split
  · rename_i e; exact h e
  · exact .refl s

theorem tapGuard_keeps (s : State) (p : Pos) : Keeps s (onlyIf (fun s => s.tapGuardDue p) (fun s => s.enterOn p) s) :=
  onlyIf_keeps _ _ _ fun h => (enterOn_arb s p (by simp [State.tapGuardDue] at h; simp [State.granted, h.1, KeyState.granted])).keeps

theorem hang_keeps (s : State) (p : Pos) : Keeps s (onlyIf (fun s => s.hangDue p) (fun s => s.releaseGrant p) s) :=
  onlyIf_keeps _ _ _ fun h => (releaseGrant_arb s p (by simp [State.hangDue] at h; simp [State.granted, h.1, KeyState.granted])).keeps

/-! ### Tap Controller, QUERY, PING, the store -/

theorem stopListening_keeps (s : State) (p : Pos) : Keeps s (s.stopListening p) := by
  unfold State.stopListening
  split
  · exact freeTapOf_keeps _ _ _ _
  · exact .refl s

theorem serveListen_serves (port : Port) (tag p a : Byte) (s : State) : Serves s (serveListen port tag p a s) :=
  takeRequest_serves _ _ _ _ _ _ _ fun _ _ _ => by
    split
    · exact (answer_serves _ _ _ _ _).andThen (stopListening_keeps _ _)
    · simp only []
      split
      · exact ((answer_serves _ _ _ _ _).andThen (stopListening_keeps _ _)).andThen (takeSlot_keeps _ _ _)
      · exact answer_serves _ _ _ _ _
    · exact answer_serves _ _ _ _ _

theorem servePing_serves (port : Port) (tag : Byte) (s : State) : Serves s (servePing port tag s) :=
  takeRequest_serves _ _ _ _ _ _ _ fun _ _ _ => answerRaw_serves _ _ _ _ _ _

theorem resetPeak_keeps (s : State) (a : Option Ant) : Keeps s (s.resetPeak a) := by
  unfold State.resetPeak
  split
  · exact onAnt_keeps s _ _ rfl rfl rfl
  · exact .refl s

theorem serveQuery_serves (port : Port) (tag su ix pr : Byte) (s : State) : Serves s (serveQuery port tag su ix pr s) :=
  takeRequest_serves _ _ _ _ _ _ _ fun _ _ _ => by
    split
    · exact (answerRaw_serves _ _ _ _ _ _).andThen (resetPeak_keeps _ _)
    · exact answer_serves _ _ _ _ _

theorem Link.used_reserve (l : Link) (hn : l.fullOfAnswers = false) (h : l.used ≤ Config.queuePlaces) : l.reserve.used ≤ Config.queuePlaces := by
  have hm : ∃ m, l.makeRoom = some m := by
    unfold Link.makeRoom
    split
    · rename_i hf
      have : ∃ r ∈ l.queue, r.isReport = true := by
        simp [Link.fullOfAnswers, hf] at hn
        obtain ⟨x, hx, hr⟩ := hn
        exact ⟨x, hx, hr⟩
      have hd : ∀ q : List Record, (∃ r ∈ q, r.isReport = true) → ∃ q', dropLastReport q = some q' := by
        intro q
        induction q with
        | nil => simp
        | cons r rest ih =>
          rintro ⟨x, hx, hr⟩
          simp only [dropLastReport]
          cases hrest : dropLastReport rest with
          | some y => exact ⟨_, rfl⟩
          | none =>
            have : r.isReport = true := by
              rcases List.mem_cons.1 hx with e | e
              · rw [← e]; exact hr
              · obtain ⟨y, hy⟩ := ih ⟨x, e, hr⟩
                rw [hrest] at hy; cases hy
            simp [this]
      obtain ⟨q', hq⟩ := hd _ this
      exact ⟨_, by rw [hq]; rfl⟩
    · exact ⟨_, rfl⟩
  obtain ⟨m, hm⟩ := hm
  have := Link.used_makeRoom hm h
  unfold Link.reserve
  rw [hm]
  simp only [Option.getD_some]
  unfold Link.used at this ⊢
  simp only [if_true]
  split at this <;> omega

theorem serveSave_serves (port : Port) (tag : Byte) (s : State) : Serves s (serveSave port tag s) :=
  takeRequest_serves _ _ _ _ _ _ _ fun hf _ _ => by
    split
    · exact answer_serves _ _ _ _ _
    · exact (onLink_serves s port _ (Link.used_reserve _ hf)).links (onStore_serves _ _) (fun _ => rfl)

theorem finishWrite_serves (s : State) (v : Bool) : Serves s (s.finishWrite v) := by
  unfold State.finishWrite
  split
  · refine ((onStore_serves s _).links (onLink_serves _ _ _ fun h => ?_) (fun _ => rfl)).links (answer_serves _ _ _ _ _) (fun _ => rfl)
    exact Nat.le_trans (by simp [Link.used]) h
  · exact .refl s

theorem serveRestart_serves (port : Port) (tag : Byte) (s : State) : Serves s (serveRestart port tag s) :=
  takeRequest_serves _ _ _ _ _ _ _ fun _ _ _ => by
    simp only []
    split
    · exact (answer_serves _ _ _ _ _).links (onStore_serves _ _) (fun _ => rfl)
    · exact answer_serves _ _ _ _ _

theorem claimExpired_keeps (s : State) (p : Pos) : Keeps s (onlyIf (fun s => s.claimDue p) (fun s => s.removeWaiting p .expired) s) :=
  onlyIf_keeps _ _ _ fun _ => removeWaiting_keeps _ _ _

/-! ### RF Sensor -/

theorem writeReadings_keeps (s : State) (a : Ant) (x y : Nat) : Keeps s (s.writeReadings a x y) :=
  (onSensor_keeps s a _).trans (onAnt_keeps _ a _ rfl rfl rfl)

theorem presenceToSequencer_keeps (s : State) (p : Pos) (a : Ant) : Keeps s (s.presenceToSequencer p a) := by
  unfold State.presenceToSequencer
  split
  · exact .refl s
  · rename_i hs
    split
    · rename_i hc
      simp at hc
      refine (enterBreak_step s p hs fun b hb => ?_).keeps ((enterBreak_asks s p).alikeOf (by simp [hs]))
      rw [hc.1] at hb
      cases hb
      exact hc.2
    · exact .refl s
  · split
    · exact trip_keeps _ _ _
    · exact .refl s
  · split
    · exact (retestHoldoff_step _ _).keeps (retestHoldoff_asks _ _)
    · exact .refl s
  · split
    · exact trip_keeps _ _ _
    · exact .refl s

theorem judgeTrips_keeps (s : State) (a : Ant) : Keeps s (s.judgeTrips a) := by
  unfold State.judgeTrips
  simp only []
  split
  · exact (onSensor_keeps _ _ _).trans (trip_keeps _ _ _)
  · split
    · exact (onSensor_keeps _ _ _).trans (trip_keeps _ _ _)
    · exact onSensor_keeps _ _ _

theorem judgeEpisode_keeps (s : State) (a : Ant) : Keeps s (s.judgeEpisode a) := by
  unfold State.judgeEpisode State.judgeUnkeyed State.judgeStray
  split
  · split
    · split
      · exact (onSensor_keeps _ _ _).trans (report_keeps _ _ _)
      · exact .refl s
    · split
      · exact .refl s
      · exact (onSensor_keeps _ _ _).trans (report_keeps _ _ _)
  · exact .refl s

/-- Presence is written, and the taps of the antenna are commanded again at once (R41, R158). -/
theorem writePresence_serves (s : State) (a : Ant) (b : Bool) (f : SensorRecord → SensorRecord) :
    Serves s ((((s.onAnt a fun r => { r with presence := b }).onSensor a f)).commandTaps a) := by
  have hc : ∀ c, ((s.onAnt a fun r => { r with presence := b }).ant c).connected = (s.ant c).connected := fun c => by
    by_cases e : c = a
    · subst e; simp
    · simp [onAnt_at, e]
  have ho : ∀ c, (((((s.onAnt a fun r => { r with presence := b }).onSensor a f)).commandTaps a).ant c).owner = (s.ant c).owner := fun c => by
    by_cases e : c = a
    · subst e; simp [State.commandTaps]
    · simp [State.commandTaps, onAnt_at, e]
  refine ⟨rfl, rfl, rfl, rfl, rfl, rfl, id, fun c d => absurd (hc c) d, fun i => ⟨i.keys.of (fun _ => rfl) (fun _ => rfl) rfl rfl fun c => ?_, i.onRoute, fun p c => ?_⟩, ?_, ?_, ?_⟩
  · by_cases e : c = a
    · subst e; simp [State.commandTaps]
    · simpa [State.commandTaps, onTap_at, onAnt_at, e] using i.keys.taps c
  · have := i.relays p c
    rw [← hc c] at this
    exact this
  · exact OneOwned.same ho
  · exact ClaimsExact.same (fun _ => rfl) (fun _ => rfl) ho
  · exact RequestsExact.same (fun _ => rfl) (fun _ => rfl) ho

theorem setPresence_serves (s : State) (a : Ant) (b : Bool) : Serves s (s.setPresence a b) :=
  (writePresence_serves s a b _).andThen (forEach_keeps _ _ (fun _ _ => presenceToSequencer_keeps _ _ _) _)

theorem judgePresence_serves (s : State) (a : Ant) : Serves s (s.judgePresence a) := by
  unfold State.judgePresence
  split
  · split
    · exact (onSensor_keeps _ _ _).serves
    · split
      · exact setPresence_serves _ _ _
      · exact (onSensor_keeps _ _ _).serves
  · split
    · exact setPresence_serves _ _ _
    · exact .refl s

theorem writeReadings_ant (s : State) (a : Ant) (x y : Nat) (b : Ant) : ((s.writeReadings a x y).ant b).connected = (s.ant b).connected := by
  unfold State.writeReadings
  by_cases e : b = a
  · subst e; simp
  · simp [onAnt_at, e]

/-- Two effects compose where the first moves no relay. -/
theorem Serves.after {s t u : State} (h : Keeps s t) (hc : ∀ a, (t.ant a).connected = (s.ant a).connected) (k : Serves t u) : Serves s u :=
  ⟨k.powered.trans h.powered, k.resetIsLow.trans h.resetIsLow, k.timebase.trans h.timebase, k.pending.trans h.pending, k.auxLines.trans h.auxLines,
    k.aux.trans h.aux, fun b => k.bounded (h.serves.bounded b), fun a d => k.quiet a (by rw [hc]; exact d), fun i => k.inv (h.inv i), fun i => k.owned (h.owned i), fun i => k.claims (h.claims i), fun i => k.asks (h.asks i)⟩

theorem antennaCleared_keeps (s : State) (a : Ant) : Keeps s (s.antennaCleared a) := (antennaCleared_step s a).keeps (antennaCleared_asks s a)

theorem updatePeak_keeps (s : State) (a : Ant) : Keeps s (s.updatePeak a) := onAnt_keeps s a (fun r => { r with peak := max r.peak r.pf }) rfl rfl rfl

theorem samplePort_serves (s : State) (a : Ant) : Serves s (s.samplePort a) := by
  unfold State.samplePort
  refine .andThen ?_ (judgeEpisode_keeps _ _)
  refine .andThen ?_ (updatePeak_keeps _ _)
  refine .andThen ?_ (judgeTrips_keeps _ _)
  refine .andThen ?_ (antennaCleared_keeps _ _)
  exact Serves.after (writeReadings_keeps s a _ _) (writeReadings_ant s a _ _) (judgePresence_serves _ _)

/-! ### Framers -/

/-- A framer moves, and no queue changes. -/
theorem framer_serves (s : State) (port : Port) (f : Link → Link) (hq : ∀ l, (f l).used = l.used) : Serves s (s.onLink port f) :=
  onLink_serves _ _ _ fun h => by rw [hq]; exact h

theorem Link.used_takeLength (l : Link) (b : Byte) (t : Timer) : (l.takeLength b t).used = l.used := by
  unfold Link.takeLength
  split
  · rfl
  · split <;> rfl

end Sys2Proof.Machine
end

