-- ==== Sys2Proof/Laws/Events.lean ====
section
/-! SUPPORT. A whole event: the aux lines follow at its end (R170), and what its effect may do to the state; with the flash edge, the tick, the end of a frame's sending and the start-up. -/

namespace Sys2Proof.Machine

/-! ### Aux lines -/

/-- The state with its aux lines replaced. -/
def State.withAux (s : State) (A : Vector Bool 8) : State := { s with auxLines := A }

@[simp] theorem withAux_same (s : State) : s.withAux s.auxLines = s := rfl
@[simp] theorem withAux_withAux (s : State) (A B : Vector Bool 8) : (s.withAux A).withAux B = s.withAux B := rfl

/-- No condition reads an aux line. -/
theorem withAux_condition (s : State) (A : Vector Bool 8) (c : AuxSource) : (s.withAux A).condition c = s.condition c := by
  rcases c with v | ⟨p, g⟩ | ⟨a, g⟩ | g
  · rfl
  · cases g <;> rfl
  · cases g <;> rfl
  · cases g <;> rfl

theorem withAux_lineValue (s : State) (A : Vector Bool 8) (l : Fin 8) : (s.withAux A).lineValue l = s.lineValue l := by
  unfold State.lineValue
  rw [withAux_condition]
  rfl

theorem mem_allLines : ∀ l : Fin 8, l ∈ allLines := by decide

/-- Lines worked out again one after another: those that the test names take the value R165 gives them, the others keep theirs. -/
theorem drive_spec (g : State → Fin 8 → Bool) (hg : ∀ t A l, g (State.withAux t A) l = g t l) (L : List (Fin 8)) (t : State) :
    ∃ A, forEach L (fun l s => if g s l then s.driveLine l else s) t = t.withAux A
      ∧ ∀ l, (t.withAux A).auxLine l = if l ∈ L ∧ g t l = true then t.lineValue l else t.auxLine l := by
  induction L generalizing t with
  | nil => exact ⟨t.auxLines, rfl, by simp⟩
  | cons x rest ih =>
    show ∃ A, forEach rest _ (if g t x then t.driveLine x else t) = _ ∧ _
    by_cases hx : g t x = true
    · rw [if_pos hx]
      have e : t.driveLine x = t.withAux (upd t.auxLines x fun _ => t.lineValue x) := rfl
      rw [e]
      obtain ⟨A, h1, h2⟩ := ih (t.withAux (upd t.auxLines x fun _ => t.lineValue x))
      refine ⟨A, h1, fun l => ?_⟩
      have h3 := h2 l
      rw [hg, withAux_lineValue] at h3
      have h4 : ((t.withAux (upd t.auxLines x fun _ => t.lineValue x)).withAux A).auxLine l = (t.withAux A).auxLine l := rfl
      rw [h4] at h3
      rw [h3]
      by_cases hl : l = x
      · subst hl
        have : (t.withAux (upd t.auxLines l fun _ => t.lineValue l)).auxLine l = t.lineValue l := upd_same _ _ _
        simp [this, hx]
      · have : (t.withAux (upd t.auxLines x fun _ => t.lineValue x)).auxLine l = t.auxLine l := upd_other _ _ _ _ hl
        simp [this, hl]
    · rw [if_neg hx]
      obtain ⟨A, h1, h2⟩ := ih t
      refine ⟨A, h1, fun l => ?_⟩
      rw [h2 l]
      by_cases hl : l = x
      · subst hl; simp [hx]
      · simp [hl]

/-- The aux lines at the end of an event (R170). -/
theorem followAux_spec (s t : State) : ∃ A, followAux s t = t.withAux A
    ∧ ∀ l, (followAux s t).auxLine l = if conditionMoved s t l = true then t.lineValue l else t.auxLine l := by
  obtain ⟨A, h1, h2⟩ := drive_spec (fun _ l => conditionMoved s t l) (fun _ _ _ => rfl) allLines t
  have e : followAux s t = t.withAux A := h1
  refine ⟨A, e, fun l => ?_⟩
  rw [e, h2 l]
  simp only [mem_allLines l, true_and]

theorem flashLines_spec (t : State) : ∃ A, t.flashLines = t.withAux A
    ∧ ∀ l, t.flashLines.auxLine l = if ((t.auxConfig l).flash && t.condition (t.auxConfig l).source) = true then t.lineValue l else t.auxLine l := by
  obtain ⟨A, h1, h2⟩ := drive_spec (fun t l => (t.auxConfig l).flash && t.condition (t.auxConfig l).source) (fun t A l => by
    have e : (State.withAux t A).auxConfig l = t.auxConfig l := rfl
    rw [e, withAux_condition]) allLines t
  have e : t.flashLines = t.withAux A := h1
  refine ⟨A, e, fun l => ?_⟩
  rw [e, h2 l]
  simp only [mem_allLines l, true_and]

theorem driveAll_spec (t : State) : ∃ A, t.driveAll = t.withAux A ∧ ∀ l, t.driveAll.auxLine l = t.lineValue l := by
  obtain ⟨A, h1, h2⟩ := drive_spec (fun _ _ => true) (fun _ _ _ => rfl) allLines t
  have e : t.driveAll = t.withAux A := by
    rw [← h1]
    simp [State.driveAll]
  refine ⟨A, e, fun l => ?_⟩
  rw [e, h2 l]
  simp [mem_allLines l]

/-! ### The effect of an event -/

/-- What the effect of any event may do. The last clause is what the end of the event needs: a line whose condition the event has not moved has its value already. -/
structure Acts (s t : State) : Prop where
  powered : t.powered = s.powered
  resetIsLow : t.resetIsLow = s.resetIsLow
  pending : t.pending = s.pending
  bounded : LinksBounded s → LinksBounded t
  quiet : ∀ a, (t.ant a).connected ≠ (s.ant a).connected → (t.ant a).presence = false
  inv : RouteInv s → RouteInv t
  owned : OneOwned s → OneOwned t
  claims : ClaimsExact s → ClaimsExact t
  asks : RequestsExact s → RequestsExact t
  lines : (∀ l, s.auxLine l = s.lineValue l) → ∀ l, conditionMoved s t l = false → t.auxLine l = t.lineValue l

theorem Serves.auxConfig {s t : State} (h : Serves s t) (l : Fin 8) : t.auxConfig l = s.auxConfig l := by
  unfold State.auxConfig
  rw [h.aux]

theorem Serves.acts {s t : State} (h : Serves s t) : Acts s t :=
  ⟨h.powered, h.resetIsLow, h.pending, h.bounded, h.quiet, h.inv, h.owned, h.claims, h.asks, fun v l m => by
    have e : t.auxLine l = s.auxLine l := by unfold State.auxLine; rw [h.auxLines]
    unfold conditionMoved at m
    simp only [bne_eq_false_iff_eq, h.auxConfig l] at m
    rw [e, v l, State.lineValue, State.lineValue, h.auxConfig l, h.timebase, m]⟩

/-- The inner parts of the state are read alike whatever the aux lines. -/
theorem withAux_inv (s : State) (A : Vector Bool 8) (i : RouteInv s) : RouteInv (s.withAux A) :=
  RouteInv.same (s := s) (t := s.withAux A) (fun _ => rfl) (fun _ => rfl) rfl rfl (fun _ => rfl) (fun _ => rfl) (fun _ => ⟨rfl, rfl⟩) i

/-- A whole event of a running part, from what its effect may do. -/
structure Event (s t : State) : Prop where
  powered : t.powered = s.powered
  resetIsLow : t.resetIsLow = s.resetIsLow
  pending : t.pending = s.pending
  bounded : LinksBounded s → LinksBounded t
  quiet : ∀ a, (t.ant a).connected ≠ (s.ant a).connected → (t.ant a).presence = false
  inv : RouteInv s → RouteInv t
  owned : OneOwned s → OneOwned t
  claims : ClaimsExact s → ClaimsExact t
  asks : RequestsExact s → RequestsExact t
  lines : (∀ l, s.auxLine l = s.lineValue l) → ∀ l, t.auxLine l = t.lineValue l

theorem Acts.followed {s t : State} (h : Acts s t) : Event s (followAux s t) := by
  obtain ⟨A, e, hl⟩ := followAux_spec s t
  refine ⟨?_, ?_, ?_, ?_, ?_, ?_, ?_, ?_, ?_, fun v l => ?_⟩
  · rw [e]; exact h.powered
  · rw [e]; exact h.resetIsLow
  · rw [e]; exact h.pending
  · rw [e]; exact h.bounded
  · rw [e]; exact h.quiet
  · rw [e]; exact fun i => withAux_inv _ _ (h.inv i)
  · rw [e]; exact h.owned
  · rw [e]; exact fun i => ClaimsExact.same (s := t) (t := t.withAux A) (fun _ => rfl) (fun _ => rfl) (fun _ => rfl) (h.claims i)
  · rw [e]; exact fun i => RequestsExact.same (s := t) (t := t.withAux A) (fun _ => rfl) (fun _ => rfl) (fun _ => rfl) (h.asks i)
  · rw [hl l]
    have : (followAux s t).lineValue l = t.lineValue l := by rw [e, withAux_lineValue]
    rw [this]
    split
    · rfl
    · rename_i m
      exact h.lines v l (by simpa using m)

/-! ### SET-AUX (R172) -/

theorem driveLine_auxLine (s : State) (l m : Fin 8) : (s.driveLine l).auxLine m = if m = l then s.lineValue l else s.auxLine m := by
  unfold State.driveLine
  by_cases h : m = l
  · subst h; rw [if_pos rfl]; exact upd_same _ _ _
  · rw [if_neg h]; exact upd_other _ _ _ _ h

theorem driveLine_lineValue (s : State) (l m : Fin 8) : (s.driveLine l).lineValue m = s.lineValue m :=
  withAux_lineValue s (upd s.auxLines l fun _ => s.lineValue l) m

theorem onLink_condition (s : State) (port : Port) (f : Link → Link) (c : AuxSource) : (s.onLink port f).condition c = s.condition c := by
  rcases c with v | ⟨p, g⟩ | ⟨a, g⟩ | g
  · rfl
  · cases g <;> rfl
  · cases g <;> rfl
  · cases g <;> rfl

theorem writeAux_condition (s : State) (l : Fin 8) (n : AuxConfig) (c : AuxSource) : (s.writeAux l n).condition c = s.condition c := by
  have e : s.writeAux l n = (s.onSettings fun c => { c with aux := upd c.aux l fun _ => n }).withAux _ := rfl
  rw [e, withAux_condition]
  rcases c with v | ⟨p, g⟩ | ⟨a, g⟩ | g
  · rfl
  · cases g <;> rfl
  · cases g <;> rfl
  · cases g <;> rfl

theorem serveSetAux_acts (port : Port) (tag line kind index signal invert flash : Byte) (s : State) :
    Acts s (serveSetAux port tag line kind index signal invert flash s) := by
  unfold serveSetAux takeRequest
  split
  · exact (setLost_serves _ _).acts
  · split
    · exact (answer_serves _ _ _ _ _).acts
    · split
      · exact (answer_serves _ _ _ _ _).acts
      · split
        · simp only []
          split
          · exact (answer_serves _ _ _ _ _).acts
          · rename_i l source inv fl h1 h2 h3 h4 hn
            have ha := answer_serves s port .setAux tag .done
            refine ⟨rfl, rfl, rfl, ha.bounded, ha.quiet,
              fun i => RouteInv.same (s := s.answer port .setAux tag .done) (t := (s.answer port .setAux tag .done).writeAux l _) (fun _ => rfl) (fun _ => rfl) rfl rfl
                (fun _ => rfl) (fun _ => rfl) (fun _ => ⟨rfl, rfl⟩) (ha.inv i), ha.owned,
              fun i => ClaimsExact.same (s := s.answer port .setAux tag .done) (fun _ => rfl) (fun _ => rfl) (fun _ => rfl) (ha.claims i),
              fun i => RequestsExact.same (s := s.answer port .setAux tag .done) (fun _ => rfl) (fun _ => rfl) (fun _ => rfl) (ha.asks i), fun v m hm => ?_⟩
            generalize hc : ({ source := source, invert := inv, flash := fl } : AuxConfig) = n
            unfold State.writeAux
            rw [driveLine_auxLine, driveLine_lineValue]
            split
            · rename_i e; rw [e]
            · rename_i e
              have hv := v m
              have h5 : ((s.answer port .setAux tag .done).onSettings fun c => { c with aux := upd c.aux l fun _ => n }).auxLine m = s.auxLine m := rfl
              rw [h5, hv]
              have h6 : ((s.answer port .setAux tag .done).onSettings fun c => { c with aux := upd c.aux l fun _ => n }).auxConfig m = s.auxConfig m :=
                upd_other _ _ _ _ e
              unfold State.lineValue
              rw [h6]
              have h7 := writeAux_condition (s.answer port .setAux tag .done) l n (s.auxConfig m).source
              have h8 : (s.answer port .setAux tag .done).condition (s.auxConfig m).source = s.condition (s.auxConfig m).source := onLink_condition _ _ _ _
              have h9 : ((s.answer port .setAux tag .done).writeAux l n).condition (s.auxConfig m).source
                  = ((s.answer port .setAux tag .done).onSettings fun c => { c with aux := upd c.aux l fun _ => n }).condition (s.auxConfig m).source :=
                withAux_condition _ _ _
              rw [← h9, h7, h8]
              rfl
        · exact (answer_serves _ _ _ _ _).acts

/-! ### Start-up (R195) -/

theorem Link.used_start (c : StartCause) (v : StoreStatus) : (Link.start c v).used ≤ Config.queuePlaces := by
  simp [Link.start, Link.used]

theorem map_get {α β : Type} {n : Nat} (v : Vector α n) (f : α → β) (i : Fin n) : (v.map f)[i.val] = f v[i.val] := by simp

theorem replicate_get {α : Type} {n : Nat} (x : α) (i : Fin n) : (Vector.replicate n x)[i.val] = x := by simp

theorem startValues_ant (c : StartCause) (s : State) (a : Ant) :
    (s.startValues c).ant a = .start (s.store.settings.antennas[a.val]).configured := map_get _ _ _

theorem startValues_key (c : StartCause) (s : State) (p : Pos) : (s.startValues c).key p = .start (s.ptt p) := map_get _ _ _

theorem startValues_seq (c : StartCause) (s : State) (p : Pos) : (s.startValues c).seq p = .start := replicate_get _ _

theorem startValues_tap (c : StartCause) (s : State) (a : Ant) : (s.startValues c).tap a = .start := replicate_get _ _

theorem startValues_txen (c : StartCause) (s : State) (p : Pos) : (s.startValues c).txen p = false := replicate_get _ _

theorem startValues_link (c : StartCause) (s : State) (port : Port) : (s.startValues c).link port = .start c s.store.status := replicate_get _ _

theorem startValues_claims (c : StartCause) (s : State) (a : Ant) : (s.startValues c).claims a = [] := replicate_get _ _

theorem startValues_waitsOn (c : StartCause) (s : State) (p : Pos) : (s.startValues c).waitsOn p = none := replicate_get _ _

/-- The start values meet every invariant, whatever stood before. -/
theorem startValues_inv (c : StartCause) (s : State) : RouteInv (s.startValues c) ∧ OneOwned (s.startValues c) ∧ LinksBounded (s.startValues c) ∧ ClaimsExact (s.startValues c)
    ∧ RequestsExact (s.startValues c) := by
  have hk : ∀ p, ((s.startValues c).key p).state = .off ∨ ((s.startValues c).key p).state = .blocked := fun p => by
    rw [startValues_key]
    simp only [KeyRecord.start]
    split <;> simp
  have hg : ∀ p, (s.startValues c).granted p = false := fun p => by
    unfold State.granted
    rcases hk p with h | h <;> rw [h] <;> rfl
  refine ⟨⟨⟨fun p => ?_, fun a => ?_, fun _ p => hg p, fun p => ?_, List.nodup_nil, fun p => ?_⟩, fun p b => ?_, fun p a => ?_⟩, fun a b p h => ?_, fun port => ?_, ⟨fun a c h => ?_, fun p a h => ?_, fun a => ?_, fun p a h => ?_⟩, fun p => ⟨?_, fun a => ?_⟩⟩
  · rw [startValues_txen]
    rcases hk p with h | h <;> rw [h] <;> rfl
  · rw [startValues_tap, startValues_ant]; exact ⟨rfl, rfl⟩
  · rw [hg, startValues_key]; rfl
  · have : (s.startValues c).waiting = [] := rfl
    rw [this]
    rcases hk p with h | h <;> rw [h] <;> simp
  · rcases b with b | b
    · rcases hk p with h | h <;> rw [h] at b <;> cases b
    · rw [hg] at b; cases b
  · rw [startValues_ant, startValues_seq]
    simp [AntennaRecord.start, Sequencer.start, Sequencer.holds, RfPath.start]
  · rw [startValues_ant] at h
    simp [AntennaRecord.start] at h
  · rw [startValues_link]; exact Link.used_start _ _
  · rw [startValues_claims] at h; cases h
  · rw [startValues_waitsOn] at h; cases h
  · rw [startValues_claims]; exact List.nodup_nil
  · rw [startValues_waitsOn] at h; cases h
  · have : (s.startValues c).band p = none := congrArg Decoder.band (replicate_get _ p : (s.startValues c).dec p = .start)
    rw [startValues_seq, this]; rfl
  · rw [startValues_ant, startValues_seq]
    simp [AntennaRecord.start, Sequencer.start, Sequencer.requested, RfPath.start]

theorem startUp_spec (c : StartCause) (s : State) : ∃ A, s.startUp c = (s.startValues c).withAux A ∧ ∀ l, (s.startUp c).auxLine l = (s.startUp c).lineValue l := by
  obtain ⟨A, h1, h2⟩ := driveAll_spec (s.startValues c)
  refine ⟨A, h1, fun l => ?_⟩
  have : (s.startUp c).lineValue l = (s.startValues c).lineValue l := by
    rw [State.startUp, h1, withAux_lineValue]
  rw [this]
  exact h2 l

theorem startUp_acts (c : StartCause) (s : State) : Acts s (s.startUp c) := by
  obtain ⟨A, e, hl⟩ := startUp_spec c s
  obtain ⟨h1, h2, h3, h4, h5⟩ := startValues_inv c s
  refine ⟨by rw [e]; rfl, by rw [e]; rfl, by rw [e]; rfl, fun _ => ?_, fun a _ => ?_, fun _ => ?_, fun _ => ?_, fun _ => ?_, fun _ => ?_, fun _ l _ => hl l⟩
  · rw [e]; exact h3
  · rw [e]
    show ((s.startValues c).ant a).presence = false
    rw [startValues_ant]; rfl
  · rw [e]; exact withAux_inv _ _ h1
  · rw [e]; exact h2
  · rw [e]; exact ClaimsExact.same (s := s.startValues c) (t := (s.startValues c).withAux A) (fun _ => rfl) (fun _ => rfl) (fun _ => rfl) h4
  · rw [e]; exact RequestsExact.same (s := s.startValues c) (t := (s.startValues c).withAux A) (fun _ => rfl) (fun _ => rfl) (fun _ => rfl) h5

/-! ### Frames (R175 to R178, R185, R194) -/

theorem badFormat_serves (port : Port) (q : Request) (tag : Byte) (s : State) : Serves s (badFormat port q tag s) :=
  takeRequest_serves _ _ _ _ _ _ _ fun _ h _ => by cases h

theorem unknownType_serves (port : Port) (type tag : Byte) (s : State) : Serves s (unknownType port type tag s) := by
  unfold unknownType
  split
  · exact setLost_serves _ _
  · exact answerRaw_serves _ _ _ _ _ _

theorem serveStation_acts (port : Port) (q : Request) (tag : Byte) (payload : List Byte) (s : State) : Acts s (serveStation port q tag payload s) := by
  have hb : ∀ q, Acts s (badFormat port q tag s) := fun q => (badFormat_serves _ _ _ _).acts
  unfold serveStation
  split
  · split
    · exact (servePing_serves _ _ _).acts
    · exact hb _
  · split
    · exact (serveQuery_serves _ _ _ _ _ _).acts
    · exact hb _
  · split
    · exact (serveSave_serves _ _ _).acts
    · exact hb _
  · split
    · exact (serveRestart_serves _ _ _).acts
    · exact hb _
  · split
    · exact (serveHold_serves _ _ _ _).acts
    · exact hb _
  · split
    · exact (serveSetKeying_serves _ _ _ _ _ _ _).acts
    · exact hb _
  · split
    · exact (serveSetRules_serves _ _ _ _ _ _ _ _).acts
    · exact hb _
  · split
    · exact (serveSetExclusion_serves _ _ _ _ _ _).acts
    · exact hb _
  · split
    · exact serveSetAux_acts _ _ _ _ _ _ _ _ _
    · exact hb _
  · exact hb _

theorem serveRequest_acts (port : Port) (q : Request) (tag : Byte) (payload : List Byte) (s : State) : Acts s (serveRequest port q tag payload s) := by
  unfold serveRequest
  split
  · exact (serveClaim_serves _ _ _ _ _ _).acts
  · exact (serveRelease_serves _ _ _ _ _).acts
  · exact (serveForce_serves _ _ _ _ _).acts
  · exact (serveSetClaims_serves _ _ _ _).acts
  · exact (serveFollow_serves _ _ _ _ _).acts
  · exact (serveSetPref_serves _ _ _ _ _ _ _).acts
  · exact (serveListen_serves _ _ _ _ _).acts
  · exact (serveSetBand_serves _ _ _ _ _).acts
  · exact (serveSetBanding_serves _ _ _ _ _ _ _).acts
  · exact (serveSetBandmap_serves _ _ _ _ _).acts
  · exact (serveSetAntenna_serves _ _ _ _ _ _ _ _ _ _ _ _ _).acts
  · exact (serveClear_serves _ _ _ _).acts
  · exact (serveSetSensing_serves _ _ _ _ _ _).acts
  · exact (serveSetSequencing_serves _ _ _ _ _).acts
  · exact serveStation_acts _ _ _ _ _

theorem serveFrame_acts (port : Port) (type tag : Byte) (payload : List Byte) (s : State) : Acts s (serveFrame port type tag payload s) := by
  unfold serveFrame
  cases requestOf type with
  | some q => exact serveRequest_acts _ _ _ _ _
  | none => exact (unknownType_serves _ _ _ _).acts

theorem takeFrame_acts (port : Port) (bytes : List Byte) (s : State) : Acts s (takeFrame port bytes s) := by
  unfold takeFrame
  split
  · split
    · exact serveFrame_acts _ _ _ _ _
    · exact (Serves.refl s).acts
  · exact (Serves.refl s).acts

/-- An effect after a framer has moved. -/
theorem Acts.afterLink {s u : State} (port : Port) (f : Link → Link) (hq : ∀ l, (f l).used = l.used) (k : Acts (s.onLink port f) u) : Acts s u := by
  have h := framer_serves s port f hq
  refine ⟨k.powered, k.resetIsLow, k.pending, fun b => k.bounded (h.bounded b), k.quiet, fun i => k.inv (h.inv i), k.owned,
    fun i => k.claims (h.claims i), fun i => k.asks (h.asks i), fun v l m => k.lines (fun l => ?_) l ?_⟩
  · have e1 : (s.onLink port f).auxLine l = s.auxLine l := rfl
    have e2 : (s.onLink port f).lineValue l = s.lineValue l := by
      unfold State.lineValue
      rw [onLink_condition]
      rfl
    rw [e1, e2]; exact v l
  · unfold conditionMoved at m ⊢
    rw [onLink_condition]; exact m

theorem takeByte_acts (s : State) (port : Port) (byte : Byte) : Acts s (s.takeByte port byte) := by
  unfold State.takeByte
  split
  · split
    · exact (framer_serves s port (fun l => l.awaitLength (s.load Config.byteGap)) fun _ => rfl).acts
    · exact (Serves.refl s).acts
  · exact (framer_serves _ _ _ fun l => Link.used_takeLength _ _ _).acts
  · unfold State.takeBody
    simp only []
    split
    · exact Acts.afterLink port Link.hunt (fun _ => rfl) (takeFrame_acts _ _ _)
    · exact (framer_serves s port (fun l => { l with partialFrame := (s.link port).partialFrame ++ [byte], gap := s.load Config.byteGap }) fun _ => rfl).acts

theorem endSending_acts (s : State) (port : Port) : Acts s (s.endSending port) := by
  unfold State.endSending
  split
  · exact (Serves.refl s).acts
  · split
    · exact startUp_acts _ _
    · exact (onLink_serves s port (fun l => ({ l with transmitter := none }).startSending) fun h => Nat.le_trans (Link.used_startSending _) h).acts

/-! ### Flash edges and ticks (R1, R34, R122, R171) -/

/-- The flash phase turns at a flash edge and at no other count (R171). -/
theorem flashPhase_steady (t : Count) (h : flashEdgeAt (t + 1) = false) : flashPhase (t + 1) = flashPhase t := by
  unfold flashPhase flashEdgeAt at *
  have hb : t.toNat < 4294967296 := t.isLt
  by_cases hm : t.toNat = 4294967295
  · have : (t + 1).toNat = 0 := by rw [BitVec.toNat_add, hm]; rfl
    rw [this] at h
    exact absurd h (by decide)
  · have : (t + 1).toNat = t.toNat + 1 := by
      rw [BitVec.toNat_add]
      show (t.toNat + 1) % 4294967296 = _
      omega
    rw [this] at h ⊢
    simp only [beq_eq_false_iff_ne] at h
    congr 1
    rw [eq_iff_iff]
    omega

/-- A line whose condition is false, or that does not flash, does not depend on the phase (R165). -/
theorem value_steady (c : AuxConfig) (b x y : Bool) (h : (c.flash && b) = false) : c.value b x = c.value b y := by
  unfold AuxConfig.value
  cases hf : c.flash <;> cases hb : b <;> simp_all

theorem flashLines_serves (s : State) : Acts s s.flashLines ∧ ∀ l, s.flashLines.condition (s.auxConfig l).source = s.condition (s.auxConfig l).source := by
  obtain ⟨A, e, hl⟩ := flashLines_spec s
  have hc : ∀ c, s.flashLines.condition c = s.condition c := fun c => by rw [e, withAux_condition]
  have hv : ∀ l, s.flashLines.lineValue l = s.lineValue l := fun l => by rw [e, withAux_lineValue]
  refine ⟨⟨by rw [e]; rfl, by rw [e]; rfl, by rw [e]; rfl, by rw [e]; exact id, ?_, ?_, by rw [e]; exact id, ?_, ?_, fun v l _ => ?_⟩, fun l => hc _⟩
  · rw [e]; exact fun _ d => absurd rfl d
  · rw [e]; exact fun i => withAux_inv _ _ i
  · rw [e]; exact ClaimsExact.same (fun _ => rfl) (fun _ => rfl) (fun _ => rfl)
  · rw [e]; exact RequestsExact.same (fun _ => rfl) (fun _ => rfl) (fun _ => rfl)
  · rw [hl l, hv l, v l]
    split <;> rfl

/-- The count goes on, and every port is to be sampled anew. -/
theorem countOn_spec (s : State) : Keeps (s.setTimebase (s.timebase + 1)) s.countOn :=
  forEach_keeps _ _ (fun _ _ => onSensor_keeps _ _ _) _

theorem forEach_sensor_eq (l : List Ant) (f : SensorRecord → SensorRecord) (s : State) :
    ∃ V, forEach l (fun a s => s.onSensor a f) s = { s with sensors := V } := by
  induction l generalizing s with
  | nil => exact ⟨s.sensors, rfl⟩
  | cons x rest ih =>
    obtain ⟨V, h⟩ := ih (s.onSensor x f)
    exact ⟨V, h⟩

theorem countOn_eq (s : State) : ∃ V, s.countOn = { s with timebase := s.timebase + 1, sensors := V } := by
  obtain ⟨V, h⟩ := forEach_sensor_eq allAnts (fun n => { n with sampled := false }) (s.setTimebase (s.timebase + 1))
  exact ⟨V, h⟩

theorem countOn_condition (s : State) (c : AuxSource) : s.countOn.condition c = s.condition c := by
  obtain ⟨V, e⟩ := countOn_eq s
  rw [e]
  rcases c with v | ⟨p, g⟩ | ⟨a, g⟩ | g
  · rfl
  · cases g <;> rfl
  · cases g <;> rfl
  · cases g <;> rfl

theorem sampleInputs_keeps (s : State) : Keeps s s.sampleInputs :=
  (forEach_keeps _ _ (fun _ _ => sampleLines_keeps _ _) s).trans (forEach_keeps _ _ (fun _ _ => samplePtt_keeps _ _) _)

/-- The state of a tick before the inputs are sampled. -/
def State.counted (s : State) : State := if flashEdgeAt s.countOn.timebase then s.countOn.flashLines else s.countOn

theorem tick_eq (s : State) : s.tick = s.counted.sampleInputs := rfl

theorem counted_spec (s : State) : (∃ V A, s.counted = State.withAux { s with timebase := s.timebase + 1, sensors := V } A)
    ∧ (∀ c, s.counted.condition c = s.condition c)
    ∧ ((∀ l, s.auxLine l = s.lineValue l) → ∀ l, s.counted.auxLine l = s.counted.lineValue l) := by
  obtain ⟨V, e⟩ := countOn_eq s
  have ha : ∀ l, s.countOn.auxLine l = s.auxLine l := fun l => by rw [e]; rfl
  have hcfg : ∀ l, s.countOn.auxConfig l = s.auxConfig l := fun l => by rw [e]; rfl
  have ht : s.countOn.timebase = s.timebase + 1 := by rw [e]
  unfold State.counted
  split
  · rename_i hed
    obtain ⟨A, e2, hl⟩ := flashLines_spec s.countOn
    refine ⟨⟨V, A, by rw [e2, e]⟩, fun c => by rw [e2, withAux_condition, countOn_condition], fun v l => ?_⟩
    have hv : s.countOn.flashLines.lineValue l = s.countOn.lineValue l := by rw [e2, withAux_lineValue]
    rw [hl l, hv]
    split
    · rfl
    · rename_i hn
      rw [ha, v l, State.lineValue, State.lineValue, hcfg, countOn_condition]
      rw [hcfg, countOn_condition] at hn
      exact value_steady _ _ _ _ (by simpa using hn)
  · rename_i hed
    refine ⟨⟨V, s.auxLines, by rw [e]; rfl⟩, countOn_condition s, fun v l => ?_⟩
    rw [ha, v l, State.lineValue, State.lineValue, hcfg, countOn_condition, ht,
      flashPhase_steady _ (by rw [ht] at hed; simpa using hed)]

theorem tick_acts (s : State) : Acts s s.tick := by
  rw [tick_eq]
  obtain ⟨⟨V, A, e⟩, hc, hl⟩ := counted_spec s
  have k := (sampleInputs_keeps s.counted).serves
  refine ⟨k.powered.trans (by rw [e]; rfl), k.resetIsLow.trans (by rw [e]; rfl), k.pending.trans (by rw [e]; rfl), fun b => k.bounded (by rw [e]; exact b),
    fun a d => k.quiet a (by rw [e]; rw [e] at d; exact d), fun i => k.inv ?_, fun i => k.owned (by rw [e]; exact i),
    fun i => k.claims (by rw [e]; exact ClaimsExact.same (s := s) (fun _ => rfl) (fun _ => rfl) (fun _ => rfl) i),
    fun i => k.asks (by rw [e]; exact RequestsExact.same (s := s) (fun _ => rfl) (fun _ => rfl) (fun _ => rfl) i), fun v l m => ?_⟩
  · rw [e]
    exact RouteInv.same (s := s) (t := State.withAux { s with timebase := s.timebase + 1, sensors := V } A) (fun _ => rfl) (fun _ => rfl) rfl rfl (fun _ => rfl)
      (fun _ => rfl) (fun _ => ⟨rfl, rfl⟩) i
  · refine k.acts.lines (hl v) l ?_
    unfold conditionMoved at m ⊢
    rw [hc]
    exact m

end Sys2Proof.Machine
end

