-- ==== Sys2Proof/Laws/Exec.lean ====
section
/-! SUPPORT. What a command may do to a running part, arm by arm: the one lemma that a statement about every step cites instead of unfolding the meanings. -/

namespace Sys2Proof.Machine

/-- What a command that moves no pin may do to a running part: a whole event. -/
theorem exec_event (c : Instr) (s t : State) (hr : s.running = true) (h : exec c s = .next t)
    (hp : c ≠ .powerOn ∧ c ≠ .resetLow ∧ c ≠ .resetRelease ∧ c ≠ .powerLost) (hb : ∀ p l, c ≠ .bandLinesChange p l)
    (hq : ∀ p b, c ≠ .pttInputChange p b) (hs : ∀ a x y, c ≠ .couplerSample a x y) : Event s t := by
  have ev : ∀ f : State → State, Acts s (f s) → event f s = .next t → Event s t := fun f ha he => by
    unfold event at he
    rw [if_pos hr] at he
    cases he
    exact ha.followed
  cases c
  case powerOn => exact absurd rfl hp.1
  case resetLow => exact absurd rfl hp.2.1
  case resetRelease => exact absurd rfl hp.2.2.1
  case powerLost => exact absurd rfl hp.2.2.2
  case bandLinesChange => exact absurd rfl (hb _ _)
  case pttInputChange => exact absurd rfl (hq _ _)
  case couplerSample => exact absurd rfl (hs _ _ _)
  case ping => exact ev _ (servePing_serves _ _ _).acts h
  case query => exact ev _ (serveQuery_serves _ _ _ _ _ _).acts h
  case claim => exact ev _ (serveClaim_serves _ _ _ _ _ _).acts h
  case release => exact ev _ (serveRelease_serves _ _ _ _ _).acts h
  case force => exact ev _ (serveForce_serves _ _ _ _ _).acts h
  case setClaims => exact ev _ (serveSetClaims_serves _ _ _ _).acts h
  case follow => exact ev _ (serveFollow_serves _ _ _ _ _).acts h
  case setPref => exact ev _ (serveSetPref_serves _ _ _ _ _ _ _).acts h
  case listen => exact ev _ (serveListen_serves _ _ _ _ _).acts h
  case setBand => exact ev _ (serveSetBand_serves _ _ _ _ _).acts h
  case setBanding => exact ev _ (serveSetBanding_serves _ _ _ _ _ _ _).acts h
  case setBandmap => exact ev _ (serveSetBandmap_serves _ _ _ _ _).acts h
  case setAntenna => exact ev _ (serveSetAntenna_serves _ _ _ _ _ _ _ _ _ _ _ _ _).acts h
  case clear => exact ev _ (serveClear_serves _ _ _ _).acts h
  case setSensing => exact ev _ (serveSetSensing_serves _ _ _ _ _ _).acts h
  case setSequencing => exact ev _ (serveSetSequencing_serves _ _ _ _ _).acts h
  case hold => exact ev _ (serveHold_serves _ _ _ _).acts h
  case setKeying => exact ev _ (serveSetKeying_serves _ _ _ _ _ _ _).acts h
  case setRules => exact ev _ (serveSetRules_serves _ _ _ _ _ _ _ _).acts h
  case setExclusion => exact ev _ (serveSetExclusion_serves _ _ _ _ _ _).acts h
  case setAux => exact ev _ (serveSetAux_acts _ _ _ _ _ _ _ _ _) h
  case save => exact ev _ (serveSave_serves _ _ _).acts h
  case restart => exact ev _ (serveRestart_serves _ _ _).acts h
  case byteReceived port b => exact ev (fun s => s.takeByte port b) (takeByte_acts s port b) h
  case framingError port => exact ev (fun s => s.onLink port Link.hunt) (framer_serves s port Link.hunt fun _ => rfl).acts h
  case byteGapExpiry port =>
    refine ev (onlyIf (fun s => s.gapDue port) fun s => s.onLink port Link.hunt) ?_ h
    unfold onlyIf
    split
    · exact (framer_serves s port Link.hunt fun _ => rfl).acts
    · exact (Serves.refl s).acts
  case transmitComplete port => exact ev (fun s => s.endSending port) (endSending_acts s port) h
  case settle p => exact ev (onlyIf (fun s => s.settleDue p) fun s => s.settleBand p) (onlyIf_keeps (fun s => s.settleDue p) (fun s => s.settleBand p) s fun _ => settleBand_keeps s p).serves.acts h
  case pttEdge p => exact ev (onlyIf (fun s => s.edgeDue p) fun s => s.pttEdge p) (onlyIf_keeps (fun s => s.edgeDue p) (fun s => s.pttEdge p) s fun _ => pttEdge_keeps s p).serves.acts h
  case breakEnd => exact ev _ (breakEnd_keeps _ _).serves.acts h
  case makeEnd => exact ev _ (makeEnd_keeps _ _).serves.acts h
  case rfHot => exact ev _ (rfHot_keeps _ _).serves.acts h
  case tapGuardExpiry => exact ev _ (tapGuard_keeps _ _).serves.acts h
  case hangExpiry => exact ev _ (hang_keeps _ _).serves.acts h
  case maxKeyExpiry p => exact ev (onlyIf (fun s => s.maxKeyDue p) fun s => s.cut p .stuck) (onlyIf_keeps (fun s => s.maxKeyDue p) (fun s => s.cut p .stuck) s fun _ => (cut_arb s p .stuck).keeps).serves.acts h
  case claimExpired => exact ev _ (claimExpired_keeps _ _).serves.acts h
  case flashEdge =>
    refine ev (onlyIf (fun s => flashEdgeAt s.timebase) fun s => s.flashLines) ?_ h
    unfold onlyIf
    split
    · exact (flashLines_serves _).1
    · exact (Serves.refl s).acts
  case saveWriteEnd v => exact ev (fun s => s.finishWrite v) (finishWrite_serves s v).acts h

end Sys2Proof.Machine
end

