-- ==== Sys2Proof/Laws/Operands.lean ====
section
/-! SUPPORT. Payload bytes read back as what they spell, the checks before a request's block, and the end of an event that moves no condition. -/

namespace Sys2Proof.Machine

/-! ### Bytes read back (R197, R198) -/

theorem posOf_posByte : ∀ p : Pos, posOf (posByte p) = some p := by decide
theorem antOf_antByte : ∀ a : Ant, antOf (antByte a) = some a := by decide
theorem posOrNoneOf_posByte : ∀ p : Pos, posOrNoneOf (posByte p) = some (some p) := by decide
theorem antOrNoneOf_antByte : ∀ a : Ant, antOrNoneOf (antByte a) = some (some a) := by decide
theorem posOrNoneOf_zero : posOrNoneOf 0#8 = some none := by decide
theorem antOrNoneOf_zero : antOrNoneOf 0#8 = some none := by decide
theorem bandOf_bandByte (b : Band) : bandOf (bandByte (some b)) = some b := by cases b <;> decide
theorem bandOrNoneOf_bandByte (b : Option Band) : bandOrNoneOf (bandByte b) = some b := by
  cases b with
  | none => decide
  | some b => cases b <;> decide
theorem yesNoOf_flagByte (b : Bool) : yesNoOf (flagByte b) = some b := by cases b <;> decide
theorem sourceOf_code (x : Source) : sourceOf x.code = some x := by cases x <;> decide
theorem orderOf_code (x : GrantOrder) : orderOf x.code = some x := by cases x <;> decide
theorem configuredOf_code (x : Configured) : configuredOf x.code = some x := by cases x <;> decide
theorem precedenceOf_byteOf : ∀ k : Fin 4, precedenceOf (byteOf k.val) = some k := by decide
theorem lineOf_byteOf : ∀ l : Fin 8, lineOf (byteOf (l.val + 1)) = some l := by decide
theorem lineMaskOf_byteOf : ∀ v : BitVec 4, lineMaskOf (byteOf v.toNat) = some v := by decide

theorem mayFor_posByte {port : Port} {p : Pos} (h : port = 0 ∨ port = p.succ) : mayFor port (posByte p) = true := by
  rcases h with h | h
  · subst h; rfl
  · subst h; revert p; decide

/-! ### The checks before a block (R178) -/

/-- A request that reaches its block. -/
theorem takeRequest_served {port : Port} {q : Request} {tag : Byte} {len perm : Bool} {f : State → State} {s : State}
    (h : (s.link port).fullOfAnswers = false) (hl : len = true) (hp : perm = true) : takeRequest port q tag len perm f s = f s := by
  unfold takeRequest
  simp [h, hl, hp]

theorem event_running {f : State → State} {s : State} (h : s.running = true) : event f s = .next (followAux s (f s)) := by
  unfold event
  rw [if_pos h]

/-- An event that moves no condition moves no aux line (R170). -/
theorem followAux_same {s t : State} (h : ∀ c, t.condition c = s.condition c) : followAux s t = t := by
  have hm : ∀ l, conditionMoved s t l = false := fun l => by
    unfold conditionMoved
    rw [h]; simp
  have hl : ∀ l : List (Fin 8), forEach l (fun l s' => if conditionMoved s t l then s'.driveLine l else s') t = t := fun l => by
    induction l with
    | nil => rfl
    | cons x rest ih =>
      show forEach rest _ (if conditionMoved s t x then t.driveLine x else t) = t
      rw [hm x]; exact ih
  exact hl allLines

/-- Conditions read the TXEN outputs, the key states, the sequencers, the follow states, the antenna records' owner, service and presence, the claim queues, the tap slots and HOLD. -/
theorem condition_same {s t : State} (hx : t.txenOutputs = s.txenOutputs) (hk : ∀ p, (t.key p).state = (s.key p).state)
    (hs : ∀ p, t.routeStatus p = s.routeStatus p ∧ ((t.seq p).state.shown = .idle ↔ (s.seq p).state.shown = .idle)) (hf : ∀ p, (t.place p).follow = (s.place p).follow)
    (ha : ∀ a, (t.ant a).owner = (s.ant a).owner ∧ (t.ant a).service = (s.ant a).service ∧ (t.ant a).presence = (s.ant a).presence)
    (hc : t.claimQueues = s.claimQueues) (ht : ∀ a, (t.tap a).slot1 = (s.tap a).slot1 ∧ (t.tap a).slot2 = (s.tap a).slot2) (hh : t.holdOn = s.holdOn)
    (c : AuxSource) : t.condition c = s.condition c := by
  have hx' : ∀ p, t.txen p = s.txen p := fun p => by simp [State.txen, hx]
  have hs' : ∀ p, ((t.seq p).state.shown != Phase.idle) = ((s.seq p).state.shown != Phase.idle) := fun p => by
    have := (hs p).2
    by_cases e : (s.seq p).state.shown = .idle
    · rw [e, this.2 e]
    · have e2 : (t.seq p).state.shown ≠ .idle := fun x => e (this.1 x)
      rw [bne, bne, beq_eq_false_iff_ne.2 e2, beq_eq_false_iff_ne.2 e]
  have hg : t.granted = s.granted := funext fun p => by rw [State.granted, State.granted, hk]
  rcases c with v | ⟨p, g⟩ | ⟨a, g⟩ | g
  · rfl
  · cases g <;> simp [State.condition, State.positionSignal, hx', hk, hs, hf]
  · cases g <;> simp [State.condition, State.antennaSignal, ha, State.claims, hc, ht]
  · cases g <;> simp only [State.condition, State.stationSignal, funext hx', hk, ha, hh, hg]
    exact congrArg (fun f => allPos.any f) (funext hs')

/-- A change of the links alone moves no condition. -/
theorem followAux_link (s : State) (port : Port) (f : Link → Link) : followAux s (s.onLink port f) = s.onLink port f :=
  followAux_same fun c => onLink_condition s port f c

theorem followAux_self (s : State) : followAux s s = s := followAux_same fun _ => rfl

/-- An answer and a change of the settings but for the follow states move no condition. -/
theorem followAux_settings (s : State) (port : Port) (g : Link → Link) (f : Settings → Settings)
    (h : ∀ p : Pos, ((f s.settings).positions[p.val]).follow = (s.place p).follow) :
    followAux s ((s.onLink port g).onSettings f) = (s.onLink port g).onSettings f :=
  followAux_same (condition_same rfl (fun _ => rfl) (fun _ => ⟨rfl, Iff.rfl⟩) h (fun _ => ⟨rfl, rfl, rfl⟩) rfl (fun _ => ⟨rfl, rfl⟩) rfl)

end Sys2Proof.Machine
end

