-- ==== Sys2Proof/Laws/Tables.lean ====
section
/-! SUPPORT. The agreement of listen antennas and tap slots: what leaves it alone, and that every operation of the Tap Controller keeps it (R153, R156, R157, R160, R161). -/

namespace Sys2Proof.Machine

/-- The agreement reads nothing but listen antennas, slots, owners and services. -/
theorem ListensExact.same {s t : State} (hl : ∀ p, t.listen p = s.listen p) (hs : ∀ a, (t.tap a).slot1 = (s.tap a).slot1 ∧ (t.tap a).slot2 = (s.tap a).slot2)
    (ha : ∀ a, (t.ant a).owner = (s.ant a).owner ∧ (t.ant a).service = (s.ant a).service) (i : ListensExact s) : ListensExact t where
  slots p a := by rw [hl, (hs a).1, (hs a).2]; exact i.slots p a
  once p a := by rw [(hs a).1, (hs a).2]; exact i.once p a
  notOwner p a h := by rw [hl]; exact i.notOwner p a ((ha a).1 ▸ h)
  outOfService a h := by rw [(hs a).1, (hs a).2]; exact i.outOfService a ((ha a).2 ▸ h)

/-- What the arbiter does leaves it alone. -/
theorem ArbFrame.listensExact {s t : State} (h : ArbFrame s t) (i : ListensExact s) : ListensExact t :=
  i.same (fun p => by simp [State.listen, h.listens]) h.slots (fun a => by rw [h.ant a]; exact ⟨rfl, rfl⟩)

theorem commandTaps_listensExact (s : State) (a : Ant) (i : ListensExact s) : ListensExact (s.commandTaps a) :=
  ListensExact.same (s := s) (fun _ => rfl) (fun b => by by_cases h : b = a <;> simp [State.commandTaps, onTap_at, h]) (fun _ => ⟨rfl, rfl⟩) i

/-- A slot freed: the slot is empty, its listener listens nowhere, and the rest stays (R157, R160, R161). -/
theorem freeSlot_spec (s : State) (a : Ant) (second : Bool) (cause : TapCause) (p : Pos) (h : (s.tap a).slot second = some p) :
    (∀ q, (s.freeSlot a second cause).listen q = if q = p then none else s.listen q)
    ∧ (∀ b, ((s.freeSlot a second cause).tap b).slot1 = if b = a ∧ second = false then none else (s.tap b).slot1)
    ∧ (∀ b, ((s.freeSlot a second cause).tap b).slot2 = if b = a ∧ second = true then none else (s.tap b).slot2)
    ∧ ∀ b, (s.freeSlot a second cause).ant b = s.ant b := by
  have f := report_arb (((s.onTap a fun t => t.setSlot second none).commandTaps a).setListen p none) [p] (.tap a second p .freed cause)
  have e : s.freeSlot a second cause
      = (((s.onTap a fun t => t.setSlot second none).commandTaps a).setListen p none).report [p] (.tap a second p .freed cause) := by
    simp [State.freeSlot, h]
  rw [e]
  refine ⟨fun q => ?_, fun b => ?_, fun b => ?_, fun b => ?_⟩
  · exact (congrArg (fun v => v[q.val]) f.listens).trans (setListen_at _ p none q)
  · rw [(f.slots b).1]; by_cases hb : b = a <;> cases second <;> simp [State.commandTaps, onTap_at, hb, TapRecord.setSlot]
  · rw [(f.slots b).2]; by_cases hb : b = a <;> cases second <;> simp [State.commandTaps, onTap_at, hb, TapRecord.setSlot]
  · rw [f.ant b]; rfl

theorem freeSlot_listensExact (s : State) (a : Ant) (second : Bool) (cause : TapCause) (i : ListensExact s) : ListensExact (s.freeSlot a second cause) := by
  cases h : (s.tap a).slot second with
  | none => simpa [State.freeSlot, h] using i
  | some p =>
    obtain ⟨hl, h1, h2, ha⟩ := freeSlot_spec s a second cause p h
    have hp : s.listen p = some a := (i.slots p a).2 (by cases second <;> simp_all [TapRecord.slot])
    refine ⟨fun q b => ?_, fun q b => ?_, fun q b ho => ?_, fun b ho => ?_⟩
    · rw [hl, h1, h2]
      have own := i.slots q b
      have all := i.slots p b
      have once := i.once p a
      have atA := i.slots q a
      cases second <;> simp only [TapRecord.slot] at h <;> grind
    · rw [h1, h2]
      have := i.once q b
      grind
    · rw [hl]
      rw [ha] at ho
      have := i.notOwner q b ho
      grind
    · rw [ha] at ho
      have := i.outOfService b ho
      rw [h1, h2]
      grind

theorem freeTapOf_listensExact (s : State) (p : Pos) (a : Ant) (cause : TapCause) (i : ListensExact s) : ListensExact (s.freeTapOf p a cause) := by
  unfold State.freeTapOf
  split
  · exact freeSlot_listensExact _ _ _ _ i
  · split
    · exact freeSlot_listensExact _ _ _ _ i
    · exact i

theorem freeBothSlots_listensExact (s : State) (a : Ant) (cause : TapCause) (i : ListensExact s) : ListensExact (s.freeBothSlots a cause) :=
  freeSlot_listensExact _ _ _ _ (freeSlot_listensExact _ _ _ _ i)

/-- A slot taken: the lower empty one holds the position, which listens on the antenna, and the rest stays (R153, R156). -/
theorem takeSlot_spec (s : State) (p : Pos) (a : Ant) :
    (∀ q, (s.takeSlot p a).listen q = if q = p then some a else s.listen q)
    ∧ (∀ b, ((s.takeSlot p a).tap b).slot1 = if b = a ∧ (s.tap a).slot1 = none then some p else (s.tap b).slot1)
    ∧ (∀ b, ((s.takeSlot p a).tap b).slot2 = if b = a ∧ (s.tap a).slot1 ≠ none then some p else (s.tap b).slot2)
    ∧ ∀ b, (s.takeSlot p a).ant b = s.ant b := by
  have f := report_arb (((s.onTap a fun t => t.setSlot (s.tap a).slot1.isSome (some p)).commandTaps a).setListen p (some a)) [p]
    (.tap a (s.tap a).slot1.isSome p .taken .listen)
  refine ⟨fun q => ?_, fun b => ?_, fun b => ?_, fun b => ?_⟩
  · exact (congrArg (fun v => v[q.val]) f.listens).trans (setListen_at _ p (some a) q)
  · refine (f.slots b).1.trans ?_
    by_cases hb : b = a <;> cases h : (s.tap a).slot1 <;> simp [State.commandTaps, onTap_at, hb, h, TapRecord.setSlot]
  · refine (f.slots b).2.trans ?_
    by_cases hb : b = a <;> cases h : (s.tap a).slot1 <;> simp [State.commandTaps, onTap_at, hb, h, TapRecord.setSlot]
  · exact f.ant b

/-- A position that listens nowhere takes a slot of an antenna that has one empty, does not belong to it and is not OUT_OF_SERVICE (R155, R156). -/
theorem takeSlot_listensExact (s : State) (p : Pos) (a : Ant) (i : ListensExact s) (hp : s.listen p = none) (ho : (s.ant a).owner ≠ some p)
    (hs : (s.ant a).service ≠ .outOfService) (free : (s.tap a).slot1 = none ∨ (s.tap a).slot2 = none) : ListensExact (s.takeSlot p a) := by
  obtain ⟨hl, h1, h2, ha⟩ := takeSlot_spec s p a
  refine ⟨fun q b => ?_, fun q b => ?_, fun q b hq => ?_, fun b hq => ?_⟩
  · rw [hl, h1, h2]
    have own := i.slots q b
    have none_ := i.slots p b
    grind
  · rw [h1, h2]
    have once := i.once q b
    have none_ := i.slots p b
    grind
  · rw [ha] at hq
    rw [hl]
    have := i.notOwner q b hq
    grind
  · rw [ha] at hq
    rw [h1, h2]
    have := i.outOfService b hq
    grind

end Sys2Proof.Machine
end

