-- ==== Sys2Proof/Laws/Walk.lean ====
section
/-! SUPPORT. What a grant, a walk and a chain of grants leave alone: the keys of positions not QUEUED, the grants that stand within the limits, and an owner that waits nowhere. -/

namespace Sys2Proof.Machine

/-! ### Grants and the walk (R130, R132) -/

theorem report_key (s : State) (c : List Pos) (b : ReportBody) (q : Pos) : (s.report c b).key q = s.key q := by
  obtain ⟨L, e, _⟩ := report_links s c b
  rw [e]; rfl

theorem report_txen (s : State) (c : List Pos) (b : ReportBody) (q : Pos) : (s.report c b).txen q = s.txen q := by
  obtain ⟨L, e, _⟩ := report_links s c b
  rw [e]; rfl

/-- A grant touches the key and the TXEN of its position alone. -/
theorem grant_other (s : State) (p q : Pos) (h : q ≠ p) : (s.grant p).key q = s.key q ∧ (s.grant p).txen q = s.txen q := by
  unfold State.grant
  split
  · have e : ∀ (u : State) b a, (u.openTaps p a).key q = u.key q ∧ (u.openTaps p a).txen q = u.txen q ∧ (u.reportGrant p b a).key q = u.key q
        ∧ (u.reportGrant p b a).txen q = u.txen q := fun u b a => by
      refine ⟨?_, ?_, ?_, ?_⟩
      · unfold State.openTaps
        split
        · simp [onKey_at, h]; rfl
        · show (State.key _ q) = _
          unfold State.enterOn
          have : ∀ (v : State) x, (v.setTxen p x).key q = v.key q := fun _ _ => rfl
          rw [this, onKey_at, if_neg h]; rfl
      · unfold State.openTaps
        split
        · rfl
        · unfold State.enterOn
          simp [setTxen_at, h]; rfl
      · unfold State.reportGrant
        simp only []
        split
        · rw [report_key, onKey_at, if_neg h]
        · rw [onKey_at, if_neg h]
      · unfold State.reportGrant
        simp only []
        split
        · rw [report_txen]; rfl
        · rfl
    rename_i b a _ _
    rw [(e _ b a).2.2.1, (e _ b a).2.2.2, (e _ b a).1, (e _ b a).2.1]
    refine ⟨?_, rfl⟩
    show ((s.recordGrant p b a).key q) = _
    unfold State.recordGrant
    rw [onKey_at, if_neg h]; rfl
  · exact ⟨rfl, rfl⟩

/-- A walk touches no position that is not QUEUED (R130). -/
theorem walkList_other (l : List Pos) (s : State) (q : Pos) (h : (s.key q).state ≠ .queued) :
    (walkList l s).key q = s.key q ∧ (walkList l s).txen q = s.txen q := by
  induction l generalizing s with
  | nil => exact ⟨rfl, rfl⟩
  | cons p rest ih =>
    unfold walkList
    split
    · rename_i hf
      have hp : (s.key p).state = .queued := (walkFit_spec hf).1
      have hne : q ≠ p := fun e => h (e ▸ hp)
      obtain ⟨h1, h2⟩ := grant_other s p q hne
      obtain ⟨h3, h4⟩ := ih (s.grant p) (by rw [h1]; exact h)
      exact ⟨h3.trans h1, h4.trans h2⟩
    · exact ih s h
    · exact ⟨rfl, rfl⟩

theorem walk_other (s : State) (q : Pos) (h : (s.key q).state ≠ .queued) : s.walk.key q = s.key q ∧ s.walk.txen q = s.txen q := walkList_other _ s q h

/-! ### An owner that waits nowhere (R59, R61) -/

/-- A position owns an antenna and waits nowhere. -/
def HeldBy (s : State) (q : Pos) (a : Ant) : Prop := (s.ant a).owner = some q ∧ s.waitsOn q = none

/-- A chain of grants started on another antenna leaves such an owner alone: it grants only to positions that wait. -/
theorem serveChain_held (n : Nat) (b a : Ant) (q : Pos) (s : State) (hb : (s.ant b).owner = none) (i : ClaimsExact s) (h : HeldBy s q a) :
    HeldBy (serveChain n b s) q a := by
  induction n generalizing b s with
  | zero => exact h
  | succ n ih =>
    unfold serveChain
    split
    · split
      · exact h
      · rename_i c hc
        have hm := chooseClaim_mem s _ c hc
        have hw := i.pointed b c hm
        have hne : q ≠ c.position := fun e => by
          rw [← e, h.2] at hw; cases hw
        have hba : b ≠ a := fun e => by
          rw [e, h.1] at hb; cases hb
        have hk := grantClaim_keeps s c.position b c.origin .queue (fun _ => .inr hw) hb
        have held : HeldBy (s.grantClaim c.position b c.origin .queue) q a := by
          refine ⟨?_, ?_⟩
          · unfold State.grantClaim
            rw [makeOwner_owner]
            have hp : s.ownedOther c.position b ≠ some a := fun e => by
              have := (ownedOther_owner e).1
              rw [h.1] at this
              exact hne (Option.some.inj this)
            rw [if_neg hp, if_neg (Ne.symm hba)]
            exact h.1
          · unfold State.grantClaim
            rw [(makeOwner_claims _ _ _ _ _ _).2, waitsOn_removeClaim, if_neg hne]
            exact h.2
        split
        · exact held
        · rename_i x hx
          exact ih x _ (grantClaim_owner s c.position b c.origin .queue hx) (hk.claims i) held
    · exact h

end Sys2Proof.Machine
end

