-- ==== Sys2Proof/Tests/Slice0.lean ====
section
/-! SUPPORT. The model's own tests: the ill-formed commands, the figures of the manual's worked examples, one effect of each block, and for every statement with hypotheses a state that meets them. -/

namespace Sys2Proof.Machine.Tests

set_option maxRecDepth 100000

/-! ### States -/

/-- The state a command leaves. -/
def after (c : Instr) (s : State) : State :=
  match exec c s with
  | .next t => t
  | .fault _ | .refused _ => s

/-- A position on B40 with the antenna of its own number, its route ACTIVE. -/
def routed (p : Pos) (a : Ant) (s : State) : State :=
  (((s.onPlace p fun c => { c with source := .message }).onDec p fun d => { d with band := some .b40 }).onAnt a
    fun r => { r with owner := some p, connected := some p }).onSeq p
    fun q => { q with current := ⟨some .b40, some a⟩, target := ⟨some .b40, some a⟩, setFilter := some .b40 }

/-- P1 owns A1 and P2 owns A2, both on B40 with ACTIVE routes and both OFF, at 5000 ms. -/
def desks : State := routed 1 1 (routed 0 0 (State.reset.setTimebase 5000#32))

/-- Of the desks, P1 is ON on A1, P2 is QUEUED behind the band limit and waits for A1, and P3 listens on A1. -/
def station : State :=
  { (desks.onKey 0 fun k => { k with state := .on, level := true, grant := some ⟨.b40, 0, 1#32⟩ }).onKey 1
      fun k => { k with state := .queued, level := true, reported := true } with
    waiting := [1], pointer := 0, grantCount := 1#32
    txenOutputs := #v[true, false, false, false, false, false]
    taps := upd desks.taps 0 fun t => { t with slot1 := some 2, keyed := true }
    listens := upd desks.listens 2 fun _ => some 0
    claimQueues := upd desks.claimQueues 0 fun _ => [{ position := 1, origin := .console, expiry := some 305000#32 }]
    claimPointers := upd desks.claimPointers 1 fun _ => some 0 }

/-- The desks with an antenna TRIPPED. -/
def tripped (a : Ant) (s : State) : State :=
  s.onAnt a fun r => { r with service := .tripped, trip := some { cause := .swr, pf := 100, swr := 40, owner := r.owner, time := 4000#32 } }

/-- The state with a port's queue full of answers. -/
def crammed (port : Port) (s : State) : State :=
  s.onLink port fun l => { l with queue := List.replicate 16 (.answer { type := 0x81#8, tag := 0#8, result := .done, data := .nothing }) }

/-- The state with a timer of a position's sequencer run out in a sequencer state. -/
def phased (p : Pos) (state : SeqState) (target : RfPath) (s : State) : State :=
  s.onSeq p fun q => { q with state := state, target := target, phase := some s.timebase }

/-- The desks without their supply. -/
def dark : State := desks.setPowered false

theorem test_reset_takes (port : Port) : State.reset.Takes port := ⟨rfl, by revert port; decide⟩

theorem test_desks_takes (port : Port) : desks.Takes port := ⟨rfl, by revert port; decide⟩

theorem test_station_takes (port : Port) : station.Takes port := ⟨rfl, by revert port; decide⟩

theorem test_station_safe : Safe station :=
  { txen := by unfold TxenByKey; decide
    taps := by unfold TapsCommanded; decide
    hold := by unfold HoldSilent; decide
    grants := by unfold GrantsRecorded; decide
    waiting := by unfold WaitingExact; decide
    onRoute := by unfold KeyOnRoute; decide
    relays := by unfold RelaysBySequencer; decide }

theorem test_station_claims : ClaimsExact station := ⟨by decide, by decide, by decide, by decide⟩

theorem test_station_owned : OneOwned station := by unfold OneOwned; decide

theorem test_station_requests : RequestsExact station := by unfold RequestsExact; decide

theorem test_station_grounded : Grounded station where
  settled := by unfold IdleSettled; decide
  keyed := by unfold KeyedByGrants; decide
  keys p h := by
    have hp : p = 0 ∨ p = 1 := by revert p; decide
    rcases hp with rfl | rfl
    · exact ⟨.b40, 0, by decide, by decide, by decide, by decide, by decide, by decide, by decide⟩
    · exact ⟨.b40, 1, by decide, by decide, by decide, by decide, by decide, by decide, by decide⟩

theorem test_station_listens : ListensExact station := ⟨by decide, by decide, by decide, by decide⟩

theorem test_station_services : ServiceExact station := ⟨by decide, by decide⟩

theorem test_station_queues : QueuesHeld station := ⟨by decide, by decide, by decide, by decide⟩

theorem test_station_links : LinksBounded station := by unfold LinksBounded; decide

theorem test_station_aux : AuxByCondition station := by unfold AuxByCondition; decide

theorem test_desks_claims : ClaimsExact desks := ⟨by decide, by decide, by decide, by decide⟩

theorem test_desks_requests : RequestsExact desks := by unfold RequestsExact; decide

theorem test_desks_owned : OneOwned desks := by unfold OneOwned; decide

/-! ### Ill-formed commands -/

theorem test_wellFormed_refuses_short_setPref : (Instr.setPref 0 1 1 4 2 [1, 2, 0]).wellFormed = false := by decide

theorem test_wellFormed_refuses_long_setBandmap : (Instr.setBandmap 0 1 (List.replicate 17 0) 30).wellFormed = false := by decide

theorem test_wellFormed_refuses_short_setRules : (Instr.setRules 0 1 [1, 1, 1, 1, 1] 6 0 0 5).wellFormed = false := by decide

theorem test_wellFormed_refuses_high_forward : (Instr.couplerSample 0 1024 0).wellFormed = false := by decide

theorem test_wellFormed_refuses_high_reflected : (Instr.couplerSample 0 0 1024).wellFormed = false := by decide

theorem test_wellFormed_takes_full_scale : (Instr.couplerSample 0 1023 1023).wellFormed = true := by decide

/-! ### The manual's figures -/

/-- The frame that answers PING with tag 7 at 5000 ms (Message Links). -/
theorem test_ping_frame : Transmission.frame
    { record := .answer { type := 0x81#8, tag := 7#8, result := .done, data := .ping 5000#32 }, lost := false }
    = [0xD2, 0x0A, 0x81, 0x07, 0x00, 0x64, 0x02, 0x01, 0x88, 0x13, 0x00, 0x00, 0x6C] := by decide

/-- A9's sample of 612 and 130: 257 W forward, 13 W reflected, SWR 1.6 (RF Sensing, "The arithmetic worked through"). -/
theorem test_sample_of_A9 :
    let s := after (.couplerSample 8 612 130) (desks.onConfig 8 fun c => { c with zf := 12, zr := 10, c := 144, swrLimit := 20 })
    (s.ant 8).pf = 257 ∧ (s.ant 8).pr = 13 ∧ (s.ant 8).swr = 16 ∧ (s.sensor 8).swrCount = 0 := by decide

/-- A11 before the two samples of 700 and 1000. -/
def a11 : State := desks.onConfig 10 fun c => { c with zf := 20, zr := 40, c := 192, kf := 65535 }

/-- A11's second sample: both counts at 1. -/
theorem test_second_sample_of_A11 :
    let s := after (.couplerSample 10 700 1000) a11
    (s.ant 10).pf = 1806 ∧ (s.ant 10).pr = 4095 ∧ (s.ant 10).swr = 999 ∧ (s.ant 10).presence = true
      ∧ (s.sensor 10).powerCount = 1 ∧ (s.sensor 10).swrCount = 1 := by decide

/-- A11's third sample: the trip is OVERPOWER, once. -/
theorem test_third_sample_of_A11 :
    let s := after (.couplerSample 10 700 1000) (after (.couplerSample 10 700 1000) a11)
    (s.ant 10).trip = some { cause := .overpower, pf := 1806, swr := 999, owner := none, time := 5000#32 } ∧ (s.sensor 10).powerCount = 0
      ∧ (s.sensor 10).swrCount = 0 := by decide

/-- The chain of the worked handover: A1 released goes to P2, whose A2 stays free. -/
theorem test_release_serves :
    let s := after (.release 1 9 1 1) station
    (s.ant 0).owner = some 1 ∧ (s.ant 1).owner = none ∧ s.claims 0 = [] ∧ s.waitsOn 1 = none ∧ (s.key 0).state = .blocked := by decide

/-! ### One effect of each block -/

theorem test_band_change_cuts_and_breaks :
    let s := after (.setBand 1 9 1 4) station
    s.band 0 = some .b20 ∧ (s.key 0).state = .blocked ∧ s.txen 0 = false ∧ (s.ant 0).connected = none ∧ (s.seq 0).state = .brk (some 0)
      ∧ (s.seq 0).phase = some 5020#32 ∧ (s.key 1).state = .on ∧ (s.tap 0).closed1 = true := by decide

theorem test_settle_moves_band :
    let s := after (.settle 2) (desks.onDec 2 fun d => { d with raw := some 5#4, debounce := some 5000#32 })
    s.band 2 = some .b20 ∧ (s.dec 2).stable = some 5#4 ∧ (s.seq 2).setFilter = some .b20 := by decide

theorem test_ptt_opens_tap_first :
    let s := after (.pttEdge 0) ((after (.listen 0 9 3 1) desks).onKey 0 fun k => { k with filter := some 5000#32 })
    (s.key 0).state = .opening ∧ (s.key 0).tapGuard = some 5005#32 ∧ s.txen 0 = false ∧ (s.tap 0).closed1 = false := by decide

theorem test_hold_silences :
    let s := after (.hold 0 9 1) station
    s.holdOn = true ∧ (s.key 0).state = .blocked ∧ (s.key 1).state = .queued ∧ s.txen 0 = false := by decide

theorem test_follow_selects :
    let s := after (.follow 1 9 1 1) (desks.onPlace 0 fun c => { c with prefs := c.prefs.set 2 [4] })
    (s.ant 4).owner = some 0 ∧ (s.ant 0).owner = none ∧ (s.place 0).follow = true := by decide

theorem test_set_antenna_out_of_service :
    let s := after (.setAntenna 0 9 1 0x7E 1500 30 12000 128 0 0 20 2) station
    (s.ant 0).service = .outOfService ∧ (s.ant 0).owner = none ∧ s.claims 0 = [] ∧ (s.tap 0).slot1 = none ∧ (s.key 0).state = .blocked := by decide

theorem test_save_then_restart_loads :
    let s := after (.saveWriteEnd true) (after (.save 0 9) (after (.setClaims 0 9 77) desks))
    (after .powerOn (after .powerLost s)).settings.claimLifetime = 77 := by decide

/-- QUERY STATION's answer has the 29 payload bytes of Record Formats. -/
theorem test_query_station_length :
    ((after (.query 0 9 3 0 0) (station.onLink 0 fun l => { l with transmitter := none })).wire 0).length = 34 := by decide

/-- A PING frame received byte by byte is answered like the command. -/
theorem test_ping_by_bytes :
    let hear := fun (s : State) (b : Byte) => after (.byteReceived 0 b) s
    [0xD2, 0x02, 0x01, 0x07, 0xF6].foldl hear desks = after (.ping 0 7) desks := by decide

theorem test_idle_tick : step desks = .next desks.tick := rfl

theorem test_no_word_is_a_command : State.reset.withFetchWord 8 0x81 = State.reset := by decide

/-! ### States that meet the hypotheses of the statements, clause by clause -/

/-- StepRunsFront, IdleStep: a queue with a command; an idle part that is stopped, one with an event due, one with none. -/
theorem test_witness_step :
    (State.reset.withPending [.flashEdge, .powerOn]).pending = [.flashEdge, .powerOn]
    ∧ (dark.pending = [] ∧ dark.running = false)
    ∧ ((phased 0 (.brk none) ⟨none, none⟩ desks).pending = [] ∧ (phased 0 (.brk none) ⟨none, none⟩ desks).running = true
      ∧ (phased 0 (.brk none) ⟨none, none⟩ desks).dueCommand = some (.breakEnd 0))
    ∧ (desks.pending = [] ∧ desks.running = true ∧ desks.dueCommand = none) := by decide

/-- SafeKept, LinksBoundedKept, OwnershipKept, RequestsExactKept, AuxByConditionKept: the station meets every invariant, and its next step moves it. -/
theorem test_witness_invariants :
    Safe station ∧ LinksBounded station ∧ OneOwned station ∧ ClaimsExact station ∧ RequestsExact station ∧ AuxByCondition station
    ∧ ∃ t, step station = .next t ∧ t.timebase = 5001#32 :=
  ⟨test_station_safe, test_station_links, test_station_owned, test_station_claims, test_station_requests, test_station_aux, _, rfl, rfl⟩

/-- KeysGroundedKept, TablesKept: the station meets the premises, P1 transmits on A1, which it owns, and P3 listens there; one more step keeps P3's slot and P2's claim. -/
theorem test_witness_grounded :
    Safe station ∧ RequestsExact station ∧ Grounded station ∧ (station.txen 0 = true ∧ station.granted 0 = true ∧ (station.ant 0).owner = some 0)
    ∧ (ListensExact station ∧ station.listen 2 = some 0) ∧ (ServiceExact station ∧ QueuesHeld station ∧ station.waitsOn 1 = some 0)
    ∧ ∃ t, step (station.withPending [.claim 6 9 6 2 0]) = .next t ∧ (t.claims 1).length = 1 :=
  ⟨test_station_safe, test_station_requests, test_station_grounded, by decide, ⟨test_station_listens, by decide⟩,
    ⟨test_station_services, test_station_queues, by decide⟩, _, rfl, by decide⟩

/-- IdleStep: the millisecond of a part with all ports sampled starts P3's debounce and P1's PTT filter and clears the marks; the next port to be sampled is due then. -/
theorem test_witness_millisecond :
    let s := ((desks.setLines 2 5).setPtt 0 true)
    let t := s.tick
    s.dueCommand = none ∧ (t.dec 2).raw = some 5#4 ∧ (t.dec 2).debounce = some 5031#32 ∧ (t.key 0).filter = some 5003#32 ∧ (t.sensor 0).sampled = false
    ∧ t.dueCommand = some (.couplerSample 0 0 0) := by decide

/-- NoRelayMovesHot: a BREAK that ends closes a relay; a band change opens one. -/
theorem test_witness_relay_moves :
    let s := (phased 2 (.brk none) ⟨none, some 4⟩ desks).withPending [.breakEnd 2]
    let u := desks.withPending [.setBand 1 9 1 4]
    (∃ t, step s = .next t ∧ (t.ant 4).connected ≠ (s.ant 4).connected) ∧ ∃ t, step u = .next t ∧ (t.ant 0).connected ≠ (u.ant 0).connected :=
  ⟨⟨_, rfl, by decide⟩, ⟨_, rfl, by decide⟩⟩

/-- RequestsChecked: a queue full of answers, at the first and the last port. -/
theorem test_witness_full_queue :
    requestOn (.ping 0 7) = some (0, .ping, 7) ∧ requestOn (.restart 6 255) = some (6, .restart, 255)
    ∧ (crammed 0 desks).running = true ∧ ((crammed 0 desks).link 0).fullOfAnswers = true ∧ ((crammed 6 desks).link 6).fullOfAnswers = true := by decide

/-- RequestsChecked: a supervisor's request, a request for another position, a peak reset. -/
theorem test_witness_permission :
    desks.Takes 6 ∧ (Instr.save 6 9).wellFormed = true ∧ consoleMayNot 6 (.save 6 9) = true ∧ consoleMayNot 6 (.claim 6 9 5 1 0) = true
    ∧ consoleMayNot 1 (.query 1 9 2 12 1) = true ∧ consoleMayNot 6 (.claim 6 9 6 1 0) = false :=
  ⟨test_desks_takes 6, by decide⟩

/-- RequestsChecked: wrong lengths, and fields just out of range from both sides. -/
theorem test_witness_malformed :
    desks.Takes 1 ∧ (Instr.setPref 1 9 1 4 2 []).wellFormed = false ∧ structurallyBad (.claim 1 9 1 0 0) = true
    ∧ structurallyBad (.claim 1 9 1 13 0) = true ∧ structurallyBad (.claim 1 9 1 12 2) = true ∧ structurallyBad (.setAux 0 9 9 0 0 0 0 0) = true
    ∧ structurallyBad (.setAux 0 9 8 3 0 7 0 0) = true ∧ consoleMayNot 1 (.claim 1 9 1 0 0) = false ∧ (Instr.claim 1 9 1 0 0).wellFormed = true :=
  ⟨test_desks_takes 1, by decide⟩

/-- A port whose framer has a partial frame. -/
def hearing (port : Port) (bytes : List Byte) : State := desks.onLink port fun l => { l with framer := .body, partialFrame := bytes }

/-- FramerTakesBytes: each framer state, a partial frame one byte short and one complete with a wrong sum, a gap that has run out. -/
theorem test_witness_framer :
    desks.running = true ∧ (desks.link 6).framer = .hunt ∧ ((desks.onLink 0 fun l => { l with framer := .length }).link 0).framer = .length
    ∧ (((hearing 0 [2, 1]).link 0).framer = .body ∧ ((hearing 0 [2, 1]).link 0).partialFrame = [2, 1] ∧ [1#8].length ≠ (2#8).toNat)
    ∧ (((hearing 0 [2, 1, 7]).link 0).partialFrame = [2, 1, 7] ∧ [1#8, 7].length = (2#8).toNat ∧ byteSum ([2, 1, 7] ++ [0xF7]) ≠ 0#8)
    ∧ desks.due ((desks.onLink 0 fun l => { l with gap := some 5000#32 }).link 0).gap = true := by decide

/-- GoodFrameIsItsRequest: the frame of a CLAIM, one of a type that no request has, and one of a CLAIM with a payload of two bytes. -/
theorem test_witness_good_frame :
    let c := Instr.claim 1 7 1 12 0
    (requestOn c = some (1, .claim, 7) ∧ c.wellFormed = true ∧ (hearing 1 (5 :: Request.claim.code :: 7 :: payloadOf c)).running = true
      ∧ (5#8).toNat = (payloadOf c).length + 2 ∧ byteSum (5 :: Request.claim.code :: 7 :: payloadOf c ++ [0xE4]) = 0#8)
    ∧ (requestOf 0x18#8 = none ∧ (2#8).toNat = ([] : List Byte).length + 2 ∧ byteSum (2 :: 0x18 :: 7 :: [] ++ [0xDF]) = 0#8)
    ∧ ([1#8, 12].length ≠ Request.claim.payloadLength ∧ (4#8).toNat = [1#8, 12].length + 2
      ∧ byteSum (4 :: Request.claim.code :: 7 :: [1, 12] ++ [0xE5]) = 0#8) := by decide

theorem test_witness_unknown_type (q : Request) : q.code ≠ 0x18#8 := by cases q <;> decide

/-- TransmitterGoesOn: an idle transmitter, and one that ends with nothing, an answer or a report behind it. -/
theorem test_witness_transmitter :
    let s := after (.ping 0 7) desks
    ((desks.onLink 0 fun l => { l with transmitter := none }).link 0).transmitter = none
    ∧ (desks.link 0).transmitter.isSome = true ∧ (desks.link 0).queue = [] ∧ (s.link 0).transmitter.isSome = true
    ∧ (s.link 0).queue = [.answer { type := 0x81, tag := 7, result := .done, data := .ping 5000#32 }] ∧ desks.store.restartPending = false
    ∧ ((s.report [] (.start .power .defaults)).link 0).queue.length = 2 ∧ ((desks.report [] (.start .power .defaults)).link 0).queue
      = [.report { body := .start .power .defaults, time := 5000#32 }] := by decide

/-- QueuesTakeRecords: a queue at 16 with a report behind which stand answers, one at 15 with a place reserved, one at 15. -/
theorem test_witness_queues :
    let l := desks.link 0
    let a : Record := .answer { type := 0x81, tag := 7, result := .done, data := .nothing }
    let r : Report := { body := .start .power .defaults, time := 0 }
    let q := List.replicate 9 a ++ .report r :: List.replicate 6 a
    ({ l with queue := q }.used ≥ 16 ∧ l.transmitter.isSome = true ∧ (List.replicate 6 a).any Record.isReport = false)
    ∧ { l with queue := List.replicate 15 a, reserved := true }.used ≥ 16 ∧ { l with queue := List.replicate 15 a }.used < 16 := by decide

/-- SetBandMoves: LINES source; the band held and another one in MESSAGE source. -/
theorem test_witness_setBand :
    station.Takes 1 ∧ RequestsExact station ∧ (station.place 5).source = .lines ∧ (station.place 0).source = .message ∧ some .b40 = station.band 0
    ∧ none ≠ station.band 0 :=
  ⟨test_station_takes 1, test_station_requests, by decide⟩

/-- RecordsLaidOut: views with full and with empty lists, a transmitter that sends, numbers at the ends of two bytes. -/
theorem test_witness_records :
    let r := station.ant 0
    let view := fun (queue : List (Pos × Origin)) (listeners : List Pos) =>
      ({ config := station.config 0, record := r, queue := queue, listeners := listeners } : AntennaView)
    let five := List.replicate 5 ((1 : Pos), Origin.console)
    (view five [2, 3]).queue.length ≤ 5 ∧ (view five [2, 3]).listeners.length ≤ 2 ∧ (AnswerData.antenna (view five [2, 3])).bytes.length = 46
    ∧ (AnswerData.antenna (view [] [])).bytes.length = 46
    ∧ (station.running = true ∧ (station.link 6).transmitter.isSome = true) ∧ twoBytes 65535 = [255, 255] ∧ twoBytes 256 = [0, 1]
    ∧ [1, 1, 1, 1, 1, 1].length = 6 ∧ [(0 : Pos), 1, 2, 3, 4, 5].length ≤ 6 := by decide

/-- SetBandingWrites: the same values, a new guard mask alone, a new line mask, with a debounce time and without. -/
theorem test_witness_setBanding :
    let c := station.place 5
    station.Takes 0 ∧ ({ c with source := .lines, lineMask := 15, guardMask := 15 } : PositionConfig) = c
    ∧ ({ c with source := .lines, lineMask := 15, guardMask := 0 } : PositionConfig) ≠ c
    ∧ (c.source = .lines ∧ c.lineMask = 15#4 ∧ ¬ (c.source = .lines ∧ c.lineMask = 0#4)) ∧ station.settings.debounce ≠ 0
    ∧ (station.onSettings fun c => { c with debounce := 0 }).settings.debounce = 0 :=
  ⟨test_station_takes 0, by decide⟩

/-- SetBandmapApplied: the map and time held, and another time. -/
theorem test_witness_setBandmap :
    station.Takes 0 ∧ (defaultBandMap = station.settings.bandMap ∧ min 250 (30#8).toNat = station.settings.debounce)
    ∧ ¬ (defaultBandMap = station.settings.bandMap ∧ min 250 (255#8).toNat = station.settings.debounce)
    ∧ ((after (.settle 2) (desks.onDec 2 fun d => { d with raw := some 5#4, debounce := some 5000#32 })).dec 2).stable = some 5#4 :=
  ⟨test_station_takes 0, by decide⟩

/-- LinesSampledAndSettled: the raw pattern and another one, with a debounce time and without; a timer stopped, and one at its expiry in either source. -/
theorem test_witness_lines :
    let raw := fun (p : Pos) => desks.onDec p fun d => { d with raw := some 5#4, debounce := some 5000#32 }
    desks.running = true ∧ ((raw 2).dec 2).raw = some (5#4 &&& (desks.place 2).lineMask) ∧ (desks.dec 2).raw ≠ some (5#4 &&& (desks.place 2).lineMask)
    ∧ desks.settings.debounce ≠ 0 ∧ (desks.onSettings fun c => { c with debounce := 0 }).settings.debounce = 0
    ∧ desks.due (desks.dec 2).debounce = false ∧ (raw 2).due ((raw 2).dec 2).debounce = true ∧ ((raw 2).place 2).source = .lines
    ∧ (raw 0).due ((raw 0).dec 0).debounce = true ∧ ((raw 0).place 0).source = .message := by decide

/-- P1 keyed in LINES source on B40 at a settle of code 3, which B40 has, with a keyed reference and a guard mask. -/
def guarded (reference : Option (BitVec 4)) (guard_ : BitVec 4) : State :=
  (station.onPlace 0 fun c => { c with source := .lines, guardMask := guard_ }).onDec 0
    fun d => { d with raw := some 3#4, debounce := some 5000#32, reference := reference }

/-- LinesSampledAndSettled, checkReference: a departure needs a guard line that differs, an absent reference differs on all, and an empty guard mask has none (R13, R14). -/
theorem test_witness_departures :
    (after (.settle 0) (guarded (some 3) 15)).granted 0 = true ∧ (after (.settle 0) (guarded (some 11) 7)).granted 0 = true
    ∧ (after (.settle 0) (guarded (some 11) 8)).granted 0 = false ∧ (after (.settle 0) (guarded none 1)).granted 0 = false
    ∧ (after (.settle 0) (guarded none 0)).granted 0 = true ∧ (after (.settle 0) (guarded none 0)).band 0 = some .b40
    ∧ ((guarded none 1).place 0).source = .lines ∧ (guarded none 1).due ((guarded none 1).dec 0).debounce = true ∧ (guarded none 1).granted 0 = true := by decide

/-- SetAntennaWrites: masks at both ends of the range, the fields held, a new limit alone, another service and another mask. -/
theorem test_witness_setAntenna :
    let c := station.config 11
    station.Takes 0 ∧ ((0#8).getLsbD 0 = false ∧ (0#8).getLsbD 7 = false ∧ (0x7E#8).getLsbD 0 = false ∧ (0x7E#8).getLsbD 7 = false)
    ∧ ({ bandMask := 0x7E, maxPower := max 1 (min 4095 1500), swrLimit := max 15 (min 99 30), kf := 12000, c := max 64 (min 192 128), zf := 0,
         zr := 0, settle := max 5 (min 200 20), configured := .inService } : AntennaConfig) = c
    ∧ ({ c with maxPower := 4095 } ≠ c ∧ { c with maxPower := 4095 }.bandMask = c.bandMask) ∧ { c with bandMask := 0 } ≠ c
    ∧ { c with configured := .outOfService } ≠ c ∧ (station.ant 11).service ≠ .tripped :=
  ⟨test_station_takes 0, by decide⟩

/-- SetAntennaWrites: P1's antenna in service with its keyed owner and P2's claim; one configured OUT_OF_SERVICE, in that service and TRIPPED; P1's band lost from the mask, and lost for nobody. -/
theorem test_witness_setAntenna_in_use :
    let off := desks.onConfig 11 fun c => { c with configured := .outOfService }
    let lost := fun (s : State) (mask : BitVec 8) (p : Pos) => (s.band p).any fun b => (s.config 0).bandMask.getLsbD b.index && !mask.getLsbD b.index
    Safe station ∧ ClaimsExact station ∧ RequestsExact station
    ∧ ((station.config 0).configured = .inService ∧ (station.ant 0).service ≠ .outOfService ∧ (station.ant 0).owner = some 0 ∧ station.granted 0 = true
      ∧ station.claims 0 ≠ [])
    ∧ ((off.config 11).configured = .outOfService ∧ ((off.onAnt 11 fun r => { r with service := .outOfService }).ant 11).service = .outOfService
      ∧ ((tripped 11 off).ant 11).service = .tripped)
    ∧ (lost station 0x76 0 = true ∧ lost station 0x76 1 = true ∧ (station.key 1).state = .queued ∧ ∀ p, lost station 0x08 p = false)
    ∧ ∀ p, (station.place p).follow = false :=
  ⟨test_station_safe, test_station_claims, test_station_requests, by decide⟩

/-- TripRaised: P1 is granted on the antenna that trips and P2 waits for it; P2's own antenna trips while it is QUEUED. -/
theorem test_witness_trip :
    ClaimsExact station ∧ ((station.ant 0).service ≠ .tripped ∧ (station.ant 0).owner = some 0 ∧ station.granted 0 = true ∧ station.claims 0 ≠ [])
    ∧ ((station.ant 1).owner = some 1 ∧ (station.key 1).state = .queued) ∧ (∀ p, (station.place p).follow = false)
    ∧ ((station.trip 0 .swr).key 0).state = .blocked ∧ (station.trip 0 .swr).claims 0 = [] ∧ ((station.trip 1 .swr).key 1).state = .blocked :=
  ⟨test_station_claims, by decide⟩

/-- EpisodesJudged: RF that begins in BREAK on the broken antenna, in MAKE on the target, and where nobody watches; the antenna TRIPPED already; a connected position with a stamp, one that transmits, and a port without one. -/
theorem test_witness_episodes :
    let brk := phased 2 (.brk (some 4)) ⟨some .b40, some 5⟩ desks
    let make := phased 2 (.make none) ⟨some .b40, some 5⟩ desks
    let rf := fun (a : Ant) (s : State) => s.onAnt a fun r => { r with presence := true }
    ((brk.ant 4).presence = false ∧ brk.settings.presenceThreshold ≤ max (sampledPf (brk.config 4) 300) (sampledPr (brk.config 4) 0)
      ∧ ((after (.couplerSample 4 300 0) brk).ant 4).service = .tripped ∧ ((after (.couplerSample 5 300 0) brk).ant 5).service = .inService)
    ∧ (((after (.couplerSample 5 300 0) make).ant 5).trip.map TripRecord.cause = some .hotSwitch ∧ ((after (.couplerSample 5 300 0) make).seq 2).state = .make none)
    ∧ ((after (.couplerSample 5 300 0) (tripped 5 make)).ant 5).trip.map TripRecord.cause = some .swr
    ∧ ((desks.sensor 5).swrCount = 0 ∧ (desks.sensor 5).powerCount = 0) ∧ (∀ p, (brk.place p).follow = false)
    ∧ ((rf 0 desks).ant 0).connected = some 0 ∧ (desks.quiet 0 = none ∧ (desks.setQuiet 0 (some 4000#32)).quiet 0 = some 4000#32 ∧ desks.txen 0 = false)
    ∧ station.txen 0 = true ∧ ((rf 4 desks).ant 4).presence = true ∧ ((rf 4 desks).ant 4).connected = none
    ∧ (((rf 4 desks).judgeEpisode 4).sensor 4).stray = true ∧ (((rf 0 (desks.setQuiet 0 (some 4000#32))).judgeEpisode 0).sensor 0).unkeyed = true := by decide

/-- ClearRestores: OUT_OF_SERVICE, IN_SERVICE, TRIPPED under RF, TRIPPED and quiet with either configured service. -/
theorem test_witness_clear :
    let s := tripped 0 desks
    desks.Takes 0 ∧ ((desks.onAnt 0 fun r => { r with service := .outOfService }).ant 0).service = .outOfService ∧ (desks.ant 0).service = .inService
    ∧ ((s.onAnt 0 fun r => { r with presence := true }).ant 0).presence = true ∧ (s.ant 0).service = .tripped ∧ (s.ant 0).presence = false
    ∧ (s.config 0).configured = .inService ∧ ((s.onConfig 0 fun c => { c with configured := .outOfService }).config 0).configured = .outOfService :=
  ⟨test_desks_takes 0, by decide⟩

/-- TripRaised, PresenceBegins: an antenna TRIPPED and one that is not; one below the threshold and one at it, both without presence. -/
theorem test_witness_sensor :
    let s := desks.onAnt 1 fun r => { r with pr := 2 }
    ((tripped 0 desks).ant 0).service = .tripped ∧ (desks.ant 0).service ≠ .tripped ∧ desks.running = true
    ∧ ((s.ant 0).presence = false ∧ max (s.ant 0).pf (s.ant 0).pr < s.settings.presenceThreshold)
    ∧ ((s.ant 1).presence = false ∧ s.settings.presenceThreshold ≤ max (s.ant 1).pf (s.ant 1).pr) := by decide

/-- OffsetsSubtracted, PowersAndSwr: readings at and below the offset, C at 128 and at its ends, the converter's ends, SWR at its limits. -/
theorem test_witness_arithmetic :
    let c := (a11.config 10)
    (c.zf ≤ 20 ∧ 19 < c.zf ∧ c.zr ≤ 40 ∧ 39 < c.zr ∧ c.c ≤ 192 ∧ 128 ≤ c.c ∧ 1023 ≤ 1023) ∧ (desks.config 0).c = 128 ∧ { c with c := 64 }.c ≤ 128
    ∧ ({ c with kf := 0 }.kf = 0 ∧ c.kf ≤ 65535) ∧ (swrOf 1 1 = 999 ∧ swrOf 1 0 = 10 ∧ swrOf 600 135 = 16) := by decide

/-- SetSensingWrites, SettingsWritten: the supervisor's port and a console's, a payload of a wrong length. -/
theorem test_witness_times : desks.Takes 0 ∧ (6 : Port) ≠ 0 ∧ desks.Takes 6 ∧ [1#8, 2, 3].length ≠ 4 :=
  ⟨test_desks_takes 0, by decide, test_desks_takes 6, by decide⟩

/-- ClaimRefused: the console of P6 and the supervisor, precedence 0, each service state, a mask without the band, an antenna that another position owns with NOWAIT. -/
theorem test_witness_claim_refused :
    let parked := desks.onPlace 5 fun c => { c with precedence := 0 }
    desks.Takes 6 ∧ ((6 : Port) = (5 : Pos).succ ∧ (1#8).toNat ≤ 1) ∧ (parked.place 5).precedence = 0 ∧ (desks.place 5).precedence ≠ 0
    ∧ ((desks.onAnt 0 fun r => { r with service := .outOfService }).ant 0).service = .outOfService ∧ ((tripped 0 desks).ant 0).service = .tripped
    ∧ (desks.ant 0).service = .inService
    ∧ (desks.band 1 = some .b40 ∧ ((desks.onConfig 0 fun c => { c with bandMask := 0x76 }).config 0).bandMask.getLsbD Band.b40.index = false)
    ∧ (desks.band 5 = none ∧ (desks.ant 0).owner ≠ none ∧ (desks.ant 0).owner ≠ some 5 ∧ desks.waitsOn 5 ≠ some 0) :=
  ⟨test_desks_takes 6, by decide⟩

/-- P3 and P6 have no band and pass every check of a CLAIM of A1 or A12. -/
theorem test_witness_claim_passes (p : Pos) (hp : p = 2 ∨ p = 5) (a : Ant) (ha : a = 0 ∨ a = 11) : ClaimPasses station p a := by
  rcases hp with rfl | rfl <;> rcases ha with rfl | rfl <;> exact ⟨by decide, by decide, fun b h => nomatch h⟩

/-- P2 on B40 passes every check of a CLAIM of A1. -/
theorem test_witness_claim_passes_on_band (p : Pos) (hp : p = 0 ∨ p = 1) : ClaimPasses station p 0 := by
  rcases hp with rfl | rfl <;> exact ⟨by decide, by decide, fun b h => by cases h; decide⟩

/-- ClaimGranted: A12 is free, for P6 from its own console and for P3 from the supervisor. -/
theorem test_witness_claim_granted :
    station.Takes 6 ∧ ClaimPasses station 5 11 ∧ (station.ant 11).owner = none ∧ station.waitsOn 5 ≠ some 11 ∧ ClaimsExact station ∧ RequestsExact station :=
  ⟨test_station_takes 6, test_witness_claim_passes 5 (.inr rfl) 11 (.inr rfl), rfl, by decide, test_station_claims, test_station_requests⟩

/-- ClaimQueued: P6 claims P1's antenna, P1 the one it owns, P2 the one it waits for. -/
theorem test_witness_claim_queued :
    station.Takes 0 ∧ ClaimPasses station 5 0 ∧ ClaimPasses station 0 0 ∧ ClaimPasses station 1 0 ∧ ClaimsExact station
    ∧ ((station.ant 0).owner ≠ none ∧ (station.ant 0).owner ≠ some 5 ∧ station.waitsOn 5 ≠ some 0) ∧ (station.ant 0).owner = some 0
    ∧ station.waitsOn 1 = some 0 :=
  ⟨test_station_takes 0, test_witness_claim_passes 5 (.inr rfl) 0 (.inl rfl), test_witness_claim_passes_on_band 0 (.inl rfl),
    test_witness_claim_passes_on_band 1 (.inr rfl), test_station_claims, by decide⟩

/-- P1 owns A1 and P2 owns A2; P2 waits for A1 and P3 waits for A2: a release of A1 starts a chain of two grants. -/
def crossing : State :=
  { station with
    claimQueues := upd station.claimQueues 1 fun _ => [{ position := 2, origin := .console, expiry := none }]
    claimPointers := upd station.claimPointers 2 fun _ => some 1 }

theorem test_crossing_claims : ClaimsExact crossing := ⟨by decide, by decide, by decide, by decide⟩

theorem test_crossing_owned : OneOwned crossing := by unfold OneOwned; decide

/-- QueueServed, ClaimsGivenUp: the claim chosen for A1 is that of P2, who owns A2, for which P3 waits. -/
theorem test_witness_chain :
    crossing.Takes 0 ∧ ClaimsExact crossing ∧ OneOwned crossing
    ∧ ((crossing.ant 0).service = .inService ∧ (crossing.chooseClaim (crossing.claims 0)).map Claim.position = some 1 ∧ (crossing.ant 1).owner = some 1)
    ∧ (let s := after (.release 0 9 1 1) crossing
      (s.ant 0).owner = some 1 ∧ (s.ant 1).owner = some 2 ∧ s.claims 0 = [] ∧ s.claims 1 = []) :=
  ⟨⟨rfl, by decide⟩, test_crossing_claims, test_crossing_owned, by decide⟩

/-- QueueServed: two claims of which the older is chosen among equals, an empty queue, a claimant that owns nothing. -/
theorem test_witness_queue_served :
    let c : Claim := { position := 2, origin := .follow, expiry := none }
    let d : Claim := { position := 3, origin := .console, expiry := none }
    let s := desks.onClaims 4 fun _ => [c, d]
    s.chooseClaim (s.claims 4) = some c ∧ (s.ant 4).service = .inService ∧ (∀ b, (s.ant b).owner ≠ some c.position) ∧ s.claims 5 = []
    ∧ ((tripped 4 s).ant 4).service ≠ .inService := by decide

/-- ClaimsGivenUp: P2 waits for A1 and P1 owns it; P2 owns A2 with nobody waiting; an expiry not come and one reached. -/
theorem test_witness_claims_given_up :
    let late := station.setTimebase 305000#32
    station.Takes 2 ∧ ClaimsExact station ∧ OneOwned station ∧ (desks.Takes 2 ∧ ClaimsExact desks ∧ OneOwned desks)
    ∧ ((desks.ant 1).owner = some 1 ∧ desks.waitsOn 1 = none ∧ desks.claims 1 = []) ∧ station.claimDue 1 = false
    ∧ (late.running = true ∧ late.waitingClaim 1 = some (0, { position := 1, origin := .console, expiry := some 305000#32 })
      ∧ late.due (some 305000#32) = true) :=
  ⟨test_station_takes 2, test_station_claims, test_station_owned, ⟨test_desks_takes 2, test_desks_claims, test_desks_owned⟩, by decide⟩

/-- ClaimsGivenUp: ALL and ROUTE of positions that own nothing, one waiting under follow. -/
theorem test_witness_release_of_nothing :
    let s := after (.claim 0 9 6 1 0) desks
    let u := { s with claimQueues := upd s.claimQueues 0 fun l => l.map fun c => { c with origin := .follow } }
    (∀ a, (desks.ant a).owner ≠ some 5) ∧ (∀ a, (s.ant a).owner ≠ some 5) ∧ s.waitsOn 5 = some 0 ∧ s.waitsUnderFollow 5 = false ∧ u.waitsUnderFollow 5 = true
    ∧ (after (.release 0 9 6 1) u).claims 0 = [] ∧ (after (.release 0 9 6 3) s).claims 0 = [] := by decide

/-- ForceMoves: OUT_OF_SERVICE, no owner, an owner; TRIPPED, precedence 0, a mask without the band, the owner itself and another position. -/
theorem test_witness_force :
    station.Takes 0 ∧ ClaimPasses station 0 0 ∧ ClaimPasses station 5 0
    ∧ ((desks.onAnt 0 fun r => { r with service := .outOfService }).ant 0).service = .outOfService
    ∧ ((station.ant 11).service ≠ .outOfService ∧ (station.ant 11).owner = none) ∧ (station.ant 0).owner = some 0
    ∧ ((tripped 0 desks).ant 0).service = .tripped ∧ ((desks.onPlace 5 fun c => { c with precedence := 0 }).place 5).precedence = 0
    ∧ (desks.band 1 = some .b40 ∧ ((desks.onConfig 0 fun c => { c with bandMask := 0x76 }).config 0).bandMask.getLsbD Band.b40.index = false)
    ∧ (station.ant 0).owner ≠ some 5 :=
  ⟨test_station_takes 0, test_witness_claim_passes_on_band 0 (.inl rfl), test_witness_claim_passes 5 (.inr rfl) 0 (.inl rfl), by decide⟩

/-- FollowSwitched, SelectionSteps: no band, precedence 0, follow off; P1 with follow on, a list whose second entry is free, and one of owned antennas. -/
theorem test_witness_selection :
    let s := desks.onPlace 0 fun c => { c with follow := true, prefs := c.prefs.set 2 [1, 4] }
    let u := tripped 0 (desks.onPlace 0 fun c => { c with follow := true, prefs := c.prefs.set 2 [1] })
    desks.Takes 1 ∧ desks.waitsUnderFollow 0 = false ∧ (desks.band 5 = none ∧ (desks.place 0).follow = false)
    ∧ (s.band 0 = some .b40 ∧ (s.place 0).precedence ≠ 0 ∧ (s.place 0).follow = true ∧ s.prefs 0 .b40 = [1] ++ 4 :: [])
    ∧ (s.owned 0 = some 0 ∧ (s.ant 0).service = .inService ∧ (s.config 0).bandMask.getLsbD Band.b40.index = true)
    ∧ ((s.ant 1).owner = some 1 ∧ (s.ant 4).owner = none ∧ (s.ant 4).service = .inService ∧ (s.config 4).bandMask.getLsbD Band.b40.index = true)
    ∧ (u.prefs 0 .b40 = [1] ∧ (u.ant 1).owner = some 1 ∧ u.owned 0 = some 0 ∧ (u.ant 0).service = .tripped) :=
  ⟨test_desks_takes 1, by decide⟩

/-- SettingsWritten: lists of none and of four entries, a mask without the band, the list held. -/
theorem test_witness_preferences :
    let l : List Ant := [11, 0, 5, 3]
    desks.Takes 6 ∧ (l.Nodup ∧ l.length + ([] : List Byte).length = 4) ∧ (([] : List Ant).Nodup ∧ ([] : List Ant).length + [0#8, 9, 0, 0].length = 4)
    ∧ (∃ a ∈ l, ((desks.onConfig 5 fun c => { c with bandMask := 0 }).config a).bandMask.getLsbD Band.b10.index = false)
    ∧ (∀ a ∈ l, (desks.config a).bandMask.getLsbD Band.b10.index = true) ∧ l ≠ desks.prefs 5 .b10 ∧ [] = desks.prefs 5 .b10 :=
  ⟨test_desks_takes 6, by decide⟩

/-- SelectionSteps: the antenna owned has tripped, and the list holds an owned antenna, one that is not serviceable, and nothing serviceable. -/
theorem test_witness_fallback :
    let s := tripped 0 (desks.onPlace 0 fun c => { c with follow := true, prefs := c.prefs.set 2 [0, 1] })
    let none_ := tripped 1 s
    let serviceable := fun (s : State) (a : Ant) => (s.ant a).service = .inService ∧ (s.config a).bandMask.getLsbD Band.b40.index = true
    s.prefs 0 .b40 = [0] ++ 1 :: [] ∧ (∀ d ∈ [(0 : Ant)], ¬ serviceable s d) ∧ serviceable s 1 ∧ s.owned 0 = some 0
    ∧ ((s.select 0 .resume).waitsOn 0 = some 1 ∧ ((s.select 0 .resume).ant 0).owner = none)
    ∧ (∀ f ∈ none_.prefs 0 .b40, ¬ serviceable none_ f) ∧ ((none_.select 0 .resume).ant 0).owner = none := by decide

/-- PathGiven: a new and an old pair in each sequencer state, with the set filter and with another. -/
theorem test_witness_path :
    let n : RfPath := ⟨some .b40, some 4⟩
    let drain := phased 0 .drain n desks
    let brk := phased 0 (.brk (some 0)) n desks
    let off := phased 0 .holdoff n desks
    let make := phased 0 (.make none) n desks
    ((desks.seq 0).state = .idle ∧ n ≠ (desks.seq 0).requested ∧ n ≠ (desks.seq 0).current)
    ∧ ((drain.seq 0).state = .drain ∧ n = (drain.seq 0).requested ∧ ⟨some .b20, some 4⟩ ≠ (drain.seq 0).current)
    ∧ (⟨some .b40, some 0⟩ ≠ (drain.seq 0).requested ∧ ⟨some .b40, some 0⟩ = (drain.seq 0).current)
    ∧ ((brk.seq 0).state = .brk (some 0) ∧ n.filter = (brk.seq 0).setFilter ∧ some .b20 ≠ (brk.seq 0).setFilter)
    ∧ ((off.seq 0).state = .holdoff ∧ n.filter = (off.seq 0).setFilter ∧ (off.ant 4).connected = none ∧ (off.ant 4).presence = false)
    ∧ (make.seq 0).state = .make none := by decide

/-- PhasesEnd: a timer stopped; BREAK at its expiry for an antenna that is quiet, one that is connected, and none; MAKE with and without a next path; DRAIN and HOLDOFF at the limit. -/
theorem test_witness_phases :
    let s := fun (state : SeqState) (a : Option Ant) => phased 2 state ⟨some .b40, a⟩ desks
    desks.due (desks.seq 2).phase = false ∧ desks.running = true
    ∧ (((s (.brk none) (some 11)).seq 2).state = .brk none ∧ (s (.brk none) (some 11)).due ((s (.brk none) (some 11)).seq 2).phase = true
      ∧ ((s (.brk none) (some 11)).ant 11).connected = none ∧ ((s (.brk none) (some 11)).ant 11).presence = false)
    ∧ ((s (.brk none) (some 0)).ant 0).connected = some 0 ∧ ((s (.brk none) none).seq 2).target.antenna = none
    ∧ ((s (.make none) (some 11)).seq 2).state = .make none ∧ ((s (.make (some ⟨none, none⟩)) (some 11)).seq 2).state = .make (some ⟨none, none⟩)
    ∧ ((s .drain (some 11)).seq 2).state = .drain ∧ ((s .holdoff (some 11)).seq 2).state = .holdoff := by decide

/-- PhasesEnd: P3's BREAK of A5 ends on A5 again. With RF in the waiting sample, or on the coupler of a port not yet sampled, HOLDOFF waits, and the sample trips nothing; else MAKE begins at once. -/
theorem test_witness_break_then_sample :
    let s := phased 2 (.brk (some 4)) ⟨some .b40, some 4⟩ desks
    let ended := fun (vf : Nat) => after (.breakEnd 2) (s.withPending [.listen 0 9 1 1, .couplerSample 3 999 0, .couplerSample 4 vf 0])
    let hot := after (.couplerSample 4 300 0) (ended 300)
    let unsampled := fun (vf : Nat) => after (.breakEnd 2) ((s.setCoupler 4 (vf, 0)).onSensor 4 fun n => { n with sampled := false })
    (s.running = true ∧ s.due (s.seq 2).phase = true ∧ (s.ant 4).connected = none ∧ (s.ant 4).presence = false
      ∧ (∀ r, r ≠ 2 → (s.seq r).state = .idle) ∧ (s.sensor 4).swrCount = 0 ∧ (s.sensor 4).powerCount = 0)
    ∧ (((ended 300).seq 2).state = .holdoff ∧ (hot.seq 2).state = .holdoff ∧ (hot.ant 4).presence = true ∧ (hot.ant 4).service = .inService ∧ (hot.ant 4).connected = none)
    ∧ (((ended 0).seq 2).state = .make none ∧ ((ended 0).ant 4).connected = some 2)
    ∧ (((unsampled 300).seq 2).state = .holdoff ∧ ((unsampled 0).seq 2).state = .make none)
    ∧ ((after (.breakEnd 2) (s.setCoupler 4 (300, 0))).seq 2).state = .make none := by decide

/-- PathGiven: a change starts on a quiet antenna, on one with presence and on none; the granted P1 is cut, the QUEUED P2 goes to PENDING; a BREAK of A1 clears it for P3, who waits for it in HOLDOFF. -/
theorem test_witness_change :
    let rf := station.onAnt 0 fun r => { r with presence := true }
    let n : RfPath := ⟨some .b40, some 4⟩
    let wait := (phased 2 .holdoff ⟨none, some 0⟩ station).startChange 0
    ((station.seq 0).current.antenna = some 0 ∧ (station.ant 0).presence = false ∧ (rf.ant 0).presence = true ∧ (station.seq 5).current.antenna = none)
    ∧ (station.granted 0 = true ∧ ((rf.givePath 0 n).key 0).state = .blocked ∧ ((rf.givePath 0 n).seq 0).state = .drain ∧ ((rf.givePath 0 n).seq 0).phase = some 5400#32)
    ∧ ((station.key 1).state = .queued ∧ ((station.givePath 1 n).key 1).state = .pending ∧ ((station.givePath 1 n).seq 1).state = .brk (some 1)
      ∧ ((station.givePath 1 n).ant 1).connected = none ∧ (station.givePath 1 n).waiting = [])
    ∧ ((wait.ant 0).connected = some 2 ∧ (wait.seq 2).state = .make none ∧ (wait.seq 0).state = .brk (some 0)) := by decide

/-- PhasesEnd: the PENDING P3 completes MAKE and is checked, without a next path and with one; a sequencer in IDLE hands over. -/
theorem test_witness_hand_over :
    let s := fun (next : Option RfPath) => (phased 2 (.make next) ⟨some .b40, some 4⟩ (desks.onDec 2 fun d => { d with band := some .b40 })).onKey 2
      fun k => { k with state := .pending, level := true }
    let n : RfPath := ⟨some .b40, none⟩
    ((s none).seq 2).target ≠ n ∧ ((s none).seq 2).state ≠ .idle ∧ (desks.seq 2).state = .idle
    ∧ (((s none).finishMake 2 none).key 2).state = .on ∧ (((s none).finishMake 2 none).quiet 2 = some 5000#32 ∧ desks.quiet 2 = none)
    ∧ (((s (some n)).finishMake 2 (some n)).key 2).state = .pending ∧ (((s (some n)).finishMake 2 (some n)).seq 2).state = .brk (some 4)
    ∧ ((((s none).onConfig 4 fun c => { c with bandMask := 0 }).finishMake 2 none).key 2).state = .blocked := by decide

/-- EpisodesJudged: presence with the count below 2 and at 2; it ends DRAIN of P1 on its antenna and begins MAKE for P3 in HOLDOFF. -/
theorem test_witness_presence_ends :
    let rf := fun (a : Ant) (below : Nat) (s : State) => (s.onAnt a fun r => { r with presence := true }).onSensor a fun n => { n with below := below, unkeyed := true }
    let drain := rf 0 2 (phased 0 .drain ⟨some .b40, some 4⟩ desks)
    let off := rf 4 2 (phased 2 .holdoff ⟨none, some 4⟩ desks)
    ((drain.ant 0).presence = true ∧ max (drain.ant 0).pf (drain.ant 0).pr < drain.settings.presenceThreshold ∧ (drain.sensor 0).below = 2)
    ∧ (((rf 0 1 desks).judgePresence 0).sensor 0).below = 2
    ∧ ((((rf 0 1 desks).onAnt 0 fun r => { r with pf := 50 }).judgePresence 0).sensor 0).below = 0
    ∧ (((drain.judgePresence 0).seq 0).state = .brk (some 0) ∧ ((drain.judgePresence 0).ant 0).connected = none ∧ ((drain.judgePresence 0).sensor 0).unkeyed = false)
    ∧ (((off.judgePresence 4).seq 2).state = .make none ∧ ((off.judgePresence 4).ant 4).connected = some 2 ∧ ((off.judgePresence 4).ant 4).presence = false) := by
  decide

/-- QueueServed, ForceMoves: P6 owns nothing, P2 owns A2; P3, who listens on A1, is granted it, its slot is freed and both reports stand behind each other. -/
theorem test_witness_steps_of_a_grant :
    let s := station.grantClaim 2 0 .console .queue
    (∀ b, (station.ant b).owner = some 5 ↔ (none : Option Ant) = some b) ∧ (∀ b, (station.ant b).owner = some 1 ↔ some 1 = some b)
    ∧ ((station.ant 0).owner ≠ some 2 ∧ (station.tap 0).slot1 = some 2) ∧ ((s.tap 0).slot1 = none ∧ s.listen 2 = none ∧ (s.ant 0).owner = some 2)
    ∧ (s.link 0).queue.map Record.isReport = [true, true] ∧ OneOwned station :=
  ⟨by decide, by decide, by decide, by decide, by decide, test_station_owned⟩

/-- ClaimQueued: P2's waiting claim is of origin FOLLOW, and its console takes it over with a fresh expiry. -/
theorem test_witness_take_over :
    let s := (station.setTimebase 9000#32).onClaims 0 fun l => l.map fun c => { c with origin := .follow, expiry := none }
    s.waitsOn 1 = some 0 ∧ (after (.claim 2 9 2 1 0) s).claims 0 = [{ position := 1, origin := .console, expiry := some 309000#32 }]
    ∧ (after (.claim 0 9 2 1 0) station).claims 0 = station.claims 0 := by decide

/-- P2, who owns A2, waits for A1 with a claim of origin FOLLOW. -/
def following : State := (station.onClaims 0 fun l => l.map fun c => { c with origin := .follow, expiry := none }).onPlace 1 fun c => { c with follow := true }

theorem test_following_claims : ClaimsExact following := ⟨by decide, by decide, by decide, by decide⟩

/-- ClaimQueued: a CLAIM of the owned A2 withdraws the FOLLOW claim on A1; a claim of its console stays. -/
theorem test_witness_claim_of_own_antenna :
    let t := after (.claim 2 9 2 2 0) following
    ClaimPasses following 1 1 ∧ (((following.ant 1).owner = some 1 ∧ (following.waitingClaim 1).map (fun w => (w.1, w.2.origin)) = some (0, .follow))
    ∧ (t.claims 0 = [] ∧ t.waitsOn 1 = none ∧ (t.place 1).follow = false ∧ (t.ant 1).owner = some 1)
    ∧ t.links = ((following.answer 2 .claim 9 .already).report [1, 0] (.claim (.withdrawn .followOff) 0 1 (some .follow))).links
    ∧ (after (.claim 2 9 2 2 0) station).claims 0 = station.claims 0) :=
  ⟨⟨by decide, by decide, fun b h => by cases h; decide⟩, by decide⟩

/-- HoldSwitched, KeyingWritten, SetBandingWrites, GrantMade: the reports that the cut of P1, the denial of P2 and the grant of P2 send to the supervisor. -/
theorem test_witness_reasons :
    let told := fun (s : State) => (s.link 0).queue.filterMap fun r => match r with
      | .report r => some r.body
      | .answer _ => none
    let p1 : Grant := ⟨.b40, 0, 1#32⟩
    told (after (.hold 0 9 1) station) = [.keyCut 0 .hold (some p1) none]
    ∧ .keyCut 0 .parked (some p1) none ∈ told (after (.setKeying 0 9 1 0 0 0) station)
    ∧ told (after (.setKeying 0 9 2 0 0 0) station) = [.keyDenied 1 .parked (some .b40) (some 1), .claim (.dropped .parked) 0 1 (some .console)]
    ∧ .keyCut 0 .bandMoved (some p1) none ∈ told (after (.setBanding 0 9 1 0 15 15) station)
    ∧ told (station.grant 1) = [.keyGranted 1 .b40 1 .on] ∧ told (station.grant 0) = [] := by decide

/-- PartStops, AuxFollows: the relays of a running part, and a condition of each source kind that holds. -/
theorem test_witness_outputs :
    station.running = true ∧ (station.matrixRelayClosed 0 0 = true ∧ station.matrixRelayClosed 1 0 = false) ∧ station.filterRelay 0 = some .b40
    ∧ (station.tapRelayClosed 0 false = false ∧ (after (.listen 0 9 3 2) station).tapRelayClosed 1 false = true)
    ∧ station.condition (.fixed true) = true ∧ station.condition (.position 1 .waiting) = true ∧ station.condition (.antenna 0 .listened) = true
    ∧ station.condition (.station .anyTx) = true ∧ station.condition (.station .noneGranted) = false := by decide

/-- HoldSwitched, KeyingWritten: HOLD off and on; the values held, another hang, a precedence of 0 for the keyed P1 and for the queued P2. -/
theorem test_witness_keying :
    let c := station.place 0
    station.Takes 0 ∧ ClaimsExact station ∧ station.holdOn = false ∧ (station.setHold true).holdOn = true
    ∧ { c with precedence := 2, hang := min 2000 100, maxKey := min 600 180 } = c ∧ { c with precedence := 3, hang := 2000 } ≠ c ∧ c.precedence ≠ 0
    ∧ station.granted 0 = true ∧ (station.granted 1 = false ∧ (station.key 1).state = .queued)
    ∧ (station.granted 5 = false ∧ (station.key 5).state ≠ .queued ∧ (station.place 5).precedence ≠ 0) :=
  ⟨test_station_takes 0, test_station_claims, by decide⟩

/-- RulesWritten: the rules held and others; a pair in the set, one not in it, a set of sixteen pairs and an empty one. -/
theorem test_witness_rules :
    let pairs : List (Ant × Ant) := (List.finRange 11).map fun i => (i.castSucc, i.succ)
    let full := pairs ++ [(0, 2), (0, 3), (0, 4), (0, 5), (0, 6)]
    let l : List Byte := [1, 1, 1, 1, 1, 1]
    desks.Takes 0 ∧ l.length = 6
    ∧ { desks.settings with
        bandLimits := Vector.ofFn fun (i : Fin 6) => min 2 (l.getD i.val 0#8).toNat, stationTotal := max 1 (min 6 (6#8).toNat),
        order := .arrival, preempt := false, tapGuard := max 2 (min 20 (5#8).toNat) } = desks.settings
    ∧ { desks.settings with stationTotal := 1 } ≠ desks.settings
    ∧ ((0 : Ant) ≠ 11 ∧ (0, 11) ∉ desks.settings.exclusions ∧ desks.settings.exclusions.length < 16 ∧ desks.settings.exclusions = [])
    ∧ ((0, 11) ∉ full ∧ 16 ≤ full.length ∧ (0, 6) ∈ full ∧ full ≠ []) :=
  ⟨test_desks_takes 0, by decide⟩

/-- The state with a PTT edge due at a position. -/
def edging (p : Pos) (s : State) : State := s.onKey p fun k => { k with filter := some s.timebase }

/-- PttEdges: a sample equal to the level, one that differs with the filter stopped and running, an edge that is not due. -/
theorem test_witness_ptt_filter :
    station.running = true ∧ true = (station.key 0).level ∧ (false ≠ (station.key 0).level ∧ (station.key 0).filter = none)
    ∧ ((edging 0 station).key 0).filter ≠ none ∧ station.due (station.key 0).filter = false := by decide

/-- PttEdges: each check that fails alone, the key that passes all, and the key in HANG. -/
theorem test_witness_ptt_asserted :
    let s := edging 0 desks
    let on := fun (state : SeqState) => (s.onSeq 0 fun q => { q with state := state })
    s.running = true ∧ s.due (s.key 0).filter = true ∧ (s.key 0).level = false ∧ (s.key 0).state = .off
    ∧ ((s.onPlace 0 fun c => { c with precedence := 0 }).place 0).precedence = 0 ∧ ((edging 2 desks).band 2 = none ∧ ((edging 2 desks).place 2).precedence ≠ 0)
    ∧ (s.band 0 = some .b40 ∧ (on .holdoff).routeStatus 0 = .changing ∧ (s.onSeq 0 fun q => { q with current := ⟨none, none⟩ }).routeStatus 0 = .none)
    ∧ (s.routeStatus 0 = .active ∧ (s.seq 0).current.antenna = some 0 ∧ ((tripped 0 s).ant 0).service = .tripped ∧ (s.ant 0).service ≠ .tripped)
    ∧ ((s.onConfig 0 fun c => { c with bandMask := 0 }).config 0).bandMask.getLsbD Band.b40.index = false
    ∧ ((s.onSettings fun c => { c with bandLimits := c.bandLimits.set 2 0 }).limit .b40 = 0 ∧ s.limit .b40 ≠ 0)
    ∧ ((s.onKey 0 fun k => { k with state := .hang }).key 0).state = .hang := by decide

/-- PttEdges: P1 is ON with a hang time and without, P2 is QUEUED; the other states of a held key. -/
theorem test_witness_ptt_released :
    let s := edging 0 station
    let key := fun (state : KeyState) => s.onKey 0 fun k => { k with state := state }
    (s.running = true ∧ s.due (s.key 0).filter = true ∧ (s.key 0).level = true ∧ (s.key 0).state = .on ∧ (s.place 0).hang ≠ 0)
    ∧ ((s.onPlace 0 fun c => { c with hang := 0 }).place 0).hang = 0
    ∧ ((edging 1 station).key 1).state = .queued ∧ ((key .pending).key 0).state = .pending ∧ ((key .blocked).key 0).state = .blocked
    ∧ ((key .opening).key 0).state = .opening ∧ ((key .off).key 0).state = .off ∧ ((key .hang).key 0).state = .hang := by decide

/-- KeyTimersEnd: each timer at its expiry in the key state it ends. -/
theorem test_witness_key_timers :
    let now : Timer := some 5000#32
    let s := station.onKey 0 fun k => { k with state := .opening, tapGuard := now }
    let h := station.onKey 0 fun k => { k with state := .hang, hang := now }
    let m := station.onKey 0 fun k => { k with maxKey := now }
    station.running = true ∧ ((s.key 0).state = .opening ∧ s.due (s.key 0).tapGuard = true) ∧ ((h.key 0).state = .hang ∧ h.due (h.key 0).hang = true)
    ∧ ((m.key 0).state = .on ∧ m.due (m.key 0).maxKey = true) := by decide

/-- GrantEnds, GrantMade, WalkKeepsLimits: P1's grant on A1, P2 on B40 with the route A2 behind a closed tap and an open one, HOLD on, a band at its limit. -/
theorem test_witness_grants :
    station.grantAntenna 0 = some 0 ∧ station.grantAntenna 1 ≠ some 0 ∧ (station.band 1 = some .b40 ∧ station.routeAntenna 1 = some 1)
    ∧ (station.tap 1).closed1 = false ∧ ((after (.listen 0 9 3 2) station).tap 1).closed1 = true ∧ (station.setHold true).holdOn = true
    ∧ (station.granted 0 = true ∧ station.countOnBand station.grantedSet .b40 = station.limit .b40 ∧ station.grantedSet.length ≤ station.settings.stationTotal) := by
  decide

/-- P1 and P2 QUEUED on B40 with ACTIVE routes in join order P2, P1, nobody granted. -/
def queue : State :=
  { (desks.onKey 0 fun k => { k with state := .queued, level := true }).onKey 1 fun k => { k with state := .queued, level := true } with waiting := [1, 0] }

/-- WalkKeepsLimits: the first of the list in either order fits and is granted, and the second stays at the band limit; an excluded pair stays apart with room on the band. -/
theorem test_witness_walk :
    let rotate := (queue.onSettings fun c => { c with order := .rotate }).setPointer 5
    let room := queue.onSettings fun c => { c with bandLimits := c.bandLimits.set 2 2 }
    let apart := room.onSettings fun c => { c with exclusions := [(0, 1)] }
    (queue.arbitrationOrder.head? = some 1 ∧ (queue.key 1).state = .queued ∧ queue.band 1 = some .b40 ∧ queue.routeAntenna 1 = some 1
      ∧ queue.holdOn = false ∧ queue.countOnBand queue.grantedSet .b40 < queue.limit .b40 ∧ queue.grantedSet.length < queue.settings.stationTotal)
    ∧ (queue.walk.granted 1 = true ∧ (queue.walk.key 0).state = .queued) ∧ (rotate.arbitrationOrder = [0, 1] ∧ rotate.walk.granted 0 = true)
    ∧ (room.walk.granted 0 = true ∧ room.walk.granted 1 = true) ∧ (apart.walk.granted 1 = true ∧ apart.walk.granted 0 = false) := by decide

/-- WalkKeepsLimits: P1 and P2 are granted on B40 and P3 waits for it; the limit is lowered below the count, or their antennas become a pair: nobody is granted beyond it and nobody is cut. -/
theorem test_witness_walk_over_limit :
    let room := queue.onSettings fun c => { c with bandLimits := c.bandLimits.set 2 2, stationTotal := 3 }
    let both := (((room.walk.onDec 2 fun d => { d with band := some .b40 }).onSeq 2 fun q => { q with current := ⟨some .b40, some 4⟩ }).onKey 2
      fun k => { k with state := .queued, level := true }).setWaiting [2]
    let lowered := both.onSettings fun c => { c with bandLimits := c.bandLimits.set 2 1 }
    let other := both.onDec 2 fun d => { d with band := some .b20 }
    let paired := other.onSettings fun c => { c with exclusions := [(0, 1)] }
    (lowered.limit .b40 < lowered.countOnBand lowered.grantedSet .b40 ∧ lowered.band 2 = some .b40 ∧ lowered.routeAntenna 2 = some 4 ∧ lowered.holdOn = false)
    ∧ (lowered.walk.granted 2 = false ∧ lowered.walk.granted 0 = true ∧ lowered.walk.granted 1 = true)
    ∧ (paired.granted 2 = false ∧ paired.walk.granted 2 = true ∧ paired.walk.granted 0 = true ∧ paired.walk.granted 1 = true)
    ∧ (other.onSettings fun c => { c with exclusions := [(0, 1), (1, 4)] }).walk.granted 2 = false
    ∧ (other.onSettings fun c => { c with stationTotal := 1 }).walk.granted 2 = false := by decide

/-- JoinersServed: P2 joins behind P1 on the band; preempt off, on with equal precedence, and on with P1 lower; a joiner that the walk grants. -/
theorem test_witness_joiners :
    let s := { station.onKey 1 fun k => { k with state := .off, reported := false } with waiting := [] }
    let on := s.onSettings fun c => { c with preempt := true }
    let lower := on.onPlace 0 fun c => { c with precedence := 1 }
    (((s.enlist 1).walk.key 1).state = .queued ∧ s.settings.preempt = false ∧ (s.join 1).waiting = [1] ∧ ((s.join 1).key 1).reported = true)
    ∧ (on.settings.preempt = true ∧ on.holdOn = false ∧ on.band 1 = some .b40 ∧ on.routeAntenna 1 = some 1 ∧ ((on.join 1).key 1).state = .queued)
    ∧ (lower.victims .b40 1 = [0] ∧ ((lower.join 1).key 1).state = .on ∧ ((lower.join 1).key 0).state = .blocked ∧ (lower.join 1).pointer = 1)
    ∧ (((desks.enlist 0).walk.key 0).state ≠ .queued ∧ (lower.grantCount - 1#32).toNat < 2147483648) := by decide

/-- ListenTaken: OUT_OF_SERVICE, the position's own antenna, both slots full, the slot held, a free slot; nothing held and one held. -/
theorem test_witness_listen :
    let full := after (.listen 0 9 4 1) station
    station.Takes 3 ∧ ((desks.onAnt 0 fun r => { r with service := .outOfService }).ant 0).service = .outOfService
    ∧ ((station.ant 0).service ≠ .outOfService ∧ (station.ant 0).owner = some 0 ∧ (station.ant 0).owner ≠ some 2)
    ∧ ((full.tap 0).slot1 = some 2 ∧ (full.tap 0).slot2 = some 3 ∧ (station.tap 0).slot1 = some 2 ∧ (station.tap 11).slot1 = none)
    ∧ station.listen 5 = none ∧ (station.listen 2 = some 0 ∧ (station.tap 0).slot false = some 2) ∧ (full.listen 3 = some 0
      ∧ (full.tap 0).slot true = some 3 ∧ (full.tap 0).slot1 ≠ some 3) :=
  ⟨test_station_takes 3, by decide⟩

/-- AuxFollows: a source for the last line and the configuration held; a flashing line at an edge. -/
theorem test_witness_aux :
    let s := (after (.setAux 0 9 8 1 1 1 0 1) (station.setTimebase 5250#32))
    station.Takes 0 ∧ auxSourceOf 1 1 1 = some (.position 0 .txen) ∧ auxSourceOf 0 0 0 = some (.fixed false)
    ∧ ({ source := .fixed false, invert := false, flash := false } : AuxConfig) = station.settings.aux[7]
    ∧ ({ source := .position 0 .txen, invert := false, flash := true } : AuxConfig) ≠ station.settings.aux[7]
    ∧ (s.running = true ∧ s.timebase.toNat % 250 = 0 ∧ (s.auxConfig 7).flash = true ∧ s.condition (s.auxConfig 7).source = true) :=
  ⟨test_station_takes 0, by decide⟩

/-- StoreServes: nothing going on, a save in progress, a RESTART pending. -/
theorem test_witness_store :
    let saving := after (.save 0 9) desks
    let pending := after (.restart 0 9) desks
    desks.Takes 0 ∧ (desks.store.saving = none ∧ desks.store.restartPending = false ∧ (desks.link 0).used < 16)
    ∧ saving.store.saving = some { port := 0, tag := 9, snapshot := desks.settings } ∧ (pending.store.saving = none ∧ pending.store.restartPending = true) :=
  ⟨test_desks_takes 0, by decide⟩

/-- StoreServes, GoodFrameIsItsRequest: a SAVE at a full queue that holds a report; a type that no request has at a queue full of answers. -/
theorem test_witness_full :
    let a : Record := .answer { type := 0x81, tag := 7, result := .done, data := .nothing }
    let r : Report := { body := .start .power .defaults, time := 0 }
    let s := desks.onLink 0 fun l => { l with queue := List.replicate 9 a ++ .report r :: List.replicate 6 a }
    s.Takes 0 ∧ (16 ≤ (s.link 0).used ∧ (List.replicate 6 a).any Record.isReport = false)
    ∧ (((after (.save 0 9) s).link 0).queue = List.replicate 15 a ∧ ((after (.save 0 9) s).link 0).lost = true ∧ ((after (.save 0 9) s).link 0).reserved = true)
    ∧ (let u := (crammed 0 desks).onLink 0 fun l => { l with framer := .body, partialFrame := [2, 0x18, 7] }
      (u.link 0).fullOfAnswers = true ∧ ((after (.byteReceived 0 0xDF) u).link 0).lost = true ∧ ((after (.byteReceived 0 0xDF) u).link 0).used = 16) :=
  ⟨⟨rfl, by decide⟩, by decide⟩

/-- StartUpsTaken, PartStops: each combination of supply and RESET, and a pending RESTART whose answer is being sent. -/
theorem test_witness_power :
    let reset := desks.setReset true
    let s := after (.transmitComplete 0) (after (.restart 0 9) desks)
    (dark.powered = false ∧ dark.resetIsLow = false) ∧ ((dark.setReset true).powered = false ∧ (dark.setReset true).resetIsLow = true)
    ∧ (reset.powered = true ∧ reset.resetIsLow = true) ∧ (desks.powered = true ∧ desks.resetIsLow = false)
    ∧ (s.running = true ∧ s.store.restartPending = true
      ∧ (s.link 0).transmitter = some { record := .answer { type := 0x97, tag := 9, result := .done, data := .nothing }, lost := false }
      ∧ Record.isRestartDone (.answer { type := 0x97, tag := 9, result := .done, data := .nothing }) = true) := by decide

/-- FramesKept: a command of either group with the state it leaves. -/
theorem test_witness_frames :
    (∃ t, exec (.claim 1 9 1 12 0) station = .next t) ∧ ∃ t, exec (.pttEdge 0) (edging 0 station) = .next t := ⟨⟨_, rfl⟩, ⟨_, rfl⟩⟩

end Sys2Proof.Machine.Tests
end

