-- ==== Sys2Proof/Proofs/Steps.lean ====
section
/-! What a step may do: the pins it moves and the part's answer to them, and the requested paths that every step keeps (R102). -/

namespace Sys2Proof.Machine

/-! ### Steps taken apart -/

/-- Two states that differ in nothing but the supply, RESET, the input pins and the waiting commands. -/
def PinsMoved (s u : State) : Prop :=
  u = { s with
    powered := u.powered, resetIsLow := u.resetIsLow, lineInputs := u.lineInputs, pttInputs := u.pttInputs, couplers := u.couplers,
    pending := u.pending }

theorem PinsMoved.refl (s : State) : PinsMoved s s := rfl

/-- What the part does once the pins of a step have moved: nothing, an event, a start-up or its stop. -/
inductive PartActs (u t : State) : Prop
  | nothing (h : t = u)
  | event (h : Event u t)
  | startUp (cause : StartCause) (h : t = u.startUp cause)
  | stops (h : t = u.stopPart)

/-- A step or a command, as its pins and the part's answer to them. -/
def Steps (s t : State) : Prop := ∃ u, PinsMoved s u ∧ PartActs u t

theorem PartActs.steps {s t : State} (h : PartActs s t) : Steps s t := ⟨s, .refl s, h⟩

theorem event_partActs {f : State → State} {u t : State} (acts : Acts u (f u)) (h : event f u = .next t) : PartActs u t := by
  unfold Machine.event at h
  split at h <;> cases h
  · exact .event acts.followed
  · exact .nothing rfl

theorem event_stopped {f : State → State} {s t : State} (stopped : s.running = false) (h : event f s = .next t) : t = s := by
  simpa [Machine.event, stopped] using h.symm

/-- A part that does not run takes no command but those of its supply, RESET and pins (R193). -/
theorem exec_stopped (c : Instr) (s t : State) (stopped : s.running = false) (h : exec c s = .next t)
    (hp : c ≠ .powerOn ∧ c ≠ .resetLow ∧ c ≠ .resetRelease ∧ c ≠ .powerLost) (hb : ∀ p l, c ≠ .bandLinesChange p l)
    (hq : ∀ p b, c ≠ .pttInputChange p b) (hs : ∀ a x y, c ≠ .couplerSample a x y) : t = s := by
  cases c
  case powerOn => exact absurd rfl hp.1
  case resetLow => exact absurd rfl hp.2.1
  case resetRelease => exact absurd rfl hp.2.2.1
  case powerLost => exact absurd rfl hp.2.2.2
  case bandLinesChange => exact absurd rfl (hb _ _)
  case pttInputChange => exact absurd rfl (hq _ _)
  case couplerSample => exact absurd rfl (hs _ _ _)
  case byteReceived port b => exact event_stopped (f := fun s => s.takeByte port b) stopped h
  case framingError port => exact event_stopped (f := fun s => s.onLink port Link.hunt) stopped h
  case byteGapExpiry port => exact event_stopped (f := onlyIf (fun s => s.gapDue port) fun s => s.onLink port Link.hunt) stopped h
  case transmitComplete port => exact event_stopped (f := fun s => s.endSending port) stopped h
  case settle p => exact event_stopped (f := onlyIf (fun s => s.settleDue p) fun s => s.settleBand p) stopped h
  case pttEdge p => exact event_stopped (f := onlyIf (fun s => s.edgeDue p) fun s => s.pttEdge p) stopped h
  case breakEnd p => exact event_stopped (f := onlyIf (fun s => s.phaseDue p .brk) fun s => s.endBreak p) stopped h
  case makeEnd p => exact event_stopped (f := onlyIf (fun s => s.phaseDue p .make) fun s => s.endMake p) stopped h
  case rfHot p => exact event_stopped (f := onlyIf (fun s => s.hotDue p) fun s => s.reportHot p) stopped h
  case tapGuardExpiry p => exact event_stopped (f := onlyIf (fun s => s.tapGuardDue p) fun s => s.enterOn p) stopped h
  case hangExpiry p => exact event_stopped (f := onlyIf (fun s => s.hangDue p) fun s => s.releaseGrant p) stopped h
  case maxKeyExpiry p => exact event_stopped (f := onlyIf (fun s => s.maxKeyDue p) fun s => s.cut p .stuck) stopped h
  case claimExpired p => exact event_stopped (f := onlyIf (fun s => s.claimDue p) fun s => s.removeWaiting p .expired) stopped h
  case flashEdge => exact event_stopped (f := onlyIf (fun s => flashEdgeAt s.timebase) fun s => s.flashLines) stopped h
  case saveWriteEnd v => exact event_stopped (f := fun s => s.finishWrite v) stopped h
  all_goals exact event_stopped stopped h

theorem powerOn_steps {s t : State} (h : exec .powerOn s = .next t) : Steps s t := by
  have e : t = if s.powered then s else s.powerUp := by cases h; rfl
  subst e
  split
  · exact PartActs.steps (.nothing rfl)
  · refine ⟨s.setPowered true, rfl, ?_⟩
    unfold State.powerUp
    split
    · exact .nothing rfl
    · exact .startUp .power rfl

theorem resetLow_steps {s t : State} (h : exec .resetLow s = .next t) : Steps s t := by
  have e : t = if s.resetIsLow then s else s.pullReset := by cases h; rfl
  subst e
  split
  · exact PartActs.steps (.nothing rfl)
  · refine ⟨s.setReset true, rfl, ?_⟩
    unfold State.pullReset
    split
    · exact .stops rfl
    · exact .nothing rfl

theorem resetRelease_steps {s t : State} (h : exec .resetRelease s = .next t) : Steps s t := by
  have e : t = if s.resetIsLow then s.letReset else s := by cases h; rfl
  subst e
  split
  · refine ⟨s.setReset false, rfl, ?_⟩
    unfold State.letReset
    split
    · exact .startUp .line rfl
    · exact .nothing rfl
  · exact PartActs.steps (.nothing rfl)

theorem powerLost_steps {s t : State} (h : exec .powerLost s = .next t) : Steps s t := by
  have e : t = if s.powered then (s.setPowered false).stopPart else s := by cases h; rfl
  subst e
  split
  · exact ⟨s.setPowered false, rfl, .stops rfl⟩
  · exact PartActs.steps (.nothing rfl)

/-- Every command moves pins, and the part answers in one of four ways. -/
theorem exec_steps (c : Instr) (s t : State) (h : exec c s = .next t) : Steps s t := by
  cases c
  case powerOn => exact powerOn_steps h
  case resetLow => exact resetLow_steps h
  case resetRelease => exact resetRelease_steps h
  case powerLost => exact powerLost_steps h
  case bandLinesChange p v =>
    exact ⟨s.setLines p v, rfl, event_partActs (f := fun s => s.sampleLines p) (sampleLines_keeps _ p).serves.acts h⟩
  case pttInputChange p b =>
    exact ⟨s.setPtt p b, rfl, event_partActs (f := fun s => s.samplePtt p) (samplePtt_keeps _ p).serves.acts h⟩
  case couplerSample a x y =>
    exact ⟨s.setCoupler a (x, y), rfl, event_partActs (f := fun s => s.samplePort a) (samplePort_serves _ a).acts h⟩
  all_goals
    refine PartActs.steps ?_
    cases hr : s.running with
    | true => exact .event (exec_event _ s t hr h (by simp) (by simp) (by simp) (by simp))
    | false => exact .nothing (exec_stopped _ s t hr h (by simp) (by simp) (by simp) (by simp))

theorem idle_steps (s t : State) (h : idle s = .next t) : Steps s t := by
  unfold idle at h
  split at h
  · split at h
    · exact exec_steps _ s t h
    · exact (event_partActs (tick_acts s) h).steps
  · cases h; exact PartActs.steps (.nothing rfl)

/-- What every step may do, whatever its command. -/
theorem step_steps (s t : State) (h : step s = .next t) : Steps s t := by
  unfold step at h
  split at h
  · exact idle_steps s t h
  · rename_i c rest _
    obtain ⟨u, hu, acts⟩ := exec_steps c _ t h
    exact ⟨u, hu, acts⟩

/-- An invariant that reads no pin, and that events, start-ups and the stop keep, is kept by every step. -/
theorem step_keeps_invariant {I : State → Prop} (pins : ∀ {s u}, PinsMoved s u → I s → I u) (event : ∀ {s t}, Event s t → I s → I t)
    (startUp : ∀ c (s : State), I (s.startUp c)) (stops : ∀ {s : State}, I s → I s.stopPart) (s t : State) (i : I s) (h : step s = .next t) : I t := by
  obtain ⟨u, moved, acts⟩ := step_steps s t h
  have iu := pins moved i
  cases acts with
  | nothing e => exact e ▸ iu
  | event e => exact event e iu
  | startUp c e => exact e ▸ startUp c u
  | stops e => exact e ▸ stops iu

/-! ### The requested paths (R102) -/

theorem startUp_requestsExact (c : StartCause) (s : State) : RequestsExact (s.startUp c) := by
  obtain ⟨A, e, -⟩ := startUp_spec c s
  obtain ⟨-, -, -, -, exact_⟩ := startValues_inv c s
  rw [e]
  exact RequestsExact.same (s := s.startValues c) (t := (s.startValues c).withAux A) (fun _ => rfl) (fun _ => rfl) (fun _ => rfl) exact_

theorem PinsMoved.requestsExact {s u : State} (h : PinsMoved s u) (i : RequestsExact s) : RequestsExact u := by
  rw [h]; exact RequestsExact.same (fun _ => rfl) (fun _ => rfl) (fun _ => rfl) i

theorem stopPart_requestsExact {s : State} (i : RequestsExact s) : RequestsExact s.stopPart :=
  RequestsExact.same (fun _ => rfl) (fun _ => rfl) (fun _ => rfl) i

/-- Settles O8: events keep the requested paths, a start-up begins with nothing asked and nothing owned, and pins and the stop leave paths, bands and owners alone. -/
theorem requestsExactKept : Obligations.RequestsExactKept := by
  unfold Obligations.RequestsExactKept
  exact step_keeps_invariant PinsMoved.requestsExact Event.asks startUp_requestsExact stopPart_requestsExact

end Sys2Proof.Machine
end

