-- ==== Sys2Proof/Proofs/Grants.lean ====
section
/-! The end of a grant and the grant itself, part by part (R12, R48, R127, R132, R137, R138, R154, R159). -/

namespace Sys2Proof.Machine

/-! ### Taps and reports -/

/-- The taps of an antenna whose keyed indication is cleared are commanded by slot and presence (R154). -/
theorem setKeyed_false_tap (s : State) (a x : Ant) : (s.setKeyed a false).tap x =
    if x = a then { s.tap a with
      keyed := false, closed1 := (s.tap a).slot1.isSome && !(s.ant a).presence, closed2 := (s.tap a).slot2.isSome && !(s.ant a).presence }
    else s.tap x := by
  by_cases h : x = a <;> simp [State.setKeyed, State.commandTaps, onTap_at, tapCommand, h]

/-- A keyed antenna has its taps open (R154, R159). -/
theorem setKeyed_true_tap (s : State) (a x : Ant) : (s.setKeyed a true).tap x =
    if x = a then { s.tap a with keyed := true, closed1 := false, closed2 := false } else s.tap x := by
  by_cases h : x = a <;> simp [State.setKeyed, State.commandTaps, onTap_at, tapCommand, h]

/-- What a report queues depends on the links and the Timebase count alone (R184). -/
theorem report_links_same {s u : State} (consoles : List Pos) (body : ReportBody) (links : u.links = s.links) (time : u.timebase = s.timebase) :
    (u.report consoles body).links = (s.report consoles body).links := by
  unfold State.report
  generalize reportPorts consoles = ports
  induction ports generalizing s u with
  | nil => exact links
  | cons port rest ih =>
    refine ih ?_ time
    simp only [State.onLink, links, time]

/-- A report is told by the links it leaves. -/
theorem report_eq (s : State) (consoles : List Pos) (body : ReportBody) :
    s.report consoles body = { s with links := (s.report consoles body).links } := by
  obtain ⟨L, e, -⟩ := report_links s consoles body
  rw [e]

/-! ### The parts that the arbiter writes -/

/-- A state that the arbiter left is the one before but for the parts the arbiter writes. -/
theorem ArbEq.eq {s t : State} (h : ArbEq s t) : t = { s with
    decoders := t.decoders, quietSince := t.quietSince, keys := t.keys, waiting := t.waiting, pointer := t.pointer, grantCount := t.grantCount,
    taps := t.taps, links := t.links, txenOutputs := t.txenOutputs } := by
  cases s; cases t; cases h
  simp_all

theorem links_eq {s t : State} (h : ∀ port, t.link port = s.link port) : t.links = s.links :=
  Vector.ext fun i hi => h ⟨i, hi⟩

theorem quietSince_eq {s t : State} (h : ∀ p, t.quiet p = s.quiet p) : t.quietSince = s.quietSince :=
  Vector.ext fun i hi => h ⟨i, hi⟩

/-! ### The end of a grant (R137) -/

theorem dropTxen_quiet (s : State) (p q : Pos) :
    (s.dropTxen p).quiet q = if q = p then (if s.txen p then some s.timebase else s.quiet p) else s.quiet q := by
  unfold State.dropTxen
  split <;> by_cases h : q = p <;> simp [setQuiet_at, h]

theorem releaseTaps_quiet (s : State) (a : Option Ant) (q : Pos) : (s.releaseTaps a).quiet q = s.quiet q := by
  cases a <;> rfl

/-- The quiet-since stamp is set where TXEN goes off (R137 step 2, R48). -/
theorem endGrant_quiet (s : State) (p : Pos) (into : KeyState) (q : Pos) :
    (s.endGrant p into).quiet q = if q = p then (if s.txen p then some s.timebase else s.quiet p) else s.quiet q := by
  unfold State.endGrant
  rw [releaseTaps_quiet, onDec_quiet, dropTxen_quiet]
  rfl

theorem releaseTaps_dec (s : State) (a : Option Ant) (q : Pos) : (s.releaseTaps a).dec q = s.dec q := by
  cases a <;> rfl

theorem dropTxen_dec (s : State) (p q : Pos) : (s.dropTxen p).dec q = s.dec q := by
  unfold State.dropTxen
  split <;> rfl

/-- The keyed reference is discarded with the grant (R137 step 3, R12). -/
theorem endGrant_dec (s : State) (p : Pos) (into : KeyState) (q : Pos) :
    (s.endGrant p into).dec q = if q = p then { s.dec p with reference := none } else s.dec q := by
  unfold State.endGrant
  rw [releaseTaps_dec, onDec_at]
  simp [dropTxen_dec]

theorem dropTxen_tap (s : State) (p : Pos) (x : Ant) : (s.dropTxen p).tap x = s.tap x := by
  unfold State.dropTxen
  split <;> rfl

theorem dropTxen_ant (s : State) (p : Pos) (x : Ant) : (s.dropTxen p).ant x = s.ant x := by
  unfold State.dropTxen
  split <;> rfl

theorem releaseTaps_tap (s : State) (g : Option Ant) (x : Ant) : (s.releaseTaps g).tap x =
    if g = some x then { s.tap x with
      keyed := false, closed1 := (s.tap x).slot1.isSome && !(s.ant x).presence, closed2 := (s.tap x).slot2.isSome && !(s.ant x).presence }
    else s.tap x := by
  cases g with
  | none => rfl
  | some a =>
    rw [State.releaseTaps, setKeyed_false_tap]
    by_cases h : x = a
    · subst h; simp
    · simp [h, Ne.symm h]

/-- The taps of the grant antenna are released (R137 step 4, R159). -/
theorem endGrant_tap (s : State) (p : Pos) (into : KeyState) (x : Ant) : (s.endGrant p into).tap x =
    if s.grantAntenna p = some x then { s.tap x with
      keyed := false, closed1 := (s.tap x).slot1.isSome && !(s.ant x).presence, closed2 := (s.tap x).slot2.isSome && !(s.ant x).presence }
    else s.tap x := by
  unfold State.endGrant
  rw [releaseTaps_tap]
  simp [dropTxen_tap, dropTxen_ant]

theorem dropTxen_pointer (s : State) (p : Pos) : (s.dropTxen p).pointer = s.pointer ∧ (s.dropTxen p).grantCount = s.grantCount := by
  unfold State.dropTxen
  split <;> simp

theorem releaseTaps_pointer (s : State) (a : Option Ant) : (s.releaseTaps a).pointer = s.pointer ∧ (s.releaseTaps a).grantCount = s.grantCount := by
  cases a <;> simp [State.releaseTaps, State.setKeyed, State.commandTaps]

theorem endGrant_link (s : State) (p : Pos) (into : KeyState) (port : Port) : (s.endGrant p into).link port = s.link port := by
  unfold State.endGrant
  rw [(releaseTaps_eq _ _).2.2.2.2.2.2.1]
  simp [(dropTxen_eq _ p).2.2.2.2.2]

/-- The end of a grant moves nothing but keys, TXEN, stamps, references and taps (R137). -/
theorem endGrant_frame (s : State) (p : Pos) (into : KeyState) : let t := s.endGrant p into
    t = { s with keys := t.keys, txenOutputs := t.txenOutputs, quietSince := t.quietSince, decoders := t.decoders, taps := t.taps } := by
  have arb : ArbEq s (s.endGrant p into) := ((((ArbEq.refl s).onKey _ _).dropTxen _).onDec _ _).releaseTaps _
  have pointer : (s.endGrant p into).pointer = s.pointer ∧ (s.endGrant p into).grantCount = s.grantCount := by
    simp [State.endGrant, releaseTaps_pointer, dropTxen_pointer]
  have frame := arb.eq
  rwa [endGrant_waiting s p into, pointer.1, pointer.2, links_eq (endGrant_link s p into)] at frame

/-- Settles O51: the end of a grant read part by part; a cut and a denial are their definitions. -/
theorem grantEnds : Obligations.GrantEnds := by
  intro s p into
  refine ⟨by simp [endGrant_key], fun q h => by simp [endGrant_key, h], by simp [endGrant_txen], fun q h => by simp [endGrant_txen, h],
    by simp [endGrant_quiet], fun q h => by simp [endGrant_quiet, h], by simp [endGrant_dec], fun q h => by simp [endGrant_dec, h],
    fun a h => by simp [endGrant_tap, h], fun a h => by simp [endGrant_tap, h], endGrant_frame s p into, fun reason => rfl, fun reason => rfl⟩

/-! ### The grant (R132) -/

theorem maxKeyTimer_eq (s : State) (p : Pos) :
    s.maxKeyTimer p = if (s.place p).maxKey = 0 then none else some (s.timebase + BitVec.ofNat 32 ((s.place p).maxKey * 1000)) := rfl

theorem ArbEq.maxKeyTimer {s t : State} (h : ArbEq s t) (p : Pos) : t.maxKeyTimer p = s.maxKeyTimer p := by
  have place : t.place p = s.place p := by simp [State.place, h.settings]
  rw [maxKeyTimer_eq, maxKeyTimer_eq, place, h.timebase]

/-- Steps 1 and 2 of a grant (R132, R12). -/
def State.recorded (s : State) (p : Pos) (b : Band) (a : Ant) : State := (s.recordGrant p b a).captureReference p

theorem granting_eq (s : State) (p : Pos) (b : Band) (a : Ant) : s.granting p b a = (s.recorded p b a).openTaps p a := rfl

theorem captureReference_dec (s : State) (p q : Pos) : (s.captureReference p).dec q =
    if q = p then { s.dec p with reference := if (s.place p).source = .lines then (s.dec p).stable else none } else s.dec q := by
  unfold State.captureReference
  rw [onDec_at]
  cases (s.place p).source <;> rfl

theorem recorded_arb (s : State) (p : Pos) (b : Band) (a : Ant) : ArbEq s (s.recorded p b a) :=
  (((((ArbEq.refl s).setWaiting _).setGrantCount _).setPointer _).onKey _ _).onDec _ _

theorem recorded_key (s : State) (p : Pos) (b : Band) (a : Ant) (q : Pos) : (s.recorded p b a).key q =
    if q = p then { s.key p with grant := some { band := b, antenna := a, sequence := s.grantCount + 1 } } else s.key q := by
  simp [State.recorded, State.captureReference, State.recordGrant, onKey_at]

@[simp] theorem recorded_tap (s : State) (p : Pos) (b : Band) (a x : Ant) : (s.recorded p b a).tap x = s.tap x := by
  simp [State.recorded, State.captureReference, State.recordGrant]

@[simp] theorem recorded_txen (s : State) (p : Pos) (b : Band) (a : Ant) (q : Pos) : (s.recorded p b a).txen q = s.txen q := by
  simp [State.recorded, State.captureReference, State.recordGrant]

theorem recorded_dec (s : State) (p : Pos) (b : Band) (a : Ant) (q : Pos) : (s.recorded p b a).dec q =
    if q = p then { s.dec p with reference := if (s.place p).source = .lines then (s.dec p).stable else none } else s.dec q := by
  have place : (s.recordGrant p b a).place p = s.place p := rfl
  have dec : ∀ x, (s.recordGrant p b a).dec x = s.dec x := fun _ => rfl
  rw [State.recorded, captureReference_dec, place, dec, dec]

/-- The opening of the taps of a grant writes keys, TXEN and taps alone (R132 step 3). -/
theorem openTaps_untouched (s : State) (p : Pos) (a : Ant) : ArbEq s (s.openTaps p a) ∧ (s.openTaps p a).waiting = s.waiting
    ∧ (s.openTaps p a).pointer = s.pointer ∧ (s.openTaps p a).grantCount = s.grantCount ∧ (∀ q, (s.openTaps p a).quiet q = s.quiet q)
    ∧ (∀ port, (s.openTaps p a).link port = s.link port) ∧ ∀ q, (s.openTaps p a).dec q = s.dec q := by
  unfold State.openTaps
  split
  · exact ⟨(((ArbEq.refl s).onTap _ _).onTap _ _).onKey _ _, by simp [State.setKeyed, State.commandTaps]⟩
  · exact ⟨((((ArbEq.refl s).onTap _ _).onTap _ _).onKey _ _).setTxen _ _, by simp [State.setKeyed, State.commandTaps, State.enterOn]⟩

/-- A grant moves nothing but the list, the pointer, the count, keys, TXEN, references and taps, up to its report (R132). -/
theorem granting_frame (s : State) (p : Pos) (b : Band) (a : Ant) : let t := s.granting p b a
    t = { s with
      waiting := s.waiting.filter (fun q => q != p), pointer := p, grantCount := s.grantCount + 1, keys := t.keys, txenOutputs := t.txenOutputs,
      decoders := t.decoders, taps := t.taps } := by
  obtain ⟨arb, waiting, pointer, count, quiet, links, -⟩ := openTaps_untouched (s.recorded p b a) p a
  have frame := ((recorded_arb s p b a).trans arb).eq
  rw [waiting, pointer, count, quietSince_eq quiet, links_eq links] at frame
  exact frame

theorem granting_dec (s : State) (p : Pos) (b : Band) (a : Ant) (q : Pos) : (s.granting p b a).dec q =
    if q = p then { s.dec p with reference := if (s.place p).source = .lines then (s.dec p).stable else none } else s.dec q := by
  obtain ⟨-, -, -, -, -, -, dec⟩ := openTaps_untouched (s.recorded p b a) p a
  rw [granting_eq, dec, recorded_dec]

theorem openTaps_tap (s : State) (p : Pos) (a x : Ant) : (s.openTaps p a).tap x =
    if x = a then { s.tap a with keyed := true, closed1 := false, closed2 := false } else s.tap x := by
  rw [← setKeyed_true_tap]
  unfold State.openTaps
  split <;> simp [State.enterOn]

theorem granting_tap (s : State) (p : Pos) (b : Band) (a x : Ant) : (s.granting p b a).tap x =
    if x = a then { s.tap a with keyed := true, closed1 := false, closed2 := false } else s.tap x := by
  rw [granting_eq, openTaps_tap, recorded_tap, recorded_tap]

/-- Behind a tap that was closed, a grant enters OPENING with the tap guard (R132 step 3). -/
theorem granting_behind {s : State} {p : Pos} {a : Ant} (b : Band) (h : s.anyTapClosed a = true) (q : Pos) :
    (s.granting p b a).key q = (if q = p then { s.key p with
        state := .opening, grant := some { band := b, antenna := a, sequence := s.grantCount + 1 },
        tapGuard := some (s.timebase + BitVec.ofNat 32 s.settings.tapGuard) } else s.key q)
      ∧ (s.granting p b a).txen q = s.txen q := by
  have closed : (s.recorded p b a).anyTapClosed a = true := by simpa [State.anyTapClosed] using h
  have arb := recorded_arb s p b a
  rw [granting_eq, State.openTaps, if_pos closed]
  refine ⟨?_, by simp [State.setKeyed, State.commandTaps]⟩
  by_cases e : q = p
  · simp [e, State.setKeyed, State.commandTaps, recorded_key, State.load, arb.timebase, arb.settings]
  · simp [e, onKey_at, State.setKeyed, State.commandTaps, recorded_key]

/-- With no tap closed, a grant enters ON with TXEN (R132 step 3). -/
theorem granting_clear {s : State} {p : Pos} {a : Ant} (b : Band) (h : s.anyTapClosed a = false) (q : Pos) :
    (s.granting p b a).key q = (if q = p then { s.key p with
        state := .on, grant := some { band := b, antenna := a, sequence := s.grantCount + 1 }, tapGuard := none, hang := none,
        maxKey := s.maxKeyTimer p } else s.key q)
      ∧ (s.granting p b a).txen q = if q = p then true else s.txen q := by
  have closed : (s.recorded p b a).anyTapClosed a = false := by simpa [State.anyTapClosed] using h
  have timer : ((s.recorded p b a).setKeyed a true).maxKeyTimer p = s.maxKeyTimer p :=
    ArbEq.maxKeyTimer (((recorded_arb s p b a).onTap _ _).onTap _ _) p
  rw [granting_eq, State.openTaps, closed, if_neg Bool.false_ne_true, State.enterOn, timer]
  refine ⟨?_, by simp [setTxen_at, State.setKeyed, State.commandTaps]⟩
  by_cases e : q = p
  · simp [e, State.setKeyed, State.commandTaps, recorded_key]
  · simp [e, onKey_at, State.setKeyed, State.commandTaps, recorded_key]

/-- The report of a grant clears the queued-report flag, and touches the links where the flag was set (R132 step 4, R126). -/
theorem reportGrant_eq (s : State) (p : Pos) (b : Band) (a : Ant) : s.reportGrant p b a =
    { s.onKey p (fun k => { k with reported := false }) with
      links := (if (s.key p).reported then s.report [p] (.keyGranted p b a (s.key p).state) else s).links } := by
  unfold State.reportGrant
  by_cases h : (s.key p).reported = true
  · have told := report_eq (s.onKey p fun k => { k with reported := false }) [p] (.keyGranted p b a (s.key p).state)
    rw [report_links_same (s := s) (u := s.onKey p fun k => { k with reported := false }) [p] _ rfl rfl] at told
    rw [if_pos h, if_pos h]
    exact told
  · rw [if_neg h, if_neg h]
    rfl

theorem reportGrant_key (s : State) (p : Pos) (b : Band) (a : Ant) (q : Pos) :
    (s.reportGrant p b a).key q = if q = p then { s.key p with reported := false } else s.key q := by
  rw [reportGrant_eq]
  exact onKey_at s p _ q

/-- A grant is its three steps and its report (R132). -/
theorem grant_eq {s : State} {p : Pos} {b : Band} {a : Ant} (hb : s.band p = some b) (ha : s.routeAntenna p = some a) :
    s.grant p = (s.granting p b a).reportGrant p b a := by
  rw [State.grant, hb, ha]
  rfl

/-- Settles O52: the three steps of a grant read part by part, the entered state by the taps, and then the report. -/
theorem grantMade : Obligations.GrantMade := by
  intro s p b a hb ha
  have reported : ((s.granting p b a).key p).reported = (s.key p).reported := by
    cases h : s.anyTapClosed a
    · simp [(granting_clear b h p).1]
    · simp [(granting_behind b h p).1]
  have entered : ((s.granting p b a).key p).state = if (s.tap a).closed1 || (s.tap a).closed2 then .opening else .on := by
    cases h : s.anyTapClosed a
    · rw [(granting_clear b h p).1, ← State.anyTapClosed, h]; simp
    · rw [(granting_behind b h p).1, ← State.anyTapClosed, h]; simp
  have others : ∀ q, q ≠ p → (s.granting p b a).key q = s.key q ∧ (s.granting p b a).txen q = s.txen q := fun q hq => by
    cases h : s.anyTapClosed a
    · simp [granting_clear b h q, hq]
    · simp [granting_behind b h q, hq]
  have frame := granting_frame s p b a
  have links : (s.granting p b a).links = s.links := by rw [frame]
  have time : (s.granting p b a).timebase = s.timebase := by rw [frame]
  rw [grant_eq hb ha]
  refine ⟨?_, ?_, ?_, fun h => ⟨?_, ?_⟩, fun h => ⟨?_, ?_⟩, ?_, ?_, ?_, fun q hq => ⟨?_, ?_, ?_⟩, fun x hx => ?_, ?_⟩
  · rw [reportGrant_eq, frame]; rfl
  · rw [reportGrant_eq, frame]; rfl
  · rw [reportGrant_eq, frame]; rfl
  · simp [reportGrant_key, (granting_behind b h p).1]
  · rw [reportGrant_eq]; exact (granting_behind b h p).2
  · simp [reportGrant_key, (granting_clear b h p).1, maxKeyTimer_eq]
  · rw [reportGrant_eq]; exact (granting_clear b h p).2.trans (if_pos rfl)
  · rw [reportGrant_eq]; exact (granting_dec s p b a p).trans (if_pos rfl)
  · rw [reportGrant_eq]; exact (granting_tap s p b a a).trans (if_pos rfl)
  · rw [reportGrant_eq, reported, entered]
    by_cases h : (s.key p).reported = true
    · simp only [h, if_true]; exact report_links_same _ _ links time
    · simp only [h, if_false, Bool.false_eq_true]; exact links
  · rw [reportGrant_key, if_neg hq]; exact (others q hq).1
  · rw [reportGrant_eq]; exact (others q hq).2
  · rw [reportGrant_eq]; exact (granting_dec s p b a q).trans (if_neg hq)
  · rw [reportGrant_eq]; exact (granting_tap s p b a x).trans (if_neg hx)
  · rw [reportGrant_eq, frame]; rfl

end Sys2Proof.Machine
end

