-- ==== Sys2Proof/Proofs/StartUps.lean ====
section
/-! The start-ups of the part: every block at its start values, whatever began the start-up (R193 to R195). -/

namespace Sys2Proof.Machine

/-- The start values with every aux line at the value its configuration gives are a start-up from a part that runs (R195). -/
theorem startValues_startedUp {cause : StartCause} {s t : State} {A : Vector Bool 8} (running : s.running = true)
    (values : t = (s.startValues cause).withAux A) (lines : ∀ l, t.auxLine l = t.lineValue l) : StartedUp cause s t := by
  subst values
  exact {
    running := running
    timebase := rfl
    settings := rfl
    decoders := fun p => replicate_get _ p
    antennas := fun a => startValues_ant cause s a
    sensors := fun a => by
      have start : ((s.startValues cause).withAux A).sensor a = .start := replicate_get _ a
      rw [start]
      exact ⟨rfl, rfl, rfl, rfl, rfl⟩
    quiet := fun p => replicate_get _ p
    claims := startValues_claims cause s
    pointers := startValues_waitsOn cause s
    sequencers := startValues_seq cause s
    keys := startValues_key cause s
    waiting := ⟨rfl, rfl, rfl⟩
    taps := startValues_tap cause s
    listens := fun p => replicate_get _ p
    txen := startValues_txen cause s
    aux := lines
    links := startValues_link cause s
    store := rfl
    pins := ⟨rfl, rfl, rfl, rfl⟩ }

theorem startUp_startedUp (cause : StartCause) {s : State} (running : s.running = true) : StartedUp cause s (s.startUp cause) := by
  obtain ⟨A, values, lines⟩ := startUp_spec cause s
  exact startValues_startedUp running values lines

/-- The aux lines that follow a start-up within an event stand at their values already (R170, R173). -/
theorem followAux_startUp_startedUp (cause : StartCause) {s : State} (running : s.running = true) :
    StartedUp cause s (followAux s (s.startUp cause)) := by
  obtain ⟨A, values, lines⟩ := startUp_spec cause s
  obtain ⟨B, followed, moved⟩ := followAux_spec s (s.startUp cause)
  refine startValues_startedUp running (A := B) (by rw [followed, values, withAux_withAux]) fun l => ?_
  have same : (followAux s (s.startUp cause)).lineValue l = (s.startUp cause).lineValue l := by rw [followed, withAux_lineValue]
  rw [moved l, same, lines l, ite_self]

/-- A start-up takes nothing from the supply and RESET of the state before. -/
theorem StartedUp.supplied {cause : StartCause} {s t : State} {powered low : Bool}
    (h : StartedUp cause { s with powered := powered, resetIsLow := low } t) : StartedUp cause s t :=
  { h with }

theorem exec_powerOn (s : State) : exec .powerOn s = .next (if s.powered then s else s.powerUp) := rfl

theorem exec_resetRelease (s : State) : exec .resetRelease s = .next (if s.resetIsLow then s.letReset else s) := rfl

/-- The answer of a pending RESTART has been sent, so the start-up begins (R194). -/
theorem endSending_restart {s : State} {sent : Transmission} (sending : (s.link 0).transmitter = some sent)
    (due : s.store.restartPending = true) (done : sent.record.isRestartDone = true) : s.endSending 0 = s.startUp .request := by
  simp [State.endSending, State.restartDue, supervisorPort, sending, due, done]

/-- Settles O58: the three causes reach the same start values; a supply under a low RESET and a release without supply move their pin alone. -/
theorem startUpsTaken : Obligations.StartUpsTaken := by
  intro s
  refine ⟨fun unpowered high => ?_, fun unpowered low => ?_, fun powered => ?_, fun powered low => ?_, fun unpowered low => ?_, fun high => ?_,
    fun sent running sending due done => ?_⟩
  · refine ⟨(s.setPowered true).startUp .power, ?_, (startUp_startedUp .power (s := s.setPowered true) ?_).supplied⟩
    · simp [exec_powerOn, unpowered, State.powerUp, high]
    · simp [State.running, high]
  · simp [exec_powerOn, unpowered, State.powerUp, low, State.setPowered]
  · simp [exec_powerOn, powered]
  · refine ⟨(s.setReset false).startUp .line, ?_, (startUp_startedUp .line (s := s.setReset false) ?_).supplied⟩
    · simp [exec_resetRelease, low, State.letReset, powered]
    · simp [State.running, powered]
  · simp [exec_resetRelease, low, State.letReset, unpowered, State.setReset]
  · simp [exec_resetRelease, high]
  · refine ⟨followAux s (s.startUp .request), ?_, followAux_startUp_startedUp .request running⟩
    rw [← endSending_restart sending due done]
    exact event_running (f := fun s => s.endSending 0) running

end Sys2Proof.Machine
end

