-- ==== Sys2Proof/Proofs/RestingKeys.lean ====
section
/-! What the cascades of the arbiter, the sequencers, the Route Controller and the Follow Selector leave alone of the keys: the PTT levels and filters of all positions, and all of a position that rests in OFF or BLOCKED (R121 to R126). -/

namespace Sys2Proof.Machine

/-! ### The relation -/

/-- OFF and BLOCKED: the key states that only a PTT edge of the position leaves. -/
def KeyState.asleep (k : KeyState) : Prop := k = .off ∨ k = .blocked

/-- The levels and filters of all keys stay, and a position in OFF or BLOCKED keeps its key, its TXEN and its keyed reference. -/
structure LeavesKeys (s t : State) : Prop where
  level : ∀ p, (t.key p).level = (s.key p).level ∧ (t.key p).filter = (s.key p).filter
  asleep : ∀ p, (s.key p).state.asleep → t.key p = s.key p ∧ t.txen p = s.txen p ∧ (t.dec p).reference = (s.dec p).reference

theorem LeavesKeys.refl (s : State) : LeavesKeys s s := ⟨fun _ => ⟨rfl, rfl⟩, fun _ _ => ⟨rfl, rfl, rfl⟩⟩

theorem LeavesKeys.trans {s t u : State} (h : LeavesKeys s t) (k : LeavesKeys t u) : LeavesKeys s u where
  level p := ⟨(k.level p).1.trans (h.level p).1, (k.level p).2.trans (h.level p).2⟩
  asleep p rest := by
    obtain ⟨key, txen, reference⟩ := h.asleep p rest
    obtain ⟨key', txen', reference'⟩ := k.asleep p (key ▸ rest)
    exact ⟨key'.trans key, txen'.trans txen, reference'.trans reference⟩

/-- An operation that touches no key, no TXEN and no decoder. -/
theorem LeavesKeys.plain {s t : State} (keys : t.keys = s.keys) (txen : t.txenOutputs = s.txenOutputs) (decoders : t.decoders = s.decoders) :
    LeavesKeys s t := by
  have hk : ∀ p, t.key p = s.key p := fun p => by simp [State.key, keys]
  have hx : ∀ p, t.txen p = s.txen p := fun p => by simp [State.txen, txen]
  have hd : ∀ p, t.dec p = s.dec p := fun p => by simp [State.dec, decoders]
  exact ⟨fun p => by rw [hk]; exact ⟨rfl, rfl⟩, fun p _ => by rw [hk, hx, hd]; exact ⟨rfl, rfl, rfl⟩⟩

/-- An operation on the key of one position that is awake. -/
theorem LeavesKeys.one {s t : State} (p : Pos) (awake : ¬ (s.key p).state.asleep)
    (level : (t.key p).level = (s.key p).level ∧ (t.key p).filter = (s.key p).filter)
    (others : ∀ q, q ≠ p → t.key q = s.key q ∧ t.txen q = s.txen q ∧ (t.dec q).reference = (s.dec q).reference) : LeavesKeys s t where
  level q := by
    by_cases h : q = p
    · exact h ▸ level
    · rw [(others q h).1]; exact ⟨rfl, rfl⟩
  asleep q rest := others q fun h => awake (h ▸ rest)

theorem forEach_leaves {α : Type} (l : List α) (f : α → State → State) (h : ∀ x s, LeavesKeys s (f x s)) (s : State) : LeavesKeys s (forEach l f s) := by
  induction l generalizing s with
  | nil => exact .refl s
  | cons x rest ih => exact (h x s).trans (ih _)

theorem report_leaves (s : State) (consoles : List Pos) (body : ReportBody) : LeavesKeys s (s.report consoles body) := by
  rw [report_eq]
  exact .plain rfl rfl rfl

theorem LeavesKeys.reported {s t : State} (h : LeavesKeys s t) (consoles : List Pos) (body : ReportBody) : LeavesKeys s (t.report consoles body) :=
  h.trans (report_leaves _ _ _)

theorem queued_awake {s : State} {p : Pos} (h : (s.key p).state = .queued) : ¬ (s.key p).state.asleep := by
  simp [h, KeyState.asleep]

theorem pending_awake {s : State} {p : Pos} (h : (s.key p).state = .pending) : ¬ (s.key p).state.asleep := by
  simp [h, KeyState.asleep]

theorem granted_awake {s : State} {p : Pos} (h : s.granted p = true) : ¬ (s.key p).state.asleep := by
  rintro (e | e) <;> simp [State.granted, e, KeyState.granted] at h

/-! ### The arbiter -/

theorem endGrant_leaves {s : State} {p : Pos} (into : KeyState) (h : s.granted p = true) : LeavesKeys s (s.endGrant p into) :=
  .one p (granted_awake h) (by simp [endGrant_key]) fun q hq => by simp [endGrant_key, endGrant_txen, endGrant_dec, hq]

theorem grant_leaves {s : State} {p : Pos} (h : (s.key p).state = .queued) : LeavesKeys s (s.grant p) := by
  cases hb : s.band p with
  | none => simp only [State.grant, hb]; exact .refl s
  | some b =>
    cases ha : s.routeAntenna p with
    | none => simp only [State.grant, hb, ha]; exact .refl s
    | some a =>
      obtain ⟨-, -, -, behind, clear, -, -, -, others, -, -⟩ := grantMade s p b a hb ha
      refine .one p (queued_awake h) ?_ fun q hq => ?_
      · cases hc : (s.tap a).closed1 || (s.tap a).closed2
        · rw [(clear hc).1]; exact ⟨rfl, rfl⟩
        · rw [(behind hc).1]; exact ⟨rfl, rfl⟩
      · obtain ⟨key, txen, dec⟩ := others q hq
        exact ⟨key, txen, by rw [dec]⟩

theorem walkList_leaves (l : List Pos) (s : State) : LeavesKeys s (walkList l s) := by
  induction l generalizing s with
  | nil => exact .refl s
  | cons p rest ih =>
    unfold walkList
    split
    · rename_i fits
      exact (grant_leaves (walkFit_spec fits).1).trans (ih _)
    · exact ih s
    · exact .refl s

theorem walk_leaves (s : State) : LeavesKeys s s.walk := walkList_leaves _ s

theorem cutQuietly_leaves (s : State) (p : Pos) (reason : KeyReason) (by_ : Option Pos) : LeavesKeys s (s.cutQuietly p reason by_) := by
  unfold State.cutQuietly
  split
  · rename_i granted
    exact (endGrant_leaves _ granted).trans (report_leaves _ _ _)
  · exact .refl s

theorem cut_leaves (s : State) (p : Pos) (reason : KeyReason) : LeavesKeys s (s.cut p reason) := by
  unfold State.cut
  split
  · rename_i granted
    exact ((endGrant_leaves _ granted).trans (walk_leaves _)).trans (report_leaves _ _ _)
  · exact .refl s

theorem leaveList_leaves {s : State} {p : Pos} (into : KeyState) (awake : ¬ (s.key p).state.asleep) : LeavesKeys s (s.leaveList p into) :=
  .one p awake (by simp [State.leaveList]) fun q hq => by simp [State.leaveList, onKey_at, hq]

theorem deny_leaves {s : State} {p : Pos} (reason : KeyReason) (awake : ¬ (s.key p).state.asleep) : LeavesKeys s (s.deny p reason) :=
  (leaveList_leaves _ awake).trans (report_leaves _ _ _)

theorem routeChanging_leaves (s : State) (p : Pos) : LeavesKeys s (s.routeChanging p) := by
  unfold State.routeChanging
  split
  · exact cut_leaves _ _ _
  · split
    · rename_i queued
      exact leaveList_leaves _ (queued_awake (by simpa using queued))
    · exact .refl s

theorem preempt_leaves {s : State} {j : Pos} (h : (s.key j).state = .queued) : LeavesKeys s (s.preempt j) := by
  unfold State.preempt
  split
  · simp only []
    split
    · exact ((forEach_leaves _ _ (fun _ _ => cutQuietly_leaves _ _ _ _) s).trans (grant_leaves (cutAll_queued _ s j _ _ h))).trans (walk_leaves _)
    · exact .refl s
  · exact .refl s

theorem considerPreemption_leaves (s : State) (p : Pos) : LeavesKeys s (s.considerPreemption p) := by
  unfold State.considerPreemption
  split
  · rename_i h
    simp only [Bool.and_eq_true, beq_iff_eq] at h
    exact preempt_leaves h.1.1
  · exact .refl s

theorem reportQueued_leaves (s : State) (p : Pos) : LeavesKeys s (s.reportQueued p) := by
  unfold State.reportQueued
  split
  · rename_i queued
    refine LeavesKeys.trans (.one p (queued_awake (by simpa using queued)) (by simp) fun q hq => ?_) (report_leaves _ _ _)
    simp [onKey_at, hq]
  · exact .refl s

theorem join_leaves {s : State} {p : Pos} (awake : ¬ (s.key p).state.asleep) : LeavesKeys s (s.join p) := by
  have listed : LeavesKeys s (s.enlist p) := .one p awake (by simp [State.enlist]) fun q hq => by simp [State.enlist, onKey_at, hq]
  exact ((listed.trans (walk_leaves _)).trans (considerPreemption_leaves _ p)).trans (reportQueued_leaves _ p)

theorem routeSettled_leaves (s : State) (p : Pos) : LeavesKeys s (s.routeSettled p) := by
  unfold State.routeSettled
  split
  · rename_i pending
    have awake := pending_awake (s := s) (p := p) (by simpa using pending)
    unfold State.checkKey
    split
    · exact deny_leaves _ awake
    · exact .one p awake (by simp) fun q hq => by simp [onKey_at, hq]
    · exact join_leaves awake
  · exact .refl s

/-! ### The sequencers -/

theorem onSeq_leaves (s : State) (p : Pos) (f : Sequencer → Sequencer) : LeavesKeys s (s.onSeq p f) := .plain rfl rfl rfl

theorem handOverRoute_leaves (s : State) (p : Pos) : LeavesKeys s (s.handOverRoute p) := (report_leaves _ _ _).trans (routeSettled_leaves _ p)

theorem completeChange_leaves (s : State) (p : Pos) : LeavesKeys s (s.completeChange p) :=
  LeavesKeys.trans (.plain rfl rfl rfl : LeavesKeys s (s.settlePath p)) (handOverRoute_leaves _ p)

theorem beginMake_leaves (s : State) (p : Pos) (a : Ant) : LeavesKeys s (s.beginMake p a) := .plain rfl rfl rfl

theorem enterHoldoff_leaves (s : State) (p : Pos) : LeavesKeys s (s.enterHoldoff p) := by
  unfold State.enterHoldoff
  split
  · exact completeChange_leaves s p
  · split
    · exact beginMake_leaves s p _
    · exact onSeq_leaves s p _

theorem retestHoldoff_leaves (s : State) (p : Pos) : LeavesKeys s (s.retestHoldoff p) := by
  unfold State.retestHoldoff
  split
  · split
    · exact beginMake_leaves s p _
    · exact .refl s
  · exact .refl s

theorem antennaCleared_leaves (s : State) (a : Ant) : LeavesKeys s (s.antennaCleared a) :=
  forEach_leaves _ _ (fun q u => by
    split
    · exact retestHoldoff_leaves u q
    · exact .refl u) s

theorem relayOpened_leaves (s : State) (a : Option Ant) : LeavesKeys s (s.relayOpened a) := by
  cases a with
  | none => exact .refl s
  | some a => exact antennaCleared_leaves s a

theorem openRelay_leaves (s : State) (a : Option Ant) : LeavesKeys s (s.openRelay a) := by
  cases a <;> exact .plain rfl rfl rfl

theorem enterBreak_leaves (s : State) (p : Pos) : LeavesKeys s (s.enterBreak p) := by
  unfold State.enterBreak
  simp only []
  refine LeavesKeys.trans ?_ (relayOpened_leaves _ _)
  split
  · exact ((openRelay_leaves s _).trans (onSeq_leaves _ p _)).trans (enterHoldoff_leaves _ p)
  · exact (openRelay_leaves s _).trans (onSeq_leaves _ p _)

theorem enterDrain_leaves (s : State) (p : Pos) : LeavesKeys s (s.enterDrain p) := by
  unfold State.enterDrain
  split
  · exact enterBreak_leaves s p
  · split
    · exact onSeq_leaves s p _
    · exact enterBreak_leaves s p

theorem startChange_leaves (s : State) (p : Pos) : LeavesKeys s (s.startChange p) :=
  ((onSeq_leaves s p _).trans (routeChanging_leaves _ p)).trans (enterDrain_leaves _ p)

theorem pathInHoldoff_leaves (s : State) (p : Pos) (n : RfPath) : LeavesKeys s (s.pathInHoldoff p n) := by
  unfold State.pathInHoldoff
  simp only []
  split
  · split
    · exact (onSeq_leaves s p _).trans (completeChange_leaves _ p)
    · exact (onSeq_leaves s p _).trans (retestHoldoff_leaves _ p)
  · exact (onSeq_leaves s p _).trans (onSeq_leaves _ p _)

theorem givePath_leaves (s : State) (p : Pos) (n : RfPath) : LeavesKeys s (s.givePath p n) := by
  unfold State.givePath
  split
  · exact .refl s
  · split
    · unfold State.pathInIdle
      simp only []
      split
      · exact onSeq_leaves s p _
      · exact (onSeq_leaves s p _).trans (startChange_leaves _ p)
    · unfold State.pathInDrain
      split
      · exact (onSeq_leaves s p _).trans (handOverRoute_leaves _ p)
      · exact onSeq_leaves s p _
    · unfold State.pathInBreak
      split <;> exact onSeq_leaves s p _
    · exact pathInHoldoff_leaves s p n
    · exact onSeq_leaves s p _

/-! ### Claims and selections -/

theorem removeWaiting_leaves (s : State) (p : Pos) (e : ClaimEvent) : LeavesKeys s (s.removeWaiting p e) := by
  unfold State.removeWaiting
  split
  · refine LeavesKeys.reported ?_ _ _
    exact .plain rfl rfl rfl
  · exact .refl s

theorem withdrawFollow_leaves (s : State) (p : Pos) : LeavesKeys s (s.withdrawFollow p) := by
  unfold State.withdrawFollow
  split
  · exact removeWaiting_leaves s p _
  · exact .refl s

theorem freeSlot_leaves (s : State) (a : Ant) (second : Bool) (cause : TapCause) : LeavesKeys s (s.freeSlot a second cause) := by
  unfold State.freeSlot
  split
  · exact .refl s
  · refine LeavesKeys.reported ?_ _ _
    exact .plain rfl rfl rfl

theorem freeTapOf_leaves (s : State) (p : Pos) (a : Ant) (cause : TapCause) : LeavesKeys s (s.freeTapOf p a cause) := by
  unfold State.freeTapOf
  split
  · exact freeSlot_leaves s a _ cause
  · split
    · exact freeSlot_leaves s a _ cause
    · exact .refl s

theorem setOwner_leaves (s : State) (a : Ant) (o : Option Pos) : LeavesKeys s (s.setOwner a o) := .plain rfl rfl rfl

theorem makeOwner_leaves (s : State) (p : Pos) (a : Ant) (o : Origin) (m : Manner) (previous : Option Ant) :
    LeavesKeys s (s.makeOwner p a o m previous) := by
  have cleared : ∀ u : State, LeavesKeys u (u.clearPrevious previous) := fun u => by
    cases previous with
    | none => exact .refl u
    | some b => exact setOwner_leaves u b none
  exact (((((setOwner_leaves s a _).trans (givePath_leaves _ p _)).trans (freeTapOf_leaves _ p a _)).trans (report_leaves _ _ _))).trans (cleared _)

theorem grantClaim_leaves (s : State) (p : Pos) (a : Ant) (o : Origin) (m : Manner) : LeavesKeys s (s.grantClaim p a o m) :=
  LeavesKeys.trans (.plain rfl rfl rfl : LeavesKeys s (s.removeClaim p a)) (makeOwner_leaves _ p a o m _)

theorem serveChain_leaves (n : Nat) (a : Ant) (s : State) : LeavesKeys s (serveChain n a s) := by
  induction n generalizing a s with
  | zero => exact .refl s
  | succ n ih =>
    unfold serveChain
    split
    · split
      · exact .refl s
      · split
        · exact grantClaim_leaves s _ a _ _
        · exact (grantClaim_leaves s _ a _ _).trans (ih _ _)
    · exact .refl s

theorem serve_leaves (s : State) (a : Ant) : LeavesKeys s (s.serve a) := serveChain_leaves _ a s

theorem releaseRoute_leaves (s : State) (p : Pos) (a : Ant) : LeavesKeys s (s.releaseRoute p a) :=
  (((setOwner_leaves s a none).trans (givePath_leaves _ p _)).trans (report_leaves _ _ _)).trans (serve_leaves _ a)

theorem grantAtOnce_leaves (s : State) (p : Pos) (a : Ant) (o : Origin) : LeavesKeys s (s.grantAtOnce p a o) := by
  unfold State.grantAtOnce State.servePrevious
  refine (grantClaim_leaves s p a o .immediate).trans ?_
  split
  · exact serve_leaves _ _
  · exact .refl _

theorem placeClaim_leaves (s : State) (p : Pos) (a : Ant) (o : Origin) (r : Result) : LeavesKeys s (s.placeClaim p a o r) := by
  unfold State.placeClaim
  split
  · exact (removeWaiting_leaves s p _).trans (grantAtOnce_leaves _ p a o)
  · refine (removeWaiting_leaves s p (.superseded a)).trans (LeavesKeys.reported ?_ _ _)
    exact .plain rfl rfl rfl
  · split
    · unfold State.takeOverClaim
      split
      · exact .refl s
      · exact .plain rfl rfl rfl
    · exact .refl s
  · exact .refl s

theorem releaseOwned_leaves (s : State) (p : Pos) : LeavesKeys s (s.releaseOwned p) := by
  unfold State.releaseOwned
  split
  · exact releaseRoute_leaves s p _
  · exact .refl s

theorem fallback_leaves (s : State) (p : Pos) (b : Band) : LeavesKeys s (s.fallback p b) := by
  unfold State.fallback
  split
  · exact placeClaim_leaves s p _ _ _
  · exact report_leaves _ _ _

theorem selectFromList_leaves (s : State) (p : Pos) (b : Band) : LeavesKeys s (s.selectFromList p b) := by
  unfold State.selectFromList
  split
  · split
    · exact withdrawFollow_leaves s p
    · exact placeClaim_leaves s p _ _ _
  · split
    · exact withdrawFollow_leaves s p
    · exact (releaseOwned_leaves s p).trans (fallback_leaves _ p b)

theorem select_leaves (s : State) (p : Pos) (m : SelectMode) : LeavesKeys s (s.select p m) := by
  unfold State.select
  split
  · exact .refl s
  · split
    · exact .refl s
    · split
      · exact withdrawFollow_leaves s p
      · exact selectFromList_leaves s p _

end Sys2Proof.Machine
end

