-- ==== Sys2Proof/Proofs/BandChanges.lean ====
section
/-! What a band change, a settle and a sample of the band lines leave alone, and operations run over positions in order (R1 to R5, R10, R13). -/

namespace Sys2Proof.Machine

/-! ### Readings -/

/-- What is worked out from a blind reading is blind too. -/
theorem Blind.map {α β : Type} {π : State → α} (h : Blind π) (f : α → β) : Blind fun s => f (π s) where
  dec s p r := congrArg f (h.dec s p r)
  owner s a o := congrArg f (h.owner s a o)
  connected s a c := congrArg f (h.connected s a c)
  claims s a g := congrArg f (h.claims s a g)
  waitsOn s p v := congrArg f (h.waitsOn s p v)
  seq s p g := congrArg f (h.seq s p g)
  key s p g := congrArg f (h.key s p g)
  waiting s l := congrArg f (h.waiting s l)
  pointer s p := congrArg f (h.pointer s p)
  count s c := congrArg f (h.count s c)
  tap s a g := congrArg f (h.tap s a g)
  listen s p v := congrArg f (h.listen s p v)
  link s port g := congrArg f (h.link s port g)
  quiet s p v := congrArg f (h.quiet s p v)
  txen s p b := congrArg f (h.txen s p b)
  aux s l b := congrArg f (h.aux s l b)

theorem blind_band (p : Pos) : Blind fun s : State => s.band p := (blind_decoder p).map Decoder.band
theorem blind_raw (p : Pos) : Blind fun s : State => (s.dec p).raw := (blind_decoder p).map Decoder.raw
theorem blind_stable (p : Pos) : Blind fun s : State => (s.dec p).stable := (blind_decoder p).map Decoder.stable
theorem blind_debounce (p : Pos) : Blind fun s : State => (s.dec p).debounce := (blind_decoder p).map Decoder.debounce
theorem blind_timebase : Blind State.timebase := blind_surroundings.map fun x => x.2.2.1
theorem blind_lineInputs : Blind State.lineInputs := blind_surroundings.map fun x => x.2.2.2.2.2.2.1

theorem Blind.dropForBand {α : Type} {π : State → α} (h : Blind π) (s : State) (p : Pos) (b : Option Band) : π (s.dropForBand p b) = π s := by
  unfold State.dropForBand
  split
  · split
    · rfl
    · exact h.removeWaiting _ _ _
  · rfl

/-! ### A band change (R5) -/

/-- Beside the band it stores, a band change moves nothing that a blind reading sees. -/
theorem Blind.changeBand {α : Type} {π : State → α} (h : Blind π) (s : State) (p : Pos) (b : Option Band) (c : BandCause) :
    π (s.changeBand p b c) = π (s.onDec p fun d => { d with band := b }) := by
  unfold State.changeBand State.giveFilter
  simp only []
  rw [h.report, h.select, h.dropForBand, h.givePath]

theorem changeBand_settings (s : State) (p : Pos) (b : Option Band) (c : BandCause) : (s.changeBand p b c).settings = s.settings :=
  blind_settings.changeBand s p b c

theorem changeBand_timebase (s : State) (p : Pos) (b : Option Band) (c : BandCause) : (s.changeBand p b c).timebase = s.timebase :=
  blind_timebase.changeBand s p b c

theorem changeBand_band (s : State) (p : Pos) (b : Option Band) (c : BandCause) (q : Pos) :
    (s.changeBand p b c).band q = if q = p then b else s.band q := by
  rw [(blind_band q).changeBand, State.band, onDec_at]
  split <;> rfl

/-- A band change writes nothing of a decoder but the band and the keyed reference. -/
theorem changeBand_reading {α : Type} (f : Decoder → α) (hf : ∀ d b r, f { d with band := b, reference := r } = f d) (s : State) (p : Pos) (b : Option Band)
    (c : BandCause) (q : Pos) : f ((s.changeBand p b c).dec q) = f (s.dec q) := by
  have seen := ((blind_decoder q).map f).changeBand s p b c
  have bare : ∀ d : Decoder, f { d with reference := none } = f d := fun d => hf d d.band none
  rw [bare, bare, onDec_at] at seen
  rw [seen]
  split
  · rename_i e
    rw [e]; exact hf (s.dec p) b (s.dec p).reference
  · rfl

theorem changeBand_raw (s : State) (p : Pos) (b : Option Band) (c : BandCause) (q : Pos) : ((s.changeBand p b c).dec q).raw = (s.dec q).raw :=
  changeBand_reading Decoder.raw (fun _ _ _ => rfl) s p b c q

theorem changeBand_stable (s : State) (p : Pos) (b : Option Band) (c : BandCause) (q : Pos) : ((s.changeBand p b c).dec q).stable = (s.dec q).stable :=
  changeBand_reading Decoder.stable (fun _ _ _ => rfl) s p b c q

theorem changeBand_debounce (s : State) (p : Pos) (b : Option Band) (c : BandCause) (q : Pos) :
    ((s.changeBand p b c).dec q).debounce = (s.dec q).debounce :=
  changeBand_reading Decoder.debounce (fun _ _ _ => rfl) s p b c q

theorem onDec_leaves (s : State) (p : Pos) (f : Decoder → Decoder) (h : (f (s.dec p)).reference = (s.dec p).reference) : LeavesKeys s (s.onDec p f) := by
  refine ⟨fun _ => ⟨rfl, rfl⟩, fun q _ => ⟨rfl, rfl, ?_⟩⟩
  by_cases e : q = p
  · subst e; simpa using h
  · rw [onDec_other _ _ _ _ e]

theorem dropForBand_leaves (s : State) (p : Pos) (b : Option Band) : LeavesKeys s (s.dropForBand p b) := by
  unfold State.dropForBand
  split
  · split
    · exact .refl s
    · exact removeWaiting_leaves s p _
  · exact .refl s

theorem changeBand_leaves (s : State) (p : Pos) (b : Option Band) (c : BandCause) : LeavesKeys s (s.changeBand p b c) := by
  unfold State.changeBand
  refine LeavesKeys.reported ?_ _ _
  exact (((onDec_leaves s p (fun d => { d with band := b }) rfl).trans (givePath_leaves _ p _)).trans (dropForBand_leaves _ p b)).trans (select_leaves _ p _)

theorem applyBand_eq (s : State) (p : Pos) (b : Option Band) (c : BandCause) : s.applyBand p b c = if b = s.band p then s else s.changeBand p b c := rfl

theorem applyBand_leaves (s : State) (p : Pos) (b : Option Band) (c : BandCause) : LeavesKeys s (s.applyBand p b c) := by
  unfold State.applyBand
  split
  · exact .refl s
  · exact changeBand_leaves s p b c

theorem applyBand_band (s : State) (p : Pos) (b : Option Band) (c : BandCause) (q : Pos) : (s.applyBand p b c).band q = if q = p then b else s.band q := by
  unfold State.applyBand
  split
  · rename_i same
    split
    · rename_i e; rw [e, same]
    · rfl
  · exact changeBand_band s p b c q

/-! ### Settles and samples (R1 to R3) -/

theorem checkReference_leaves (s : State) (p : Pos) (v : BitVec 4) : LeavesKeys s (s.checkReference p v) := by
  unfold State.checkReference
  split
  · exact cut_leaves s p _
  · exact .refl s

theorem settleBand_leaves (s : State) (p : Pos) : LeavesKeys s (s.settleBand p) := by
  unfold State.settleBand
  split
  · exact onDec_leaves s p _ rfl
  · simp only []
    split
    · exact onDec_leaves s p _ rfl
    · rename_i v _ _ _
      exact ((onDec_leaves s p (fun d => { d with stable := some v, debounce := none }) rfl).trans (checkReference_leaves _ p v)).trans
        (applyBand_leaves _ p _ _)

theorem sampleLines_leaves (s : State) (p : Pos) : LeavesKeys s (s.sampleLines p) := by
  unfold State.sampleLines
  split
  · exact .refl s
  · unfold State.takePattern
    split
    · exact (onDec_leaves s p (fun d => { d with raw := some (s.sampledPattern p) }) rfl).trans (settleBand_leaves _ p)
    · exact onDec_leaves s p _ rfl

section Elsewhere
variable {α : Type} {π : State → α}

/-- A blind reading that does not see the decoder of a position does not see its settles. -/
theorem Blind.settleBand (h : Blind π) {p : Pos} (unseen : ∀ s f, π (s.onDec p f) = π s) (s : State) : π (s.settleBand p) = π s := by
  unfold State.settleBand State.checkReference State.applyBand
  split
  · exact unseen _ _
  · simp only []
    split
    · exact unseen _ _
    · split <;> split <;> simp only [h.changeBand, h.cut, unseen]

theorem Blind.sampleLines (h : Blind π) {p : Pos} (unseen : ∀ s f, π (s.onDec p f) = π s) (s : State) : π (s.sampleLines p) = π s := by
  unfold State.sampleLines State.takePattern
  split
  · rfl
  · split
    · rw [h.settleBand unseen, unseen]
    · exact unseen _ _

end Elsewhere

/-! ### Operations over positions in order -/

theorem allPos_nodup : allPos.Nodup := by decide

/-- Two operations that agree at each position, in every state that the operations at other positions can make of the first, agree over a list. -/
theorem forEach_congr {l : List Pos} {f g : Pos → State → State} (I : Pos → State → Prop) (agree : ∀ p u, I p u → f p u = g p u)
    (kept : ∀ p q u, q ≠ p → I q u → I q (f p u)) (distinct : l.Nodup) {u : State} (start : ∀ p, I p u) : forEach l f u = forEach l g u := by
  suffices h : ∀ (l : List Pos) (u : State), l.Nodup → (∀ p ∈ l, I p u) → forEach l f u = forEach l g u from h l u distinct fun p _ => start p
  clear distinct start u l
  intro l
  induction l with
  | nil => exact fun u _ _ => rfl
  | cons p rest ih =>
    intro u distinct start
    obtain ⟨new, distinct⟩ := List.nodup_cons.1 distinct
    show forEach rest f (f p u) = forEach rest g (g p u)
    rw [← agree p u (start p (by simp))]
    exact ih _ distinct fun q hq => kept p q u (fun e => new (e ▸ hq)) (start q (by simp [hq]))

/-- What the operation at one position brings about holds after the operations over all positions, if those at the others keep it and what it rests on. -/
theorem forEach_at {f : Pos → State → State} (p : Pos) (I Q : State → Prop) (before : ∀ q u, q ≠ p → I u → I (f q u))
    (after : ∀ q u, q ≠ p → Q u → Q (f q u)) (here : ∀ u, I u → Q (f p u)) {u : State} (start : I u) : Q (forEach allPos f u) := by
  suffices done : ∀ (l : List Pos) (u : State), p ∉ l → Q u → Q (forEach l f u) by
    suffices h : ∀ (l : List Pos) (u : State), l.Nodup → p ∈ l → I u → Q (forEach l f u) from h _ u allPos_nodup (mem_allPos p) start
    intro l
    induction l with
    | nil => exact fun u _ hp _ => absurd hp (by simp)
    | cons q rest ih =>
      intro u distinct hp i
      obtain ⟨new, distinct⟩ := List.nodup_cons.1 distinct
      by_cases e : q = p
      · subst e; exact done rest _ new (here u i)
      · exact ih _ distinct ((List.mem_cons.1 hp).resolve_left (Ne.symm e)) (before q u e i)
  intro l
  induction l with
  | nil => exact fun u _ q => q
  | cons x rest ih =>
    intro u hp q
    obtain ⟨ne, hp⟩ := not_or.1 (fun h => hp (List.mem_cons.2 h))
    exact ih _ hp (after x u (Ne.symm ne) q)

end Sys2Proof.Machine
end

