-- ==== Sys2Proof/Proofs/BandRequests.lean ====
section
/-! The Band Decoder's requests and events: SET-BAND, SET-BANDING, SET-BANDMAP, the samples of the band lines and the settles (R1 to R14). -/

namespace Sys2Proof.Machine

/-! ### Events that end -/

theorem followAux_key (s t : State) (p : Pos) : (followAux s t).key p = t.key p := by
  obtain ⟨A, e, -⟩ := followAux_spec s t
  rw [e]; rfl

theorem followAux_dec (s t : State) (p : Pos) : (followAux s t).dec p = t.dec p := by
  obtain ⟨A, e, -⟩ := followAux_spec s t
  rw [e]; rfl

theorem followAux_txen (s t : State) (p : Pos) : (followAux s t).txen p = t.txen p := by
  obtain ⟨A, e, -⟩ := followAux_spec s t
  rw [e]; rfl

/-- A decoder written moves no condition (R167 to R169). -/
theorem followAux_onDec (s : State) (p : Pos) (f : Decoder → Decoder) : followAux s (s.onDec p f) = s.onDec p f :=
  followAux_same (condition_same rfl (fun _ => rfl) (fun _ => ⟨rfl, Iff.rfl⟩) (fun _ => rfl) (fun _ => ⟨rfl, rfl, rfl⟩) rfl (fun _ => ⟨rfl, rfl⟩) rfl)

theorem followAux_answer (s : State) (port : Port) (q : Request) (tag : Byte) (r : Result) : followAux s (s.answer port q tag r) = s.answer port q tag r :=
  followAux_link s port _

/-! ### SET-BAND (R5, R6, R8) -/

/-- SET-BAND with the bytes of a position and a band, at its block (R8). -/
theorem exec_setBand {port : Port} {p : Pos} {s : State} (tag : Byte) (b : Option Band) (takes : s.Takes port) (may : port = 0 ∨ port = p.succ) :
    exec (.setBand port tag (posByte p) (bandByte b)) s = .next (followAux s
      (if s.bandResult p b = .done then (s.answer port .setBand tag (s.bandResult p b)).moveBand p b
        else s.answer port .setBand tag (s.bandResult p b))) := by
  have served : serveSetBand port tag (posByte p) (bandByte b) s = if s.bandResult p b = .done
      then (s.answer port .setBand tag (s.bandResult p b)).moveBand p b else s.answer port .setBand tag (s.bandResult p b) := by
    unfold serveSetBand
    rw [takeRequest_served takes.room rfl (mayFor_posByte may), posOf_posByte, bandOrNoneOf_bandByte]
  rw [← served]
  exact event_running takes.running

theorem cut_band (s : State) (p q : Pos) (r : KeyReason) : (s.cut p r).band q = s.band q := (cut_arb s p r).band q

/-- SET-BAND answered DONE leaves the settings, the Timebase and the other bands, and asks the sequencer for the filter of the new band (R8, R102). -/
theorem moveBand_effects (port : Port) (tag : Byte) (p : Pos) (b : Option Band) (s : State) :
    let t := followAux s ((s.answer port .setBand tag .done).moveBand p b)
    t.band p = b ∧ t.settings = s.settings ∧ t.timebase = s.timebase ∧ (∀ q, q ≠ p → t.band q = s.band q)
      ∧ (RequestsExact s → (t.seq p).requested.filter = b) := by
  intro t
  have arb := cut_arb (s.answer port .setBand tag .done) p .bandMoved
  have bands : ∀ q, t.band q = if q = p then b else s.band q := fun q => by
    rw [(blind_band q).followAux, State.moveBand, changeBand_band, cut_band]; rfl
  refine ⟨by simp [bands], ?_, ?_, fun q hq => by simp [bands, hq], fun i => ?_⟩
  · rw [blind_settings.followAux, State.moveBand, changeBand_settings, arb.settings]; rfl
  · rw [blind_timebase.followAux, State.moveBand, changeBand_timebase, arb.timebase]; rfl
  · have served : Serves s ((s.answer port .setBand tag .done).moveBand p b) :=
      (answer_serves s port .setBand tag .done).andThen (arb.keeps.trans (changeBand_keeps _ p b .message))
    rw [((served.acts.followed.asks i) p).1, bands, if_pos rfl]

theorem dropForBand_given (s : State) (p : Pos) (b : Option Band) : s.dropForBand p b = match s.waitsOn p, b with
    | some a, some band => if (s.config a).bandMask.getLsbD band.index then s else s.removeWaiting p (.dropped .band)
    | _, _ => s := by
  unfold State.dropForBand
  cases s.waitsOn p with
  | none => rfl
  | some a => cases b <;> rfl

/-- A band change by its steps, the report last (R5, R6, R76). -/
theorem changeBand_steps (s : State) (p : Pos) (b : Option Band) (cause : BandCause) :
    let given := (s.onDec p fun d => { d with band := b }).givePath p { (s.seq p).requested with filter := b }
    let fitted := match s.waitsOn p, b with
      | some a, some band => if (s.config a).bandMask.getLsbD band.index then given else given.removeWaiting p (.dropped .band)
      | _, _ => given
    s.changeBand p b cause = (fitted.select p .start).report [p] (.band p (s.band p) b (s.dec p).stable cause) := by
  intro given fitted
  have step : SeqStep (s.onDec p fun d => { d with band := b }) given := givePath_step _ p _
  have waits : given.waitsOn p = s.waitsOn p := step.waitsOn p
  have config : ∀ a, given.config a = s.config a := fun a => by rw [State.config, step.settings]; rfl
  have dropped : given.dropForBand p b = fitted := by
    rw [dropForBand_given, waits]
    simp only [config]
    rfl
  have stable : (fitted.dec p).stable = (s.dec p).stable := by
    rw [← dropped, (blind_stable p).dropForBand, (blind_stable p).givePath, onDec_same]
  rw [← stable, ← dropped]
  rfl

/-- Settles O19: the two refusals change no condition, and DONE is the cut and then the band change. -/
theorem setBandMoves : Obligations.SetBandMoves := by
  intro port tag p b s takes may
  refine ⟨fun lines => ?_, fun message held => ?_, fun message other => ?_, fun cause => changeBand_steps s p b cause⟩
  · have wrong : s.bandResult p b = .wrongSource := if_pos lines
    rw [exec_setBand tag b takes may, wrong, if_neg (by decide), followAux_answer]
  · have already : s.bandResult p b = .already := by simp [State.bandResult, message, held]
    rw [exec_setBand tag b takes may, already, if_neg (by decide), followAux_answer]
  · have done : s.bandResult p b = .done := by simp [State.bandResult, message, other]
    rw [exec_setBand tag b takes may, done, if_pos rfl]
    exact ⟨_, rfl, rfl, moveBand_effects port tag p b s⟩

/-! ### Settles (R2, R3, R12 to R14) -/

/-- A pattern that has settled: stable, with the debounce timer stopped (R2). -/
def State.settled (s : State) (p : Pos) (code : BitVec 4) : State := s.onDec p fun d => { d with stable := some code, debounce := none }

/-- A granted position whose pattern leaves its keyed reference on a guard line, every guard line counting where the reference is absent (R13, log 19). -/
def State.movesOff (s : State) (p : Pos) (code : BitVec 4) : Prop :=
  s.granted p = true ∧ ∃ i : Fin 4, (s.place p).guardMask.getLsbD i.val = true ∧ ∀ r, (s.dec p).reference = some r → code.getLsbD i.val ≠ r.getLsbD i.val

theorem settleBand_message {s : State} {p : Pos} {code : BitVec 4} (raw : (s.dec p).raw = some code) (message : (s.place p).source = .message) :
    s.settleBand p = s.settled p code := by
  simp only [State.settleBand, raw, message]
  rfl

theorem settleBand_lines {s : State} {p : Pos} {code : BitVec 4} (raw : (s.dec p).raw = some code) (lines : (s.place p).source = .lines) :
    s.settleBand p = ((s.settled p code).checkReference p code).applyBand p (s.mapBand code) .lines := by
  simp only [State.settleBand, raw, lines]
  rfl

theorem settled_band (s : State) (p : Pos) (code : BitVec 4) (q : Pos) : (s.settled p code).band q = s.band q := by
  rw [State.band, State.settled, onDec_at]
  split
  · rename_i e; rw [e]; rfl
  · rfl

/-- The check of a settle is passed exactly where the pattern does not move off the reference (R3, R13). -/
theorem checkReference_settled (s : State) (p : Pos) (code : BitVec 4) :
    (s.movesOff p code → (s.settled p code).checkReference p code = (s.settled p code).cut p .bandMoved)
      ∧ (¬ s.movesOff p code → (s.settled p code).checkReference p code = s.settled p code) := by
  have granted : (s.settled p code).granted p = s.granted p := rfl
  have reference : ((s.settled p code).dec p).reference = (s.dec p).reference := by simp [State.settled]
  have place : (s.settled p code).place p = s.place p := rfl
  have test : ((s.settled p code).granted p && departs code ((s.settled p code).dec p).reference ((s.settled p code).place p).guardMask) = true
      ↔ s.movesOff p code := by
    rw [granted, reference, place, Bool.and_eq_true, departs_iff]
    rfl
  exact ⟨fun h => if_pos (test.2 h), fun h => if_neg fun x => h (test.1 x)⟩

/-- A cut of a granted position, written out (R138). -/
theorem settled_cut {s : State} {p : Pos} (code : BitVec 4) (granted : s.granted p = true) : (s.settled p code).cut p .bandMoved =
    ((((s.settled p code).endGrant p (if (s.key p).level then .blocked else .off)).walk).report [p] (.keyCut p .bandMoved (s.key p).grant none)) :=
  if_pos granted

theorem settleBand_stays {s : State} {p : Pos} {code : BitVec 4} (raw : (s.dec p).raw = some code) (lines : (s.place p).source = .lines)
    (stays : ¬ s.movesOff p code) : s.settleBand p =
      if s.mapBand code = s.band p then s.settled p code else (s.settled p code).changeBand p (s.mapBand code) .lines := by
  rw [settleBand_lines raw lines, (checkReference_settled s p code).2 stays, applyBand_eq, settled_band]

theorem settleBand_moves {s : State} {p : Pos} {code : BitVec 4} (raw : (s.dec p).raw = some code) (lines : (s.place p).source = .lines)
    (moves : s.movesOff p code) : s.settleBand p =
      if s.mapBand code = s.band p then (s.settled p code).cut p .bandMoved
      else ((s.settled p code).cut p .bandMoved).changeBand p (s.mapBand code) .lines := by
  rw [settleBand_lines raw lines, (checkReference_settled s p code).1 moves, applyBand_eq, cut_band, settled_band]

theorem afterCut_asleep (s : State) (p : Pos) : (s.afterCut p).asleep := by
  unfold State.afterCut
  split
  · exact .inr rfl
  · exact .inl rfl

/-- A position that has been cut is off the air in OFF or BLOCKED, with its keyed reference gone (R12, R121, R138). -/
theorem cut_rests {s : State} {p : Pos} (r : KeyReason) (granted : s.granted p = true) :
    ((s.cut p r).key p).state = s.afterCut p ∧ (s.cut p r).txen p = false ∧ ((s.cut p r).dec p).reference = none := by
  have asleep : ((s.endGrant p (s.afterCut p)).key p).state.asleep := by
    rw [endGrant_key, if_pos rfl]
    exact afterCut_asleep s p
  rw [State.cut, if_pos granted]
  obtain ⟨key, txen, reference⟩ := ((walk_leaves _).reported [p] (.keyCut p r (s.key p).grant none)).asleep p asleep
  rw [key, txen, reference, endGrant_key, endGrant_txen, endGrant_dec, if_pos rfl, if_pos rfl, if_pos rfl]
  exact ⟨rfl, rfl, rfl⟩

/-! ### Samples (R1, R10, R15) -/

theorem sampleLines_same {s : State} {p : Pos} (same : (s.dec p).raw = some (s.sampledPattern p)) : s.sampleLines p = s := if_pos same

theorem sampleLines_loads {s : State} {p : Pos} (other : (s.dec p).raw ≠ some (s.sampledPattern p)) (time : s.settings.debounce ≠ 0) :
    s.sampleLines p = s.onDec p fun d => { d with raw := some (s.sampledPattern p), debounce := s.load s.settings.debounce } := by
  rw [State.sampleLines, if_neg other, State.takePattern, if_neg time]

theorem sampleLines_settles {s : State} {p : Pos} (other : (s.dec p).raw ≠ some (s.sampledPattern p)) (time : s.settings.debounce = 0) :
    s.sampleLines p = (s.onDec p fun d => { d with raw := some (s.sampledPattern p) }).settleBand p := by
  rw [State.sampleLines, if_neg other, State.takePattern, if_pos time]

theorem exec_bandLinesChange {s : State} (p : Pos) (v : BitVec 4) (running : s.running = true) :
    exec (.bandLinesChange p v) s = .next (followAux (s.setLines p v) ((s.setLines p v).sampleLines p)) :=
  event_running (f := fun s => s.sampleLines p) (s := s.setLines p v) running

theorem exec_settle_due {s : State} {p : Pos} (running : s.running = true) (due : s.due (s.dec p).debounce = true) :
    exec (.settle p) s = .next (followAux s (s.settleBand p)) := by
  have settles : onlyIf (fun s => s.settleDue p) (fun s => s.settleBand p) s = s.settleBand p := if_pos due
  rw [← settles]
  exact event_running (f := onlyIf (fun s => s.settleDue p) fun s => s.settleBand p) running

theorem exec_settle_early {s : State} {p : Pos} (running : s.running = true) (early : s.due (s.dec p).debounce = false) : exec (.settle p) s = .next s := by
  have waits : onlyIf (fun s => s.settleDue p) (fun s => s.settleBand p) s = s := if_neg (by simp [State.settleDue, early])
  refine (event_running (f := onlyIf (fun s => s.settleDue p) fun s => s.settleBand p) running).trans ?_
  rw [waits, followAux_self]

/-- What a settle in LINES source leaves, cut or not: the pattern stable, the timer stopped, the band of the map, and the settings as they were (R2, R3). -/
theorem settleBand_effects {s : State} {p : Pos} {code : BitVec 4} (raw : (s.dec p).raw = some code) (lines : (s.place p).source = .lines) :
    ((s.settleBand p).dec p).stable = some code ∧ ((s.settleBand p).dec p).debounce = none ∧ (s.settleBand p).band p = s.mapBand code
      ∧ (s.settleBand p).settings = s.settings := by
  have checked : ∀ {α : Type} {π : State → α}, Blind π → π ((s.settled p code).checkReference p code) = π (s.settled p code) := fun h => by
    unfold State.checkReference
    split
    · exact h.cut _ _ _
    · rfl
  rw [settleBand_lines raw lines]
  refine ⟨?_, ?_, by rw [applyBand_band, if_pos rfl], ?_⟩
  · rw [applyBand_eq]
    split
    · rw [checked (blind_stable p)]; simp [State.settled]
    · rw [changeBand_stable, checked (blind_stable p)]; simp [State.settled]
  · rw [applyBand_eq]
    split
    · rw [checked (blind_debounce p)]; simp [State.settled]
    · rw [changeBand_debounce, checked (blind_debounce p)]; simp [State.settled]
  · rw [applyBand_eq]
    split
    · rw [checked blind_settings]; rfl
    · rw [changeBand_settings, checked blind_settings]; rfl

/-- A settle that moves off its reference leaves the position off the air (R12, R13, R138). -/
theorem settleBand_rests {s : State} {p : Pos} {code : BitVec 4} (raw : (s.dec p).raw = some code) (lines : (s.place p).source = .lines)
    (moves : s.movesOff p code) :
    ((s.settleBand p).key p).state = s.afterCut p ∧ ((s.settleBand p).dec p).reference = none ∧ (s.settleBand p).txen p = false := by
  obtain ⟨state, txen, reference⟩ := cut_rests (s := s.settled p code) .bandMoved moves.1
  have after := applyBand_leaves ((s.settled p code).cut p .bandMoved) p (s.mapBand code) .lines
  obtain ⟨key', txen', reference'⟩ := after.asleep p (state ▸ afterCut_asleep _ p)
  rw [settleBand_lines raw lines, (checkReference_settled s p code).1 moves, key', txen', reference']
  exact ⟨state, reference, txen⟩

/-- Settles O22: the settle by source and departure; a sample is that of the moved pins, and an expiry runs the settle. -/
theorem linesSampledAndSettled : Obligations.LinesSampledAndSettled := by
  refine ⟨fun p code s raw => ⟨settleBand_message raw, settleBand_stays raw, fun lines moves => ?_⟩, fun p v s running => ?_⟩
  · have cut := settleBand_moves raw lines moves
    rw [settled_cut code moves.1] at cut
    exact cut
  have sampled : (s.setLines p v).sampledPattern p = v &&& (s.place p).lineMask := by
    rw [State.sampledPattern, setLines_same]; rfl
  have seen : (s.dec p).raw ≠ some (v &&& (s.place p).lineMask) → ((s.setLines p v).dec p).raw ≠ some ((s.setLines p v).sampledPattern p) :=
    fun other same => other (by rw [← sampled]; exact same)
  refine ⟨fun same => ?_, fun other time => ?_, fun other time => ?_, exec_settle_early running, fun code due raw => ?_⟩
  · rw [exec_bandLinesChange p v running, sampleLines_same (by rw [sampled]; exact same), followAux_self]
  · rw [exec_bandLinesChange p v running, sampleLines_loads (seen other) (s := s.setLines p v) time, followAux_onDec, sampled]
    rfl
  · rw [exec_bandLinesChange p v running, sampleLines_settles (seen other) (s := s.setLines p v) time, sampled]
  rw [exec_settle_due running due]
  refine ⟨fun message => ?_, fun lines stays => ?_, fun lines moves => ?_, fun lines => ?_⟩
  · rw [settleBand_message raw message]
    exact congrArg _ (followAux_onDec s p _)
  · rw [settleBand_stays raw lines stays]
    rfl
  · have cut := settleBand_moves raw lines moves
    rw [settled_cut code moves.1] at cut
    obtain ⟨state, reference, txen⟩ := settleBand_rests raw lines moves
    refine ⟨_, rfl, congrArg (followAux s) cut, ?_⟩
    rw [followAux_key, followAux_dec, followAux_txen]
    exact ⟨state, reference, txen⟩
  · refine ⟨_, rfl, ?_⟩
    rw [followAux_dec, (blind_band p).followAux, blind_settings.followAux]
    exact settleBand_effects raw lines

end Sys2Proof.Machine
end

