-- ==== Sys2Proof/Proofs/BandSettings.lean ====
section
/-! The Band Decoder's settings: SET-BANDING, which restarts a debounce, and SET-BANDMAP, which is applied at once (R9 to R11, R14). -/

namespace Sys2Proof.Machine

theorem onDec_onDec (s : State) (p : Pos) (f g : Decoder → Decoder) : (s.onDec p f).onDec p g = s.onDec p fun d => g (f d) := by
  simp [State.onDec, upd]

theorem onPlace_place (s : State) (p : Pos) (f : PositionConfig → PositionConfig) (q : Pos) :
    (s.onPlace p f).place q = if q = p then f (s.place p) else s.place q := by
  by_cases h : q = p
  · subst h; rw [if_pos rfl]; exact upd_same s.settings.positions q f
  · rw [if_neg h]; exact upd_other s.settings.positions p q f h

/-- A cut position is not granted, whatever it was (R138). -/
theorem cut_not_granted (s : State) (p : Pos) (r : KeyReason) : (s.cut p r).granted p = false := by
  by_cases granted : s.granted p = true
  · obtain ⟨state, -, -⟩ := cut_rests r granted
    rcases afterCut_asleep s p with e | e <;> rw [State.granted, state, e] <;> rfl
  · rw [State.cut, if_neg granted]
    simpa using granted

theorem followAux_granted (s t : State) (p : Pos) : (followAux s t).granted p = t.granted p := by
  rw [State.granted, followAux_key]; rfl

/-! ### SET-BANDING (R9, R10, R14) -/

/-- SET-BANDING with the bytes of its four fields, at its block (R9). -/
theorem exec_setBanding (tag : Byte) (p : Pos) (src : Source) (line guard_ : BitVec 4) {s : State} (takes : s.Takes 0) :
    exec (.setBanding 0 tag (posByte p) src.code (byteOf line.toNat) (byteOf guard_.toNat)) s = .next (followAux s
      (if (s.place p).withBanding src line guard_ = s.place p then s.answer 0 .setBanding tag .already
        else (s.answer 0 .setBanding tag .done).writeBanding p ((s.place p).withBanding src line guard_))) := by
  have served : serveSetBanding 0 tag (posByte p) src.code (byteOf line.toNat) (byteOf guard_.toNat) s =
      if (s.place p).withBanding src line guard_ = s.place p then s.answer 0 .setBanding tag .already
      else (s.answer 0 .setBanding tag .done).writeBanding p ((s.place p).withBanding src line guard_) := by
    unfold serveSetBanding
    rw [takeRequest_served takes.room rfl (rfl : supervisorOnly 0 = true), posOf_posByte, sourceOf_code, lineMaskOf_byteOf, lineMaskOf_byteOf]
  rw [← served]
  exact event_running takes.running

/-- A SET-BANDING answered DONE whose source or line mask has changed, up to its cut (R9, R10 step 1). -/
def State.rebanded (s : State) (tag : Byte) (p : Pos) (new : PositionConfig) : State :=
  ((s.answer 0 .setBanding tag .done).onPlace p fun _ => new).cut p .bandMoved

section
variable (s : State) (tag : Byte) (p : Pos) (new : PositionConfig)

theorem rebanded_arb : ArbFrame ((s.answer 0 .setBanding tag .done).onPlace p fun _ => new) (s.rebanded tag p new) := cut_arb _ _ _

theorem rebanded_settings : (s.rebanded tag p new).settings = (s.onPlace p fun _ => new).settings := (rebanded_arb s tag p new).settings

theorem rebanded_timebase : (s.rebanded tag p new).timebase = s.timebase := (rebanded_arb s tag p new).timebase

theorem rebanded_place : (s.rebanded tag p new).place p = new := by
  rw [(rebanded_arb s tag p new).place, onPlace_place, if_pos rfl]

theorem rebanded_band : (s.rebanded tag p new).band p = s.band p := (rebanded_arb s tag p new).band p

theorem rebanded_stable : ((s.rebanded tag p new).dec p).stable = (s.dec p).stable := (rebanded_arb s tag p new).stable p

theorem rebanded_mapBand (code : BitVec 4) : (s.rebanded tag p new).mapBand code = s.mapBand code := by
  rw [State.mapBand, rebanded_settings]; rfl

theorem rebanded_sampled : (s.rebanded tag p new).sampledPattern p = s.lines p &&& new.lineMask := by
  rw [State.sampledPattern, rebanded_place, State.lines, (rebanded_arb s tag p new).lineInputs]; rfl

theorem rebanded_not_granted : (s.rebanded tag p new).granted p = false := cut_not_granted _ _ _

theorem rebanded_decoder (q : Pos) : ({ (s.rebanded tag p new).dec q with reference := none } : Decoder) = { s.dec q with reference := none } :=
  (blind_decoder q).cut _ _ _

/-- A position that was granted is in OFF or BLOCKED after it (R138). -/
theorem rebanded_asleep (granted : s.granted p = true) : ((s.rebanded tag p new).key p).state.asleep := by
  obtain ⟨state, -, -⟩ := cut_rests (s := (s.answer 0 .setBanding tag .done).onPlace p fun _ => new) .bandMoved granted
  rw [State.rebanded, state]
  exact afterCut_asleep _ p

end

/-- A changed source or line mask: the cut, then the lines through the new mask as the raw pattern (R10). -/
theorem writeBanding_restarts {s : State} {p : Pos} {new : PositionConfig} (tag : Byte)
    (changed : ¬ ((s.place p).source = new.source ∧ (s.place p).lineMask = new.lineMask)) :
    (s.answer 0 .setBanding tag .done).writeBanding p new = (s.rebanded tag p new).takePattern p (s.lines p &&& new.lineMask) := by
  have place : (s.answer 0 .setBanding tag .done).place p = s.place p := rfl
  rw [State.writeBanding, place, if_neg changed, ← rebanded_sampled s tag p new]
  rfl

/-- The restarted debounce settles at once where its time is 0: no cut is left to make, and in LINES source the band is the map's (R10, R14). -/
theorem rebanded_settles (s : State) (tag : Byte) (p : Pos) (new : PositionConfig) (pattern : BitVec 4) :
    let settled := (s.rebanded tag p new).onDec p fun d => { d with raw := some pattern, stable := some pattern, debounce := none }
    ((s.rebanded tag p new).onDec p fun d => { d with raw := some pattern }).settleBand p = match new.source with
      | .message => settled
      | .lines => if s.mapBand pattern = s.band p then settled else settled.changeBand p (s.mapBand pattern) .lines := by
  intro settled
  have raw : (((s.rebanded tag p new).onDec p fun d => { d with raw := some pattern }).dec p).raw = some pattern := by simp
  have once : ((s.rebanded tag p new).onDec p fun d => { d with raw := some pattern }).settled p pattern = settled := onDec_onDec _ _ _ _
  have place : ((s.rebanded tag p new).onDec p fun d => { d with raw := some pattern }).place p = new := rebanded_place s tag p new
  have band : ((s.rebanded tag p new).onDec p fun d => { d with raw := some pattern }).band p = s.band p := by
    rw [State.band, onDec_same]; exact rebanded_band s tag p new
  have map : ((s.rebanded tag p new).onDec p fun d => { d with raw := some pattern }).mapBand pattern = s.mapBand pattern :=
    rebanded_mapBand s tag p new pattern
  have stays : ¬ ((s.rebanded tag p new).onDec p fun d => { d with raw := some pattern }).movesOff p pattern := fun h => by
    have granted : (s.rebanded tag p new).granted p = true := h.1
    rw [rebanded_not_granted] at granted
    cases granted
  cases h : new.source with
  | message => rw [settleBand_message raw (by rw [place, h]), once]
  | lines => rw [settleBand_stays raw (by rw [place, h]) stays, once, band, map]

/-- What a SET-BANDING leaves that settles at once: its settings, nothing granted that was, the pattern raw and stable, and the band by the source (R10, R14). -/
theorem rebanded_settled_effects (s : State) (tag : Byte) (p : Pos) (new : PositionConfig) (pattern : BitVec 4) :
    let t := ((s.rebanded tag p new).onDec p fun d => { d with raw := some pattern }).settleBand p
    t.settings = (s.onPlace p fun _ => new).settings ∧ (s.granted p = true → t.granted p = false) ∧ (t.dec p).raw = some pattern
      ∧ (t.dec p).stable = some pattern ∧ (t.dec p).debounce = none
      ∧ t.band p = match new.source with | .lines => s.mapBand pattern | .message => s.band p := by
  have band : ((s.rebanded tag p new).onDec p fun d => { d with raw := some pattern, stable := some pattern, debounce := none }).band p = s.band p := by
    rw [State.band, onDec_same]; exact rebanded_band s tag p new
  intro t
  have granted : s.granted p = true → t.granted p = false := fun h => by
    have left := settleBand_leaves ((s.rebanded tag p new).onDec p fun d => { d with raw := some pattern }) p
    obtain ⟨key, -, -⟩ := left.asleep p (rebanded_asleep s tag p new h)
    rw [State.granted, key]; exact rebanded_not_granted s tag p new
  refine ⟨?_, granted, ?_⟩ <;> rw [show t = _ from rebanded_settles s tag p new pattern]
  · cases new.source with
    | message => exact rebanded_settings s tag p new
    | lines =>
      dsimp only
      split
      · exact rebanded_settings s tag p new
      · rw [changeBand_settings]; exact rebanded_settings s tag p new
  · cases new.source with
    | message => rw [onDec_same]; exact ⟨rfl, rfl, rfl, band⟩
    | lines =>
      dsimp only
      split
      · rename_i same
        rw [onDec_same]; exact ⟨rfl, rfl, rfl, band.trans same.symm⟩
      · rw [changeBand_raw, changeBand_stable, changeBand_debounce, changeBand_band, onDec_same]; exact ⟨rfl, rfl, rfl, if_pos rfl⟩

/-- Settles O20: the equal values and the guard mask alone move no condition; else the cut, then the debounce that runs or settles at once. -/
theorem setBandingWrites : Obligations.SetBandingWrites := by
  intro tag p src line guard_ s takes c new pattern written told
  have told_eq : told = s.rebanded tag p new := rfl
  have bytes : c = .setBanding 0 tag (posByte p) src.code (byteOf line.toNat) (byteOf guard_.toNat) := rfl
  have put : (s.place p).withBanding src line guard_ = new := rfl
  have served := exec_setBanding tag p src line guard_ takes
  rw [put, ← bytes] at served
  have differs : ¬ ((s.place p).source = src ∧ (s.place p).lineMask = line) → new ≠ s.place p := fun changed same =>
    changed ⟨(congrArg PositionConfig.source same).symm, (congrArg PositionConfig.lineMask same).symm⟩
  refine ⟨fun same => ?_, fun other source mask => ?_, fun changed time => ?_, fun changed time => ?_⟩
  · rw [served, if_pos same, followAux_answer]
  · have alone : (s.answer 0 .setBanding tag .done).writeBanding p new = (s.answer 0 .setBanding tag .done).onPlace p fun _ => new :=
      if_pos ⟨source, mask⟩
    have follow : ∀ q : Pos, ((s.onPlace p fun _ => new).place q).follow = (s.place q).follow := fun q => by
      rw [onPlace_place]
      split
      · rename_i e; rw [e]
      · rfl
    rw [served, if_neg other, alone]
    exact congrArg _ (followAux_settings s 0 _ _ follow)
  · have loads : (s.answer 0 .setBanding tag .done).writeBanding p new = told.onDec p fun d =>
        { d with raw := some pattern, debounce := some (s.timebase + BitVec.ofNat 32 s.settings.debounce) } := by
      have time' : (s.rebanded tag p new).settings.debounce = s.settings.debounce := by rw [rebanded_settings]; rfl
      rw [writeBanding_restarts tag changed, State.takePattern, if_neg (by rw [time']; exact time), State.load, rebanded_timebase, time']
      rfl
    rw [served, if_neg (differs changed), loads, told_eq]
    refine ⟨_, rfl, rfl, ?_, ?_, ?_, ?_, ?_, ?_, fun q hq => ?_⟩
    · rw [blind_settings.followAux]; exact rebanded_settings s tag p new
    · rw [followAux_granted]; exact rebanded_not_granted s tag p new
    · rw [followAux_dec, onDec_same]
    · rw [followAux_dec, onDec_same]
    · rw [followAux_dec, onDec_same]; exact rebanded_stable s tag p new
    · rw [(blind_band p).followAux, State.band, onDec_same]; exact rebanded_band s tag p new
    · rw [followAux_dec, onDec_other _ _ _ _ hq]; exact rebanded_decoder s tag p new q
  · have settles : (s.answer 0 .setBanding tag .done).writeBanding p new =
        ((s.rebanded tag p new).onDec p fun d => { d with raw := some pattern }).settleBand p := by
      have time' : (s.rebanded tag p new).settings.debounce = 0 := by rw [rebanded_settings]; exact time
      rw [writeBanding_restarts tag changed, State.takePattern, if_pos time']
    obtain ⟨settings, granted, raw, stable, debounce, band⟩ := rebanded_settled_effects s tag p new pattern
    rw [served, if_neg (differs changed), settles]
    refine ⟨_, rfl, congrArg (followAux s) (rebanded_settles s tag p new pattern), ?_⟩
    rw [blind_settings.followAux, followAux_granted, followAux_dec, (blind_band p).followAux]
    exact ⟨settings, granted, raw, stable, debounce, band⟩

/-! ### SET-BANDMAP (R11) -/

theorem readAll_bandByte (l : List (Option Band)) : readAll bandOrNoneOf (l.map bandByte) = some l := by
  induction l with
  | nil => rfl
  | cons b rest ih =>
    simp only [List.map_cons, readAll, bandOrNoneOf_bandByte, ih]

theorem mapOf_toList (map : Vector (Option Band) 16) : mapOf map.toList = map :=
  Vector.ext fun i hi => by simp [mapOf]

theorem clamp_debounce (d : Byte) : clamp 0 250 d.toNat = min 250 d.toNat := by simp [clamp]

/-- SET-BANDMAP with the bytes of a map and a debounce time, at its block (R11). -/
theorem exec_setBandmap (tag d : Byte) (map : Vector (Option Band) 16) {s : State} (takes : s.Takes 0) :
    let same := map = s.settings.bandMap ∧ min 250 d.toNat = s.settings.debounce
    let answered := s.answer 0 .setBandmap tag (settingResult same (min 250 d.toNat != d.toNat))
    exec (.setBandmap 0 tag (map.toList.map bandByte) d) s
      = .next (followAux s (if same then answered else answered.writeBandMap map (min 250 d.toNat))) := by
  intro same answered
  have served : serveSetBandmap 0 tag (map.toList.map bandByte) d s = if same then answered else answered.writeBandMap map (min 250 d.toNat) := by
    unfold serveSetBandmap
    rw [takeRequest_served takes.room (by simp [bandmapEntries]) (rfl : supervisorOnly 0 = true), readAll_bandByte]
    simp only [mapOf_toList, clamp_debounce]
    rfl
  rw [← served]
  exact event_running takes.running

/-- In LINES source with a stable pattern, a new map gives its band (R11, log 29). -/
theorem remap_lines {s : State} {p : Pos} {code : BitVec 4} (lines : (s.place p).source = .lines) (stable : (s.dec p).stable = some code) :
    s.remap p = s.applyBand p (s.mapBand code) .map := by
  simp only [State.remap, lines, stable]

theorem remap_message {s : State} {p : Pos} (message : (s.place p).source = .message) : s.remap p = s := by
  simp only [State.remap, message]

theorem remap_unsettled {s : State} {p : Pos} (unsettled : (s.dec p).stable = none) : s.remap p = s := by
  cases source : (s.place p).source <;> simp only [State.remap, source, unsettled]

/-- A new map at one position is a band change there, or nothing (R11). -/
theorem remap_cases (s : State) (p : Pos) : s.remap p = s ∨ ∃ b, s.remap p = s.changeBand p b .map := by
  unfold State.remap State.applyBand
  split
  · split
    · exact .inl rfl
    · exact .inr ⟨_, rfl⟩
  · exact .inl rfl

/-- What the map of one position rests on: the settings just written, and the band and the stable pattern of the position as they were. -/
structure MapsAs (s : State) (settings : Settings) (p : Pos) (u : State) : Prop where
  settings : u.settings = settings
  band : u.band p = s.band p
  stable : (u.dec p).stable = (s.dec p).stable

theorem remap_settings (s : State) (p : Pos) : (s.remap p).settings = s.settings := by
  rcases remap_cases s p with e | ⟨b, e⟩
  · rw [e]
  · rw [e, changeBand_settings]

theorem remap_stable (s : State) (p q : Pos) : ((s.remap p).dec q).stable = (s.dec q).stable := by
  rcases remap_cases s p with e | ⟨b, e⟩
  · rw [e]
  · rw [e, changeBand_stable]

theorem remap_other_band (s : State) (p q : Pos) (h : q ≠ p) : (s.remap p).band q = s.band q := by
  rcases remap_cases s p with e | ⟨b, e⟩
  · rw [e]
  · rw [e, changeBand_band, if_neg h]

theorem MapsAs.remap {s u : State} {settings : Settings} {p q : Pos} (i : MapsAs s settings q u) (h : q ≠ p) : MapsAs s settings q (u.remap p) :=
  ⟨(remap_settings u p).trans i.settings, (remap_other_band u p q h).trans i.band, (remap_stable u p q).trans i.stable⟩

section
variable {s u : State} {settings : Settings} {p : Pos} (i : MapsAs s settings p u) (positions : settings.positions = s.settings.positions)
include i positions

theorem MapsAs.place : u.place p = s.place p := by simp [State.place, i.settings, positions]

theorem MapsAs.remap_message (message : (s.place p).source = .message) : u.remap p = u :=
  Machine.remap_message (by rw [i.place positions]; exact message)

theorem MapsAs.remap_lines {code : BitVec 4} (lines : (s.place p).source = .lines) (stable : (s.dec p).stable = some code) :
    u.remap p = u.applyBand p (settings.bandMap[code.toNat]'(code.isLt)) .map := by
  rw [Machine.remap_lines (by rw [i.place positions]; exact lines) (i.stable.trans stable)]
  simp only [State.mapBand, i.settings]

end

/-- Settles O21: equal values move no condition; a new map runs over the positions in order, and what one position is given the others leave. -/
theorem setBandmapApplied : Obligations.SetBandmapApplied := by
  intro tag d map s takes c time
  have served : exec c s = _ := exec_setBandmap tag d map takes
  refine ⟨fun held kept => ?_, fun changed => ?_⟩
  · have same : map = s.settings.bandMap ∧ min 250 d.toNat = s.settings.debounce := ⟨held, kept⟩
    rw [served, if_pos same]
    simp only [settingResult, same, and_self, decide_true, if_true]
    exact congrArg _ (followAux_answer s 0 _ _ _)
  have result : settingResult (decide (map = s.settings.bandMap ∧ min 250 d.toNat = s.settings.debounce)) (min 250 d.toNat != d.toNat)
      = if time = d.toNat then .done else .clamped := by
    rw [decide_eq_false changed]
    by_cases e : min 250 d.toNat = d.toNat <;> simp [settingResult, time, e]
  have positions : ({ s.settings with bandMap := map, debounce := time } : Settings).positions = s.settings.positions := rfl
  have start : ∀ (r : Result) (p : Pos), MapsAs s { s.settings with bandMap := map, debounce := time } p
      ((s.answer 0 .setBandmap tag r).onSettings fun c => { c with bandMap := map, debounce := time }) := fun r p => ⟨rfl, rfl, rfl⟩
  rw [served, if_neg changed, result]
  refine ⟨_, rfl, congrArg (followAux s) ?_, ?_, fun p => ?_⟩
  · refine forEach_congr (MapsAs s { s.settings with bandMap := map, debounce := time }) (fun p u i => ?_) (fun p q u h i => i.remap h) allPos_nodup (start _)
    cases source : (s.place p).source with
    | message => exact i.remap_message positions source
    | lines =>
      cases stable : (s.dec p).stable with
      | none => exact remap_unsettled (i.stable.trans stable)
      | some code => rw [i.remap_lines positions source stable, applyBand_eq, i.band]
  · rw [blind_settings.followAux]
    exact blind_forEach allPos _ (fun p u => remap_settings u p) _
  · rw [(blind_band p).followAux, State.writeBandMap]
    refine forEach_at p (MapsAs s { s.settings with bandMap := map, debounce := time } p) (fun u => u.band p = _) (fun q u h i => i.remap (Ne.symm h))
      (fun q u h e => (remap_other_band u q p (Ne.symm h)).trans e) (fun u i => ?_) (start _ p)
    cases source : (s.place p).source with
    | message => rw [i.remap_message positions source]; exact i.band
    | lines =>
      cases stable : (s.dec p).stable with
      | none => rw [remap_unsettled (i.stable.trans stable)]; exact i.band
      | some code => rw [i.remap_lines positions source stable, applyBand_band, if_pos rfl]

end Sys2Proof.Machine
end

