-- ==== Sys2Proof/Proofs/Ticks.lean ====
section
/-! A step with no command waiting: the event that is due first, and else one millisecond of the Timebase (R1, R15, R34, R122, R170, R171). -/

namespace Sys2Proof.Machine

/-! ### The events that are due, in their order (log 2) -/

theorem firstDue_eq {α : Type} (l : List α) (due : α → Bool) (command : α → Instr) :
    ((l.map fun x => (due x, command x)).find? fun x => x.1).map (fun x => x.2) = firstDue l due command := by
  rw [firstDue, List.find?_map, Option.map_map]
  rfl

theorem claimDue_eq (s : State) (p : Pos) : ((s.waitingClaim p).any fun x => s.due x.2.expiry) = s.claimDue p := by
  unfold State.claimDue
  cases s.waitingClaim p <;> rfl

theorem orElse_eq_or {α : Type} (a b : Option α) : (a <|> b) = a.or b := by
  cases a <;> rfl

/-- The order of the events that are due is that of the lists, each in number order. -/
theorem dueCommand_eq (s : State) : s.dueCommand =
    (([allPos.map fun p => (s.settleDue p, .settle p), allPos.map fun p => (s.edgeDue p, .pttEdge p), allPos.map fun p => (s.phaseDue p .brk, .breakEnd p),
      allPos.map fun p => (s.phaseDue p .make, .makeEnd p), allPos.map fun p => (s.hotDue p, .rfHot p),
      allPos.map fun p => (s.tapGuardDue p, .tapGuardExpiry p), allPos.map fun p => (s.hangDue p, .hangExpiry p),
      allPos.map fun p => (s.maxKeyDue p, .maxKeyExpiry p), allPos.map fun p => (s.claimDue p, .claimExpired p),
      allPorts.map fun port => (s.gapDue port, .byteGapExpiry port),
      allAnts.map fun a => (!(s.sensor a).sampled, .couplerSample a (s.coupler a).1 (s.coupler a).2)] : List (List (Bool × Instr))).flatten.find?
        fun x => x.1).map fun x => x.2 := by
  simp only [List.flatten_cons, List.flatten_nil, List.append_nil, List.find?_append, Option.map_or, firstDue_eq]
  simp only [State.dueCommand, State.dueTimer, State.dueSample, orElse_eq_or, Option.or_assoc]

/-! ### The count and the flash edge (R34, R171) -/

theorem forEach_sensor (f : SensorRecord → SensorRecord) (l : List Ant) (s : State) (distinct : l.Nodup) (x : Ant) :
    (forEach l (fun a s => s.onSensor a f) s).sensor x = if x ∈ l then f (s.sensor x) else s.sensor x := by
  induction l generalizing s with
  | nil => simp [forEach]
  | cons a rest ih =>
    obtain ⟨new, distinct⟩ := List.nodup_cons.1 distinct
    refine (ih (s.onSensor a f) distinct).trans ?_
    by_cases h : x = a
    · subst h; simp [new]
    · simp [onSensor_at, h]

/-- The count goes on by one, and every port's sampled mark is cleared (R34, log 9). -/
theorem countOn_marks (s : State) : s.countOn =
    { s with timebase := s.timebase + 1, sensors := s.sensors.map fun (n : SensorRecord) => { n with sampled := false } } := by
  obtain ⟨V, e⟩ := countOn_eq s
  have marks : V = s.sensors.map fun (n : SensorRecord) => { n with sampled := false } := Vector.ext fun i hi => by
    have cleared := forEach_sensor (fun n => { n with sampled := false }) allAnts (s.setTimebase (s.timebase + 1)) (by decide) ⟨i, hi⟩
    rw [if_pos (mem_allAnts _)] at cleared
    have seen : s.countOn.sensor ⟨i, hi⟩ = V[i] := by rw [e]; rfl
    rw [← seen, Vector.getElem_map]
    exact cleared
  rw [e, marks]

/-- The aux lines at a count: at a flash edge the flashing lines with a true condition take the phase that begins (R171). -/
theorem counted_eq (s : State) :
    let counted := { s with timebase := s.timebase + 1, sensors := s.sensors.map fun (n : SensorRecord) => { n with sampled := false } }
    s.counted = { counted with auxLines := Vector.ofFn fun (l : Fin 8) =>
      if counted.timebase.toNat % 250 = 0 ∧ (s.auxConfig l).flash = true ∧ s.condition (s.auxConfig l).source = true then counted.lineValue l else s.auxLine l } := by
  intro counted
  have count : s.countOn = counted := countOn_marks s
  have condition : ∀ c, counted.condition c = s.condition c := fun c => by rw [← count, countOn_condition]
  rw [State.counted, count]
  by_cases edge : counted.timebase.toNat % 250 = 0
  · obtain ⟨A, flashed, value⟩ := flashLines_spec counted
    rw [if_pos (by simpa [flashEdgeAt] using edge), flashed]
    refine congrArg counted.withAux (Vector.ext fun i hi => ?_)
    have line : A[i] = counted.flashLines.auxLine ⟨i, hi⟩ := by rw [flashed]; rfl
    rw [line, value, condition, Vector.getElem_ofFn]
    simp only [edge, true_and, Bool.and_eq_true]
    rfl
  · rw [if_neg (by simpa [flashEdgeAt] using edge)]
    refine congrArg counted.withAux (Vector.ext (xs := s.auxLines) fun i hi => ?_)
    rw [Vector.getElem_ofFn, if_neg fun h => edge h.1]
    rfl

/-! ### The samples of the inputs (R1, R122, log 10) -/

/-- The sample of a position's band lines in the tick of `s`, by the pins, the decoder and the settings of `s` (R1, R15). -/
def State.linesThen (s : State) (p : Pos) (u : State) : State :=
  let seen := s.lines p &&& (s.place p).lineMask
  if (s.dec p).raw = some seen then u
  else if s.settings.debounce = 0 then (u.onDec p fun d => { d with raw := some seen }).settleBand p
  else u.onDec p fun d => { d with raw := some seen, debounce := some (s.timebase + 1 + BitVec.ofNat 32 s.settings.debounce) }

/-- The sample of a position's PTT input in the tick of `s`, by the input and the key of `s` (R122). -/
def State.pttThen (s : State) (p : Pos) (u : State) : State := u.onKey p fun k =>
  if s.ptt p = (s.key p).level then { k with filter := none }
  else if (s.key p).filter = none then { k with filter := some (s.timebase + 1 + 2#32) } else k

/-- What the sample of one position's band lines rests on, from a state at a count. -/
structure LinesAs (s : State) (now : Count) (p : Pos) (u : State) : Prop where
  settings : u.settings = s.settings
  timebase : u.timebase = now
  lineInputs : u.lineInputs = s.lineInputs
  raw : (u.dec p).raw = (s.dec p).raw

theorem LinesAs.sampleLines {s u : State} {now : Count} {p q : Pos} (i : LinesAs s now q u) (h : q ≠ p) : LinesAs s now q (u.sampleLines p) where
  settings := (blind_settings.sampleLines (fun _ _ => rfl) u).trans i.settings
  timebase := (blind_timebase.sampleLines (fun _ _ => rfl) u).trans i.timebase
  lineInputs := (blind_lineInputs.sampleLines (fun _ _ => rfl) u).trans i.lineInputs
  raw := ((blind_raw q).sampleLines (fun v f => by rw [onDec_other v p f q h]) u).trans i.raw

theorem LinesAs.sampledPattern {s u : State} {now : Count} {p : Pos} (i : LinesAs s now p u) : u.sampledPattern p = s.lines p &&& (s.place p).lineMask := by
  simp only [State.sampledPattern, State.lines, State.place, i.settings, i.lineInputs]

/-- What the sample of one position's PTT input rests on, from a state at a count. -/
structure PttAs (s : State) (now : Count) (p : Pos) (u : State) : Prop where
  timebase : u.timebase = now
  pttInputs : u.pttInputs = s.pttInputs
  level : (u.key p).level = (s.key p).level
  filter : (u.key p).filter = (s.key p).filter

theorem samplePtt_cases (s : State) (p : Pos) : s.samplePtt p = s ∨ ∃ t, s.samplePtt p = s.onKey p fun k => { k with filter := t } := by
  unfold State.samplePtt
  split
  · exact .inr ⟨_, rfl⟩
  · split
    · exact .inl rfl
    · exact .inr ⟨_, rfl⟩

theorem PttAs.samplePtt {s u : State} {now : Count} {p q : Pos} (i : PttAs s now q u) (h : q ≠ p) : PttAs s now q (u.samplePtt p) := by
  rcases samplePtt_cases u p with e | ⟨t, e⟩
  · rw [e]; exact i
  · rw [e]
    exact ⟨i.timebase, i.pttInputs, by rw [onKey_other _ _ _ _ h]; exact i.level, by rw [onKey_other _ _ _ _ h]; exact i.filter⟩

theorem onKey_id (s : State) (p : Pos) : (s.onKey p fun k => k) = s := by
  simp [State.onKey, upd]

theorem PttAs.sampled {s u : State} {p : Pos} (i : PttAs s (s.timebase + 1) p u) : u.samplePtt p = s.pttThen p u := by
  have ptt : u.ptt p = s.ptt p := by simp only [State.ptt, i.pttInputs]
  unfold State.samplePtt State.pttThen
  rw [ptt, i.level, i.filter, State.load, i.timebase]
  by_cases same : s.ptt p = (s.key p).level
  · simp only [if_pos same]
  · simp only [if_neg same]
    cases filter : (s.key p).filter with
    | none => rfl
    | some t => exact (onKey_id u p).symm

/-- The samples keep what a PTT sample rests on: the pins, the count, and the levels and filters of the keys. -/
theorem sampleLines_pttAs (s u : State) (now : Count) (l : List Pos) (i : ∀ p, PttAs s now p u) (p : Pos) :
    PttAs s now p (forEach l (fun p u => u.sampleLines p) u) := by
  have keeps := forEach_keeps l (fun p u => u.sampleLines p) (fun p u => sampleLines_keeps u p) u
  have leaves := forEach_leaves l (fun p u => u.sampleLines p) (fun p u => sampleLines_leaves u p) u
  exact ⟨keeps.timebase.trans (i p).timebase, keeps.pttInputs.trans (i p).pttInputs, (leaves.level p).1.trans (i p).level,
    (leaves.level p).2.trans (i p).filter⟩

theorem blind_pttInputs : Blind State.pttInputs := blind_surroundings.map fun x => x.2.2.2.2.2.2.2.1
theorem blind_couplers : Blind State.couplers := blind_surroundings.map fun x => x.2.2.2.2.2.2.2.2.1
theorem blind_pending : Blind State.pending := blind_surroundings.map fun x => x.2.2.2.2.2.2.2.2.2

/-- The tick counts, and keeps the pins as they stood. -/
structure Counted (s t : State) : Prop where
  timebase : t.timebase = s.timebase + 1
  lineInputs : t.lineInputs = s.lineInputs
  pttInputs : t.pttInputs = s.pttInputs
  couplers : t.couplers = s.couplers

theorem counted_counts (s : State) : Counted s s.counted := by
  obtain ⟨⟨V, A, counted⟩, -, -⟩ := counted_spec s
  rw [counted]
  exact ⟨rfl, rfl, rfl, rfl⟩

theorem Counted.keeps {s t u : State} (c : Counted s t) (k : Keeps t u) : Counted s u :=
  ⟨k.timebase.trans c.timebase, k.lineInputs.trans c.lineInputs, k.pttInputs.trans c.pttInputs, k.couplers.trans c.couplers⟩

theorem Counted.followAux {s t : State} (c : Counted s t) : Counted s (followAux s t) where
  timebase := (blind_timebase.followAux s t).trans c.timebase
  lineInputs := (blind_lineInputs.followAux s t).trans c.lineInputs
  pttInputs := (blind_pttInputs.followAux s t).trans c.pttInputs
  couplers := (blind_couplers.followAux s t).trans c.couplers

theorem tick_counts (s : State) : Counted s s.tick := (counted_counts s).keeps (sampleInputs_keeps s.counted)

theorem counted_linesAs (s : State) (p : Pos) : LinesAs s (s.timebase + 1) p s.counted := by
  obtain ⟨⟨V, A, counted⟩, -, -⟩ := counted_spec s
  rw [counted]
  exact ⟨rfl, rfl, rfl, rfl⟩

theorem counted_pttAs (s : State) (p : Pos) : PttAs s (s.timebase + 1) p s.counted := by
  obtain ⟨⟨V, A, counted⟩, -, -⟩ := counted_spec s
  rw [counted]
  exact ⟨rfl, rfl, rfl, rfl⟩

theorem LinesAs.sampled {s u : State} {p : Pos} (i : LinesAs s (s.timebase + 1) p u) : u.sampleLines p = s.linesThen p u := by
  rw [State.sampleLines, State.takePattern, i.sampledPattern, i.raw, i.settings, State.load, i.timebase]
  rfl

/-- The samples of a tick read the pins, the keys, the decoders and the settings as they stood before it. -/
theorem tick_samples (s : State) : s.tick = forEach allPos s.pttThen (forEach allPos s.linesThen s.counted) := by
  have ptts := forEach_congr (f := fun p u => u.samplePtt p) (PttAs s (s.timebase + 1)) (fun _ _ i => i.sampled) (fun _ _ _ h i => i.samplePtt h) allPos_nodup
    (sampleLines_pttAs s _ _ allPos (counted_pttAs s))
  have lines := forEach_congr (f := fun p u => u.sampleLines p) (LinesAs s (s.timebase + 1)) (fun _ _ i => i.sampled) (fun _ _ _ h i => i.sampleLines h) allPos_nodup
    (counted_linesAs s)
  rw [tick_eq, State.sampleInputs, ptts, lines]

/-! ### A step with no command waiting -/

theorem step_idle {s : State} (empty : s.pending = []) : step s = idle s := by
  simp only [step, empty]

theorem step_tick {s : State} (empty : s.pending = []) (running : s.running = true) (none_due : s.dueCommand = none) :
    step s = .next (followAux s s.tick) := by
  rw [step_idle empty, idle, if_pos running]
  simp only [none_due]
  exact event_running running

theorem Acts.running {s t : State} (acts : Acts s t) : t.running = s.running := by
  rw [State.running, acts.powered, acts.resetIsLow]
  rfl

theorem followAux_running (s t : State) : (followAux s t).running = t.running := by
  obtain ⟨A, followed, -⟩ := followAux_spec s t
  rw [followed]
  rfl

theorem followAux_pending (s t : State) : (followAux s t).pending = t.pending := blind_pending.followAux s t

/-- Settles O2: the due event or the tick; the tick's samples read the inputs, the keys and the decoders as they stood before it. -/
theorem idleStep : Obligations.IdleStep := by
  refine ⟨fun s empty => ⟨fun stopped => ?_, fun c running due => ?_, fun running none_due => ?_⟩, fun s => ?_⟩
  · rw [step_idle empty, idle, if_neg (by simp [stopped])]
  · rw [step_idle empty, idle, if_pos running]
    simp only [due]
  · have counts := (tick_counts s).followAux
    refine ⟨_, step_tick empty running none_due, counts.timebase, by rw [followAux_running, (tick_acts s).running, running],
      by rw [followAux_pending, (tick_acts s).pending, empty], counts.lineInputs, counts.pttInputs, counts.couplers, ?_⟩
    rw [tick_samples, counted_eq]
    rfl
  · simp only [claimDue_eq]
    exact dueCommand_eq s

end Sys2Proof.Machine
end

