-- ==== Sys2Proof/Proofs/Sensing.lean ====
section
/-! The RF Sensor: the arithmetic of a sample, SET-SENSING, and what trips, changes of presence and the judgements of a sample leave alone (R35 to R52). -/

namespace Sys2Proof.Machine

/-! ### The arithmetic (R36 to R38) -/

/-- Settles O26: each clause is a fact of truncated subtraction or of rounding down. -/
theorem offsetsSubtracted : Obligations.OffsetsSubtracted := by
  intro c raw
  unfold AntennaConfig.vf AntennaConfig.vr
  refine ⟨⟨fun above => Int.ofNat_sub above, fun below => Nat.sub_eq_zero_of_le (Nat.le_of_lt below)⟩, fun above => ?_, fun below => ?_, fun unity => ?_, fun shrinks => ?_,
    fun grows => ?_, fun scale ceiling => ?_⟩
  · push_cast [above]
    rfl
  · rw [Nat.sub_eq_zero_of_le (Nat.le_of_lt below), Nat.zero_mul]
  · rw [unity, Nat.mul_div_cancel _ (by decide)]
  · rw [Nat.div_le_iff_le_mul_add_pred (by decide)]
    exact Nat.le_trans (Nat.mul_le_mul_left _ shrinks) (by omega)
  · rw [Nat.le_div_iff_mul_le (by decide)]
    exact Nat.mul_le_mul_left _ grows
  · have product : (raw - c.zr) * c.c ≤ 1023 * 192 := Nat.mul_le_mul (Nat.le_trans (Nat.sub_le _ _) scale) ceiling
    exact Nat.div_le_div_right product

theorem power_le (c : AntennaConfig) {v : Nat} (scale : v ≤ 1023) (factor : c.kf ≤ 65535) : c.power v ≤ 4087 := by
  have product : v * v * c.kf ≤ 1023 * 1023 * 65535 := Nat.mul_le_mul (Nat.mul_le_mul scale scale) factor
  exact Nat.div_le_div_right product

theorem swrOf_forward {vf vr : Nat} (forward : vr < vf) : swrOf vf vr = min 999 ((20 * (vf + vr) + (vf - vr)) / (2 * (vf - vr))) :=
  if_neg (Nat.not_le.2 forward)

/-- Tenths of an SWR begin at 10: the sum of the readings is at least their difference. -/
theorem ten_le_swrOf (vf vr : Nat) : 10 ≤ swrOf vf vr := by
  by_cases forward : vr < vf
  · rw [swrOf_forward forward, Nat.le_min, Nat.le_div_iff_mul_le (by omega)]
    omega
  · rw [swrOf, if_pos (Nat.not_lt.1 forward)]
    decide

theorem swrOf_le (vf vr : Nat) : swrOf vf vr ≤ 999 := by
  unfold swrOf
  split
  · exact Nat.le_refl 999
  · exact Nat.min_le_left _ _

theorem swrOf_no_reflection {vf : Nat} (forward : 0 < vf) : swrOf vf 0 = 10 := by
  rw [swrOf_forward forward, Nat.div_eq_of_lt_le (k := 10)] <;> omega

/-- Settles O27: the formulas as they stand, and their ranges. -/
theorem powersAndSwr : Obligations.PowersAndSwr := by
  refine ⟨fun c vf vr => ⟨rfl, rfl, power_le c, fun closed => ?_⟩, fun vf vr backward => if_pos backward, fun vf vr => swrOf_forward,
    fun vf vr => ⟨ten_le_swrOf vf vr, swrOf_le vf vr, swrOf_no_reflection⟩⟩
  have dark : ∀ v, c.power v = 0 := fun v => by rw [AntennaConfig.power, closed, Nat.mul_zero, Nat.zero_div]
  exact ⟨dark vf, by rw [AntennaConfig.reflectedPower, dark, Nat.min_zero]⟩

/-! ### SET-SENSING (R51) -/

theorem onSettings_unchanged {s : State} {f : Settings → Settings} (same : f s.settings = s.settings) : s.onSettings f = s := by
  rw [State.onSettings, same]

/-- The answer to a setting of three values: ALREADY, else DONE where none was clamped (R180). -/
theorem settingResult_three {held : Prop} [Decidable held] (x x' y y' z z' : Nat) :
    settingResult (decide held) (x != x' || y != y' || z != z') = if held then .already else if x = x' ∧ y = y' ∧ z = z' then .done else .clamped := by
  unfold settingResult
  simp only [decide_eq_true_eq, Bool.or_eq_true, bne_iff_ne]
  refine ite_congr rfl (fun _ => rfl) fun _ => ?_
  by_cases unclamped : x = x' ∧ y = y' ∧ z = z'
  · have whole : ¬((x ≠ x' ∨ y ≠ y') ∨ z ≠ z') := by omega
    rw [if_pos unclamped, if_neg whole]
  · have clamped : (x ≠ x' ∨ y ≠ y') ∨ z ≠ z' := by omega
    rw [if_neg unclamped, if_pos clamped]

/-- SET-SENSING at its block: the values written, ALREADY for those held (R51, R180). -/
theorem serveSetSensing_supervisor {s : State} (tag t : Byte) (f : Half) (u : Byte) (room : (s.link 0).fullOfAnswers = false) :
    let t' := max 1 (min 100 t.toNat)
    let f' := max 5 (min 500 f.toNat)
    let u' := max 10 (min 200 u.toNat)
    serveSetSensing 0 tag t f u s =
      if t' = s.settings.presenceThreshold ∧ f' = s.settings.swrFloor ∧ u' = s.settings.unkeyedTail then s.answer 0 .setSensing tag .already
      else (s.onSettings fun c => { c with presenceThreshold := t', swrFloor := f', unkeyedTail := u' }).answer 0 .setSensing tag
        (if t' = t.toNat ∧ f' = f.toNat ∧ u' = u.toNat then .done else .clamped) := by
  intro t' f' u'
  refine (takeRequest_served room rfl rfl).trans ?_
  change (s.onSettings fun c => { c with presenceThreshold := t', swrFloor := f', unkeyedTail := u' }).answer 0 .setSensing tag
    (settingResult (decide (t' = s.settings.presenceThreshold ∧ f' = s.settings.swrFloor ∧ u' = s.settings.unkeyedTail))
      (t' != t.toNat || f' != f.toNat || u' != u.toNat)) = _
  rw [settingResult_three]
  by_cases held : t' = s.settings.presenceThreshold ∧ f' = s.settings.swrFloor ∧ u' = s.settings.unkeyedTail
  · rw [if_pos held, if_pos held]
    obtain ⟨threshold, floor, tail⟩ := held
    rw [onSettings_unchanged (by rw [threshold, floor, tail])]
  · rw [if_neg held, if_neg held]

/-- An answer after a change of the settings but for the follow states moves no condition. -/
theorem followAux_answer_settings (s : State) (f : Settings → Settings) (port : Port) (q : Request) (tag : Byte) (r : Result)
    (follow : ∀ p : Pos, ((f s.settings).positions[p.val]).follow = (s.place p).follow) :
    followAux s ((s.onSettings f).answer port q tag r) = (s.onSettings f).answer port q tag r := by
  have apart : (s.onSettings f).answer port q tag r = (s.answer port q tag r).onSettings f := rfl
  rw [apart]
  exact followAux_settings s port _ f follow

theorem serveFrame_setSensing_badFormat {s : State} (tag : Byte) {payload : List Byte} (length : payload.length ≠ 4) (room : (s.link 0).fullOfAnswers = false) :
    serveFrame 0 0x0F#8 tag payload s = s.answer 0 .setSensing tag .badFormat := by
  have refused : badFormat 0 .setSensing tag s = s.answer 0 .setSensing tag .badFormat := by simp [badFormat, takeRequest, room]
  rw [← refused]
  match payload, length with
  | [], _ | [_], _ | [_, _], _ | [_, _, _], _ | _ :: _ :: _ :: _ :: _ :: _, _ => rfl

/-- Settles O32: the block's answer by the values held, and the two refusals before it; no condition reads what is written. -/
theorem setSensingWrites : Obligations.SetSensingWrites := by
  intro tag t f u s takes t' f' u'
  refine ⟨?_, fun port console taken => ?_, fun payload length => serveFrame_setSensing_badFormat tag length takes.room⟩
  · have served : exec (.setSensing 0 tag t f u) s = .next (followAux s (serveSetSensing 0 tag t f u s)) := event_running takes.running
    rw [served, serveSetSensing_supervisor tag t f u takes.room]
    split
    · rw [followAux_answer]
    · rw [followAux_answer_settings s _ _ _ _ _ fun _ => rfl]
  · have refused : serveSetSensing port tag t f u s = s.answer port .setSensing tag .notPermitted := by
      simp [serveSetSensing, takeRequest, taken.room, supervisorOnly, supervisorPort, console]
    have served : exec (.setSensing port tag t f u) s = .next (followAux s (serveSetSensing port tag t f u s)) := event_running takes.running
    rw [served, refused, followAux_answer]

end Sys2Proof.Machine
end

