-- ==== Sys2Proof/Proofs/Presence.lean ====
section
/-! Trips and presence: what a trip and a change of presence leave alone, what presence that turns hands on, and where an episode begins (R22, R23, R39 to R44). -/

namespace Sys2Proof.Machine

/-! ### Readings of an antenna -/

theorem onAnt_unchanged {s : State} {a : Ant} {f : AntennaRecord → AntennaRecord} (same : f (s.ant a) = s.ant a) : s.onAnt a f = s := by
  have held : upd s.antennas a f = s.antennas := by
    unfold upd
    change s.antennas.set a.val (f (s.ant a)) _ = s.antennas
    rw [same, State.ant, Vector.set_getElem_self]
  rw [State.onAnt, held]

theorem onSensor_congr {s : State} {a : Ant} {f g : SensorRecord → SensorRecord} (same : f (s.sensor a) = g (s.sensor a)) : s.onSensor a f = s.onSensor a g := by
  unfold State.onSensor upd
  change { s with sensors := s.sensors.set a.val (f (s.sensor a)) _ } = { s with sensors := s.sensors.set a.val (g (s.sensor a)) _ }
  rw [same]

/-- A blind reading that sees neither the service of an antenna nor its trip record. -/
structure TripBlind {α : Type} (π : State → α) (a : Ant) : Prop extends Blind π where
  service : ∀ s v t, π (s.onAnt a fun r => { r with service := v, trip := t }) = π s

/-- The record of an antenna but for what grants, path changes and trips write. -/
def AntennaRecord.sensed (r : AntennaRecord) : AntennaRecord := { r with service := .inService, owner := none, connected := none, trip := none }

theorem tripBlind_sensed (a : Ant) : TripBlind (fun s => (s.ant a).sensed) a where
  toBlind := (blind_record a).map AntennaRecord.sensed
  service s v t := by rw [onAnt_same]; rfl

/-- A blind reading that does not see an antenna does not see its trips. -/
theorem Blind.elsewhere {α : Type} {π : State → α} (h : Blind π) {a : Ant} (unseen : ∀ s f, π (s.onAnt a f) = π s) : TripBlind π a := ⟨h, fun s _ _ => unseen s _⟩

theorem TripBlind.map {α β : Type} {π : State → α} {a : Ant} (h : TripBlind π a) (f : α → β) : TripBlind (fun s => f (π s)) a :=
  ⟨h.toBlind.map f, fun s v t => congrArg f (h.service s v t)⟩

theorem tripBlind_presence (a : Ant) : TripBlind (fun s => (s.ant a).presence) a := (tripBlind_sensed a).map AntennaRecord.presence

theorem tripBlind_settings (a : Ant) : TripBlind State.settings a := blind_settings.elsewhere fun _ _ => rfl

theorem tripBlind_sensor (a : Ant) : TripBlind (fun s => s.sensor a) a :=
  (blind_surroundings.map fun x => x.2.2.2.2.1[a.val]).elsewhere fun _ _ => rfl

/-! ### Trips (R22, R23) -/

section Readings
variable {α : Type} {π : State → α}

theorem onOwner_reading (a : Ant) {f : Pos → State → State} (unseen : ∀ o u, π (f o u) = π u) (s : State) : π (s.onOwner a f) = π s := by
  unfold State.onOwner
  split
  · exact unseen _ s
  · rfl

theorem Blind.dropTripped (h : Blind π) (s : State) (a : Ant) (l : List Claim) : π (s.dropTripped a l) = π s :=
  blind_forEach l _ (fun c u => by
    split
    · simp only []
      split
      · rw [h.select, State.dropClaim, h.removeWaiting]
      · rw [State.dropClaim, h.removeWaiting]
    · rfl) s

theorem trip_tripped {s : State} {a : Ant} (tripped : (s.ant a).service = .tripped) (cause : TripCause) : s.trip a cause = s := by
  simp [State.trip, tripped]

/-- Beside the service and the trip record it writes, a trip moves nothing that a blind reading sees (R22). -/
theorem Blind.raised (h : Blind π) {s : State} {a : Ant} (untripped : (s.ant a).service ≠ .tripped) (cause : TripCause) :
    π (s.trip a cause) = π (s.onAnt a fun r => { r with service := .tripped, trip := some (s.tripRecord a cause) }) := by
  unfold State.trip
  rw [if_neg (by simpa using untripped)]
  simp only []
  rw [onOwner_reading a fun o u => h.select u o .resume, h.report, h.dropTripped, onOwner_reading a fun o u => h.cutOrDeny u o .tripped]

theorem TripBlind.trip {a : Ant} (h : TripBlind π a) (s : State) (cause : TripCause) : π (s.trip a cause) = π s := by
  by_cases tripped : (s.ant a).service = .tripped
  · rw [trip_tripped tripped]
  · rw [h.raised tripped, h.service]

theorem trip_service (s : State) (a : Ant) (cause : TripCause) : ((s.trip a cause).ant a).service = .tripped := by
  by_cases tripped : (s.ant a).service = .tripped
  · rw [trip_tripped tripped, tripped]
  · rw [((blind_record a).map AntennaRecord.service).raised tripped, onAnt_same]

theorem trip_record {s : State} {a : Ant} (untripped : (s.ant a).service ≠ .tripped) (cause : TripCause) :
    ((s.trip a cause).ant a).trip = some (s.tripRecord a cause) := by
  rw [((blind_record a).map AntennaRecord.trip).raised untripped, onAnt_same]

/-! ### Changes of presence (R41) -/

theorem Blind.antennaCleared (h : Blind π) (s : State) (a : Ant) : π (s.antennaCleared a) = π s := h.relayOpened s (some a)

theorem TripBlind.presenceToSequencer {a : Ant} (h : TripBlind π a) (s : State) (p : Pos) : π (s.presenceToSequencer p a) = π s := by
  unfold State.presenceToSequencer
  split
  · rfl
  · split
    · exact h.enterBreak s p
    · rfl
  · split
    · exact h.trip s _
    · rfl
  · split
    · exact h.retestHoldoff s p
    · rfl
  · split
    · exact h.trip s _
    · rfl

/-- Presence written, the episode's flags and count cleared, and the taps commanded: a change of presence before the sequencers take it (R39, R40, R158). -/
def State.turned (s : State) (a : Ant) (b : Bool) : State :=
  ((s.onAnt a fun r => { r with presence := b }).onSensor a fun n => { n with below := 0, unkeyed := false, stray := false }).onTap a
    fun t => { t with closed1 := t.slot1.isSome && !t.keyed && !b, closed2 := t.slot2.isSome && !t.keyed && !b }

theorem turned_presence (s : State) (a : Ant) (b : Bool) : ((s.turned a b).ant a).presence = b := by simp [State.turned]

theorem setPresence_eq (s : State) (a : Ant) (b : Bool) : s.setPresence a b = forEach allPos (fun p u => u.presenceToSequencer p a) (s.turned a b) := by
  unfold State.setPresence State.handPresence State.commandTaps State.turned
  rw [onSensor_ant, onAnt_same]
  rfl

theorem TripBlind.setPresence {a : Ant} (h : TripBlind π a) (s : State) (b : Bool) : π (s.setPresence a b)
    = π ((s.onAnt a fun r => { r with presence := b }).onSensor a fun n => { n with below := 0, unkeyed := false, stray := false }) := by
  rw [setPresence_eq, blind_forEach _ _ fun p u => h.presenceToSequencer u p, State.turned, h.tap]

end Readings

/-! ### The presence judgement (R39, R40) -/

theorem judgePresence_absent {s : State} {a : Ant} (absent : (s.ant a).presence = false)
    (below : max (s.ant a).pf (s.ant a).pr < s.settings.presenceThreshold) : s.judgePresence a = s := by
  rw [State.judgePresence, if_neg (by simp [absent]), State.rfAtThreshold, if_neg (by simpa using below)]

theorem judgePresence_begins {s : State} {a : Ant} (absent : (s.ant a).presence = false)
    (reached : s.settings.presenceThreshold ≤ max (s.ant a).pf (s.ant a).pr) : s.judgePresence a = s.setPresence a true := by
  rw [State.judgePresence, if_neg (by simp [absent]), State.rfAtThreshold, if_pos (decide_eq_true reached)]

theorem judgePresence_lasts {s : State} {a : Ant} (present : (s.ant a).presence = true)
    (reached : s.settings.presenceThreshold ≤ max (s.ant a).pf (s.ant a).pr) : s.judgePresence a = s.onSensor a fun n => { n with below := 0 } := by
  rw [State.judgePresence, if_pos present, State.rfAtThreshold, if_pos (decide_eq_true reached)]

theorem judgePresence_counts {s : State} {a : Ant} (present : (s.ant a).presence = true)
    (below : ¬ s.settings.presenceThreshold ≤ max (s.ant a).pf (s.ant a).pr) (few : (s.sensor a).below < 2) :
    s.judgePresence a = s.onSensor a fun n => { n with below := n.below + 1 } := by
  rw [State.judgePresence, if_pos present, State.rfAtThreshold, if_neg (by simpa using below), if_neg (Nat.not_le.2 few)]

theorem judgePresence_ends {s : State} {a : Ant} (present : (s.ant a).presence = true)
    (below : ¬ s.settings.presenceThreshold ≤ max (s.ant a).pf (s.ant a).pr) (third : 2 ≤ (s.sensor a).below) :
    s.judgePresence a = s.setPresence a false := by
  rw [State.judgePresence, if_pos present, State.rfAtThreshold, if_neg (by simpa using below), if_pos third]

theorem setPresence_presence (s : State) (a : Ant) (b : Bool) : ((s.setPresence a b).ant a).presence = b := by
  rw [(tripBlind_presence a).setPresence, onSensor_ant, onAnt_same]

theorem setPresence_sensor (s : State) (a : Ant) (b : Bool) :
    (s.setPresence a b).sensor a = { s.sensor a with below := 0, unkeyed := false, stray := false } := by
  rw [(tripBlind_sensor a).setPresence, onSensor_same, onAnt_sensor]

/-- Settles O29: what presence that begins hands on leaves the presence and the sensor's own state of the port as written. -/
theorem presenceBegins : Obligations.PresenceBegins := by
  intro s a absent
  refine ⟨judgePresence_absent absent, fun reached => ?_⟩
  rw [judgePresence_begins absent reached, setPresence_presence, setPresence_sensor]
  exact ⟨rfl, rfl, rfl, rfl⟩

/-! ### Presence handed to the sequencers (R41, R104 to R109) -/

/-- A sequencer that presence on an antenna finds in BREAK with that antenna broken, or in MAKE with it as target (R106, R109). -/
def State.watches (s : State) (a : Ant) (p : Pos) : Bool :=
  decide ((s.seq p).state = .brk (some a) ∨ ((s.seq p).state.shown = .make ∧ (s.seq p).target.antenna = some a))

/-- Presence that is true trips the antenna where a sequencer watches it, and does nothing to the others. -/
theorem presenceToSequencer_present {s : State} {a : Ant} (present : (s.ant a).presence = true) (p : Pos) :
    s.presenceToSequencer p a = if s.watches a p then s.trip a .hotSwitch else s := by
  unfold State.presenceToSequencer State.watches
  cases state : (s.seq p).state <;> simp [SeqState.shown, present]

/-- Operations that each leave a state as it is leave it so together. -/
theorem forEach_unmoved {β : Type} (l : List β) {f : β → State → State} {s : State} (unmoved : ∀ x, f x s = s) : forEach l f s = s := by
  induction l with
  | nil => rfl
  | cons x rest ih => exact (congrArg (forEach rest f) (unmoved x)).trans ih

/-- Presence that begins trips the antenna once where a sequencer watches it (R22, R106, R109). -/
theorem forEach_present (l : List Pos) {s : State} {a : Ant} (present : (s.ant a).presence = true) :
    forEach l (fun p u => u.presenceToSequencer p a) s = if l.any (s.watches a) then s.trip a .hotSwitch else s := by
  induction l with
  | nil => rfl
  | cons p rest ih =>
    change forEach rest _ (s.presenceToSequencer p a) = _
    rw [presenceToSequencer_present present, List.any_cons]
    by_cases watched : s.watches a p = true
    · have tripped := trip_service s a .hotSwitch
      have still : ∀ q, (s.trip a .hotSwitch).presenceToSequencer q a = s.trip a .hotSwitch := fun q => by
        rw [presenceToSequencer_present (((tripBlind_presence a).trip s _).trans present), trip_tripped tripped, ite_self]
      rw [if_pos watched, watched, Bool.true_or, if_pos rfl, forEach_unmoved rest still]
    · rw [if_neg watched, ih, Bool.eq_false_iff.2 watched, Bool.false_or]

/-- What presence that has ended asks of a sequencer: BREAK from DRAIN on the antenna, and MAKE from HOLDOFF where nobody is connected (R104, R107). -/
theorem presenceToSequencer_absent {s : State} {a : Ant} (absent : (s.ant a).presence = false) (p : Pos) :
    s.presenceToSequencer p a =
      if (s.seq p).state = .drain ∧ (s.seq p).current.antenna = some a then s.enterBreak p
      else if (s.seq p).state = .holdoff ∧ (s.seq p).target.antenna = some a ∧ (s.ant a).connected = none then s.beginMake p a
      else s := by
  unfold State.presenceToSequencer
  cases state : (s.seq p).state with
  | idle | brk _ | make _ => simp [absent]
  | drain => simp [absent]
  | holdoff =>
    by_cases target : (s.seq p).target.antenna = some a
    · simp [state, target, absent, State.retestHoldoff, State.antennaFree]
    · simp [target]

theorem setPresence_true (s : State) (a : Ant) :
    s.setPresence a true = if allPos.any (s.watches a) then (s.turned a true).trip a .hotSwitch else s.turned a true := by
  rw [setPresence_eq, forEach_present _ (turned_presence s a true)]
  rfl

theorem setPresence_false (s : State) (a : Ant) : s.setPresence a false = forEach allPos (fun p u =>
    if (u.seq p).state = .drain ∧ (u.seq p).current.antenna = some a then u.enterBreak p
    else if (u.seq p).state = .holdoff ∧ (u.seq p).target.antenna = some a ∧ (u.ant a).connected = none then u.beginMake p a
    else u) (s.turned a false) := by
  rw [setPresence_eq]
  exact forEach_congr (fun _ u => (u.ant a).presence = false) (fun p u absent => presenceToSequencer_absent absent p)
    (fun p q u _ absent => ((tripBlind_presence a).presenceToSequencer u p).trans absent) allPos_nodup fun _ => turned_presence s a false

/-! ### The trip counts (R42 to R44) -/

theorem confirm_eq (exceeds : Prop) [Decidable exceeds] (count : Nat) :
    confirm (decide exceeds) count = (if exceeds ∧ count = 0 then 1 else 0, decide (exceeds ∧ count ≠ 0)) := by
  unfold confirm
  by_cases high : exceeds
  · cases count <;> simp [high]
  · simp [high]

theorem swrOver_eq (s : State) (a : Ant) : s.swrOver a = decide (s.settings.swrFloor ≤ (s.ant a).pf ∧ (s.config a).swrLimit < (s.ant a).swr) := by
  rw [State.swrOver, State.swrEvaluated, Bool.decide_and]

/-- Settles O30: each count by what it confirms, the power count looked at first. -/
theorem tripCounts : Obligations.TripCounts := by
  intro s a swrOver powerOver counted
  have counts : (s.onSensor a fun n =>
      { n with swrCount := (confirm (s.swrOver a) (s.sensor a).swrCount).1, powerCount := (confirm (s.powerOver a) (s.sensor a).powerCount).1 }) = counted :=
    onSensor_congr (by rw [swrOver_eq, State.powerOver, confirm_eq, confirm_eq])
  unfold State.judgeTrips
  simp only [counts]
  rw [swrOver_eq, State.powerOver, confirm_eq, confirm_eq]
  simp only [decide_eq_true_eq]
  rfl

end Sys2Proof.Machine
end

