-- ==== Sys2Proof/Proofs/Samples.lean ====
section
/-! A coupler sample stage by stage: its readings, presence, trips, peak and episode, and what it leaves alone (R34 to R50). -/

namespace Sys2Proof.Machine

/-! ### The readings (R35 to R38) -/

/-- The record and the sensor's own state of a port with the readings of a sample (R36 to R38). -/
def State.reading (s : State) (a : Ant) (x y : Nat) : State :=
  let c := s.config a
  let pf := sampledPf c x
  (s.onSensor a fun n => { n with vfRaw := min 1023 x, vrRaw := min 1023 y, sampled := true }).onAnt a
    fun r => { r with pf := pf, pr := sampledPr c y, swr := if s.settings.swrFloor ≤ pf then swrOf (min 1023 x - c.zf) (sampledVr c y) else 0 }

theorem writeReadings_eq (s : State) (a : Ant) (x y : Nat) : s.writeReadings a (converted x) (converted y) = s.reading a x y := by
  unfold State.writeReadings State.swrEvaluated
  simp only [decide_eq_true_eq]
  rfl

/-- A sample judged up to its trips (R35, log 30). -/
def State.judged (s : State) (a : Ant) : State := ((s.judgePresence a).antennaCleared a).judgeTrips a

/-- The state after a coupler sample: the pins, the stages of the sample in their order, and the aux lines (R35, R170). -/
def State.sampled (s : State) (a : Ant) (x y : Nat) : State :=
  let pins := s.setCoupler a (x, y)
  followAux pins ((((pins.reading a x y).judged a).updatePeak a).judgeEpisode a)

theorem exec_couplerSample {s : State} (a : Ant) (x y : Nat) (running : s.running = true) : exec (.couplerSample a x y) s = .next (s.sampled a x y) := by
  have pins : (s.setCoupler a (x, y)).coupler a = (x, y) := setCoupler_same s a (x, y)
  have event_of : exec (.couplerSample a x y) s = event (fun u => u.samplePort a) (s.setCoupler a (x, y)) := rfl
  rw [event_of, event_running (show (s.setCoupler a (x, y)).running = true from running), State.samplePort, pins, writeReadings_eq]
  rfl

/-! ### What a sample leaves alone -/

/-- What the presence judgement makes of the presence of a port (R39, R40). -/
def State.presenceJudged (s : State) (a : Ant) : Bool :=
  if s.settings.presenceThreshold ≤ max (s.ant a).pf (s.ant a).pr then true else (s.ant a).presence && decide ((s.sensor a).below < 2)

/-- A blind reading that sees of a sample's antenna no service, no trip record and nothing of the sensor's own state. -/
structure SampleBlind {α : Type} (π : State → α) (a : Ant) : Prop extends TripBlind π a where
  sensor : ∀ s f, π (s.onSensor a f) = π s

section Readings
variable {α : Type} {π : State → α} {a : Ant}

theorem SampleBlind.judgePresence (h : SampleBlind π a) (s : State) : π (s.judgePresence a) = π (s.onAnt a fun r => { r with presence := s.presenceJudged a }) := by
  have turns : ∀ b, π (s.setPresence a b) = π (s.onAnt a fun r => { r with presence := b }) := fun b => by rw [h.setPresence, h.sensor]
  have stays : ∀ b, (s.ant a).presence = b → π s = π (s.onAnt a fun r => { r with presence := b }) := fun b same => by
    rw [onAnt_unchanged (by rw [← same])]
  unfold State.presenceJudged
  cases presence : (s.ant a).presence <;> by_cases reached : s.settings.presenceThreshold ≤ max (s.ant a).pf (s.ant a).pr
  · rw [judgePresence_begins presence reached, turns, if_pos reached]
  · rw [judgePresence_absent presence (Nat.not_le.1 reached), if_neg reached]
    exact stays false presence
  · rw [judgePresence_lasts presence reached, h.sensor, if_pos reached]
    exact stays true presence
  · rw [if_neg reached, Bool.true_and]
    by_cases few : (s.sensor a).below < 2
    · rw [judgePresence_counts presence reached few, h.sensor, decide_eq_true few]
      exact stays true presence
    · rw [judgePresence_ends presence reached (Nat.not_lt.1 few), turns, decide_eq_false few]

theorem SampleBlind.judgeTrips (h : SampleBlind π a) (s : State) : π (s.judgeTrips a) = π s := by
  unfold State.judgeTrips
  simp only []
  split
  · rw [h.trip, h.sensor]
  · split
    · rw [h.trip, h.sensor]
    · exact h.sensor s _

/-- The judgements of a sample up to its trips move of a sample-blind reading nothing but presence. -/
theorem SampleBlind.judged (h : SampleBlind π a) (s : State) : π (s.judged a) = π (s.onAnt a fun r => { r with presence := s.presenceJudged a }) := by
  rw [State.judged, h.judgeTrips, h.antennaCleared, h.judgePresence]

end Readings

/-- The episode judgements write a flag of the sensor and send a report at most (R49, R50). -/
theorem judgeEpisode_cases (s : State) (a : Ant) :
    s.judgeEpisode a = s ∨ ∃ f consoles body, s.judgeEpisode a = (s.onSensor a f).report consoles body := by
  unfold State.judgeEpisode State.judgeUnkeyed State.judgeStray
  split
  · split
    · split
      · exact .inr ⟨_, _, _, rfl⟩
      · exact .inl rfl
    · split
      · exact .inl rfl
      · exact .inr ⟨_, _, _, rfl⟩
  · exact .inl rfl

theorem SampleBlind.judgeEpisode {α : Type} {π : State → α} {a : Ant} (h : SampleBlind π a) (s : State) : π (s.judgeEpisode a) = π s := by
  obtain same | ⟨f, consoles, body, reported⟩ := judgeEpisode_cases s a
  · rw [same]
  · rw [reported, h.report, h.sensor]

/-- A sample moves nothing of a sample-blind reading that does not see its antenna. -/
theorem SampleBlind.sampled {α : Type} {π : State → α} {a : Ant} (h : SampleBlind π a) (unseen : ∀ s f, π (s.onAnt a f) = π s) (s : State) (x y : Nat) :
    π (s.sampled a x y) = π (s.setCoupler a (x, y)) := by
  unfold State.sampled
  rw [h.followAux, h.judgeEpisode, State.updatePeak, unseen, h.judged, unseen, State.reading, unseen, h.sensor]

theorem sampleBlind_sensed (a : Ant) : SampleBlind (fun s => (s.ant a).sensed) a := ⟨tripBlind_sensed a, fun _ _ => rfl⟩
theorem sampleBlind_settings (a : Ant) : SampleBlind State.settings a := ⟨tripBlind_settings a, fun _ _ => rfl⟩
theorem sampleBlind_timebase (a : Ant) : SampleBlind State.timebase a := ⟨blind_timebase.elsewhere fun _ _ => rfl, fun _ _ => rfl⟩
theorem sampleBlind_holdOn (a : Ant) : SampleBlind State.holdOn a :=
  ⟨(blind_surroundings.map fun x => x.2.2.2.1).elsewhere fun _ _ => rfl, fun _ _ => rfl⟩
theorem sampleBlind_couplers (a : Ant) : SampleBlind State.couplers a := ⟨blind_couplers.elsewhere fun _ _ => rfl, fun _ _ => rfl⟩

/-- The record of another antenna, but for its owner and its connected position. -/
theorem sampleBlind_record {a b : Ant} (other : b ≠ a) :
    SampleBlind (fun s : State => ({ s.ant b with owner := none, connected := none } : AntennaRecord)) a :=
  ⟨(blind_record b).elsewhere fun s f => by rw [onAnt_other s a f b other], fun _ _ => rfl⟩

theorem reading_ant (s : State) (a : Ant) (x y : Nat) : (s.reading a x y).ant a =
    { s.ant a with
      pf := sampledPf (s.config a) x
      pr := sampledPr (s.config a) y
      swr := if s.settings.swrFloor ≤ sampledPf (s.config a) x then swrOf (min 1023 x - (s.config a).zf) (sampledVr (s.config a) y) else 0 } :=
  onAnt_same _ _ _

theorem reading_presenceJudged (s : State) (a : Ant) (x y : Nat) : (s.reading a x y).presenceJudged a =
    if s.settings.presenceThreshold ≤ max (sampledPf (s.config a) x) (sampledPr (s.config a) y) then true
    else (s.ant a).presence && decide ((s.sensor a).below < 2) := by
  have below : ((s.reading a x y).sensor a).below = (s.sensor a).below := by
    rw [State.reading, onAnt_sensor, onSensor_same]
  rw [State.presenceJudged, reading_ant, below]
  rfl

/-- The record of the antenna after a sample: its readings, presence and peak (R35 to R40, R46). -/
theorem sampled_record {β : Type} (f : AntennaRecord → β) (unseen : ∀ r : AntennaRecord, f r.sensed = f r) (s : State) (a : Ant) (x y : Nat) :
    let r := ((s.setCoupler a (x, y)).reading a x y).ant a
    f ((s.sampled a x y).ant a) = f { r with presence := ((s.setCoupler a (x, y)).reading a x y).presenceJudged a, peak := max r.peak r.pf } := by
  intro r
  have judged := (sampleBlind_sensed a).judged ((s.setCoupler a (x, y)).reading a x y)
  rw [onAnt_same] at judged
  have peaked : ∀ q : AntennaRecord, { q with peak := max q.peak q.pf }.sensed = { q.sensed with peak := max q.sensed.peak q.sensed.pf } := fun _ => rfl
  rw [← unseen, State.sampled, (sampleBlind_sensed a).followAux, (sampleBlind_sensed a).judgeEpisode, State.updatePeak, onAnt_same, peaked, judged, ← peaked,
    unseen]

/-- A sample writes nothing of another antenna's record, but that grants and path changes may move its owner and its connected position. -/
theorem sampled_other {β : Type} (f : AntennaRecord → β) (unseen : ∀ r : AntennaRecord, f { r with owner := none, connected := none } = f r)
    (s : State) {a b : Ant} (other : b ≠ a) (x y : Nat) : f ((s.sampled a x y).ant b) = f (s.ant b) := by
  have kept := (sampleBlind_record other).sampled (fun u g => by rw [onAnt_other u a g b other]) s x y
  rw [← unseen, kept, unseen, setCoupler_ant]

/-- Settles O28: no stage after the readings moves them, and the other records and the settings are seen by none. -/
theorem couplerSampled : Obligations.CouplerSampled := by
  intro a x y s running c pf pr
  have read := reading_ant (s.setCoupler a (x, y)) a x y
  have record : ∀ {β : Type} (f : AntennaRecord → β), (∀ r, f r.sensed = f r) → _ := fun f unseen => sampled_record f unseen s a x y
  simp only [read, reading_presenceJudged] at record
  have coupler : (s.sampled a x y).coupler a = (x, y) := by
    rw [State.coupler, (sampleBlind_couplers a).sampled fun _ _ => rfl]
    exact setCoupler_same s a (x, y)
  refine ⟨_, exec_couplerSample a x y running, record AntennaRecord.pf fun _ => rfl, record AntennaRecord.pr fun _ => rfl,
    record AntennaRecord.swr fun _ => rfl, record AntennaRecord.peak fun _ => rfl, record AntennaRecord.presence fun _ => rfl, coupler,
    (sampleBlind_settings a).sampled (fun _ _ => rfl) s x y,
    (sampleBlind_timebase a).sampled (fun _ _ => rfl) s x y, (sampleBlind_holdOn a).sampled (fun _ _ => rfl) s x y, fun b other => ?_⟩
  have kept : ∀ {β : Type} (f : AntennaRecord → β), (∀ r : AntennaRecord, f { r with owner := none, connected := none } = f r) → _ :=
    fun f unseen => sampled_other f unseen s other x y
  exact ⟨kept AntennaRecord.pf fun _ => rfl, kept AntennaRecord.pr fun _ => rfl, kept AntennaRecord.swr fun _ => rfl, kept AntennaRecord.peak fun _ => rfl,
    kept AntennaRecord.presence fun _ => rfl, kept AntennaRecord.service fun _ => rfl⟩

/-! ### The episode judgements (R48 to R50) -/

theorem judgeEpisode_absent {s : State} {a : Ant} (absent : (s.ant a).presence = false) : s.judgeEpisode a = s := if_neg (by simp [absent])

theorem judgeEpisode_stray {s : State} {a : Ant} (present : (s.ant a).presence = true) (nobody : (s.ant a).connected = none) :
    s.judgeEpisode a = s.judgeStray a := by
  simp only [State.judgeEpisode, if_pos present, nobody]

theorem judgeEpisode_connected {s : State} {a : Ant} {p : Pos} (present : (s.ant a).presence = true) (connected : (s.ant a).connected = some p) :
    s.judgeEpisode a = s.judgeUnkeyed a p := by
  simp only [State.judgeEpisode, if_pos present, connected]

/-- A position that transmits, one whose sequencer is in MAKE and one without a stamp has no quiet time (R48). -/
theorem quietTime_none {s : State} {p : Pos} (h : s.txen p = true ∨ (s.seq p).state.shown = .make ∨ s.quiet p = none) : s.quietTime p = none := by
  unfold State.quietTime
  rcases h with transmits | make | unstamped
  · simp [transmits]
  · simp [make]
  · simp [unstamped]

theorem quietTime_stamped {s : State} {p : Pos} {stamp : Count} (silent : s.txen p = false) (settled : (s.seq p).state.shown ≠ .make)
    (stamped : s.quiet p = some stamp) : s.quietTime p = some (s.timebase - stamp).toNat := by
  rw [State.quietTime, if_neg (by simp [silent, settled]), stamped]
  rfl

theorem judgeUnkeyed_reported {s : State} {a : Ant} {p : Pos} (h : (s.sensor a).unkeyed = true ∨ s.quietTime p = none) : s.judgeUnkeyed a p = s := by
  rcases h with reported | quiet
  · simp [State.judgeUnkeyed, reported]
  · simp [State.judgeUnkeyed, State.quietTooLong, quiet]

theorem judgeUnkeyed_quiet {s : State} {a : Ant} {p : Pos} {quiet : Nat} (unreported : (s.sensor a).unkeyed = false) (time : s.quietTime p = some quiet) :
    s.judgeUnkeyed a p = if s.settings.unkeyedTail < quiet then
      (s.onSensor a fun n => { n with unkeyed := true }).report [p] (.rfUnkeyed a p (s.ant a).pf (s.ant a).pr quiet) else s := by
  simp [State.judgeUnkeyed, State.quietTooLong, unreported, time]

/-! ### What a sample does to the trips of its antenna -/

/-- Presence keeps every HOLDOFF of the antenna waiting (R107). -/
theorem antennaCleared_present {s : State} {a : Ant} (present : (s.ant a).presence = true) : s.antennaCleared a = s := by
  have waits : ∀ q, (if (s.seq q).target.antenna == some a then s.retestHoldoff q else s) = s := fun q => by
    split
    · rename_i target
      unfold State.retestHoldoff State.antennaFree
      cases (s.seq q).state <;> simp [beq_iff_eq.1 target, present]
    · rfl
  exact forEach_unmoved allPos waits

/-- On a tripped antenna, and where neither count stands, the trip stage writes the counts alone (R22, R42, R43). -/
theorem judgeTrips_counts {s : State} {a : Ant}
    (h : (s.ant a).service = .tripped ∨ ((s.sensor a).swrCount = 0 ∧ (s.sensor a).powerCount = 0)) : ∃ f, s.judgeTrips a = s.onSensor a f := by
  unfold State.judgeTrips
  rcases h with tripped | ⟨swr, power⟩
  · have unmoved : ∀ f cause, (s.onSensor a f).trip a cause = s.onSensor a f := fun f => trip_tripped (show ((s.onSensor a f).ant a).service = _ from tripped)
    exact ⟨_, by simp only [unmoved, ite_self]; rfl⟩
  · have first : ∀ exceeds, (confirm exceeds 0).2 = false := fun exceeds => by cases exceeds <;> rfl
    exact ⟨_, by simp only [swr, power, first, Bool.false_eq_true, if_false]; rfl⟩

/-! ### Where no position follows -/

/-- What the paths of the station rest on: the settings, the sequencers and the antenna records. -/
def State.paths (s : State) : Settings × Vector Sequencer 6 × Vector AntennaRecord 12 := (s.settings, s.sequencers, s.antennas)

theorem ArbFrame.paths {s t : State} (h : ArbFrame s t) : t.paths = s.paths := by
  rw [State.paths, h.settings, h.sequencers, h.antennas]
  rfl

theorem sequencers_of_paths {s t : State} (same : t.paths = s.paths) : t.sequencers = s.sequencers := congrArg (fun x => x.2.1) same

theorem ant_of_paths {s t : State} (same : t.paths = s.paths) (a : Ant) : t.ant a = s.ant a := congrArg (fun x => x.2.2[a.val]) same

theorem unfollowed_of_paths {s t : State} (same : t.paths = s.paths) (off : ∀ p, (s.place p).follow = false) (p : Pos) : (t.place p).follow = false := by
  have settings : t.settings = s.settings := congrArg Prod.fst same
  rw [State.place, settings]
  exact off p

/-- No selection runs with follow OFF (R89). -/
theorem select_unfollowed {s : State} {p : Pos} (off : (s.place p).follow = false) (mode : SelectMode) : s.select p mode = s := by
  unfold State.select
  split
  · rfl
  · exact if_pos (.inr off)

theorem onOwner_paths {s : State} {a : Ant} {f : Pos → State → State} (kept : ∀ o, (f o s).paths = s.paths) : (s.onOwner a f).paths = s.paths := by
  unfold State.onOwner
  split
  · exact kept _
  · rfl

theorem removeWaiting_paths (s : State) (p : Pos) (e : ClaimEvent) : (s.removeWaiting p e).paths = s.paths := by
  unfold State.removeWaiting
  split
  · exact (report_arb _ _ _).paths
  · rfl

theorem dropTripped_paths {s : State} (off : ∀ p, (s.place p).follow = false) (a : Ant) (l : List Claim) : (s.dropTripped a l).paths = s.paths := by
  induction l generalizing s with
  | nil => rfl
  | cons c rest ih =>
    have dropped : (s.dropClaim c.position .tripped).paths = s.paths := removeWaiting_paths s c.position _
    have unselected := select_unfollowed (unfollowed_of_paths dropped off c.position) .resume
    unfold State.dropTripped
    rw [forEach, List.foldl_cons]
    change State.paths (State.dropTripped _ a rest) = s.paths
    simp only [unselected, ite_self]
    split
    · exact (ih (unfollowed_of_paths dropped off)).trans dropped
    · exact ih off

/-- With nobody following, a trip writes the service and the trip record and moves no path (R22). -/
theorem trip_paths {s : State} {a : Ant} (off : ∀ p, (s.place p).follow = false) (untripped : (s.ant a).service ≠ .tripped) (cause : TripCause) :
    (s.trip a cause).paths = (s.onAnt a fun r => { r with service := .tripped, trip := some (s.tripRecord a cause) }).paths := by
  unfold State.trip
  rw [if_neg (by simpa using untripped)]
  simp only []
  generalize raised : (s.onAnt a fun r => { r with service := .tripped, trip := some (s.tripRecord a cause) }) = s1
  have off1 : ∀ p, (s1.place p).follow = false := fun p => by rw [← raised]; exact off p
  have cut : (s1.onOwner a fun o s => s.cutOrDeny o .tripped).paths = s1.paths := onOwner_paths fun o => (cutOrDeny_arb s1 o .tripped).paths
  generalize (s1.onOwner a fun o s => s.cutOrDeny o .tripped) = s2 at cut ⊢
  have dropped : (s2.dropTripped a (s2.claims a)).paths = s1.paths := (dropTripped_paths (unfollowed_of_paths cut off1) a _).trans cut
  have reported := ((report_arb (s2.dropTripped a (s2.claims a)) (s.tripRecord a cause).owner.toList (.trip a (s.tripRecord a cause))).paths).trans dropped
  rw [onOwner_paths fun o => congrArg State.paths (select_unfollowed (unfollowed_of_paths reported off1 o) .resume), reported]

/-! ### Samples that find RF on a quiet port -/

/-- Presence found by a sample, before what a watching sequencer makes of it (R39, R41). -/
def State.begun (s : State) (a : Ant) (x y : Nat) : State := ((s.setCoupler a (x, y)).reading a x y).turned a true

theorem begun_ant (s : State) (a : Ant) (x y : Nat) : (s.begun a x y).ant a = { ((s.setCoupler a (x, y)).reading a x y).ant a with presence := true } := by
  rw [State.begun, State.turned, onTap_ant, onSensor_ant, onAnt_same]

theorem begun_routes (s : State) (a : Ant) (x y : Nat) : (s.begun a x y).sequencers = s.sequencers ∧ ∀ p, (s.begun a x y).place p = s.place p :=
  ⟨by simp only [State.begun, State.turned, State.reading, State.onTap, State.onSensor, State.onAnt, State.setCoupler],
    fun p => by simp [State.place, State.begun, State.turned, State.reading]⟩

theorem begun_sensor (s : State) (a : Ant) (x y : Nat) : ((s.begun a x y).sensor a).swrCount = (s.sensor a).swrCount
    ∧ ((s.begun a x y).sensor a).powerCount = (s.sensor a).powerCount := by
  simp [State.begun, State.turned, State.reading]

/-- A sample at the threshold on a port without presence, with its trip where a sequencer watches the antenna (R35, R39, R106, R109). -/
theorem sampled_begins {s : State} {a : Ant} {x y : Nat} (absent : (s.ant a).presence = false)
    (reached : s.settings.presenceThreshold ≤ max (sampledPf (s.config a) x) (sampledPr (s.config a) y)) :
    s.sampled a x y = followAux (s.setCoupler a (x, y))
      ((((if allPos.any (s.watches a) then (s.begun a x y).trip a .hotSwitch else s.begun a x y).judgeTrips a).updatePeak a).judgeEpisode a) := by
  generalize read : (s.setCoupler a (x, y)).reading a x y = r
  have record := reading_ant (s.setCoupler a (x, y)) a x y
  rw [read] at record
  have begins : r.judgePresence a = r.setPresence a true := judgePresence_begins (by rw [record]; exact absent) (by rw [record, ← read]; exact reached)
  have watchers : r.watches a = s.watches a := by rw [← read]; rfl
  unfold State.sampled State.judged State.begun
  simp only [read]
  rw [begins, antennaCleared_present (setPresence_presence r a true), setPresence_true, watchers]

theorem judgeEpisode_paths (s : State) (a : Ant) : (s.judgeEpisode a).paths = s.paths := by
  obtain same | ⟨f, consoles, body, reported⟩ := judgeEpisode_cases s a
  · rw [same]
  · rw [reported, (report_arb _ _ _).paths]
    rfl

theorem followAux_paths (s t : State) : (followAux s t).paths = t.paths := by
  obtain ⟨A, followed, -⟩ := followAux_spec s t
  rw [followed]
  rfl

/-- The stages after presence write of sequencers and records the peak alone, where they raise no trip. -/
theorem stages_untripped {s : State} {a : Ant} (h : (s.ant a).service = .tripped ∨ ((s.sensor a).swrCount = 0 ∧ (s.sensor a).powerCount = 0)) (u : State) :
    let t := followAux u (((s.judgeTrips a).updatePeak a).judgeEpisode a)
    t.sequencers = s.sequencers ∧ t.ant a = { s.ant a with peak := max (s.ant a).peak (s.ant a).pf } := by
  intro t
  obtain ⟨f, counted⟩ := judgeTrips_counts h
  have paths : t.paths = ((s.onSensor a f).updatePeak a).paths := by rw [followAux_paths, judgeEpisode_paths, counted]
  refine ⟨(sequencers_of_paths paths).trans rfl, ?_⟩
  rw [ant_of_paths paths, State.updatePeak, onAnt_same, onSensor_ant]

theorem watched_iff (s : State) (a : Ant) : allPos.any (s.watches a) = true ↔
    ∃ p, (∃ b, (s.seq p).state = .brk b ∧ b = some a) ∨ ((s.seq p).state.shown = .make ∧ (s.seq p).target.antenna = some a) := by
  simp [State.watches, mem_allPos]

/-- RF that a sample finds on an antenna which a sequencer watches trips it HOT_SWITCH, with the readings of that sample (R23, R106, R109). -/
theorem sampled_hotSwitch {s : State} {a : Ant} {x y : Nat} (absent : (s.ant a).presence = false)
    (reached : s.settings.presenceThreshold ≤ max (sampledPf (s.config a) x) (sampledPr (s.config a) y))
    (watched : allPos.any (s.watches a) = true) (untripped : (s.ant a).service ≠ .tripped) :
    ((s.sampled a x y).ant a).service = .tripped ∧ ((s.sampled a x y).ant a).trip = some ((s.begun a x y).tripRecord a .hotSwitch)
      ∧ ((∀ p, (s.place p).follow = false) → (s.sampled a x y).sequencers = s.sequencers ∧ ((s.sampled a x y).ant a).connected = (s.ant a).connected) := by
  have quiet : ((s.begun a x y).ant a).service ≠ .tripped := by rw [begun_ant, reading_ant]; exact untripped
  obtain ⟨sequencers, record⟩ := stages_untripped (.inl (trip_service (s.begun a x y) a .hotSwitch)) (s.setCoupler a (x, y))
  rw [sampled_begins absent reached, if_pos watched, sequencers, record]
  refine ⟨trip_service _ _ _, trip_record quiet _, fun off => ?_⟩
  obtain ⟨routes, places⟩ := begun_routes s a x y
  have paths := trip_paths (fun p => (congrArg _ (places p)).trans (off p)) quiet .hotSwitch
  refine ⟨(sequencers_of_paths paths).trans routes, ?_⟩
  rw [ant_of_paths paths, onAnt_same, begun_ant, reading_ant, setCoupler_ant]

/-- A sample that finds RF leaves the service and the trip record of an antenna that is tripped already, and of one that no sequencer watches and no count stands against (R22, R42, R43). -/
theorem sampled_untripped {s : State} {a : Ant} {x y : Nat} (absent : (s.ant a).presence = false)
    (reached : s.settings.presenceThreshold ≤ max (sampledPf (s.config a) x) (sampledPr (s.config a) y))
    (h : (s.ant a).service = .tripped ∨ (allPos.any (s.watches a) = false ∧ (s.sensor a).swrCount = 0 ∧ (s.sensor a).powerCount = 0)) :
    ((s.sampled a x y).ant a).service = (s.ant a).service ∧ ((s.sampled a x y).ant a).trip = (s.ant a).trip := by
  have record : ((s.begun a x y).ant a).service = (s.ant a).service ∧ ((s.begun a x y).ant a).trip = (s.ant a).trip := by
    rw [begun_ant, reading_ant]
    exact ⟨rfl, rfl⟩
  have unraised : (if allPos.any (s.watches a) then (s.begun a x y).trip a .hotSwitch else s.begun a x y) = s.begun a x y := by
    rcases h with tripped | ⟨unwatched, -⟩
    · rw [trip_tripped (record.1.trans tripped), ite_self]
    · rw [unwatched, if_neg Bool.false_ne_true]
  have counts : ((s.begun a x y).ant a).service = .tripped ∨ (((s.begun a x y).sensor a).swrCount = 0 ∧ ((s.begun a x y).sensor a).powerCount = 0) := by
    rw [record.1, (begun_sensor s a x y).1, (begun_sensor s a x y).2]
    exact h.imp_right And.right
  obtain ⟨-, after⟩ := stages_untripped counts (s.setCoupler a (x, y))
  rw [sampled_begins absent reached, unraised, after]
  exact record

/-- The presence judgement by its cases, and what a change of presence hands on (R39 to R41). -/
theorem judgePresence_cases (s : State) (a : Ant) :
    let atThreshold := s.settings.presenceThreshold ≤ max (s.ant a).pf (s.ant a).pr
    ((s.ant a).presence = false → s.judgePresence a
      = if ¬ atThreshold then s else if allPos.any (s.watches a) then (s.turned a true).trip a .hotSwitch else s.turned a true)
    ∧ ((s.ant a).presence = true → ¬ atThreshold → 2 ≤ (s.sensor a).below → s.judgePresence a = forEach allPos (fun p u =>
        if (u.seq p).state = .drain ∧ (u.seq p).current.antenna = some a then u.enterBreak p
        else if (u.seq p).state = .holdoff ∧ (u.seq p).target.antenna = some a ∧ (u.ant a).connected = none then u.beginMake p a
        else u) (s.turned a false)) := by
  intro atThreshold
  refine ⟨fun absent => ?_, fun present below third => (judgePresence_ends present below third).trans (setPresence_false s a)⟩
  by_cases reached : atThreshold
  · rw [if_neg (not_not_intro reached), judgePresence_begins absent reached, setPresence_true]
  · rw [if_pos reached, judgePresence_absent absent (Nat.not_le.1 reached)]

/-- Settles O31: the stages as they stand, the presence judgement by its cases, and the episode judgements by the quiet time. -/
theorem episodesJudged : Obligations.EpisodesJudged := by
  refine ⟨fun a x y s running => ?_, fun s a => ?_, fun s a => ⟨judgeEpisode_absent, judgeEpisode_stray, fun p present connected => ?_⟩⟩
  · intro c pf pr swr pins read judged hot
    have sample := exec_couplerSample (s := s) a x y running
    refine ⟨sample, fun absent reached => ⟨fun watched untripped => ?_, fun _ tripped => ?_, fun unwatched swrCount powerCount => ?_⟩⟩
    · obtain ⟨service, trip, paths⟩ := sampled_hotSwitch absent reached ((watched_iff s a).2 watched) untripped
      refine ⟨_, sample, service, trip.trans ?_, paths⟩
      rw [State.tripRecord, begun_ant, reading_ant]
      rfl
    · exact ⟨_, sample, (sampled_untripped absent reached (.inl tripped)).2⟩
    · have nobody := Bool.eq_false_iff.2 (mt (watched_iff s a).1 unwatched)
      exact ⟨_, sample, sampled_untripped absent reached (.inr ⟨nobody, swrCount, powerCount⟩)⟩
  · exact ⟨(judgePresence_cases s a).1, judgePresence_lasts, judgePresence_counts, (judgePresence_cases s a).2⟩
  · rw [judgeEpisode_connected present connected]
    refine ⟨?_, fun stamp unreported silent settled stamped => judgeUnkeyed_quiet unreported (quietTime_stamped silent settled stamped)⟩
    rintro (reported | unquiet)
    · exact judgeUnkeyed_reported (.inl reported)
    · exact judgeUnkeyed_reported (.inr (quietTime_none unquiet))

end Sys2Proof.Machine
end

