-- ==== Sys2Proof/Proofs/Follow.lean ====
section
/-! FOLLOW: what START, RESUME and STOP run, and what they leave alone (R87, R88). -/

namespace Sys2Proof.Machine

/-! ### The frame of the cascades -/

/-- Two states that no blind reading tells apart have the cascades' frame. -/
theorem cascadeFrame_of_blind {s t : State} (same : ∀ {α : Type} {π : State → α}, Blind π → π t = π s) : CascadeFrame s t := by
  have surroundings := same blind_surroundings
  simp only [Prod.mk.injEq] at surroundings
  obtain ⟨powered, resetIsLow, timebase, holdOn, sensors, store, lines, ptts, couplers, pending⟩ := surroundings
  exact {
    supply := ⟨powered, resetIsLow, timebase⟩
    hold := holdOn
    sensors := sensors
    store := store
    pins := ⟨lines, ptts, couplers⟩
    pending := pending
    records := fun a => same (blind_record a)
    decoders := fun p => same (blind_decoder p) }

/-- A change of a position's configuration before a cascade is outside the cascades' frame. -/
theorem CascadeFrame.of_onPlace {s t : State} {p : Pos} {f : PositionConfig → PositionConfig} (frame : CascadeFrame (s.onPlace p f) t) : CascadeFrame s t where
  supply := frame.supply
  hold := frame.hold
  sensors := frame.sensors
  store := frame.store
  pins := frame.pins
  pending := frame.pending
  records := frame.records
  decoders := frame.decoders

/-! ### Claims removed and withdrawn (R58, R65) -/

/-- The removal of a waiting claim writes the queue, the pointer and the links alone (R58, R80). -/
theorem removeWaiting_eq (s : State) (p : Pos) (e : ClaimEvent) : s.removeWaiting p e = { s with
    claimQueues := (s.removeWaiting p e).claimQueues, claimPointers := (s.removeWaiting p e).claimPointers, links := (s.removeWaiting p e).links } := by
  unfold State.removeWaiting
  split
  · rw [State.claimReport, report_eq]
    rfl
  · rfl

theorem withdrawFollow_eq (s : State) (p : Pos) : s.withdrawFollow p = { s with
    claimQueues := (s.withdrawFollow p).claimQueues, claimPointers := (s.withdrawFollow p).claimPointers, links := (s.withdrawFollow p).links } := by
  unfold State.withdrawFollow
  split
  · exact removeWaiting_eq s p _
  · rfl

/-- A position with no waiting claim of origin FOLLOW has none withdrawn (R65, R88). -/
theorem withdrawFollow_unclaimed {s : State} {p : Pos} (unclaimed : s.waitsUnderFollow p = false) : s.withdrawFollow p = s := by
  rw [State.withdrawFollow, unclaimed, if_neg Bool.false_ne_true]

/-! ### FOLLOW (R87, R88) -/

/-- FOLLOW with the byte of a position and the code of an action, at its block (R87). -/
theorem exec_follow {port : Port} {p : Pos} {s : State} (tag : Byte) {code : Byte} {action : FollowAction} (takes : s.Takes port)
    (may : port = 0 ∨ port = p.succ) (coded : actionOf code = some action) :
    exec (.follow port tag (posByte p) code) s
      = .next (followAux s ((s.answer port .follow tag (s.followResult p action)).followAction p action)) := by
  have served : serveFollow port tag (posByte p) code s = (s.answer port .follow tag (s.followResult p action)).followAction p action := by
    unfold serveFollow
    rw [takeRequest_served takes.room rfl (mayFor_posByte may), posOf_posByte, coded]
  rw [← served]
  exact event_running takes.running

/-- ALREADY answers STOP alone, of a position that does not follow (R88). -/
theorem followResult_stop (s : State) (p : Pos) : s.followResult p .stop = if (s.place p).follow then .done else .already := by
  unfold State.followResult
  cases (s.place p).follow <;> rfl

/-- The state after START or RESUME: the answer, follow on, the selection, and the aux lines (R87, R170). -/
def State.followed (s : State) (port : Port) (tag : Byte) (p : Pos) (mode : SelectMode) : State :=
  followAux s (((s.answer port .follow tag .done).followOn p).select p mode)

/-- A blind reading sees of START and RESUME that follow goes on, and nothing else. -/
theorem Blind.followed {α : Type} {π : State → α} (h : Blind π) (s : State) (port : Port) (tag : Byte) (p : Pos) (mode : SelectMode) :
    π (s.followed port tag p mode) = π (s.followOn p) :=
  calc π (s.followed port tag p mode)
    _ = π (((s.answer port .follow tag .done).followOn p).select p mode) := h.followAux _ _
    _ = π ((s.answer port .follow tag .done).followOn p) := h.select _ _ _
    _ = π (s.followOn p) := h.answer (s.followOn p) port .follow tag .done

/-- START and RESUME move no setting but the follow state, and nothing outside the cascades' frame (R87, R89). -/
theorem followed_frame (s : State) (port : Port) (tag : Byte) (p : Pos) (mode : SelectMode) :
    (s.followed port tag p mode).settings = (s.followOn p).settings ∧ CascadeFrame s (s.followed port tag p mode) :=
  ⟨blind_settings.followed s port tag p mode, (cascadeFrame_of_blind fun h => h.followed s port tag p mode).of_onPlace⟩

/-- STOP as far as its answer and the follow state, its claim not yet withdrawn (R88). -/
def State.stopAnswered (s : State) (port : Port) (tag : Byte) (p : Pos) : State :=
  (s.answer port .follow tag (if (s.place p).follow then .done else .already)).onPlace p fun c => { c with follow := false }

/-- The state after STOP: the answer, follow off with its claim withdrawn, and the aux lines (R88, R170). -/
def State.unfollowed (s : State) (port : Port) (tag : Byte) (p : Pos) : State :=
  followAux s ((s.stopAnswered port tag p).withdrawFollow p)

theorem unfollowed_settings (s : State) (port : Port) (tag : Byte) (p : Pos) :
    (s.unfollowed port tag p).settings = (s.onPlace p fun c => { c with follow := false }).settings :=
  (blind_settings.followAux _ _).trans (blind_settings.withdrawFollow (s.stopAnswered port tag p) p)

/-- STOP of a position without a FOLLOW claim leaves every queue and pointer (R88). -/
theorem unfollowed_claims {s : State} {p : Pos} (unclaimed : s.waitsUnderFollow p = false) (port : Port) (tag : Byte) :
    (s.unfollowed port tag p).claimQueues = s.claimQueues ∧ (s.unfollowed port tag p).claimPointers = s.claimPointers := by
  have kept : (s.stopAnswered port tag p).withdrawFollow p = s.stopAnswered port tag p := withdrawFollow_unclaimed unclaimed
  obtain ⟨A, lines, -⟩ := followAux_spec s (s.stopAnswered port tag p)
  rw [State.unfollowed, kept, lines]
  exact ⟨rfl, rfl⟩

/-- STOP writes the claims, the settings, the links and the aux lines alone (R88). -/
theorem unfollowed_eq (s : State) (port : Port) (tag : Byte) (p : Pos) :
    let t := s.unfollowed port tag p
    t = { s with claimQueues := t.claimQueues, claimPointers := t.claimPointers, settings := t.settings, links := t.links, auxLines := t.auxLines } := by
  obtain ⟨A, lines, -⟩ := followAux_spec s ((s.stopAnswered port tag p).withdrawFollow p)
  rw [State.unfollowed, lines, withdrawFollow_eq]
  rfl

/-- Settles O40: START and RESUME through what blind readings see of a selection, STOP through what a withdrawal writes. -/
theorem followSwitched : Obligations.FollowSwitched := by
  intro port tag p s takes may on
  refine ⟨⟨_, exec_follow tag takes may (action := .start) rfl, rfl, followed_frame s port tag p .start⟩,
    ⟨_, exec_follow tag takes may (action := .resume) rfl, rfl, followed_frame s port tag p .resume⟩,
    s.unfollowed port tag p, ?_, rfl, unfollowed_settings s port tag p, fun unclaimed => unfollowed_claims unclaimed port tag, unfollowed_eq s port tag p⟩
  rw [exec_follow tag takes may (action := .stop) rfl, followResult_stop]
  rfl

end Sys2Proof.Machine
end

