-- ==== Sys2Proof/Proofs/Listening.lean ====
section
/-! LISTEN: what its checks answer, and what a slot freed or taken leaves of taps, listen antennas and links (R153 to R157, R163). -/

namespace Sys2Proof.Machine

/-! ### The parts that the Tap Controller writes -/

/-- Two states that differ in nothing but slots, listen antennas, links and aux lines. -/
def TapsMoved (s t : State) : Prop := t = { s with taps := t.taps, listens := t.listens, links := t.links, auxLines := t.auxLines }

theorem TapsMoved.refl (s : State) : TapsMoved s s := rfl

theorem TapsMoved.trans {s t u : State} (h : TapsMoved s t) (k : TapsMoved t u) : TapsMoved s u := by
  unfold TapsMoved at *
  rw [k, h]

theorem TapsMoved.timebase {s t : State} (h : TapsMoved s t) : t.timebase = s.timebase := by rw [h]

theorem TapsMoved.ant {s t : State} (h : TapsMoved s t) (a : Ant) : t.ant a = s.ant a := by rw [h]; rfl

theorem answer_tapsMoved (s : State) (port : Port) (q : Request) (tag : Byte) (r : Result) : TapsMoved s (s.answer port q tag r) := rfl

theorem report_tapsMoved (s : State) (consoles : List Pos) (body : ReportBody) : TapsMoved s (s.report consoles body) := by
  rw [report_eq]; rfl

theorem followAux_tapsMoved (s t : State) : TapsMoved t (followAux s t) := by
  obtain ⟨A, lines, -⟩ := followAux_spec s t
  rw [lines]; rfl

theorem followAux_listening (s t : State) : (followAux s t).taps = t.taps ∧ (followAux s t).listens = t.listens ∧ (followAux s t).links = t.links := by
  obtain ⟨A, lines, -⟩ := followAux_spec s t
  rw [lines]; exact ⟨rfl, rfl, rfl⟩

theorem followAux_tap (s t : State) (a : Ant) : (followAux s t).tap a = t.tap a :=
  congrArg (fun v => v[a.val]) (followAux_listening s t).1

theorem followAux_listen (s t : State) (p : Pos) : (followAux s t).listen p = t.listen p :=
  congrArg (fun v => v[p.val]) (followAux_listening s t).2.1

theorem report_tap (s : State) (consoles : List Pos) (body : ReportBody) (a : Ant) : (s.report consoles body).tap a = s.tap a := by
  rw [report_eq]; rfl

/-! ### A slot written (R153, R154) -/

/-- A slot is written, the taps of its antenna are commanded again, and the listen antenna of a position follows. -/
def State.writeSlot (s : State) (a : Ant) (second : Bool) (holder : Option Pos) (p : Pos) (listens : Option Ant) : State :=
  ((s.onTap a fun t => t.setSlot second holder).commandTaps a).setListen p listens

theorem freeSlot_eq {s : State} {a : Ant} {second : Bool} {p : Pos} (held : (s.tap a).slot second = some p) (cause : TapCause) :
    s.freeSlot a second cause = (s.writeSlot a second none p none).report [p] (.tap a second p .freed cause) := by
  unfold State.freeSlot
  rw [held]
  rfl

theorem takeSlot_eq (s : State) (p : Pos) (a : Ant) : s.takeSlot p a =
    (s.writeSlot a (s.tap a).slot1.isSome (some p) p (some a)).report [p] (.tap a (s.tap a).slot1.isSome p .taken .listen) := rfl

section WriteSlot
variable (s : State) (a : Ant) (second : Bool) (holder : Option Pos) (p : Pos) (listens : Option Ant)

theorem writeSlot_tapsMoved : TapsMoved s (s.writeSlot a second holder p listens) := rfl

theorem writeSlot_tap : (s.writeSlot a second holder p listens).tap a =
    let t := (s.tap a).setSlot second holder
    { t with closed1 := tapCommand t.slot1 t.keyed (s.ant a).presence, closed2 := tapCommand t.slot2 t.keyed (s.ant a).presence } := by
  simp [State.writeSlot, State.commandTaps]

theorem writeSlot_other_tap {b : Ant} (other : b ≠ a) : (s.writeSlot a second holder p listens).tap b = s.tap b := by
  simp [State.writeSlot, State.commandTaps, onTap_at, other]

/-- What a report queues does not depend on the slots. -/
theorem writeSlot_report_links (consoles : List Pos) (body : ReportBody) :
    ((s.writeSlot a second holder p listens).report consoles body).links = (s.report consoles body).links :=
  report_links_same consoles body rfl rfl

end WriteSlot

/-! ### A slot freed and a slot taken (R156, R157, R163) -/

theorem freeSlot_tapsMoved (s : State) (a : Ant) (second : Bool) (cause : TapCause) : TapsMoved s (s.freeSlot a second cause) := by
  cases held : (s.tap a).slot second with
  | none => unfold State.freeSlot; rw [held]; exact .refl s
  | some p => rw [freeSlot_eq held]; exact (writeSlot_tapsMoved s a second none p none).trans (report_tapsMoved _ _ _)

theorem freeSlot_links {s : State} {a : Ant} {second : Bool} {p : Pos} (held : (s.tap a).slot second = some p) (cause : TapCause) :
    (s.freeSlot a second cause).links = (s.report [p] (.tap a second p .freed cause)).links := by
  rw [freeSlot_eq held, writeSlot_report_links]

theorem freeSlot_other_tap (s : State) (a : Ant) (second : Bool) (cause : TapCause) {b : Ant} (other : b ≠ a) :
    (s.freeSlot a second cause).tap b = s.tap b := by
  cases held : (s.tap a).slot second with
  | none => unfold State.freeSlot; rw [held]
  | some p => rw [freeSlot_eq held, report_tap, writeSlot_other_tap _ _ _ _ _ _ other]

theorem freeSlot_listen {s : State} {a : Ant} {second : Bool} {p : Pos} (held : (s.tap a).slot second = some p) (cause : TapCause) :
    (s.freeSlot a second cause).listen p = none := by
  rw [(freeSlot_spec s a second cause p held).1 p, if_pos rfl]

theorem freeSlot_slot {s : State} {a : Ant} {second : Bool} {p : Pos} (held : (s.tap a).slot second = some p) (cause : TapCause) :
    ((s.freeSlot a second cause).tap a).slot second = none := by
  obtain ⟨-, slot1, slot2, -⟩ := freeSlot_spec s a second cause p held
  cases second with
  | false => exact (slot1 a).trans (if_pos ⟨rfl, rfl⟩)
  | true => exact (slot2 a).trans (if_pos ⟨rfl, rfl⟩)

theorem takeSlot_tapsMoved (s : State) (p : Pos) (a : Ant) : TapsMoved s (s.takeSlot p a) :=
  (writeSlot_tapsMoved s a _ _ p _).trans (report_tapsMoved _ _ _)

theorem takeSlot_links (s : State) (p : Pos) (a : Ant) :
    (s.takeSlot p a).links = (s.report [p] (.tap a (s.tap a).slot1.isSome p .taken .listen)).links := by
  rw [takeSlot_eq, writeSlot_report_links]

theorem takeSlot_listen (s : State) (p : Pos) (a : Ant) : (s.takeSlot p a).listen p = some a := by
  rw [(takeSlot_spec s p a).1 p, if_pos rfl]

/-- The lower empty slot is taken, and its tap commanded closed unless the antenna is keyed or carries RF (R153, R154). -/
theorem takeSlot_tap (s : State) (p : Pos) (a : Ant) : (s.takeSlot p a).tap a =
    if (s.tap a).slot1 = none then { s.tap a with
      slot1 := some p, closed1 := !(s.tap a).keyed && !(s.ant a).presence, closed2 := tapCommand (s.tap a).slot2 (s.tap a).keyed (s.ant a).presence }
    else { s.tap a with
      slot2 := some p, closed1 := tapCommand (s.tap a).slot1 (s.tap a).keyed (s.ant a).presence, closed2 := !(s.tap a).keyed && !(s.ant a).presence } := by
  rw [takeSlot_eq, report_tap, writeSlot_tap]
  cases slot : (s.tap a).slot1 <;> simp [slot, TapRecord.setSlot, tapCommand]

/-! ### The slot of a position (R156 step 2, R157) -/

/-- A position holds a slot, and not the lower one as well. -/
def State.holds (s : State) (p : Pos) (a : Ant) (second : Bool) : Prop := (s.tap a).slot second = some p ∧ (second = true → (s.tap a).slot1 ≠ some p)

theorem holds_or_neither (s : State) (p : Pos) (a : Ant) :
    (∃ second, s.holds p a second) ∨ ((s.tap a).slot1 ≠ some p ∧ (s.tap a).slot2 ≠ some p) := by
  by_cases lower : (s.tap a).slot1 = some p
  · exact .inl ⟨false, lower, nofun⟩
  · by_cases upper : (s.tap a).slot2 = some p
    · exact .inl ⟨true, upper, fun _ => lower⟩
    · exact .inr ⟨lower, upper⟩

theorem freeTapOf_held {s : State} {p : Pos} {a : Ant} {second : Bool} (held : s.holds p a second) (cause : TapCause) :
    s.freeTapOf p a cause = s.freeSlot a second cause := by
  obtain ⟨slot, lower⟩ := held
  unfold State.freeTapOf
  cases second with
  | false => exact if_pos (beq_iff_eq.2 slot)
  | true => exact (if_neg (mt beq_iff_eq.1 (lower rfl))).trans (if_pos (beq_iff_eq.2 slot))

theorem freeTapOf_neither {s : State} {p : Pos} {a : Ant} (lower : (s.tap a).slot1 ≠ some p) (upper : (s.tap a).slot2 ≠ some p) (cause : TapCause) :
    s.freeTapOf p a cause = s := by
  unfold State.freeTapOf
  rw [if_neg (mt beq_iff_eq.1 lower), if_neg (mt beq_iff_eq.1 upper)]

theorem freeTapOf_tapsMoved (s : State) (p : Pos) (a : Ant) (cause : TapCause) : TapsMoved s (s.freeTapOf p a cause) := by
  obtain ⟨second, held⟩ | ⟨lower, upper⟩ := holds_or_neither s p a
  · rw [freeTapOf_held held]; exact freeSlot_tapsMoved s a second cause
  · rw [freeTapOf_neither lower upper]; exact .refl s

theorem stopListening_nowhere {s : State} {p : Pos} (nowhere : s.listen p = none) : s.stopListening p = s := by
  unfold State.stopListening
  rw [nowhere]

theorem stopListening_somewhere {s : State} {p : Pos} {x : Ant} (listens : s.listen p = some x) : s.stopListening p = s.freeTapOf p x .listen := by
  unfold State.stopListening
  rw [listens]

theorem stopListening_tapsMoved (s : State) (p : Pos) : TapsMoved s (s.stopListening p) := by
  cases listens : s.listen p with
  | none => rw [stopListening_nowhere listens]; exact .refl s
  | some x => rw [stopListening_somewhere listens]; exact freeTapOf_tapsMoved s p x .listen

/-- An antenna of which the position holds no slot keeps its slots and tap commands. -/
theorem stopListening_tap {s : State} {p : Pos} {a : Ant} (lower : (s.tap a).slot1 ≠ some p) (upper : (s.tap a).slot2 ≠ some p) :
    (s.stopListening p).tap a = s.tap a := by
  cases listens : s.listen p with
  | none => rw [stopListening_nowhere listens]
  | some x =>
    rw [stopListening_somewhere listens]
    by_cases same : x = a
    · rw [same, freeTapOf_neither lower upper]
    · obtain ⟨second, held⟩ | ⟨xLower, xUpper⟩ := holds_or_neither s p x
      · rw [freeTapOf_held held, freeSlot_other_tap s x second .listen (Ne.symm same)]
      · rw [freeTapOf_neither xLower xUpper]

/-- TAP FREED for the slot a position holds on its listen antenna, if it holds one (R163). -/
def State.reportFreed (s : State) (p : Pos) : State :=
  match s.listen p with
  | none => s
  | some x =>
    if (s.tap x).slot1 = some p then s.report [p] (.tap x false p .freed .listen)
    else if (s.tap x).slot2 = some p then s.report [p] (.tap x true p .freed .listen) else s

theorem reportFreed_tapsMoved (s : State) (p : Pos) : TapsMoved s (s.reportFreed p) := by
  unfold State.reportFreed
  split
  · exact .refl s
  · split
    · exact report_tapsMoved _ _ _
    · split
      · exact report_tapsMoved _ _ _
      · exact .refl s

theorem stopListening_links (s : State) (p : Pos) : (s.stopListening p).links = (s.reportFreed p).links := by
  unfold State.reportFreed
  cases listens : s.listen p with
  | none => rw [stopListening_nowhere listens]
  | some x =>
    rw [stopListening_somewhere listens]
    obtain ⟨second, held⟩ | ⟨lower, upper⟩ := holds_or_neither s p x
    · rw [freeTapOf_held held, freeSlot_links held.1]
      obtain ⟨slot, lower⟩ := held
      cases second with
      | false => exact congrArg State.links (if_pos slot).symm
      | true => exact congrArg State.links ((if_neg (lower rfl)).trans (if_pos slot)).symm
    · rw [freeTapOf_neither lower upper]
      exact congrArg State.links ((if_neg lower).trans (if_neg upper)).symm

/-! ### The checks (R155) -/

/-- LISTEN with the bytes of a position and an antenna, at its block (R155, R156). -/
theorem exec_listen {port : Port} {p : Pos} {s : State} (tag : Byte) (a : Ant) (takes : s.Takes port) (may : port = 0 ∨ port = p.succ) :
    exec (.listen port tag (posByte p) (antByte a)) s = .next (followAux s
      (if s.listenResult p a = .done then ((s.answer port .listen tag (s.listenResult p a)).stopListening p).takeSlot p a
        else s.answer port .listen tag (s.listenResult p a))) := by
  have served : serveListen port tag (posByte p) (antByte a) s = if s.listenResult p a = .done
      then ((s.answer port .listen tag (s.listenResult p a)).stopListening p).takeSlot p a else s.answer port .listen tag (s.listenResult p a) := by
    unfold serveListen
    rw [takeRequest_served takes.room rfl (mayFor_posByte may), posOf_posByte, antOrNoneOf_antByte]
  rw [← served]
  exact event_running takes.running

/-- LISTEN with the byte of a position and antenna 0, at its block (R157). -/
theorem exec_listen_none {port : Port} {p : Pos} {s : State} (tag : Byte) (takes : s.Takes port) (may : port = 0 ∨ port = p.succ) :
    exec (.listen port tag (posByte p) 0#8) s
      = .next (followAux s ((s.answer port .listen tag (if (s.listen p).isSome then .done else .already)).stopListening p)) := by
  have served : serveListen port tag (posByte p) 0#8 s
      = (s.answer port .listen tag (if (s.listen p).isSome then .done else .already)).stopListening p := by
    unfold serveListen
    rw [takeRequest_served takes.room rfl (mayFor_posByte may), posOf_posByte, antOrNoneOf_zero]
  rw [← served]
  exact event_running takes.running

theorem exec_listen_unchanged {port : Port} {p : Pos} {a : Ant} {s : State} {r : Result} (tag : Byte) (takes : s.Takes port)
    (may : port = 0 ∨ port = p.succ) (result : s.listenResult p a = r) (undone : r ≠ .done) :
    exec (.listen port tag (posByte p) (antByte a)) s = .next (s.answer port .listen tag r) := by
  rw [exec_listen tag a takes may, result, if_neg undone, followAux_answer]

theorem heldByOther_iff (p : Pos) (slot : Option Pos) : heldByOther p slot = true ↔ ∃ q, slot = some q ∧ q ≠ p := by
  cases slot <;> simp [heldByOther]

/-- The checks in their order, TAPS FULL in the words of R155 step 4. -/
theorem listenResult_eq (s : State) (p : Pos) (a : Ant) : s.listenResult p a =
      if (s.ant a).service = .outOfService then .outOfService
      else if (s.ant a).owner = some p then .ownAntenna
      else if (∃ q, (s.tap a).slot1 = some q ∧ q ≠ p) ∧ ∃ q, (s.tap a).slot2 = some q ∧ q ≠ p then .tapsFull
      else if (s.tap a).slot1 = some p ∨ (s.tap a).slot2 = some p then .already
      else .done := by
  simp only [State.listenResult, Bool.and_eq_true, heldByOther_iff]

/-! ### What LISTEN does (R156, R157) -/

/-- The state after a LISTEN answered DONE: the answer, the slot held elsewhere freed, the lower empty slot taken, and the aux lines (R156, R170). -/
def State.listened (s : State) (port : Port) (tag : Byte) (p : Pos) (a : Ant) : State :=
  followAux s (((s.answer port .listen tag .done).stopListening p).takeSlot p a)

section Listened
variable (s : State) (port : Port) (tag : Byte) (p : Pos) (a : Ant)

theorem listened_tapsMoved : TapsMoved s (s.listened port tag p a) :=
  (((answer_tapsMoved s port .listen tag .done).trans (stopListening_tapsMoved _ p)).trans (takeSlot_tapsMoved _ p a)).trans (followAux_tapsMoved s _)

theorem listened_listen : (s.listened port tag p a).listen p = some a := by
  rw [State.listened, followAux_listen, takeSlot_listen]

variable {s p a} (lower : (s.tap a).slot1 ≠ some p) (upper : (s.tap a).slot2 ≠ some p)
include lower upper

theorem stopListening_answered_tap : ((s.answer port .listen tag .done).stopListening p).tap a = s.tap a :=
  stopListening_tap (s := s.answer port .listen tag .done) lower upper

/-- The slots of the antenna are written as they stood before the request. -/
theorem listened_tap : (s.listened port tag p a).tap a = (s.takeSlot p a).tap a := by
  have record : ((s.answer port .listen tag .done).stopListening p).ant a = s.ant a :=
    ((answer_tapsMoved s port .listen tag .done).trans (stopListening_tapsMoved _ p)).ant a
  rw [State.listened, followAux_tap, takeSlot_tap, takeSlot_tap, stopListening_answered_tap port tag lower upper, record]

/-- The answer is queued first, then TAP FREED, then TAP TAKEN (R163). -/
theorem listened_links : (s.listened port tag p a).links =
    (((s.answer port .listen tag .done).reportFreed p).report [p] (.tap a (s.tap a).slot1.isSome p .taken .listen)).links := by
  obtain ⟨-, -, links⟩ := followAux_listening s (((s.answer port .listen tag .done).stopListening p).takeSlot p a)
  rw [State.listened, links, takeSlot_links, stopListening_answered_tap port tag lower upper]
  exact report_links_same _ _ (stopListening_links _ p) ((stopListening_tapsMoved _ p).timebase.trans (reportFreed_tapsMoved _ p).timebase.symm)

end Listened

/-- LISTEN on none frees the slot held (R157). -/
theorem exec_listen_none_held {port : Port} {p : Pos} {s : State} {x : Ant} {second : Bool} (tag : Byte) (takes : s.Takes port)
    (may : port = 0 ∨ port = p.succ) (listens : s.listen p = some x) (held : s.holds p x second) :
    exec (.listen port tag (posByte p) 0#8) s = .next (followAux s ((s.answer port .listen tag .done).freeSlot x second .listen)) := by
  have listens' : (s.answer port .listen tag .done).listen p = some x := listens
  have held' : (s.answer port .listen tag .done).holds p x second := held
  have freed : (s.answer port .listen tag .done).stopListening p = (s.answer port .listen tag .done).freeSlot x second .listen :=
    (stopListening_somewhere listens').trans (freeTapOf_held held' .listen)
  rw [exec_listen_none tag takes may, listens, Option.isSome_some, if_pos rfl, freed]

/-- LISTEN on none of a position that listens nowhere changes nothing (R157). -/
theorem exec_listen_none_nowhere {port : Port} {p : Pos} {s : State} (tag : Byte) (takes : s.Takes port) (may : port = 0 ∨ port = p.succ)
    (nowhere : s.listen p = none) : exec (.listen port tag (posByte p) 0#8) s = .next (s.answer port .listen tag .already) := by
  have kept : (s.answer port .listen tag .already).stopListening p = s.answer port .listen tag .already := stopListening_nowhere nowhere
  rw [exec_listen_none tag takes may, nowhere, Option.isSome_none, if_neg Bool.false_ne_true, kept, followAux_answer]

/-- Settles O55: the checks by cases of their order, DONE by the slot freed and the slot taken, LISTEN on none by the slot freed. -/
theorem listenTaken : Obligations.ListenTaken := by
  intro port tag p a s takes may c held full
  have result := listenResult_eq s p a
  refine ⟨fun out => ?_, fun service own => ?_, fun service other isFull => ?_, fun service other room holds => ?_, fun service other room free => ?_,
    exec_listen_none_nowhere tag takes may, fun x second listens slot lower => ?_⟩
  · exact exec_listen_unchanged tag takes may (result.trans (if_pos out)) nofun
  · rw [if_neg service, if_pos own] at result
    exact exec_listen_unchanged tag takes may result nofun
  · rw [if_neg service, if_neg other, if_pos isFull] at result
    exact exec_listen_unchanged tag takes may result nofun
  · rw [if_neg service, if_neg other, if_neg room, if_pos holds] at result
    exact exec_listen_unchanged tag takes may result nofun
  · rw [if_neg service, if_neg other, if_neg room, if_neg free] at result
    obtain ⟨lower, upper⟩ := not_or.1 free
    refine ⟨s.listened port tag p a, ?_, rfl, listened_listen s port tag p a, listened_links port tag lower upper, ?_, listened_tapsMoved s port tag p a⟩
    · rw [exec_listen tag a takes may, result, if_pos rfl, State.listened]
    · rw [listened_tap port tag lower upper, takeSlot_tap]
      split <;> exact ⟨rfl, rfl, rfl⟩
  · have slot' : ((s.answer port .listen tag .done).tap x).slot second = some p := slot
    obtain ⟨-, -, links⟩ := followAux_listening s ((s.answer port .listen tag .done).freeSlot x second .listen)
    refine ⟨_, exec_listen_none_held tag takes may listens ⟨slot, lower⟩, rfl, ?_, ?_, links.trans (freeSlot_links slot' .listen),
      ((answer_tapsMoved s port .listen tag .done).trans (freeSlot_tapsMoved _ x second .listen)).trans (followAux_tapsMoved s _)⟩
    · rw [followAux_listen, freeSlot_listen slot']
    · rw [followAux_tap, freeSlot_slot slot']

end Sys2Proof.Machine
end

