-- ==== Sys2Proof/Proofs/AuxKept.lean ====
section
/-! Every aux line at the value its configuration gives, through events, start-ups, the stop and the moves of the pins (R165, R170, R171, R173). -/

namespace Sys2Proof.Machine

/-! ### Aux lines by condition, of a part that runs and of one that does not -/

theorem auxByCondition_running {s : State} (running : s.running = true) : AuxByCondition s ↔ ∀ l, s.auxLine l = s.lineValue l := by
  simp only [AuxByCondition, running, Bool.true_and]

theorem auxByCondition_stopped {s : State} (stopped : s.running = false) : AuxByCondition s ↔ ∀ l, s.auxLine l = false := by
  simp only [AuxByCondition, stopped, Bool.false_and]

/-! ### Events, start-ups and the stop -/

theorem Event.running {s t : State} (e : Event s t) : t.running = s.running := by
  rw [State.running, e.powered, e.resetIsLow]
  rfl

theorem Event.auxByCondition {s t : State} (e : Event s t) (running : s.running = true) (i : AuxByCondition s) : AuxByCondition t :=
  (auxByCondition_running (e.running.trans running)).2 (e.lines ((auxByCondition_running running).1 i))

/-- The lines follow at the end of an event, and a part that does not run takes none (R170, R193). -/
theorem event_auxByCondition {f : State → State} {s t : State} (acts : Acts s (f s)) (h : event f s = .next t) (i : AuxByCondition s) :
    AuxByCondition t := by
  cases running : s.running with
  | true =>
    rw [event_running running] at h
    cases h
    exact acts.followed.auxByCondition running i
  | false => exact event_stopped running h ▸ i

/-- A start-up sets every line (R173). -/
theorem startUp_auxByCondition (cause : StartCause) {s : State} (running : s.running = true) : AuxByCondition (s.startUp cause) := by
  have started := startUp_startedUp cause running
  exact (auxByCondition_running started.running).2 started.aux

/-- The stop takes every line off (R193). -/
theorem stopPart_auxByCondition {s : State} (stopped : s.running = false) : AuxByCondition s.stopPart :=
  (auxByCondition_stopped (s := s.stopPart) stopped).2 fun l => replicate_get _ l

/-! ### The pins -/

/-- No line reads a pin, so pins that leave the part running, or not running, as it was leave every line at its value. -/
theorem PinsMoved.auxByCondition {s u : State} (moved : PinsMoved s u) (running : u.running = s.running) (i : AuxByCondition s) : AuxByCondition u := by
  have condition : ∀ c, u.condition c = s.condition c := fun c => by
    rw [moved]
    exact condition_same rfl (fun _ => rfl) (fun _ => ⟨rfl, Iff.rfl⟩) (fun _ => rfl) (fun _ => ⟨rfl, rfl, rfl⟩) rfl (fun _ => ⟨rfl, rfl⟩) rfl c
  intro l
  have line : u.auxLine l = s.auxLine l := by rw [moved]; rfl
  have config : u.auxConfig l = s.auxConfig l := by rw [moved]; rfl
  have timebase : u.timebase = s.timebase := by rw [moved]
  rw [line, running, State.lineValue, config, condition, timebase]
  exact i l

/-! ### The supply and RESET (R193) -/

theorem running_unpowered {s : State} (unpowered : s.powered = false) : s.running = false := by
  rw [State.running, unpowered, Bool.false_and]

theorem running_low {s : State} (low : s.resetIsLow = true) : s.running = false := by
  rw [State.running, low, Bool.not_true, Bool.and_false]

theorem powerUp_auxByCondition {s : State} (unpowered : s.powered = false) (i : AuxByCondition s) : AuxByCondition s.powerUp := by
  unfold State.powerUp
  cases low : s.resetIsLow with
  | true =>
    have stopped : (s.setPowered true).running = s.running := (running_low (s := s.setPowered true) low).trans (running_unpowered unpowered).symm
    exact PinsMoved.auxByCondition (s := s) rfl stopped i
  | false => exact startUp_auxByCondition .power (by simp [State.running, low])

theorem pullReset_auxByCondition {s : State} (i : AuxByCondition s) : AuxByCondition s.pullReset := by
  have stopped : (s.setReset true).running = false := running_low rfl
  unfold State.pullReset
  cases powered : s.powered with
  | true => exact stopPart_auxByCondition stopped
  | false => exact PinsMoved.auxByCondition (s := s) rfl (stopped.trans (running_unpowered powered).symm) i

theorem letReset_auxByCondition {s : State} (i : AuxByCondition s) : AuxByCondition s.letReset := by
  unfold State.letReset
  cases powered : s.powered with
  | true => exact startUp_auxByCondition .line (by simp [State.running, powered])
  | false =>
    have stopped : (s.setReset false).running = s.running :=
      (running_unpowered (s := s.setReset false) powered).trans (running_unpowered powered).symm
    exact PinsMoved.auxByCondition (s := s) rfl stopped i

theorem exec_resetLow (s : State) : exec .resetLow s = .next (if s.resetIsLow then s else s.pullReset) := rfl

theorem exec_powerLost (s : State) : exec .powerLost s = .next (if s.powered then (s.setPowered false).stopPart else s) := rfl

/-! ### Every step -/

/-- The supply and RESET start the part or stop it, three commands move input pins, and every other command is an event. -/
theorem exec_auxByCondition (c : Instr) (s t : State) (h : exec c s = .next t) (i : AuxByCondition s) : AuxByCondition t := by
  cases c
  case powerOn =>
    rw [exec_powerOn] at h
    cases powered : s.powered <;> rw [powered] at h <;> cases h
    · exact powerUp_auxByCondition powered i
    · exact i
  case resetLow =>
    rw [exec_resetLow] at h
    cases low : s.resetIsLow <;> rw [low] at h <;> cases h
    · exact pullReset_auxByCondition i
    · exact i
  case resetRelease =>
    rw [exec_resetRelease] at h
    cases low : s.resetIsLow <;> rw [low] at h <;> cases h
    · exact i
    · exact letReset_auxByCondition i
  case powerLost =>
    rw [exec_powerLost] at h
    cases powered : s.powered <;> rw [powered] at h <;> cases h
    · exact i
    · exact stopPart_auxByCondition (running_unpowered rfl)
  case bandLinesChange p v =>
    exact event_auxByCondition (s := s.setLines p v) (f := fun u => u.sampleLines p) (sampleLines_keeps _ p).serves.acts h
      (PinsMoved.auxByCondition (s := s) rfl rfl i)
  case pttInputChange p b =>
    exact event_auxByCondition (s := s.setPtt p b) (f := fun u => u.samplePtt p) (samplePtt_keeps _ p).serves.acts h
      (PinsMoved.auxByCondition (s := s) rfl rfl i)
  case couplerSample a x y =>
    exact event_auxByCondition (s := s.setCoupler a (x, y)) (f := fun u => u.samplePort a) (samplePort_serves _ a).acts h
      (PinsMoved.auxByCondition (s := s) rfl rfl i)
  all_goals
    cases running : s.running with
    | true => exact (exec_event _ s t running h (by simp) (by simp) (by simp) (by simp)).auxByCondition running i
    | false => exact exec_stopped _ s t running h (by simp) (by simp) (by simp) (by simp) ▸ i

theorem idle_auxByCondition (s t : State) (h : idle s = .next t) (i : AuxByCondition s) : AuxByCondition t := by
  unfold idle at h
  split at h
  · split at h
    · exact exec_auxByCondition _ s t h i
    · exact event_auxByCondition (tick_acts s) h i
  · cases h; exact i

/-- Settles O9: an event's lines follow their conditions and the flash phase, a start-up sets them all, the stop takes them off, and no line reads a pin. -/
theorem auxByConditionKept : Obligations.AuxByConditionKept := by
  intro s t i h
  unfold step at h
  split at h
  · exact idle_auxByCondition s t h i
  · rename_i c rest _
    exact exec_auxByCondition c (s.withPending rest) t h (PinsMoved.auxByCondition (s := s) rfl rfl i)

end Sys2Proof.Machine
end

