-- ==== Sys2Proof/Proofs/AuxLines.lean ====
section
/-! What the sources of the aux lines read, and when a line is worked out again: at SET-AUX, at the end of an event and at a flash edge (R165 to R172). -/

namespace Sys2Proof.Machine

/-! ### The signals (R167 to R169) -/

theorem KeyState.waits_iff (k : KeyState) : k.waits = true ↔ k = .pending ∨ k = .queued := by
  cases k <;> simp [KeyState.waits]

theorem KeyState.granted_iff (k : KeyState) : k.granted = true ↔ k = .opening ∨ k = .on ∨ k = .hang := by
  cases k <;> simp [KeyState.granted]

theorem SeqState.shown_idle_iff (q : SeqState) : q.shown = .idle ↔ q = .idle := by
  cases q <;> simp [SeqState.shown]

theorem routeStatus_active_iff (s : State) (p : Pos) : s.routeStatus p = .active ↔ (s.seq p).state = .idle ∧ (s.seq p).current.antenna ≠ none := by
  unfold State.routeStatus
  cases (s.seq p).state <;> cases (s.seq p).current.antenna <;> simp

theorem any_allPos_iff (f : Pos → Bool) : allPos.any f = true ↔ ∃ p, f p = true := by
  simp only [List.any_eq_true, mem_allPos, true_and]

theorem any_allAnts_iff (f : Ant → Bool) : allAnts.any f = true ↔ ∃ a, f a = true := by
  simp only [List.any_eq_true, mem_allAnts, true_and]

theorem position_conditions (s : State) (p : Pos) :
    s.condition (.position p .txen) = s.txen p
    ∧ (s.condition (.position p .waiting) = true ↔ (s.key p).state = .pending ∨ (s.key p).state = .queued)
    ∧ (s.condition (.position p .routeActive) = true ↔ (s.seq p).state = .idle ∧ (s.seq p).current.antenna ≠ none)
    ∧ (s.condition (.position p .blocked) = true ↔ (s.key p).state = .blocked)
    ∧ s.condition (.position p .followOn) = (s.place p).follow :=
  ⟨rfl, KeyState.waits_iff _, beq_iff_eq.trans (routeStatus_active_iff s p), beq_iff_eq, rfl⟩

theorem antenna_conditions (s : State) (a : Ant) :
    (s.condition (.antenna a .owned) = true ↔ (s.ant a).owner ≠ none)
    ∧ (s.condition (.antenna a .tripped) = true ↔ (s.ant a).service = .tripped)
    ∧ s.condition (.antenna a .rfPresent) = (s.ant a).presence
    ∧ (s.condition (.antenna a .claimed) = true ↔ s.claims a ≠ [])
    ∧ (s.condition (.antenna a .listened) = true ↔ (s.tap a).slot1 ≠ none ∨ (s.tap a).slot2 ≠ none) := by
  refine ⟨Option.isSome_iff_ne_none, beq_iff_eq, rfl, ?_, ?_⟩
  · simp [State.condition, State.antennaSignal]
  · simp only [State.condition, State.antennaSignal, Bool.or_eq_true, Option.isSome_iff_ne_none]

theorem station_conditions (s : State) :
    (s.condition (.station .anyTx) = true ↔ ∃ p, s.txen p = true)
    ∧ (s.condition (.station .noneGranted) = true ↔ ∀ p, (s.key p).state ≠ .opening ∧ (s.key p).state ≠ .on ∧ (s.key p).state ≠ .hang)
    ∧ (s.condition (.station .anyTripped) = true ↔ ∃ a, (s.ant a).service = .tripped)
    ∧ s.condition (.station .hold) = s.holdOn
    ∧ (s.condition (.station .anyWaiting) = true ↔ ∃ p, (s.key p).state = .pending ∨ (s.key p).state = .queued)
    ∧ (s.condition (.station .anyChanging) = true ↔ ∃ p, (s.seq p).state ≠ .idle) := by
  refine ⟨any_allPos_iff _, ?_, ?_, rfl, ?_, ?_⟩ <;> simp only [State.condition, State.stationSignal]
  · rw [Bool.not_eq_true', ← Bool.not_eq_true, any_allPos_iff]
    simp only [State.granted, KeyState.granted_iff, not_exists, not_or]
  · simp only [any_allAnts_iff, beq_iff_eq]
  · simp only [any_allPos_iff, KeyState.waits_iff]
  · simp only [any_allPos_iff, bne_iff_ne, ne_eq, SeqState.shown_idle_iff]

/-! ### SET-AUX (R172) -/

/-- SET-AUX with the bytes of a line and of a configuration, at its block: ALREADY for the configuration held, else the write. -/
theorem exec_setAux (tag : Byte) (l : Fin 8) {kind index signal : Byte} (new : AuxConfig) {s : State} (takes : s.Takes 0)
    (read : auxSourceOf kind index signal = some new.source) :
    exec (.setAux 0 tag (byteOf (l.val + 1)) kind index signal (flagByte new.invert) (flagByte new.flash)) s
      = .next (followAux s (if new = s.auxConfig l then s.answer 0 .setAux tag .already else (s.answer 0 .setAux tag .done).writeAux l new)) := by
  have served : serveSetAux 0 tag (byteOf (l.val + 1)) kind index signal (flagByte new.invert) (flagByte new.flash) s
      = if new = s.auxConfig l then s.answer 0 .setAux tag .already else (s.answer 0 .setAux tag .done).writeAux l new := by
    refine (takeRequest_served takes.room rfl rfl).trans ?_
    rw [lineOf_byteOf, read, yesNoOf_flagByte, yesNoOf_flagByte]
  rw [← served]
  exact event_running takes.running

/-- The write of a configuration moves no condition, so no line follows it (R170). -/
theorem followAux_writeAux (s : State) (port : Port) (tag : Byte) (l : Fin 8) (new : AuxConfig) :
    followAux s ((s.answer port .setAux tag .done).writeAux l new) = (s.answer port .setAux tag .done).writeAux l new :=
  followAux_same fun c => (writeAux_condition _ l new c).trans (onLink_condition s port _ c)

/-- The line written takes its value under the new configuration. -/
theorem writeAux_auxLine_same (s : State) (l : Fin 8) (new : AuxConfig) :
    (s.writeAux l new).auxLine l = new.value (s.condition new.source) (flashPhase s.timebase) := by
  have config : (s.onSettings fun c => { c with aux := upd c.aux l fun _ => new }).auxConfig l = new := upd_same s.settings.aux l fun _ => new
  have condition : (s.onSettings fun c => { c with aux := upd c.aux l fun _ => new }).condition new.source = s.condition new.source :=
    (withAux_condition _ _ _).symm.trans (writeAux_condition s l new new.source)
  rw [State.writeAux, driveLine_auxLine, if_pos rfl, State.lineValue, config, condition]
  rfl

theorem writeAux_auxLine_other (s : State) {l m : Fin 8} (new : AuxConfig) (other : m ≠ l) : (s.writeAux l new).auxLine m = s.auxLine m := by
  rw [State.writeAux, driveLine_auxLine, if_neg other]
  rfl

/-! ### The end of an event and the flash edge (R170, R171) -/

theorem followAux_frame (s t : State) : followAux s t = { t with auxLines := (followAux s t).auxLines } := by
  obtain ⟨A, followed, -⟩ := followAux_spec s t
  rw [followed]
  rfl

/-- A line keeps its value at the end of an event that has not moved its condition (log 24). -/
theorem followAux_auxLine (s t : State) (l : Fin 8) : (followAux s t).auxLine l
    = if s.condition (t.auxConfig l).source = t.condition (t.auxConfig l).source then t.auxLine l else t.lineValue l := by
  obtain ⟨-, -, line⟩ := followAux_spec s t
  rw [line l, conditionMoved]
  simp only [bne_iff_ne, ne_eq, ite_not]

theorem followAux_flashLines (s : State) : followAux s s.flashLines = s.flashLines := by
  obtain ⟨A, flashed, -⟩ := flashLines_spec s
  exact followAux_same fun c => by rw [flashed, withAux_condition]

/-- A flash edge commanded at a count that is none changes nothing (log 3). -/
theorem exec_flashEdge {s : State} (running : s.running = true) :
    exec .flashEdge s = .next (if s.timebase.toNat % 250 = 0 then s.flashLines else s) := by
  have event_of : exec .flashEdge s = .next (followAux s (onlyIf (fun s => flashEdgeAt s.timebase) (fun s => s.flashLines) s)) := event_running running
  rw [event_of, onlyIf, flashEdgeAt]
  by_cases edge : s.timebase.toNat % 250 = 0
  · rw [if_pos (beq_iff_eq.2 edge), if_pos edge, followAux_flashLines]
  · rw [if_neg (mt beq_iff_eq.1 edge), if_neg edge, followAux_self]

/-- The flashing lines with a true condition take the phase that begins, and nothing else changes. -/
theorem flashEdge_moves_lines {s : State} (running : s.running = true) : ∃ t, exec .flashEdge s = .next t ∧ t = { s with auxLines := t.auxLines }
    ∧ ∀ l, t.auxLine l = if s.timebase.toNat % 250 = 0 ∧ (s.auxConfig l).flash = true ∧ s.condition (s.auxConfig l).source = true then s.lineValue l
      else s.auxLine l := by
  by_cases edge : s.timebase.toNat % 250 = 0
  · obtain ⟨A, flashed, line⟩ := flashLines_spec s
    refine ⟨s.flashLines, by rw [exec_flashEdge running, if_pos edge], by rw [flashed]; rfl, fun l => ?_⟩
    simp only [line l, edge, true_and, Bool.and_eq_true]
  · exact ⟨s, by rw [exec_flashEdge running, if_neg edge], rfl, fun l => (if_neg fun flashes => edge flashes.1).symm⟩

/-- Settles O56: SET-AUX by the configuration held, the signals as they read, and the lines that follow an event or take a flash phase. -/
theorem auxFollows : Obligations.AuxFollows := by
  refine ⟨fun tag l kind index signal source inv fl s takes read => ?_, fun _ _ => rfl, position_conditions, antenna_conditions, station_conditions,
    fun _ _ => rfl, followAux_auxLine, followAux_frame, fun _ => flashEdge_moves_lines⟩
  intro c new
  have served := exec_setAux tag l new takes read
  refine ⟨fun held => ?_, fun changed => ?_⟩
  · rw [if_pos (show new = s.auxConfig l from held), followAux_answer] at served
    exact served
  · rw [if_neg (show new ≠ s.auxConfig l from changed), followAux_writeAux] at served
    refine ⟨_, served, rfl, ?_, fun m other => writeAux_auxLine_other _ new other, rfl⟩
    rw [writeAux_auxLine_same, State.answer, State.answerRaw, onLink_condition]
    rfl

end Sys2Proof.Machine
end

