-- ==== Sys2Proof/Proofs/LinkQueues.lean ====
section
/-! The outgoing queues: their bound through every step, how they take records, the end of a frame's sending, and the place that a SAVE reserves (R181, R184 to R187, R191, R192, R194). -/

namespace Sys2Proof.Machine

/-! ### The bound of every queue (R185, R186) -/

theorem PinsMoved.linksBounded {s u : State} (moved : PinsMoved s u) (bounded : LinksBounded s) : LinksBounded u := by
  rw [moved]; exact bounded

/-- A start-up leaves every queue empty (R189, R195). -/
theorem startUp_linksBounded (cause : StartCause) (s : State) : LinksBounded (s.startUp cause) := by
  obtain ⟨A, values, -⟩ := startUp_spec cause s
  obtain ⟨-, -, bounded, -⟩ := startValues_inv cause s
  rw [values]
  exact bounded

/-- Settles O6: events keep the bound, a start-up begins with empty queues, and pins and the stop leave the queues alone. -/
theorem linksBoundedKept : Obligations.LinksBoundedKept := by
  unfold Obligations.LinksBoundedKept
  exact step_keeps_invariant PinsMoved.linksBounded Event.bounded startUp_linksBounded id

/-! ### A queue that is full and one that is not (R186) -/

theorem Link.full_iff {l : Link} : l.full = true ↔ 16 ≤ l.used := decide_eq_true_iff

theorem Link.full_eq_false {l : Link} (room : l.used < 16) : l.full = false := decide_eq_false (Nat.not_le.2 room)

theorem dropLastReport_eq_none {l : List Record} (answers : l.any Record.isReport = false) : dropLastReport l = none := by
  induction l with
  | nil => rfl
  | cons r rest ih =>
    obtain ⟨first, others⟩ := Bool.or_eq_false_iff.1 answers
    simp [dropLastReport, ih others, first]

theorem dropLastReport_of_report (before : List Record) (r : Report) {behind : List Record} (answers : behind.any Record.isReport = false) :
    dropLastReport (before ++ .report r :: behind) = some (before ++ behind) := by
  induction before with
  | nil => simp [dropLastReport, dropLastReport_eq_none answers, Record.isReport]
  | cons x rest ih => simp [dropLastReport, ih]

theorem Link.makeRoom_of_room {l : Link} (room : l.used < 16) : l.makeRoom = some l := by
  simp [Link.makeRoom, Link.full_eq_false room]

/-- The most recent report gives way in a full queue, with LOST set (R186). -/
theorem Link.makeRoom_of_report {l : Link} {before behind : List Record} {r : Report} (full : 16 ≤ l.used)
    (queue : l.queue = before ++ .report r :: behind) (answers : behind.any Record.isReport = false) :
    l.makeRoom = some { l with queue := before ++ behind, lost := true } := by
  simp [Link.makeRoom, Link.full_iff.2 full, queue, dropLastReport_of_report before r answers]

theorem Link.makeRoom_of_answers {l : Link} (full : 16 ≤ l.used) (answers : l.queue.any Record.isReport = false) : l.makeRoom = none := by
  simp [Link.makeRoom, Link.full_iff.2 full, dropLastReport_eq_none answers]

/-! ### Records that join a queue (R185 to R187) -/

/-- The transmitter's start, as the statements put it. -/
theorem Link.startSending_eq_holding (l : Link) (queue : List Record) (lost : Bool) :
    ({ l with queue := queue, lost := lost } : Link).startSending = l.holding queue lost := by
  obtain ⟨framer, bytes, gap, old, transmitter, reserved, flag⟩ := l
  cases transmitter with
  | some sent => rfl
  | none =>
    match queue with
    | [] => rfl
    | .answer a :: rest => simp [Link.startSending, Link.holding, Record.isReport]
    | .report r :: rest => simp [Link.startSending, Link.holding, Record.isReport]

theorem Link.append_eq_holding (l : Link) (r : Record) : l.append r = l.holding (l.queue ++ [r]) l.lost :=
  l.startSending_eq_holding (l.queue ++ [r]) l.lost

theorem Link.pushReport_of_full {l : Link} (r : Report) (full : 16 ≤ l.used) : l.pushReport r = { l with lost := true } :=
  if_pos (Link.full_iff.2 full)

theorem Link.pushReport_of_room {l : Link} (r : Report) (room : l.used < 16) : l.pushReport r = l.holding (l.queue ++ [.report r]) l.lost := by
  rw [← Link.append_eq_holding]
  simp [Link.pushReport, Link.full_eq_false room]

theorem Link.pushAnswer_of_room {l : Link} (a : Answer) (room : l.used < 16) : l.pushAnswer a = l.holding (l.queue ++ [.answer a]) l.lost := by
  rw [← Link.append_eq_holding, Link.pushAnswer, Link.makeRoom_of_room room]

theorem Link.pushAnswer_of_report {l : Link} (a : Answer) {before behind : List Record} {r : Report} (full : 16 ≤ l.used)
    (queue : l.queue = before ++ .report r :: behind) (answers : behind.any Record.isReport = false) :
    l.pushAnswer a = l.holding (before ++ behind ++ [.answer a]) true := by
  rw [← Link.startSending_eq_holding, Link.pushAnswer, Link.makeRoom_of_report full queue answers]
  rfl

theorem Link.pushAnswer_of_answers {l : Link} (a : Answer) (full : 16 ≤ l.used) (answers : l.queue.any Record.isReport = false) :
    l.pushAnswer a = l := by
  rw [Link.pushAnswer, Link.makeRoom_of_answers full answers]

/-! ### Where a report goes (R184) -/

theorem mem_reportPorts {consoles : List Pos} {port : Port} : port ∈ reportPorts consoles ↔ port = 0 ∨ ∃ p ∈ consoles, port = p.succ := by
  simp [reportPorts, supervisorPort, consolePort, mem_allPos, eq_comm]

theorem reportPorts_nodup (consoles : List Pos) : (reportPorts consoles).Nodup := by
  have distinct : (allPos.filter fun p => consoles.contains p).Nodup := List.Pairwise.filter _ allPos_nodup
  refine List.nodup_cons.2 ⟨fun console => ?_, List.pairwise_map.2 (distinct.imp fun differ same => differ (Fin.succ_inj.1 same))⟩
  obtain ⟨p, -, first⟩ := List.mem_map.1 console
  exact Fin.succ_ne_zero p first

/-- A report queued at distinct ports in turn is pushed once at each of them and at no other. -/
theorem forEach_pushReport_link (body : ReportBody) {ports : List Port} (distinct : ports.Nodup) (s : State) (port : Port) :
    (forEach ports (fun port s => s.onLink port fun l => l.pushReport { body := body, time := s.timebase }) s).link port
      = if port ∈ ports then (s.link port).pushReport { body := body, time := s.timebase } else s.link port := by
  induction ports generalizing s with
  | nil => rfl
  | cons first rest ih =>
    obtain ⟨new, distinct⟩ := List.nodup_cons.1 distinct
    refine (ih distinct _).trans ?_
    by_cases here : port = first
    · subst here; simp [new]
    · simp [onLink_other, here]

theorem report_link (s : State) (consoles : List Pos) (body : ReportBody) (port : Port) : (s.report consoles body).link port
    = if port = 0 ∨ ∃ p ∈ consoles, port = p.succ then (s.link port).pushReport { body := body, time := s.timebase } else s.link port := by
  rw [State.report, forEach_pushReport_link body (reportPorts_nodup consoles)]
  exact ite_congr (propext mem_reportPorts) (fun _ => rfl) fun _ => rfl

/-- Settles O15: the ports of a report are distinct, so each takes it once; a full queue makes room, if at all, by its most recent report. -/
theorem queuesTakeRecords : Obligations.QueuesTakeRecords :=
  ⟨report_link, fun _ r full => Link.pushReport_of_full r full, fun _ r room => Link.pushReport_of_room r room,
    fun _ a room => Link.pushAnswer_of_room a room, fun _ a _ _ _ full queue answers => Link.pushAnswer_of_report a full queue answers,
    fun _ a full answers => Link.pushAnswer_of_answers a full answers⟩

/-! ### The end of a frame's sending (R185, R187) -/

/-- What a link becomes depends on the link alone. -/
theorem onLink_congr {s : State} {port : Port} {f g : Link → Link} (agree : f (s.link port) = g (s.link port)) : s.onLink port f = s.onLink port g := by
  change ({ s with links := s.links.set port.val (f (s.link port)) port.isLt } : State) = _
  rw [agree]
  rfl

theorem exec_transmitComplete {s : State} (running : s.running = true) (port : Port) :
    exec (.transmitComplete port) s = .next (followAux s (s.endSending port)) := event_running (f := fun s => s.endSending port) running

/-- A frame that no pending RESTART waits for ends: the transmitter is idle and takes the oldest record (R185). -/
theorem endSending_goesOn {s : State} {port : Port} {sent : Transmission} (sending : (s.link port).transmitter = some sent)
    (others : ¬ (port = 0 ∧ s.store.restartPending = true ∧ sent.record.isRestartDone = true)) :
    s.endSending port = s.onLink port fun l => ({ l with transmitter := none } : Link).startSending := by
  have stays : s.restartDue port sent = false := by
    rw [Bool.eq_false_iff]
    simpa [State.restartDue, supervisorPort, and_assoc] using others
  simp [State.endSending, sending, stays]

/-- Settles O14: the transmitter is idle for the length of the event, and the oldest record of the queue decides what it begins. -/
theorem transmitterGoesOn : Obligations.TransmitterGoesOn := by
  intro port s running
  refine ⟨fun idle => ?_, fun sent sending others => ?_⟩
  · rw [exec_transmitComplete running, State.endSending, idle, followAux_self]
  · rw [exec_transmitComplete running, endSending_goesOn sending others, followAux_link]
    refine ⟨fun queue => ?_, fun a rest queue => ?_, fun r rest queue => ?_⟩ <;> refine congrArg _ (onLink_congr ?_)
    · simp [Link.startSending, queue]
    · simp [Link.startSending, queue, Record.isReport]
    · simp [Link.startSending, queue, Record.isReport]

/-! ### SAVE and the end of its write (R181, R191, R192) -/

/-- A change of the store and the links moves no condition (R170). -/
theorem followAux_storeLinks {s t : State} (same : t = { s with store := t.store, links := t.links }) : followAux s t = t :=
  followAux_same fun c => by
    rw [same]
    exact condition_same rfl (fun _ => rfl) (fun _ => ⟨rfl, Iff.rfl⟩) (fun _ => rfl) (fun _ => ⟨rfl, rfl, rfl⟩) rfl (fun _ => ⟨rfl, rfl⟩) rfl c

theorem Link.reserve_reserved (l : Link) : l.reserve.reserved = true := rfl

theorem Link.reserve_of_room {l : Link} (room : l.used < 16) : l.reserve = { l with reserved := true } := by
  rw [Link.reserve, Link.makeRoom_of_room room, Option.getD_some]

theorem Link.reserve_of_report {l : Link} {before behind : List Record} {r : Report} (full : 16 ≤ l.used)
    (queue : l.queue = before ++ .report r :: behind) (answers : behind.any Record.isReport = false) :
    l.reserve = { l with queue := before ++ behind, lost := true, reserved := true } := by
  rw [Link.reserve, Link.makeRoom_of_report full queue answers, Option.getD_some]

/-- The supervisor's SAVE at its block (R191). -/
theorem exec_save {s : State} (tag : Byte) (takes : s.Takes 0) : exec (.save 0 tag) s
    = .next (if s.store.saving.isSome || s.store.restartPending then s.answer 0 .save tag .storeBusy else s.acceptSave 0 tag) := by
  have served : serveSave 0 tag s
      = if s.store.saving.isSome || s.store.restartPending then s.answer 0 .save tag .storeBusy else s.acceptSave 0 tag :=
    takeRequest_served takes.room rfl rfl
  have done : exec (.save 0 tag) s = .next (followAux s (serveSave 0 tag s)) := event_running takes.running
  rw [done, served]
  split <;> rw [followAux_storeLinks rfl]

theorem exec_save_busy {s : State} (tag : Byte) (takes : s.Takes 0) (busy : s.store.saving ≠ none ∨ s.store.restartPending = true) :
    exec (.save 0 tag) s = .next (s.answer 0 .save tag .storeBusy) := by
  rw [exec_save tag takes, if_pos]
  simpa [Option.isSome_iff_ne_none] using busy

theorem exec_save_accepted {s : State} (tag : Byte) (takes : s.Takes 0) (free : s.store.saving = none) (stays : s.store.restartPending = false) :
    exec (.save 0 tag) s = .next (s.acceptSave 0 tag) := by
  rw [exec_save tag takes, free, stays]
  rfl

/-- The supervisor's RESTART at its block (R194). -/
theorem exec_restart {s : State} (tag : Byte) (takes : s.Takes 0) : exec (.restart 0 tag) s
    = .next (if s.store.restartResult = .done then (s.answer 0 .restart tag .done).onStore fun st => { st with restartPending := true }
        else s.answer 0 .restart tag s.store.restartResult) := by
  have served : serveRestart 0 tag s
      = if s.store.restartResult = .done then (s.answer 0 .restart tag .done).onStore fun st => { st with restartPending := true }
        else s.answer 0 .restart tag s.store.restartResult := by
    refine (takeRequest_served takes.room rfl rfl).trans ?_
    split
    · next done => rw [done]
    · rfl
  have done : exec (.restart 0 tag) s = .next (followAux s (serveRestart 0 tag s)) := event_running takes.running
  rw [done, served]
  split <;> rw [followAux_storeLinks rfl]

theorem exec_saveWriteEnd {s : State} (running : s.running = true) (verified : Bool) : exec (.saveWriteEnd verified) s = .next (s.finishWrite verified) := by
  have done : exec (.saveWriteEnd verified) s = .next (followAux s (s.finishWrite verified)) := event_running (f := fun s => s.finishWrite verified) running
  rw [done, State.finishWrite]
  split <;> rw [followAux_storeLinks rfl]

/-- Settles O57: each request by what the store holds, and a write that ends by whether one runs; no condition reads the store or a link. -/
theorem storeServes : Obligations.StoreServes := by
  refine ⟨fun tag s takes => ⟨exec_save_busy tag takes, fun free stays => ?_, fun busy => ?_, fun free pending => ?_, fun free stays => ?_⟩,
    fun verified s running => ⟨fun none_runs => ?_, fun job runs => ?_⟩⟩
  · have taken : (s.acceptSave 0 tag).link 0 = (s.link 0).reserve := onLink_same s 0 Link.reserve
    refine ⟨_, exec_save_accepted tag takes free stays, rfl, ?_, fun room => ?_, fun before r behind full queue answers => ?_, rfl, fun port other => ?_⟩
    · rw [taken, Link.reserve_reserved]
    · rw [taken, Link.reserve_of_room room]
    · rw [taken, Link.reserve_of_report full queue answers]
    · exact onLink_other s 0 Link.reserve port other
  · have result : s.store.restartResult = .storeBusy := if_pos (Option.isSome_iff_ne_none.2 busy)
    rw [exec_restart tag takes, result, if_neg (by decide)]
  · have result : s.store.restartResult = .already := by simp [Store.restartResult, free, pending]
    rw [exec_restart tag takes, result, if_neg (by decide)]
  · have result : s.store.restartResult = .done := by simp [Store.restartResult, free, stays]
    rw [exec_restart tag takes, if_pos result]
  · rw [exec_saveWriteEnd running, State.finishWrite, none_runs]
  · rw [exec_saveWriteEnd running, State.finishWrite, runs]
    rfl

end Sys2Proof.Machine
end

