-- ==== Sys2Proof/Proofs/RequestChecks.lean ====
section
/-! The checks of a request before its block and in it: the queue, the length, the permission and the structural fields (R178 to R180). -/

namespace Sys2Proof.Machine

/-! ### Refusals before the block (R178, R179) -/

section Refusals

variable {port : Port} {q : Request} {tag : Byte} {len perm : Bool} {f : State → State} {s : State}

theorem takeRequest_full (full : (s.link port).fullOfAnswers = true) : takeRequest port q tag len perm f s = s.setLost port := if_pos full

theorem takeRequest_badFormat (room : (s.link port).fullOfAnswers = false) (wrong : len = false) :
    takeRequest port q tag len perm f s = s.answer port q tag .badFormat := by
  simp [takeRequest, room, wrong]

theorem takeRequest_notPermitted (room : (s.link port).fullOfAnswers = false) (right : len = true) (refused : perm = false) :
    takeRequest port q tag len perm f s = s.answer port q tag .notPermitted := by
  simp [takeRequest, room, right, refused]

end Refusals

theorem followAux_setLost (s : State) (port : Port) : followAux s (s.setLost port) = s.setLost port := followAux_link s port _

/-! ### Structural fields out of range (R180) -/

theorem outside_iff {lo hi : Nat} {b : Byte} : outside lo hi b = true ↔ b.toNat < lo ∨ hi < b.toNat := by
  simp [outside]

/-- A reader of structural fields that takes no byte outside a range. -/
def ReadsWithin {α : Type} (f : Byte → Option α) (lo hi : Nat) : Prop := ∀ b, outside lo hi b = true → f b = none

theorem ReadsWithin.inside {α : Type} {f : Byte → Option α} {lo hi : Nat} {b : Byte} {x : α} (within : ReadsWithin f lo hi) (read : f b = some x) :
    outside lo hi b = false := by
  cases out : outside lo hi b with
  | false => rfl
  | true => rw [within b out] at read; cases read

theorem posOf_within : ReadsWithin posOf 1 6 := fun b out => by
  rw [outside_iff] at out
  exact dif_neg (by omega)

theorem antOf_within : ReadsWithin antOf 1 12 := fun b out => by
  rw [outside_iff] at out
  exact dif_neg (by omega)

theorem lineOf_within : ReadsWithin lineOf 1 8 := fun b out => by
  rw [outside_iff] at out
  exact dif_neg (by omega)

theorem precedenceOf_within : ReadsWithin precedenceOf 0 3 := fun b out => by
  rw [outside_iff] at out
  exact dif_neg (by omega)

theorem lineMaskOf_within : ReadsWithin lineMaskOf 0 15 := fun b out => by
  rw [outside_iff] at out
  exact if_neg (by omega)

theorem posOrNoneOf_within : ReadsWithin posOrNoneOf 0 6 := fun b out => by
  have beyond : outside 1 6 b = true := by rw [outside_iff] at out ⊢; omega
  rw [outside_iff] at out
  rw [posOrNoneOf, if_neg (by omega), posOf_within b beyond]
  rfl

theorem antOrNoneOf_within : ReadsWithin antOrNoneOf 0 12 := fun b out => by
  have beyond : outside 1 12 b = true := by rw [outside_iff] at out ⊢; omega
  rw [outside_iff] at out
  rw [antOrNoneOf, if_neg (by omega), antOf_within b beyond]
  rfl

theorem bandOf_within : ReadsWithin bandOf 1 6 := fun b out => by
  rw [outside_iff] at out
  refine List.find?_eq_none.2 fun x _ same => ?_
  have index : x.index = b.toNat := by simpa using same
  have slot := x.slot.isLt
  rw [Band.index] at index
  omega

theorem bandOrNoneOf_within : ReadsWithin bandOrNoneOf 0 6 := fun b out => by
  have beyond : outside 1 6 b = true := by rw [outside_iff] at out ⊢; omega
  rw [outside_iff] at out
  rw [bandOrNoneOf, if_neg (by omega), bandOf_within b beyond]
  rfl

theorem yesNoOf_within : ReadsWithin yesNoOf 0 1 := fun b out => by
  rw [outside_iff] at out
  rw [yesNoOf, if_neg (by omega), if_neg (by omega)]

theorem sourceOf_within : ReadsWithin sourceOf 0 1 := fun b out => by
  rw [outside_iff] at out
  rw [sourceOf, if_neg (by omega), if_neg (by omega)]

theorem orderOf_within : ReadsWithin orderOf 0 1 := fun b out => by
  rw [outside_iff] at out
  rw [orderOf, if_neg (by omega), if_neg (by omega)]

theorem whatOf_within : ReadsWithin whatOf 1 3 := fun b out => by
  rw [outside_iff] at out
  rw [whatOf, if_neg (by omega), if_neg (by omega), if_neg (by omega)]

theorem actionOf_within : ReadsWithin actionOf 1 3 := fun b out => by
  rw [outside_iff] at out
  rw [actionOf, if_neg (by omega), if_neg (by omega), if_neg (by omega)]

theorem exclusionOpOf_within : ReadsWithin exclusionOpOf 1 3 := fun b out => by
  rw [outside_iff] at out
  rw [exclusionOpOf, if_neg (by omega), if_neg (by omega), if_neg (by omega)]

theorem subjectOf_within : ReadsWithin subjectOf 1 3 := fun b out => by
  rw [outside_iff] at out
  rw [subjectOf, if_neg (by omega), if_neg (by omega), if_neg (by omega)]

theorem positionSignalOf_within : ReadsWithin positionSignalOf 1 5 := fun b out => by
  rw [outside_iff] at out
  unfold positionSignalOf
  split
  case h_6 => rfl
  all_goals omega

theorem antennaSignalOf_within : ReadsWithin antennaSignalOf 1 5 := fun b out => by
  rw [outside_iff] at out
  unfold antennaSignalOf
  split
  case h_6 => rfl
  all_goals omega

theorem stationSignalOf_within : ReadsWithin stationSignalOf 1 6 := fun b out => by
  rw [outside_iff] at out
  unfold stationSignalOf
  split
  case h_7 => rfl
  all_goals omega

theorem bandMaskOf_clear {b : Byte} {mask : BitVec 8} (read : bandMaskOf b = some mask) : (b.getLsbD 0 || b.getLsbD 7) = false := by
  unfold bandMaskOf at read
  split at read
  · cases read
  · next clear => exact Bool.eq_false_iff.2 clear

theorem configuredOf_coded {b : Byte} {x : Configured} (read : configuredOf b = some x) : (b.toNat != 0 && b.toNat != 2) = false := by
  unfold configuredOf at read
  split at read
  · next zero => simp [zero]
  · split at read
    · next two => simp [two]
    · cases read

/-! ### Lists (R86, R180) -/

theorem readAll_map {α : Type} {f : Byte → Option α} {l : List Byte} {xs : List α} (read : readAll f l = some xs) : l.map f = xs.map some := by
  induction l generalizing xs with
  | nil => cases read; rfl
  | cons b rest ih =>
    unfold readAll at read
    split at read
    · next x ys first others =>
      cases read
      rw [List.map_cons, List.map_cons, first, ih others]
    · cases read

theorem ReadsWithin.all_inside {α : Type} {f : Byte → Option α} {lo hi : Nat} {l : List Byte} {xs : List α} (within : ReadsWithin f lo hi)
    (read : readAll f l = some xs) : l.any (outside lo hi) = false := by
  refine List.any_eq_false.2 fun b hb out => ?_
  have taken : f b ∈ xs.map some := readAll_map read ▸ List.mem_map_of_mem hb
  rw [within b out] at taken
  simp at taken

theorem hasDuplicate_eq_false {l : List Ant} (single : hasDuplicate l = false) : l.Nodup := by
  induction l with
  | nil => exact List.nodup_nil
  | cons a rest ih =>
    obtain ⟨new, others⟩ := Bool.or_eq_false_iff.1 single
    exact List.nodup_cons.2 ⟨by simpa using new, ih others⟩

/-- A list of bytes that names a thing twice is read as one that does. -/
theorem hasDuplicate_of_read {l : List Byte} {xs : List Ant} (read : readAll antOf l = some xs) (twice : ¬ l.Nodup) : hasDuplicate xs = true := by
  cases single : hasDuplicate xs with
  | true => rfl
  | false =>
    have distinct : (xs.map some).Nodup := List.pairwise_map.2 ((hasDuplicate_eq_false single).imp fun differ same => differ (Option.some.inj same))
    rw [← readAll_map read] at distinct
    exact absurd ((List.pairwise_map.1 distinct).imp fun differ same => differ (congrArg antOf same)) twice

/-! ### The data of QUERY, the source of an aux line and an exclusion pair (R148, R172, R183) -/

/-- A QUERY with a structural field out of range has no data, whichever field it is (R183). -/
theorem queryData_bad {s : State} {subject index reset : Byte} (port : Port) (tag : Byte)
    (bad : structurallyBad (.query port tag subject index reset) = true) : s.queryData subject index reset = none := by
  simp only [structurallyBad, Bool.or_eq_true, Bool.and_eq_true, beq_iff_eq] at bad
  unfold State.queryData
  rcases bad with (((unknown | unknown) | ⟨position, bad⟩) | ⟨antenna, beyond⟩) | ⟨station, bad⟩
  · rw [subjectOf_within _ unknown]
  · rw [yesNoOf_within _ unknown]
    cases subjectOf subject with
    | none => rfl
    | some x => cases x <;> rfl
  · have read : subjectOf subject = some .position := if_pos position
    rw [read]
    rcases bad with beyond | peak
    · rw [posOf_within _ beyond]
      rcases yesNoOf reset with _ | _ | _ <;> rfl
    · have yes : yesNoOf reset = some true := by simp [yesNoOf, peak]
      rw [yes]
  · have read : subjectOf subject = some .antenna := by simp [subjectOf, antenna]
    rw [read, antOf_within _ beyond]
    cases yesNoOf reset <;> rfl
  · have read : subjectOf subject = some .station := by simp [subjectOf, station]
    rw [read]
    rcases bad with beyond | peak
    · have named : index.toNat ≠ 0 := by rw [outside_iff] at beyond; omega
      rw [if_neg named]
      rcases yesNoOf reset with _ | _ | _ <;> rfl
    · have yes : yesNoOf reset = some true := by simp [yesNoOf, peak]
      rw [yes]

/-- The index and the signal of an aux source lie in the ranges of its kind (R172). -/
theorem auxSourceOf_inside {kind index signal : Byte} {source : AuxSource} (read : auxSourceOf kind index signal = some source) :
    outside 0 3 kind = false ∧ (kind.toNat = 0 → outside 0 1 index = false ∧ outside 0 0 signal = false)
      ∧ (kind.toNat = 1 → outside 1 6 index = false ∧ outside 1 5 signal = false)
      ∧ (kind.toNat = 2 → outside 1 12 index = false ∧ outside 1 5 signal = false)
      ∧ (kind.toNat = 3 → outside 0 0 index = false ∧ outside 1 6 signal = false) := by
  unfold auxSourceOf at read
  split at read
  · next fixed =>
    split at read
    · next zero =>
      obtain ⟨v, value, -⟩ := Option.map_eq_some_iff.1 read
      exact ⟨by simp [outside, fixed], fun _ => ⟨yesNoOf_within.inside value, by simp [outside, zero]⟩, by simp [fixed], by simp [fixed], by simp [fixed]⟩
    · cases read
  · next position =>
    split at read
    · next at_ shows_ =>
      exact ⟨by simp [outside, position], by simp [position], fun _ => ⟨posOf_within.inside at_, positionSignalOf_within.inside shows_⟩,
        by simp [position], by simp [position]⟩
    · cases read
  · next antenna =>
    split at read
    · next at_ shows_ =>
      exact ⟨by simp [outside, antenna], by simp [antenna], by simp [antenna],
        fun _ => ⟨antOf_within.inside at_, antennaSignalOf_within.inside shows_⟩, by simp [antenna]⟩
    · cases read
  · next station =>
    split at read
    · next zero =>
      obtain ⟨g, shows_, -⟩ := Option.map_eq_some_iff.1 read
      exact ⟨by simp [outside, station], by simp [station], by simp [station], by simp [station],
        fun _ => ⟨by simp [outside, zero], stationSignalOf_within.inside shows_⟩⟩
    · cases read
  · cases read

theorem exclusionOpOf_clearAll {b : Byte} (read : exclusionOpOf b = some .clearAll) : b.toNat = 3 := by
  unfold exclusionOpOf at read
  split at read
  · cases read
  · split at read
    · cases read
    · split at read
      · assumption
      · cases read

/-- CLEAR_ALL reads no antenna; ADD and REMOVE refuse antennas out of range and an antenna paired with itself (R148). -/
theorem exclusionResult_bad {set : List (Ant × Ant)} {op first second : Byte} (port : Port) (tag : Byte)
    (bad : structurallyBad (.setExclusion port tag op first second) = true) : exclusionResult set op first second = (.badValue, set) := by
  simp only [structurallyBad, Bool.or_eq_true, Bool.and_eq_true, beq_iff_eq] at bad
  unfold exclusionResult
  split
  · rfl
  · next clears =>
    have known := exclusionOpOf_within.inside clears
    have three := exclusionOpOf_clearAll clears
    rcases bad with unknown | ⟨pairs, -⟩
    · simp [known] at unknown
    · simp [outside, three] at pairs
  · next _ known =>
    split
    · next a b ha hb =>
      rcases bad with unknown | ⟨-, (beyond | beyond) | same⟩
      · simp [exclusionOpOf_within.inside known] at unknown
      · simp [antOf_within.inside ha] at beyond
      · simp [antOf_within.inside hb] at beyond
      · have self : a = b := by
          rw [same, hb] at ha
          exact (Option.some.inj ha).symm
        exact if_pos self
    · rfl

theorem prefList_read {count : Byte} {entries : List Byte} {l : List Ant} (read : prefList count entries = some l) :
    outside 0 4 count = false ∧ readAll antOf (entries.take count.toNat) = some l := by
  unfold prefList at read
  split at read
  · cases read
  · next short => exact ⟨by simpa [outside, prefEntries] using short, read⟩

theorem prefResult_twice {s : State} {p : Pos} {b : Band} {l : List Ant} (twice : hasDuplicate l = true) : s.prefResult p b l = .badValue := if_pos twice

/-! ### Each request as its checks and its block (R178 to R180) -/

/-- A request as the checks before its block and the block, which refuses structural fields out of range. -/
structure CheckedBy (c : Instr) (port : Port) (q : Request) (tag : Byte) (permitted : Bool) (block : State → State) : Prop where
  taken : ∀ s, exec c s = event (takeRequest port q tag c.wellFormed permitted block) s
  permission : permitted = (port == 0 || !consoleMayNot port c)
  refuses : structurallyBad c = true → ∀ s, block s = s.answer port q tag .badValue

theorem mayFor_eq (port : Port) (p : Byte) : mayFor port p = (port == 0 || !(p.toNat != port.val)) := by
  simp [mayFor, supervisorPort, bne]

theorem supervisorOnly_eq (port : Port) : supervisorOnly port = (port == 0 || !true) := (Bool.or_false _).symm

theorem ping_checked (port : Port) (tag : Byte) : ∃ may block, CheckedBy (.ping port tag) port .ping tag may block :=
  ⟨_, _, fun _ => rfl, (Bool.or_true _).symm, nofun⟩

theorem query_checked (port : Port) (tag subject index reset : Byte) :
    ∃ may block, CheckedBy (.query port tag subject index reset) port .query tag may block :=
  ⟨_, _, fun _ => rfl, rfl, fun bad s => by rw [queryData_bad port tag bad]⟩

theorem claim_checked (port : Port) (tag p a n : Byte) : ∃ may block, CheckedBy (.claim port tag p a n) port .claim tag may block :=
  ⟨_, _, fun _ => rfl, mayFor_eq port p, fun bad s => by
    split
    · next hp ha hn => simp [structurallyBad, posOf_within.inside hp, antOf_within.inside ha, yesNoOf_within.inside hn] at bad
    · rfl⟩

theorem release_checked (port : Port) (tag p w : Byte) : ∃ may block, CheckedBy (.release port tag p w) port .release tag may block :=
  ⟨_, _, fun _ => rfl, mayFor_eq port p, fun bad s => by
    split
    · next hp hw => simp [structurallyBad, posOf_within.inside hp, whatOf_within.inside hw] at bad
    · rfl⟩

theorem force_checked (port : Port) (tag a p : Byte) : ∃ may block, CheckedBy (.force port tag a p) port .force tag may block :=
  ⟨_, _, fun _ => rfl, supervisorOnly_eq port, fun bad s => by
    split
    · next ha hp => simp [structurallyBad, antOf_within.inside ha, posOrNoneOf_within.inside hp] at bad
    · rfl⟩

theorem setClaims_checked (port : Port) (tag : Byte) (t : Half) : ∃ may block, CheckedBy (.setClaims port tag t) port .setClaims tag may block :=
  ⟨_, _, fun _ => rfl, supervisorOnly_eq port, nofun⟩

theorem follow_checked (port : Port) (tag p w : Byte) : ∃ may block, CheckedBy (.follow port tag p w) port .follow tag may block :=
  ⟨_, _, fun _ => rfl, mayFor_eq port p, fun bad s => by
    split
    · next hp hw => simp [structurallyBad, posOf_within.inside hp, actionOf_within.inside hw] at bad
    · rfl⟩

/-- A list read without a refusal can still name an antenna twice, which the block's own check refuses (R86). -/
theorem setPref_checked (port : Port) (tag p b n : Byte) (l : List Byte) :
    ∃ may block, CheckedBy (.setPref port tag p b n l) port .setPref tag may block :=
  ⟨_, _, fun _ => rfl, mayFor_eq port p, fun bad s => by
    split
    · next hp hb hl =>
      obtain ⟨count, entries⟩ := prefList_read hl
      have twice : ¬ (l.take n.toNat).Nodup := by
        simpa [structurallyBad, posOf_within.inside hp, bandOf_within.inside hb, count, antOf_within.all_inside entries] using bad
      rw [prefResult_twice (hasDuplicate_of_read entries twice)]
      rfl
    · rfl⟩

theorem listen_checked (port : Port) (tag p a : Byte) : ∃ may block, CheckedBy (.listen port tag p a) port .listen tag may block :=
  ⟨_, _, fun _ => rfl, mayFor_eq port p, fun bad s => by
    split
    · next hp ha => simp [structurallyBad, posOf_within.inside hp, antOrNoneOf_within.inside ha] at bad
    · next hp ha => simp [structurallyBad, posOf_within.inside hp, antOrNoneOf_within.inside ha] at bad
    · rfl⟩

theorem setBand_checked (port : Port) (tag p b : Byte) : ∃ may block, CheckedBy (.setBand port tag p b) port .setBand tag may block :=
  ⟨_, _, fun _ => rfl, mayFor_eq port p, fun bad s => by
    split
    · next hp hb => simp [structurallyBad, posOf_within.inside hp, bandOrNoneOf_within.inside hb] at bad
    · rfl⟩

theorem setBanding_checked (port : Port) (tag p src line guard_ : Byte) :
    ∃ may block, CheckedBy (.setBanding port tag p src line guard_) port .setBanding tag may block :=
  ⟨_, _, fun _ => rfl, supervisorOnly_eq port, fun bad s => by
    split
    · next hp hs hl hg =>
      simp [structurallyBad, posOf_within.inside hp, sourceOf_within.inside hs, lineMaskOf_within.inside hl, lineMaskOf_within.inside hg] at bad
    · rfl⟩

theorem setBandmap_checked (port : Port) (tag : Byte) (l : List Byte) (t : Byte) :
    ∃ may block, CheckedBy (.setBandmap port tag l t) port .setBandmap tag may block :=
  ⟨_, _, fun _ => rfl, supervisorOnly_eq port, fun bad s => by
    split
    · rfl
    · next hl =>
      rw [structurallyBad, bandOrNoneOf_within.all_inside hl] at bad
      cases bad⟩

theorem setAntenna_checked (port : Port) (tag a mask : Byte) (mp : Half) (sl : Byte) (kf : Half) (c zf zr st sv : Byte) :
    ∃ may block, CheckedBy (.setAntenna port tag a mask mp sl kf c zf zr st sv) port .setAntenna tag may block :=
  ⟨_, _, fun _ => rfl, supervisorOnly_eq port, fun bad s => by
    split
    · next ha hm hs =>
      rw [structurallyBad, antOf_within.inside ha, configuredOf_coded hs, Bool.or_false, Bool.false_or, bandMaskOf_clear hm] at bad
      cases bad
    · rfl⟩

theorem clear_checked (port : Port) (tag a : Byte) : ∃ may block, CheckedBy (.clear port tag a) port .clear tag may block :=
  ⟨_, _, fun _ => rfl, supervisorOnly_eq port, fun bad s => by rw [antOf_within _ bad]⟩

theorem setSensing_checked (port : Port) (tag t : Byte) (f : Half) (u : Byte) :
    ∃ may block, CheckedBy (.setSensing port tag t f u) port .setSensing tag may block :=
  ⟨_, _, fun _ => rfl, supervisorOnly_eq port, nofun⟩

theorem setSequencing_checked (port : Port) (tag : Byte) (d : Half) (f : Byte) :
    ∃ may block, CheckedBy (.setSequencing port tag d f) port .setSequencing tag may block :=
  ⟨_, _, fun _ => rfl, supervisorOnly_eq port, nofun⟩

theorem hold_checked (port : Port) (tag v : Byte) : ∃ may block, CheckedBy (.hold port tag v) port .hold tag may block :=
  ⟨_, _, fun _ => rfl, supervisorOnly_eq port, fun bad s => by rw [yesNoOf_within _ bad]⟩

theorem setKeying_checked (port : Port) (tag p k : Byte) (h m : Half) :
    ∃ may block, CheckedBy (.setKeying port tag p k h m) port .setKeying tag may block :=
  ⟨_, _, fun _ => rfl, supervisorOnly_eq port, fun bad s => by
    split
    · next hp hk => simp [structurallyBad, posOf_within.inside hp, precedenceOf_within.inside hk] at bad
    · rfl⟩

theorem setRules_checked (port : Port) (tag : Byte) (l : List Byte) (t o pre g : Byte) :
    ∃ may block, CheckedBy (.setRules port tag l t o pre g) port .setRules tag may block :=
  ⟨_, _, fun _ => rfl, supervisorOnly_eq port, fun bad s => by
    split
    · next ho hp => simp [structurallyBad, orderOf_within.inside ho, yesNoOf_within.inside hp] at bad
    · rfl⟩

theorem setExclusion_checked (port : Port) (tag op a b : Byte) :
    ∃ may block, CheckedBy (.setExclusion port tag op a b) port .setExclusion tag may block :=
  ⟨_, _, fun _ => rfl, supervisorOnly_eq port, fun bad s => by
    rw [exclusionResult_bad port tag bad]
    rfl⟩

theorem setAux_checked (port : Port) (tag line kind index signal invert flash : Byte) :
    ∃ may block, CheckedBy (.setAux port tag line kind index signal invert flash) port .setAux tag may block :=
  ⟨_, _, fun _ => rfl, supervisorOnly_eq port, fun bad s => by
    split
    · next hl hs hi hf =>
      obtain ⟨known, fixed, position, antenna, station⟩ := auxSourceOf_inside hs
      simp only [structurallyBad, lineOf_within.inside hl, yesNoOf_within.inside hi, yesNoOf_within.inside hf, known, Bool.or_false, Bool.false_or,
        Bool.or_eq_true, Bool.and_eq_true, beq_iff_eq] at bad
      rcases bad with ((⟨kind0, bad⟩ | ⟨kind1, bad⟩) | ⟨kind2, bad⟩) | ⟨kind3, bad⟩
      · simp [fixed kind0] at bad
      · simp [position kind1] at bad
      · simp [antenna kind2] at bad
      · simp [station kind3] at bad
    · rfl⟩

theorem save_checked (port : Port) (tag : Byte) : ∃ may block, CheckedBy (.save port tag) port .save tag may block :=
  ⟨_, _, fun _ => rfl, supervisorOnly_eq port, nofun⟩

theorem restart_checked (port : Port) (tag : Byte) : ∃ may block, CheckedBy (.restart port tag) port .restart tag may block :=
  ⟨_, _, fun _ => rfl, supervisorOnly_eq port, nofun⟩

/-- Every request passes the same checks before its block (R178). -/
theorem request_checked {c : Instr} {port : Port} {q : Request} {tag : Byte} (request : requestOn c = some (port, q, tag)) :
    ∃ may block, CheckedBy c port q tag may block := by
  cases c <;> cases request
  case ping => exact ping_checked ..
  case query => exact query_checked ..
  case claim => exact claim_checked ..
  case release => exact release_checked ..
  case force => exact force_checked ..
  case setClaims => exact setClaims_checked ..
  case follow => exact follow_checked ..
  case setPref => exact setPref_checked ..
  case listen => exact listen_checked ..
  case setBand => exact setBand_checked ..
  case setBanding => exact setBanding_checked ..
  case setBandmap => exact setBandmap_checked ..
  case setAntenna => exact setAntenna_checked ..
  case clear => exact clear_checked ..
  case setSensing => exact setSensing_checked ..
  case setSequencing => exact setSequencing_checked ..
  case hold => exact hold_checked ..
  case setKeying => exact setKeying_checked ..
  case setRules => exact setRules_checked ..
  case setExclusion => exact setExclusion_checked ..
  case setAux => exact setAux_checked ..
  case save => exact save_checked ..
  case restart => exact restart_checked ..

/-- Settles O11: the checks come in one order for every request, and its block refuses a structural field out of range; an answer moves no condition. -/
theorem requestsChecked : Obligations.RequestsChecked := by
  intro c port q tag s request running
  obtain ⟨may, block, checked⟩ := request_checked request
  have done : exec c s = .next (followAux s (takeRequest port q tag c.wellFormed may block s)) := (checked.taken s).trans (event_running running)
  refine ⟨fun full => ?_, fun room malformed => ?_, fun room formed console refused => ?_, fun room formed allowed bad => ?_⟩
  · rw [done, takeRequest_full full, followAux_setLost]
    rfl
  · rw [done, takeRequest_badFormat room malformed, followAux_answer]
  · have barred : may = false := by simp [checked.permission, console, refused]
    rw [done, takeRequest_notPermitted room formed barred, followAux_answer]
  · have permitted : may = true := by simpa [checked.permission] using allowed
    rw [done, takeRequest_served room formed permitted, checked.refuses bad, followAux_answer]

end Sys2Proof.Machine
end

