-- ==== Sys2Proof/Proofs/Framing.lean ====
section
/-! The framer byte by byte, and a good frame as the request that its bytes spell (R175 to R178, R197). -/

namespace Sys2Proof.Machine

/-! ### The framer (R175 to R177) -/

theorem exec_byteReceived {s : State} (running : s.running = true) (port : Port) (byte : Byte) :
    exec (.byteReceived port byte) s = .next (followAux s (s.takeByte port byte)) := event_running (f := fun s => s.takeByte port byte) running

theorem takeByte_hunt {s : State} {port : Port} (hunts : (s.link port).framer = .hunt) (byte : Byte) : s.takeByte port byte
    = if byte = 0xD2#8 then s.onLink port fun l => { l with framer := .length, partialFrame := [], gap := some (s.timebase + 10#32) } else s := by
  rw [State.takeByte, hunts]
  rfl

theorem takeByte_length {s : State} {port : Port} (awaits : (s.link port).framer = .length) (byte : Byte) : s.takeByte port byte
    = if 2 ≤ byte.toNat ∧ byte.toNat ≤ 50 then
        s.onLink port fun l => { l with framer := .body, partialFrame := [byte], gap := some (s.timebase + 10#32) }
      else if byte = 0xD2#8 then s.onLink port fun l => { l with framer := .length, partialFrame := [], gap := some (s.timebase + 10#32) }
      else s.onLink port Link.hunt := by
  rw [State.takeByte, awaits]
  change s.onLink port (fun l => l.takeLength byte (some (s.timebase + 10#32))) = _
  unfold Link.takeLength
  split
  · rfl
  · split
    · next starts => rw [if_pos (show byte = 0xD2#8 from starts)]; rfl
    · next other => rw [if_neg (show byte ≠ 0xD2#8 from other)]

/-- A partial frame is complete at the byte behind as many as its LEN says (R176). -/
theorem frameComplete_append (len : Byte) (rest : List Byte) (byte : Byte) :
    frameComplete (len :: rest ++ [byte]) = decide (rest.length = len.toNat) := by
  rw [Bool.eq_iff_iff, decide_eq_true_iff]
  simp [frameComplete]

theorem takeByte_body {s : State} {port : Port} {len : Byte} {rest : List Byte} (collects : (s.link port).framer = .body)
    (bytes : (s.link port).partialFrame = len :: rest) (byte : Byte) : s.takeByte port byte
    = if rest.length = len.toNat then takeFrame port (len :: rest ++ [byte]) (s.onLink port Link.hunt)
      else s.onLink port fun l => { l with partialFrame := l.partialFrame ++ [byte], gap := some (s.timebase + 10#32) } := by
  rw [State.takeByte, collects]
  simp only [State.takeBody, bytes, frameComplete_append, decide_eq_true_eq]
  refine ite_congr rfl (fun _ => rfl) fun _ => onLink_congr ?_
  rw [bytes]
  rfl

theorem takeFrame_badSum {bytes : List Byte} (bad : byteSum bytes ≠ 0#8) (port : Port) (s : State) : takeFrame port bytes s = s := by
  unfold takeFrame
  rw [if_neg bad]
  rfl

/-- Settles O12: the framer's state and the byte decide what the link becomes, and no condition reads a link. -/
theorem framerTakesBytes : Obligations.FramerTakesBytes := by
  intro port b s running gap hunting
  refine ⟨fun hunts => ?_, fun awaits => ?_, fun len rest collects bytes => ⟨fun short => ?_, fun complete bad => ?_⟩, ?_, ?_⟩
  · rw [exec_byteReceived running, takeByte_hunt hunts]
    split
    · rw [followAux_link]
    · rw [followAux_self]
  · rw [exec_byteReceived running, takeByte_length awaits]
    split
    · rw [followAux_link]
    · split
      · rw [followAux_link]
      · rw [followAux_link]; rfl
  · rw [exec_byteReceived running, takeByte_body collects bytes, if_neg short, followAux_link]
  · rw [exec_byteReceived running, takeByte_body collects bytes, if_pos complete, takeFrame_badSum bad, followAux_link]
    rfl
  · have done : exec (.framingError port) s = .next (followAux s (s.onLink port Link.hunt)) :=
      event_running (f := fun s => s.onLink port Link.hunt) running
    rw [done, followAux_link]
    rfl
  · have done : exec (.byteGapExpiry port) s = .next (followAux s (if s.due (s.link port).gap then s.onLink port Link.hunt else s)) :=
      event_running (f := onlyIf (fun s => s.gapDue port) fun s => s.onLink port Link.hunt) running
    rw [done]
    split
    · rw [followAux_link]; rfl
    · rw [followAux_self]

/-! ### The request of a good frame (R178, R197) -/

theorem requestOf_code (q : Request) : requestOf q.code = some q := by cases q <;> rfl

theorem requestOf_eq_none {type : Byte} (unknown : ∀ q : Request, q.code ≠ type) : requestOf type = none :=
  List.find?_eq_none.2 fun q _ => by simpa using unknown q

/-- A two-byte field is read back from its bytes (R197). -/
theorem halfOf_halfBytes (h : Half) : halfOf (h.extractLsb' 0 8) (h.extractLsb' 8 8) = h := by
  rw [halfOf, BitVec.extractLsb'_append_extractLsb'_eq_extractLsb' (by decide)]
  simp

theorem takeFrame_good {len type tag check : Byte} {payload : List Byte} (good : byteSum (len :: type :: tag :: payload ++ [check]) = 0#8)
    (port : Port) (s : State) : takeFrame port (len :: type :: tag :: payload ++ [check]) s = serveFrame port type tag payload s := by
  unfold takeFrame
  rw [if_pos good]
  change serveFrame port type tag (payload ++ [check]).dropLast s = _
  rw [List.dropLast_concat]

theorem serveFrame_code (port : Port) (q : Request) (tag : Byte) (payload : List Byte) :
    serveFrame port q.code tag payload = serveRequest port q tag payload := by
  rw [serveFrame, requestOf_code]

theorem serveFrame_unknown {type : Byte} (unknown : ∀ q : Request, q.code ≠ type) (port : Port) (tag : Byte) (payload : List Byte) :
    serveFrame port type tag payload = unknownType port type tag := by
  rw [serveFrame, requestOf_eq_none unknown]

/-! ### Payloads of a wrong length (R178 step 2) -/

theorem serveStation_badFormat {q : Request} {payload : List Byte} (length : payload.length ≠ q.payloadLength) (port : Port) (tag : Byte) :
    serveStation port q tag payload = badFormat port q tag := by
  unfold serveStation
  split
  case h_10 => rfl
  all_goals
    split
    · exact absurd rfl length
    · rfl

theorem serveRequest_badFormat {q : Request} {payload : List Byte} (length : payload.length ≠ q.payloadLength) (port : Port) (tag : Byte) :
    serveRequest port q tag payload = badFormat port q tag := by
  unfold serveRequest
  split
  case h_15 => exact serveStation_badFormat length port tag
  all_goals exact absurd rfl length

theorem badFormat_eq (port : Port) (q : Request) (tag : Byte) (s : State) :
    badFormat port q tag s = if (s.link port).fullOfAnswers then s.setLost port else s.answer port q tag .badFormat := by
  cases room : (s.link port).fullOfAnswers with
  | true => exact takeRequest_full room
  | false => exact takeRequest_badFormat room rfl

/-! ### Payloads read back (R197) -/

theorem exists_ofFn {α : Type} {n : Nat} {l : List α} (length : l.length = n) : ∃ f : Fin n → α, l = List.ofFn f := by
  subst length
  exact ⟨l.get, List.ext_getElem (by rw [List.length_ofFn]) fun i _ _ => by rw [List.getElem_ofFn]; rfl⟩

theorem serveRequest_setPref (port : Port) (tag p b n : Byte) {l : List Byte} (length : l.length = 4) :
    serveRequest port .setPref tag ([p, b, n] ++ l) = serveSetPref port tag p b n l := by
  obtain ⟨f, rfl⟩ := exists_ofFn length
  rfl

theorem serveRequest_setBandmap (port : Port) (tag t : Byte) {l : List Byte} (length : l.length = 16) :
    serveRequest port .setBandmap tag (l ++ [t]) = serveSetBandmap port tag l t := by
  obtain ⟨f, rfl⟩ := exists_ofFn length
  rfl

theorem serveRequest_setRules (port : Port) (tag t o pre g : Byte) {l : List Byte} (length : l.length = 6) :
    serveRequest port .setRules tag (l ++ [t, o, pre, g]) = serveSetRules port tag l t o pre g := by
  obtain ⟨f, rfl⟩ := exists_ofFn length
  rfl

/-- The payload of a well-formed request, served under its type, is the request's own command (Record Formats, "Request payloads"). -/
theorem event_payloadOf {c : Instr} {port : Port} {q : Request} {tag : Byte} (request : requestOn c = some (port, q, tag))
    (formed : c.wellFormed = true) (s : State) : event (serveRequest port q tag (payloadOf c)) s = exec c s := by
  cases c <;> cases request
  case setPref => exact congrArg (event · s) (serveRequest_setPref _ _ _ _ _ (by simpa [Instr.wellFormed, prefEntries] using formed))
  case setBandmap => exact congrArg (event · s) (serveRequest_setBandmap _ _ _ (by simpa [Instr.wellFormed, bandmapEntries] using formed))
  case setRules => exact congrArg (event · s) (serveRequest_setRules _ _ _ _ _ _ (by simpa [Instr.wellFormed, limitEntries] using formed))
  case setClaims t => exact congrArg (fun h => event (serveSetClaims port tag h) s) (halfOf_halfBytes t)
  case setSensing t f u => exact congrArg (fun h => event (serveSetSensing port tag t h u) s) (halfOf_halfBytes f)
  case setSequencing d f => exact congrArg (fun h => event (serveSetSequencing port tag h f) s) (halfOf_halfBytes d)
  case setKeying p k h m =>
    change event (serveSetKeying port tag p k (halfOf _ _) (halfOf _ _)) s = _
    rw [halfOf_halfBytes, halfOf_halfBytes]
    rfl
  case setAntenna a mask mp sl kf c zf zr st sv =>
    change event (serveSetAntenna port tag a mask (halfOf _ _) sl (halfOf _ _) c zf zr st sv) s = _
    rw [halfOf_halfBytes, halfOf_halfBytes]
    rfl
  all_goals rfl

/-! ### The byte that completes a good frame (R176) -/

/-- No condition reads the framer, so the aux lines follow from the state in which it hunts again. -/
theorem followAux_afterLink (s t : State) (port : Port) (f : Link → Link) : followAux (s.onLink port f) t = followAux s t := by
  have moved : conditionMoved (s.onLink port f) t = conditionMoved s t := funext fun l => by rw [conditionMoved, onLink_condition]; rfl
  rw [followAux, moved]
  rfl

/-- A good frame is served as an event of the state in which its framer hunts again. -/
theorem exec_goodFrame {s : State} {port : Port} {len type tag check : Byte} {payload : List Byte} (running : s.running = true)
    (collects : (s.link port).framer = .body) (bytes : (s.link port).partialFrame = len :: type :: tag :: payload)
    (complete : len.toNat = payload.length + 2) (good : byteSum (len :: type :: tag :: payload ++ [check]) = 0#8) :
    exec (.byteReceived port check) s = event (serveFrame port type tag payload) (s.onLink port Link.hunt) := by
  have hunting : (s.onLink port Link.hunt).running = true := running
  have whole : (type :: tag :: payload).length = len.toNat := complete.symm
  rw [exec_byteReceived running, takeByte_body collects bytes, if_pos whole, takeFrame_good good, event_running hunting, followAux_afterLink]

/-- A framer that hunts again leaves its port's queue as it was. -/
theorem hunt_fullOfAnswers (s : State) (port : Port) : ((s.onLink port Link.hunt).link port).fullOfAnswers = (s.link port).fullOfAnswers := by
  rw [onLink_same]
  rfl

/-- A frame discarded at a queue full of answers, else answered (R178 step 0): either way an event of the links alone. -/
theorem event_discardOrAnswer {g : State → State} {s : State} {port : Port} {full : Bool} {f : Link → Link} (running : s.running = true)
    (served : g s = if full then s.setLost port else s.onLink port f) : event g s = .next (if full then s.setLost port else s.onLink port f) := by
  rw [event_running running, served]
  split
  · rw [followAux_setLost]
  · rw [followAux_link]

/-- Settles O13: the frame's request is its command, and a frame of no request or of a wrong length is refused at its own queue. -/
theorem goodFrameIsItsRequest : Obligations.GoodFrameIsItsRequest := by
  refine ⟨fun c port q tag len check s request formed running collects bytes complete good => ?_,
    fun port type tag len check payload s unknown running collects bytes complete good => ?_,
    fun port q tag len check payload s length running collects bytes complete good => ?_⟩
  · rw [exec_goodFrame running collects bytes complete good, serveFrame_code, event_payloadOf request formed]
    rfl
  · rw [exec_goodFrame running collects bytes complete good, serveFrame_unknown unknown, ← hunt_fullOfAnswers]
    exact event_discardOrAnswer running rfl
  · rw [exec_goodFrame running collects bytes complete good, serveFrame_code, serveRequest_badFormat length, ← hunt_fullOfAnswers]
    exact event_discardOrAnswer running (badFormat_eq port q tag _)

end Sys2Proof.Machine
end

