-- ==== Sys2Proof/Proofs/Queries.lean ====
section
/-! PING and QUERY: the data they carry, and that nothing moves but a peak that is reset (R32, R47, R100, R121, R127, R152, R182, R183). -/

namespace Sys2Proof.Machine

/-! ### PING (R182) -/

/-- Settles O16: an answer moves no condition, and PING's payload is empty. -/
theorem pingAnswers : Obligations.PingAnswers := by
  intro port tag s takes
  refine ⟨?_, rfl, fun payload named => ?_⟩
  · have served : servePing port tag s = s.answerRaw port 0x01#8 tag .done (.ping s.timebase) := takeRequest_served takes.room rfl rfl
    have done : exec (.ping port tag) s = .next (followAux s (servePing port tag s)) := event_running takes.running
    rw [done, served, answerRaw_eq, followAux_link]
    rfl
  · have wrong : payload.length ≠ Request.ping.payloadLength := mt List.eq_nil_of_length_eq_zero named
    have refused : serveFrame port 0x01#8 tag payload = badFormat port .ping tag :=
      (serveFrame_code port .ping tag payload).trans (serveRequest_badFormat wrong port tag)
    rw [refused]
    exact takeRequest_badFormat takes.room rfl

/-! ### What the data say (R100, R121, R127) -/

theorem routeStatus_eq (s : State) (p : Pos) : s.routeStatus p
    = if (s.seq p).state ≠ .idle then .changing else if (s.seq p).current.antenna = none then .none else .active := by
  unfold State.routeStatus
  cases (s.seq p).state with
  | idle => cases (s.seq p).current.antenna <;> rfl
  | _ => rfl

theorem routeAntenna_eq (s : State) (p : Pos) : s.routeAntenna p
    = if (s.seq p).state = .idle then (s.seq p).current.antenna else (s.seq p).target.antenna := by
  unfold State.routeAntenna
  cases (s.seq p).state <;> rfl

theorem granted_iff (s : State) (p : Pos) : s.granted p = true ↔ (s.key p).state = .opening ∨ (s.key p).state = .on ∨ (s.key p).state = .hang := by
  unfold State.granted
  cases (s.key p).state <;> simp [KeyState.granted]

theorem countOnBand_eq (s : State) (l : List Pos) (b : Band) :
    s.countOnBand l b = (l.filter fun q => (s.key q).grant.any fun g => g.band == b).length := by
  have holds : (fun q => s.grantBand q == some b) = fun q => (s.key q).grant.any fun g => g.band == b := funext fun q => by
    unfold State.grantBand
    cases (s.key q).grant <;> rfl
  rw [State.countOnBand, holds]

/-! ### QUERY (R183) -/

/-- No condition reads a peak (R167 to R169). -/
theorem followAux_resetPeak (s : State) (port : Port) (f : Link → Link) (reset : Option Ant) :
    followAux s ((s.onLink port f).resetPeak reset) = (s.onLink port f).resetPeak reset := by
  cases reset with
  | none => exact followAux_link s port f
  | some a =>
    refine followAux_same (condition_same rfl (fun _ => rfl) (fun _ => ⟨rfl, Iff.rfl⟩) (fun _ => rfl) (fun x => ?_) rfl (fun _ => ⟨rfl, rfl⟩) rfl)
    by_cases same : x = a <;> simp [State.resetPeak, onAnt_at, same]

/-- QUERY at its block, for a subject whose data it reads: the answer, then the peak reset. -/
theorem exec_query {port : Port} {s : State} (tag : Byte) {subject index reset : Byte} {data : AnswerData} {peak : Option Ant} (takes : s.Takes port)
    (may : mayQuery port reset = true) (read : s.queryData subject index reset = some (data, peak)) :
    exec (.query port tag subject index reset) s = .next ((s.answerRaw port 0x02#8 tag .done data).resetPeak peak) := by
  have served : serveQuery port tag subject index reset s = (s.answerRaw port 0x02#8 tag .done data).resetPeak peak := by
    refine (takeRequest_served takes.room rfl may).trans ?_
    rw [read]
    rfl
  have done : exec (.query port tag subject index reset) s = .next (followAux s (serveQuery port tag subject index reset s)) :=
    event_running takes.running
  rw [done, served, answerRaw_eq, followAux_resetPeak]

theorem mayQuery_zero (port : Port) : mayQuery port 0#8 = true := Bool.or_true _

theorem queryData_position (s : State) (p : Pos) : s.queryData 1#8 (posByte p) 0#8 = some (.position (s.positionView p), none) := by
  change (posOf (posByte p)).map _ = _
  rw [posOf_posByte]
  rfl

theorem queryData_antenna (s : State) (a : Ant) (reset : Bool) :
    s.queryData 2#8 (antByte a) (flagByte reset) = some (.antenna (s.antennaView a), if reset then some a else none) := by
  have subject : subjectOf 2#8 = some .antenna := rfl
  rw [State.queryData, subject, yesNoOf_flagByte, antOf_antByte]
  rfl

theorem queryData_station (s : State) : s.queryData 3#8 0#8 0#8 = some (.station s.stationView, none) := rfl

/-- Settles O17: each subject's data are read where the statement reads them, and the reset comes after the answer. -/
theorem queryAnswers : Obligations.QueryAnswers := by
  refine ⟨fun s p => ⟨routeStatus_eq s p, routeAntenna_eq s p, granted_iff s p, countOnBand_eq s, fun a one => ⟨owned_owner, owned_spec one⟩⟩,
    fun port tag s takes => ⟨fun p => ?_, fun a => ⟨?_, fun supervisor => ?_⟩, ?_⟩⟩
  · exact exec_query tag takes (mayQuery_zero port) (queryData_position s p)
  · exact exec_query tag takes (mayQuery_zero port) (queryData_antenna s a false)
  · subst supervisor
    exact exec_query tag takes rfl (queryData_antenna s a true)
  · exact exec_query tag takes (mayQuery_zero port) (queryData_station s)

end Sys2Proof.Machine
end

