-- ==== Sys2Proof/Proofs/Stops.lean ====
section
/-! The stop of the part by RESET low and by the loss of the supply, and the relays of a part that runs and of one that does not (R101, R154, R192, R193). -/

namespace Sys2Proof.Machine

/-! ### The relays and the lines (R101, R154, R193) -/

theorem matrixRelayClosed_running {s : State} (running : s.running = true) (p : Pos) (a : Ant) :
    s.matrixRelayClosed p a = true ↔ (s.ant a).connected = some p := by
  rw [State.matrixRelayClosed, running, Bool.true_and, beq_iff_eq]

theorem matrixRelayClosed_stopped {s : State} (stopped : s.running = false) (p : Pos) (a : Ant) : s.matrixRelayClosed p a = false := by
  rw [State.matrixRelayClosed, stopped, Bool.false_and]

theorem filterRelay_running {s : State} (running : s.running = true) (p : Pos) : s.filterRelay p = (s.seq p).setFilter := if_pos running

theorem filterRelay_stopped {s : State} (stopped : s.running = false) (p : Pos) : s.filterRelay p = none := by
  rw [State.filterRelay, stopped]
  rfl

theorem tapRelayClosed_running {s : State} (running : s.running = true) (a : Ant) (second : Bool) :
    s.tapRelayClosed a second = if second then (s.tap a).closed2 else (s.tap a).closed1 := by
  rw [State.tapRelayClosed, running, Bool.true_and]

theorem tapRelayClosed_stopped {s : State} (stopped : s.running = false) (a : Ant) (second : Bool) : s.tapRelayClosed a second = false := by
  rw [State.tapRelayClosed, stopped, Bool.false_and]

theorem wire_stopped {s : State} (stopped : s.running = false) (port : Port) : s.wire port = [] := by
  rw [State.wire, stopped]
  rfl

/-! ### The store of a stopped part (R192) -/

theorem stopPart_image (s : State) : s.stopPart.store.image = if s.store.saving.isSome then none else s.store.image := by
  unfold State.stopPart
  cases s.store.saving <;> rfl

theorem stopPart_saving (s : State) : s.stopPart.store.saving = none := by
  cases saving : s.store.saving <;> simp [State.stopPart, saving]

/-! ### The stop (R193) -/

/-- A part whose supply or RESET no longer lets it run is stopped once its outputs are off and its save is ended. -/
theorem stopPart_stopped {s : State} (stopped : s.running = false) : Stopped s s.stopPart where
  running := stopped
  txen p := replicate_get _ p
  aux l := replicate_get _ l
  relays p a second := ⟨matrixRelayClosed_stopped stopped p a, filterRelay_stopped stopped p, tapRelayClosed_stopped stopped a second⟩
  wire := wire_stopped stopped
  image := stopPart_image s
  saving := stopPart_saving s
  inside := rfl

/-- A stop takes nothing from the supply and RESET of the state before. -/
theorem Stopped.supplied {s t : State} {powered low : Bool} (h : Stopped { s with powered := powered, resetIsLow := low } t) : Stopped s t :=
  { h with }

/-- Settles O59: the pin that moves ends the run, and a part that does not run has its relays open and its lines silent. -/
theorem partStops : Obligations.PartStops := by
  intro s
  refine ⟨fun powered high => ?_, fun unpowered high => ?_, fun low => ?_, fun powered => ?_, fun unpowered => ?_, fun running p a => ?_⟩
  · refine ⟨(s.setReset true).stopPart, ?_, (stopPart_stopped (running_low rfl)).supplied, rfl, powered⟩
    simp [exec_resetLow, high, State.pullReset, powered]
  · simp [exec_resetLow, high, State.pullReset, unpowered, State.setReset]
  · simp [exec_resetLow, low]
  · refine ⟨(s.setPowered false).stopPart, ?_, (stopPart_stopped (running_unpowered rfl)).supplied, rfl, rfl⟩
    simp [exec_powerLost, powered]
  · simp [exec_powerLost, unpowered]
  · exact ⟨matrixRelayClosed_running running p a, filterRelay_running running p, tapRelayClosed_running running a false,
      tapRelayClosed_running running a true⟩

end Sys2Proof.Machine
end

