-- ==== Sys2Proof/Proofs/Completion.lean ====
section
/-! Every command answers a next state and leaves the commands that wait behind it where they are, and a step runs the command at the front (00_scope.md). -/

namespace Sys2Proof.Machine

/-! ### The command at the front -/

/-- A step takes the front command off the queue and runs it. -/
theorem step_front {s : State} {c : Instr} {rest : List Instr} (front : s.pending = c :: rest) : step s = exec c (s.withPending rest) := by
  simp only [step, front]

/-- Settles O1: the queue's rest is what stands behind the command that is put in front. -/
theorem stepRunsFront : Obligations.StepRunsFront := by
  unfold Obligations.StepRunsFront
  exact ⟨fun c s => step_front (s := s.withFront c) rfl, fun c rest s front => step_front front⟩

/-! ### Every command completes -/

/-- No meaning ends in a fault or a refusal: each is an event, or moves the supply or RESET. -/
theorem exec_next (c : Instr) (s : State) : ∃ t, exec c s = .next t := by
  cases c <;> exact ⟨_, rfl⟩

/-- A start-up writes every block anew, and the queue of waiting commands is none of them (R195). -/
theorem startUp_pending (cause : StartCause) (s : State) : (s.startUp cause).pending = s.pending := by
  obtain ⟨A, values, -⟩ := startUp_spec cause s
  rw [values]
  rfl

/-- Whatever the part does once the pins have moved, the commands that wait stay. -/
theorem PartActs.pending {u t : State} (acts : PartActs u t) : t.pending = u.pending := by
  cases acts with
  | nothing same => rw [same]
  | event happens => exact happens.pending
  | startUp cause started => rw [started, startUp_pending]
  | stops stopped => rw [stopped]; rfl

theorem powerUp_pending (s : State) : s.powerUp.pending = s.pending := by
  unfold State.powerUp
  split
  · rfl
  · exact startUp_pending .power (s.setPowered true)

theorem pullReset_pending (s : State) : s.pullReset.pending = s.pending := by
  unfold State.pullReset
  split <;> rfl

theorem letReset_pending (s : State) : s.letReset.pending = s.pending := by
  unfold State.letReset
  split
  · exact startUp_pending .line (s.setReset false)
  · rfl

/-- The supply and RESET start the part or stop it, three commands move input pins before the part acts, and every other command is an event. -/
theorem exec_pending (c : Instr) (s t : State) (h : exec c s = .next t) : t.pending = s.pending := by
  cases c
  case powerOn =>
    cases h
    split
    · rfl
    · exact powerUp_pending s
  case resetLow =>
    cases h
    split
    · rfl
    · exact pullReset_pending s
  case resetRelease =>
    cases h
    split
    · exact letReset_pending s
    · rfl
  case powerLost =>
    cases h
    split <;> rfl
  case bandLinesChange p v =>
    exact (event_partActs (u := s.setLines p v) (f := fun u => u.sampleLines p) (sampleLines_keeps _ p).serves.acts h).pending
  case pttInputChange p b =>
    exact (event_partActs (u := s.setPtt p b) (f := fun u => u.samplePtt p) (samplePtt_keeps _ p).serves.acts h).pending
  case couplerSample a x y =>
    exact (event_partActs (u := s.setCoupler a (x, y)) (f := fun u => u.samplePort a) (samplePort_serves _ a).acts h).pending
  all_goals
    cases running : s.running with
    | true => exact (exec_event _ s t running h (by simp) (by simp) (by simp) (by simp)).pending
    | false => rw [exec_stopped _ s t running h (by simp) (by simp) (by simp) (by simp)]

/-- Settles O3: every meaning is a next state, and none of them writes the queue. -/
theorem everyCommandCompletes : Obligations.EveryCommandCompletes := by
  intro c s
  obtain ⟨t, answers⟩ := exec_next c s
  exact ⟨t, answers, exec_pending c s t answers⟩

end Sys2Proof.Machine
end

