-- ==== Sys2Proof/Proofs/RecordBytes.lean ====
section
/-! The bytes of answers and reports: the frame that CHECK closes, the layout of each payload with its length, and the numbers and codes in its fields (R197, R198). -/

namespace Sys2Proof.Machine

/-! ### Numbers (R197) -/

theorem byteOf_toNat (n : Nat) : (byteOf n).toNat = n % 256 := BitVec.toNat_ofNat n 8

theorem twoBytes_reads {n : Nat} (bound : n < 65536) :
    ∃ lo hi : Byte, twoBytes n = [lo, hi] ∧ lo.toNat + 256 * hi.toNat = n := by
  refine ⟨byteOf n, byteOf (n / 256), rfl, ?_⟩
  rw [byteOf_toNat, byteOf_toNat]
  omega

theorem fourBytes_reads (c : Count) : ∃ b0 b1 b2 b3 : Byte, fourBytes c = [b0, b1, b2, b3]
    ∧ b0.toNat + 256 * b1.toNat + 65536 * b2.toNat + 16777216 * b3.toNat = c.toNat := by
  refine ⟨_, _, _, _, rfl, ?_⟩
  have bound : c.toNat < 4294967296 := c.isLt
  simp only [BitVec.extractLsb'_toNat, Nat.shiftRight_eq_div_pow]
  omega

@[simp] theorem twoBytes_length (n : Nat) : (twoBytes n).length = 2 := rfl

@[simp] theorem fourBytes_length (c : Count) : (fourBytes c).length = 4 := rfl

/-! ### Frames (R185, R187, R198) -/

theorem byteSum_append (l m : List Byte) : byteSum (l ++ m) = byteSum l + byteSum m := List.sum_append

/-- The CHECK of a frame makes the bytes from LEN on sum to 0 (R198). -/
theorem byteSum_closed (l : List Byte) : byteSum (l ++ [0#8 - byteSum l]) = 0#8 := by
  have check : byteSum [0#8 - byteSum l] = 0#8 - byteSum l := BitVec.add_zero _
  rw [byteSum_append, check, BitVec.zero_sub, BitVec.add_right_neg]

/-- A frame is the start byte, LEN, TYPE, TAG, the payload and a CHECK that closes it. -/
theorem frameOf_closed (type tag : Byte) (payload : List Byte) : ∃ check,
    frameOf type tag payload = [0xD2#8, byteOf (payload.length + 2), type, tag] ++ payload ++ [check]
      ∧ byteSum ([byteOf (payload.length + 2), type, tag] ++ payload ++ [check]) = 0#8 :=
  ⟨_, rfl, byteSum_closed (frameBody type tag payload)⟩

theorem answer_frame (a : Answer) (lost : Bool) : ∃ check, Transmission.frame { record := .answer a, lost := lost }
      = [0xD2#8, byteOf (a.data.bytes.length + 3), a.type, a.tag, a.result.code] ++ a.data.bytes ++ [check]
    ∧ byteSum ([byteOf (a.data.bytes.length + 3), a.type, a.tag, a.result.code] ++ a.data.bytes ++ [check]) = 0#8 :=
  frameOf_closed a.type a.tag a.payload

theorem report_frame (r : Report) (lost : Bool) : ∃ check, Transmission.frame { record := .report r, lost := lost }
      = [0xD2#8, byteOf (r.body.fields.length + 7), r.body.type, 0#8, flagByte lost] ++ r.body.fields ++ fourBytes r.time ++ [check]
    ∧ byteSum ([byteOf (r.body.fields.length + 7), r.body.type, 0#8, flagByte lost] ++ r.body.fields ++ fourBytes r.time ++ [check]) = 0#8 := by
  have closed := frameOf_closed r.body.type 0#8 (r.payload lost)
  have length : (r.payload lost).length + 2 = r.body.fields.length + 7 := by simp [Report.payload]
  rw [length] at closed
  simpa [Report.payload, Transmission.frame] using closed

/-- The line of a running part carries the frame of the record being sent (R185). -/
theorem wire_sending {s : State} {port : Port} {t : Transmission} (running : s.running = true) (sending : (s.link port).transmitter = some t) :
    s.wire port = t.frame := by
  simp only [State.wire, running, sending, if_true]

/-! ### The data of answers -/

theorem padded_map {α : Type} (n : Nat) (f : α → Byte) (l : List α) : padded n (l.map f) = l.map f ++ List.replicate (n - l.length) 0#8 := by
  rw [padded, List.length_map]

/-- A list that fits its field fills it (R198). -/
theorem padded_length {n : Nat} {l : List Byte} (fits : l.length ≤ n) : (padded n l).length = n := by
  rw [padded, List.length_append, List.length_replicate]
  omega

theorem stationView_bytes (v : StationView) : v.bytes
    = [flagByte v.hold] ++ v.limits.map byteOf ++ [byteOf v.total, v.order.code, flagByte v.preempt] ++ v.granted.map byteOf
        ++ [byteOf v.waiting.length] ++ v.waiting.map posByte ++ List.replicate (6 - v.waiting.length) 0#8 ++ [posByte v.pointer] ++ fourBytes v.time := by
  simp only [StationView.bytes, padded_map, List.append_assoc]

theorem stationView_length {v : StationView} (limits : v.limits.length = 6) (granted : v.granted.length = 6) (waiting : v.waiting.length ≤ 6) :
    v.bytes.length = 28 := by
  have field : (padded 6 (v.waiting.map posByte)).length = 6 := padded_length (by rwa [List.length_map])
  simp [StationView.bytes, field, limits, granted]

theorem tripBytes_length (t : Option TripRecord) : (tripBytes t).length = 10 := by
  cases t <;> rfl

theorem queueBytes_eq (queue : List (Pos × Origin)) : queueBytes queue
    = [byteOf queue.length] ++ (queue.map fun c => posByte c.1) ++ List.replicate (5 - queue.length) 0#8
        ++ (queue.map fun c => c.2.code) ++ List.replicate (5 - queue.length) 0#8 := by
  simp only [queueBytes, padded_map, List.append_assoc]

theorem queueBytes_length {queue : List (Pos × Origin)} (fits : queue.length ≤ 5) : (queueBytes queue).length = 11 := by
  have positions : (padded 5 (queue.map fun c => posByte c.1)).length = 5 := padded_length (by rwa [List.length_map])
  have origins : (padded 5 (queue.map fun c => c.2.code)).length = 5 := padded_length (by rwa [List.length_map])
  simp [queueBytes, positions, origins]

theorem antennaView_bytes (v : AntennaView) : v.bytes
    = [v.config.bandMask] ++ twoBytes v.config.maxPower ++ [byteOf v.config.swrLimit] ++ twoBytes v.config.kf
        ++ [byteOf v.config.c, byteOf v.config.zf, byteOf v.config.zr, byteOf v.config.settle, v.config.configured.service.code]
        ++ [v.record.service.code, posOrZero v.record.owner, posOrZero v.record.connected, byteOf v.queue.length]
        ++ (v.queue.map fun c => posByte c.1) ++ List.replicate (5 - v.queue.length) 0#8
        ++ (v.queue.map fun c => c.2.code) ++ List.replicate (5 - v.queue.length) 0#8
        ++ v.listeners.map posByte ++ List.replicate (2 - v.listeners.length) 0#8
        ++ twoBytes v.record.pf ++ twoBytes v.record.pr ++ twoBytes v.record.swr ++ twoBytes v.record.peak ++ [flagByte v.record.presence]
        ++ tripBytes v.record.trip := by
  simp [AntennaView.bytes, AntennaConfig.bytes, Configured.code, AntennaRecord.readingBytes, queueBytes_eq, padded_map]

theorem antennaView_length {v : AntennaView} (queue : v.queue.length ≤ 5) (listeners : v.listeners.length ≤ 2) : v.bytes.length = 46 := by
  have config : v.config.bytes.length = 11 := rfl
  have taps : (padded 2 (v.listeners.map posByte)).length = 2 := padded_length (by rwa [List.length_map])
  have readings : v.record.readingBytes.length = 9 := rfl
  simp [AntennaView.bytes, config, queueBytes_length queue, taps, readings, tripBytes_length]

/-- Settles O18: every frame is closed by its CHECK, a padded list fills its field, a number's bytes read back as the number, and the tables of codes are finite. -/
theorem recordsLaidOut : Obligations.RecordsLaidOut := by
  refine ⟨answer_frame, report_frame, fun s port t => wire_sending, fun s port q tag r => rfl, rfl, fun v => rfl,
    fun v limits granted waiting => ⟨stationView_bytes v, stationView_length limits granted waiting⟩,
    fun v queue listeners => ⟨antennaView_bytes v, antennaView_length queue listeners⟩, fun body => ?_, fun n => twoBytes_reads, fourBytes_reads, ?_⟩
  · cases body with
    | claim event a p origin => cases event <;> rfl
    | _ => rfl
  · decide

end Sys2Proof.Machine
end
